-- ==== Sys2Proof/Word.lean ====
section
/-! DEFINITION. The word types of the machine: what the spec treats as bits (rules R8, R13, R14). -/

namespace Sys2Proof

/-- A byte of guest memory. -/
abbrev Byte := BitVec 8

/-- A 16-bit word of the instruction stream. -/
abbrev Word16 := BitVec 16

/-- A 32-bit register value; every register value is an unsigned 32-bit number (R14). -/
abbrev Long := BitVec 32

/-- A guest virtual address, 32 bits; address arithmetic wraps modulo 2^32 (R18, R83). -/
abbrev Addr := BitVec 32

/-- The number of a data or address register as an encoding holds it, 0 to 7. -/
abbrev RegNo := BitVec 3

end Sys2Proof
end

