-- ==== Sys2Proof/Config.lean ====
section
/-! DEFINITION. What an implementation or a launch fixes: the launch parameters (R10, R650), the host
behind `TRAP #0` (R612, R613), the signal of `TRAP #1` to `TRAP #15` (R611), and the free values the
spec calls draws (93_implementation_defined.md section 1). A free value has no body: nothing can be
proved of it, so a claim holds whatever it is. The parameter `Supported` of R10 is fixed in
Decode.lean, beside the decoder that reads it. -/

namespace Sys2Proof

/-- The condition code register: the five bits of SR that are state (R45, R46). -/
structure Ccr where
  x : Bool
  n : Bool
  z : Bool
  v : Bool
  c : Bool
deriving DecidableEq, Repr, Inhabited

/-- What an access does, and the permission it needs: a fetch needs X, a read R, a write W (R84 to R86). -/
inductive Access where
  | fetch
  | read
  | write
deriving DecidableEq, Repr, Inhabited

/-- One region of the region map: `{base, length, perms}` with `perms ⊆ {R, W, X}` (R80). -/
structure Region where
  base : Nat
  length : Nat
  r : Bool
  w : Bool
  x : Bool
deriving DecidableEq, Repr, Inhabited

/-- `rs` is a region map whose bases start at `lo` or above: no region is empty, none leaves the 2^32
bytes of the address space, and they stand in rising order without overlap (R80: disjoint). -/
def Region.chain (lo : Nat) : List Region → Bool
  | [] => true
  | r :: rs => decide (lo ≤ r.base) && decide (0 < r.length) && decide (r.base + r.length ≤ 2 ^ 32) &&
      Region.chain (r.base + r.length) rs

/-- The canonical form of a region map. -/
def Region.mapWf (rs : List Region) : Bool := Region.chain 0 rs

/-- What the launch gives the core (R650): the parameters `entry_pc`, `init_sp`, `init_regs`,
`init_ccr`, `init_mem` and `init_regions` of R10. -/
structure Launch where
  entryPc : Addr
  initSp : Long
  /-- D0 to D7. -/
  initD : Vector Long 8
  /-- A0 to A6. -/
  initA : Vector Long 7
  initCcr : Ccr
  initMem : List Host.Cell
  initRegions : List Region
deriving DecidableEq, Repr

/-- DESIGN CHOICE (log entry 1): the launch that `State.reset` takes. The spec leaves every one of
these a parameter (D8); no statement rests on them. -/
def Config.launch : Launch where
  entryPc := 0
  initSp := 0
  initD := Vector.replicate 8 0
  initA := Vector.replicate 7 0
  initCcr := { x := false, n := false, z := false, v := false, c := false }
  initMem := []
  initRegions := []

/-- What the host sees of the core while a system call is pending: registers, CCR, PC, memory and
regions (R613). -/
structure HostView where
  d : Vector Long 8
  a : Vector Long 8
  ccr : Ccr
  pc : Addr
  mem : List Host.Cell
  regions : List Region
deriving DecidableEq, Repr

/-- The host's answer to a system call (R613). `resume` carries D0', the bytes the host writes, in
order, and the region map it leaves, which is a region map in canonical form. -/
inductive HostAnswer where
  | resume (d0 : Long) (writes : List (Addr × Byte)) (regions : List Region)
      (wf : Region.mapWf regions = true)
  | exit (code : Long)
deriving Inhabited

/-- The host signal a halt becomes (R611). `numbered` is any other signal `trap_signal` may name. -/
inductive Signal where
  | sigill
  | sigsegv
  | sigbus
  | sigfpe
  | numbered (n : Nat)
deriving DecidableEq, Repr, Inhabited

/-- FREE VALUE: the parameter `Syscall` (D5). The first argument counts the draws made so far, so two
calls that see the same state may be answered differently: `Syscall` is a relation. -/
opaque Config.syscall : Nat → HostView → HostAnswer

/-- FREE VALUE: whether the host's system call table holds a number. The table is not in the source
(N9); only the law for a number outside it is fixed (R613). -/
opaque Config.syscallSupported : Long → Bool

/-- FREE VALUE: the parameter `trap_signal`, from a vector number to a signal (D6, R611). -/
opaque Config.trapSignal : BitVec 8 → Signal

/-- FREE VALUE: the k-th draw of one undefined bit (D7). -/
opaque Config.drawBit : Nat → Bool

/-- FREE VALUE: the k-th draw of an undefined byte (D25: the result of BCD on an invalid digit). -/
opaque Config.drawByte : Nat → Byte

/-- FREE VALUE: the k-th draw of an undefined 32-bit register value (D22). -/
opaque Config.drawLong : Nat → Long

end Sys2Proof
end

