-- ==== Sys2Proof/Syntax.lean ====
section
/-! DEFINITION. The decoded instruction: operation, size and operand descriptors (R120), one constructor
of `Instr` for each row of spec/opcode_table.json. Register numbers and immediates are already pulled
out of the encoding; a byte or word immediate is held zero-extended. -/

namespace Sys2Proof

/-- Operation size (R15). -/
inductive Size where
  | b
  | w
  | l
deriving DecidableEq, Repr, Inhabited

/-- `R[k]` as an extension word names it: the D/A bit and the register number (R16). -/
inductive RegSel where
  | d (n : RegNo)
  | a (n : RegNo)
deriving DecidableEq, Repr, Inhabited

/-- The index register of an indexed mode: D/A and number, W/L, and the scale field (R207). -/
structure Index where
  reg : RegSel
  /-- W/L: the whole register, or its low word sign-extended. -/
  long : Bool
  /-- The factor is `2 ^ scale`. -/
  scale : BitVec 2
deriving DecidableEq, Repr, Inhabited

/-- A base or outer displacement of the full format: none, one word or two words (R208). -/
inductive Disp where
  | null
  | word (d : BitVec 16)
  | long (d : BitVec 32)
deriving DecidableEq, Repr, Inhabited

/-- The I/IS selection of the full format (R208). With the index suppressed, "memory indirect" is the
form `pre`: pre- and post-indexing coincide (R209). -/
inductive Indirection where
  | none
  | pre (od : Disp)
  | post (od : Disp)
deriving DecidableEq, Repr, Inhabited

/-- The extension word or words of an indexed mode: brief format (R207) or full format (R208), with
BS and IS (base and index suppressed), the base displacement and the memory indirection. -/
inductive IndexExt where
  | brief (x : Index) (d8 : BitVec 8)
  | full (x : Index) (bs : Bool) (is : Bool) (bd : Disp) (ind : Indirection)
deriving DecidableEq, Repr, Inhabited

/-- An operand descriptor over the twelve addressing modes (R124). -/
inductive EA where
  | dreg (n : RegNo)
  | areg (n : RegNo)
  | ind (n : RegNo)
  | postinc (n : RegNo)
  | predec (n : RegNo)
  | disp (n : RegNo) (d : BitVec 16)
  | index (n : RegNo) (x : IndexExt)
  | absW (a : BitVec 16)
  | absL (a : BitVec 32)
  | pcDisp (d : BitVec 16)
  | pcIndex (x : IndexExt)
  | imm (v : Long)
deriving DecidableEq, Repr, Inhabited

/-- An effective-address field of an opcode word whose extension words are not fetched: a privileged
instruction raises its exception before they are (R138). -/
structure EaField where
  mode : BitVec 3
  reg : RegNo
deriving DecidableEq, Repr, Inhabited

/-- The sixteen conditions, in the order of their encodings 0 to 15 (R480). -/
inductive Cond where
  | t | f | hi | ls | cc | cs | ne | eq | vc | vs | pl | mi | ge | lt | gt | le
deriving DecidableEq, Repr, Inhabited

/-- A branch displacement: in the opcode word, or one or two extension words (R130). -/
inductive BranchDisp where
  | byte (d : BitVec 8)
  | word (d : BitVec 16)
  | long (d : BitVec 32)
deriving DecidableEq, Repr, Inhabited

/-- The operand words of TRAPcc, which the core does not use (R131, R542). -/
inductive TrapccOperand where
  | none
  | word (w : BitVec 16)
  | long (l : BitVec 32)
deriving DecidableEq, Repr, Inhabited

/-- The count of a register shift: 1 to 8 from the instruction, or a data register (R330). -/
inductive ShiftCount where
  | imm (n : BitVec 4)
  | reg (n : RegNo)
deriving DecidableEq, Repr, Inhabited

/-- The offset of a bit field: 0 to 31, or a data register (R370). -/
inductive BfOffset where
  | imm (o : BitVec 5)
  | reg (n : RegNo)
deriving DecidableEq, Repr, Inhabited

/-- The width of a bit field: 1 to 31 with 0 meaning 32, or a data register (R370). -/
inductive BfWidth where
  | imm (w : BitVec 5)
  | reg (n : RegNo)
deriving DecidableEq, Repr, Inhabited

/-- The offset and width of a bit-field instruction (R370). -/
structure BfSpec where
  offset : BfOffset
  width : BfWidth
deriving DecidableEq, Repr, Inhabited

/-- A long multiply's product: 32 bits in Dl, or 64 bits in Dh:Dl (R132). -/
inductive Product where
  | narrow
  | wide (dh : RegNo)
deriving DecidableEq, Repr, Inhabited

/-- One operand of CAS2: the register that holds its address, Du and Dc (R132, R578). -/
structure Cas2Operand where
  rn : RegSel
  du : RegNo
  dc : RegNo
deriving DecidableEq, Repr, Inhabited

/-- The decoded instruction: one constructor per row of spec/opcode_table.json, in the table's order. -/
inductive Instr where
  -- logical and arithmetic immediates
  | ori (sz : Size) (imm : Long) (dst : EA)
  | oriToCcr (imm : BitVec 8)
  | oriToSr
  | andi (sz : Size) (imm : Long) (dst : EA)
  | andiToCcr (imm : BitVec 8)
  | andiToSr
  | eori (sz : Size) (imm : Long) (dst : EA)
  | eoriToCcr (imm : BitVec 8)
  | eoriToSr
  | subi (sz : Size) (imm : Long) (dst : EA)
  | addi (sz : Size) (imm : Long) (dst : EA)
  | cmpi (sz : Size) (imm : Long) (dst : EA)
  | cmp2 (sz : Size) (rn : RegSel) (src : EA)
  | chk2 (sz : Size) (rn : RegSel) (src : EA)
  | rtm (rn : RegSel)
  | callm (arg : BitVec 16) (src : EA)
  -- single-bit operations: static and dynamic bit number
  | btstImm (num : BitVec 8) (ea : EA)
  | btstReg (dn : RegNo) (ea : EA)
  | bchgImm (num : BitVec 8) (ea : EA)
  | bchgReg (dn : RegNo) (ea : EA)
  | bclrImm (num : BitVec 8) (ea : EA)
  | bclrReg (dn : RegNo) (ea : EA)
  | bsetImm (num : BitVec 8) (ea : EA)
  | bsetReg (dn : RegNo) (ea : EA)
  | movep (toMem : Bool) (sz : Size) (dx : RegNo) (ay : RegNo) (disp : BitVec 16)
  | moves (sz : Size) (ea : EaField)
  | casB (dc : RegNo) (du : RegNo) (dst : EA)
  | casW (dc : RegNo) (du : RegNo) (dst : EA)
  | casL (dc : RegNo) (du : RegNo) (dst : EA)
  | cas2W (op1 : Cas2Operand) (op2 : Cas2Operand)
  | cas2L (op1 : Cas2Operand) (op2 : Cas2Operand)
  -- moves
  | moveB (src : EA) (dst : EA)
  | moveW (src : EA) (dst : EA)
  | moveL (src : EA) (dst : EA)
  | moveaW (src : EA) (an : RegNo)
  | moveaL (src : EA) (an : RegNo)
  -- line 4
  | negx (sz : Size) (dst : EA)
  | clr (sz : Size) (dst : EA)
  | neg (sz : Size) (dst : EA)
  | notEa (sz : Size) (dst : EA)
  | moveFromSr (ea : EaField)
  | moveFromCcr (dst : EA)
  | moveToCcr (src : EA)
  | moveToSr (ea : EaField)
  | chkW (src : EA) (dn : RegNo)
  | chkL (src : EA) (dn : RegNo)
  | lea (src : EA) (an : RegNo)
  | nbcd (dst : EA)
  | linkL (an : RegNo) (disp : BitVec 32)
  | swap (dn : RegNo)
  | bkpt (num : BitVec 3)
  | pea (src : EA)
  | extW (dn : RegNo)
  | extL (dn : RegNo)
  | extbL (dn : RegNo)
  | movemToMem (sz : Size) (mask : BitVec 16) (dst : EA)
  | movemToReg (sz : Size) (mask : BitVec 16) (src : EA)
  | tst (sz : Size) (src : EA)
  | tas (dst : EA)
  | illegal
  | muluL (dl : RegNo) (form : Product) (src : EA)
  | mulsL (dl : RegNo) (form : Product) (src : EA)
  | divuL (dq : RegNo) (wide : Bool) (dr : RegNo) (src : EA)
  | divsL (dq : RegNo) (wide : Bool) (dr : RegNo) (src : EA)
  | trap (vector : BitVec 4)
  | linkW (an : RegNo) (disp : BitVec 16)
  | unlk (an : RegNo)
  | moveToUsp (an : RegNo)
  | moveFromUsp (an : RegNo)
  | reset
  | nop
  | stop
  | rte
  | rtd (disp : BitVec 16)
  | rts
  | trapv
  | rtr
  | movec (toControl : Bool)
  | jsr (src : EA)
  | jmp (src : EA)
  -- line 5: quick and conditional
  | addq (sz : Size) (data : BitVec 4) (dst : EA)
  | subq (sz : Size) (data : BitVec 4) (dst : EA)
  | scc (c : Cond) (dst : EA)
  | dbcc (c : Cond) (dn : RegNo) (disp : BitVec 16)
  | trapcc (c : Cond) (operand : TrapccOperand)
  -- branches
  | bra (disp : BranchDisp)
  | bsr (disp : BranchDisp)
  | bcc (c : Cond) (disp : BranchDisp)
  | moveq (imm : Long) (dn : RegNo)
  -- lines 8 to D
  | orToReg (sz : Size) (src : EA) (dn : RegNo)
  | orToEa (sz : Size) (dn : RegNo) (dst : EA)
  | sbcd (mem : Bool) (x : RegNo) (y : RegNo)
  | andToReg (sz : Size) (src : EA) (dn : RegNo)
  | andToEa (sz : Size) (dn : RegNo) (dst : EA)
  | abcd (mem : Bool) (x : RegNo) (y : RegNo)
  | divuW (src : EA) (dn : RegNo)
  | divsW (src : EA) (dn : RegNo)
  | pack (mem : Bool) (x : RegNo) (y : RegNo) (adj : BitVec 16)
  | unpk (mem : Bool) (x : RegNo) (y : RegNo) (adj : BitVec 16)
  | muluW (src : EA) (dn : RegNo)
  | mulsW (src : EA) (dn : RegNo)
  | exgDD (x : RegNo) (y : RegNo)
  | exgAA (x : RegNo) (y : RegNo)
  | exgDA (x : RegNo) (y : RegNo)
  | subToReg (sz : Size) (src : EA) (dn : RegNo)
  | subToEa (sz : Size) (dn : RegNo) (dst : EA)
  | subaW (src : EA) (an : RegNo)
  | subaL (src : EA) (an : RegNo)
  | subx (sz : Size) (mem : Bool) (x : RegNo) (y : RegNo)
  | addToReg (sz : Size) (src : EA) (dn : RegNo)
  | addToEa (sz : Size) (dn : RegNo) (dst : EA)
  | addaW (src : EA) (an : RegNo)
  | addaL (src : EA) (an : RegNo)
  | addx (sz : Size) (mem : Bool) (x : RegNo) (y : RegNo)
  | cmp (sz : Size) (src : EA) (dn : RegNo)
  | cmpaW (src : EA) (an : RegNo)
  | cmpaL (src : EA) (an : RegNo)
  | eor (sz : Size) (dn : RegNo) (dst : EA)
  | cmpm (sz : Size) (x : RegNo) (y : RegNo)
  -- line E: shifts, rotates and bit fields
  | asrReg (sz : Size) (count : ShiftCount) (dy : RegNo)
  | asrMem (dst : EA)
  | aslReg (sz : Size) (count : ShiftCount) (dy : RegNo)
  | aslMem (dst : EA)
  | lsrReg (sz : Size) (count : ShiftCount) (dy : RegNo)
  | lsrMem (dst : EA)
  | lslReg (sz : Size) (count : ShiftCount) (dy : RegNo)
  | lslMem (dst : EA)
  | roxrReg (sz : Size) (count : ShiftCount) (dy : RegNo)
  | roxrMem (dst : EA)
  | roxlReg (sz : Size) (count : ShiftCount) (dy : RegNo)
  | roxlMem (dst : EA)
  | rorReg (sz : Size) (count : ShiftCount) (dy : RegNo)
  | rorMem (dst : EA)
  | rolReg (sz : Size) (count : ShiftCount) (dy : RegNo)
  | rolMem (dst : EA)
  | bftst (bf : BfSpec) (ea : EA)
  | bfextu (bf : BfSpec) (ea : EA) (dn : RegNo)
  | bfchg (bf : BfSpec) (ea : EA)
  | bfexts (bf : BfSpec) (ea : EA) (dn : RegNo)
  | bfclr (bf : BfSpec) (ea : EA)
  | bfffo (bf : BfSpec) (ea : EA) (dn : RegNo)
  | bfset (bf : BfSpec) (ea : EA)
  | bfins (bf : BfSpec) (dn : RegNo) (ea : EA)
  -- words that are no instruction of this core (R139)
  | lineA (bits : BitVec 12)
  | lineF (bits : BitVec 12)
deriving DecidableEq, Repr, Inhabited

end Sys2Proof
end

