-- ==== Sys2Proof/Machine/Modes.lean ====
section
/-! DEFINITION. The twelve addressing modes and the classes of them an instruction admits (R124, R125),
and the sizes in bytes and bits (R15): what the decoder and the well-formedness check share. -/

namespace Sys2Proof

/-- The twelve addressing modes (R124). -/
inductive EaMode where
  | dn | an | ind | postinc | predec | disp | index | absW | absL | pcDisp | pcIndex | imm
deriving DecidableEq, Repr, Inhabited

/-- The effective-address classes of R125. -/
inductive EaClass where
  | all | data | mem | ctl | alt | dalt | malt | calt | dataNoImm | caltPredec | ctlPostinc | dnCtl | dnCalt
deriving DecidableEq, Repr, Inhabited

/-- The mode an effective-address field of six bits spells: mode bits, register bits (R124). Mode 111 with
register 101, 110 or 111 spells none. -/
def EaMode.ofBits (mode reg : BitVec 3) : Option EaMode :=
  if mode = 0b000 then some .dn
  else if mode = 0b001 then some .an
  else if mode = 0b010 then some .ind
  else if mode = 0b011 then some .postinc
  else if mode = 0b100 then some .predec
  else if mode = 0b101 then some .disp
  else if mode = 0b110 then some .index
  else if reg = 0b000 then some .absW
  else if reg = 0b001 then some .absL
  else if reg = 0b010 then some .pcDisp
  else if reg = 0b011 then some .pcIndex
  else if reg = 0b100 then some .imm
  else none

/-- The mode of an operand descriptor. -/
def EA.mode : EA → EaMode
  | .dreg _ => .dn
  | .areg _ => .an
  | .ind _ => .ind
  | .postinc _ => .postinc
  | .predec _ => .predec
  | .disp _ _ => .disp
  | .index _ _ => .index
  | .absW _ => .absW
  | .absL _ => .absL
  | .pcDisp _ => .pcDisp
  | .pcIndex _ => .pcIndex
  | .imm _ => .imm

/-- CTL: the control modes (R125). -/
def EaMode.isCtl : EaMode → Bool
  | .ind | .disp | .index | .absW | .absL | .pcDisp | .pcIndex => true
  | .dn | .an | .postinc | .predec | .imm => false

/-- ALT: the alterable modes, every mode but the PC-relative ones and #imm (R125). -/
def EaMode.isAlt : EaMode → Bool
  | .dn | .an | .ind | .postinc | .predec | .disp | .index | .absW | .absL => true
  | .pcDisp | .pcIndex | .imm => false

/-- Which modes a class admits (the table of R125). -/
def EaClass.admits : EaClass → EaMode → Bool
  | .all, _ => true
  | .data, m => m != .an
  | .mem, m => m != .dn && m != .an
  | .ctl, m => m.isCtl
  | .alt, m => m.isAlt
  | .dalt, m => m.isAlt && m != .an
  | .malt, m => m.isAlt && m != .an && m != .dn
  | .calt, m => m.isCtl && m.isAlt
  | .dataNoImm, m => m != .an && m != .imm
  | .caltPredec, m => (m.isCtl && m.isAlt) || m == .predec
  | .ctlPostinc, m => m.isCtl || m == .postinc
  | .dnCtl, m => m == .dn || m.isCtl
  | .dnCalt, m => m == .dn || (m.isCtl && m.isAlt)

/-- `bytes(s)` (R15). -/
def Size.bytes : Size → Nat
  | .b => 1
  | .w => 2
  | .l => 4

/-- `bits(s)` (R15). -/
def Size.bits (sz : Size) : Nat := 8 * sz.bytes

/-- `trunc_bits(s)(v)`, held in 32 bits (R14). -/
def Size.trunc : Size → Long → Long
  | .b, v => (v.setWidth 8).setWidth 32
  | .w, v => (v.setWidth 16).setWidth 32
  | .l, v => v

/-- `sext_bits(s)(v)` cut to 32 bits (R14). -/
def Size.sext : Size → Long → Long
  | .b, v => (v.setWidth 8).signExtend 32
  | .w, v => (v.setWidth 16).signExtend 32
  | .l, v => v

/-- `signed_bits(s)(v)`: the value as an unbounded two's complement integer (R14). -/
def Size.toInt (sz : Size) (v : Long) : Int := (sz.sext v).toInt

/-- `msb_s(v)` (R15). -/
def Size.msb (sz : Size) (v : Long) : Bool := v.getLsbD (sz.bits - 1)

end Sys2Proof
end

