-- ==== Sys2Proof/WellFormed.lean ====
section
/-! DEFINITION. Which terms of `Instr` are instructions the decoder can answer: the operand classes of R125
and R136, the sizes of R126, the ranges of the quick and immediate data (R128 to R132) and the form of the
full-format words (R208). -/

namespace Sys2Proof

/-- An immediate of size `sz` is held zero-extended (R128). -/
def immWf (sz : Size) (v : Long) : Bool := sz.trunc v == v

/-- With the index suppressed there is no post-indexing (R208: I/IS 100 to 111 reserved). -/
def IndexExt.wf : IndexExt → Bool
  | .brief _ _ => true
  | .full _ _ is _ ind =>
    match ind with
    | .none | .pre _ => true
    | .post _ => !is

/-- The operand is of the class, its own words are in form, and An is not a byte operand (R43, R125). -/
def EA.wf (sz : Size) (cls : EaClass) (ea : EA) : Bool :=
  cls.admits ea.mode &&
  match ea with
  | .areg _ => sz != .b
  | .index _ x | .pcIndex x => x.wf
  | .imm v => immWf sz v
  | .dreg _ | .ind _ | .postinc _ | .predec _ | .disp _ _ | .absW _ | .absL _ | .pcDisp _ => true

/-- An effective-address field spells a mode of the class (R125). -/
def EaField.wf (cls : EaClass) (f : EaField) : Bool :=
  match EaMode.ofBits f.mode f.reg with
  | some m => cls.admits m
  | none => false

/-- The 8-bit form cannot encode displacements 0 and -1: they select the longer forms (R130). -/
def BranchDisp.wf : BranchDisp → Bool
  | .byte d => d != 0 && d != 0xFF
  | .word _ | .long _ => true

/-- Quick data and immediate shift counts are 1 to 8 (R129). -/
def quickWf (n : BitVec 4) : Bool := decide (1 ≤ n.toNat) && decide (n.toNat ≤ 8)

def ShiftCount.wf : ShiftCount → Bool
  | .imm n => quickWf n
  | .reg _ => true

/-- Well-formedness of an instruction. -/
def Instr.wf : Instr → Bool
  | .ori sz imm dst | .andi sz imm dst | .eori sz imm dst | .subi sz imm dst | .addi sz imm dst =>
    immWf sz imm && dst.wf sz .dalt
  | .cmpi sz imm dst => immWf sz imm && dst.wf sz .dataNoImm
  | .oriToCcr _ | .andiToCcr _ | .eoriToCcr _ | .oriToSr | .andiToSr | .eoriToSr => true
  | .cmp2 sz _ src | .chk2 sz _ src => src.wf sz .ctl
  | .rtm _ => true
  | .callm _ src => src.wf .l .ctl
  | .btstImm _ ea => ea.wf .b .dataNoImm
  | .btstReg _ ea => ea.wf .b .data
  | .bchgImm _ ea | .bchgReg _ ea | .bclrImm _ ea | .bclrReg _ ea | .bsetImm _ ea | .bsetReg _ ea =>
    ea.wf .b .dalt
  | .movep _ sz _ _ _ => sz != .b
  | .moves _ f => f.wf .malt
  | .casB _ _ dst => dst.wf .b .malt
  | .casW _ _ dst => dst.wf .w .malt
  | .casL _ _ dst => dst.wf .l .malt
  | .cas2W _ _ | .cas2L _ _ => true
  | .moveB src dst => src.wf .b .data && dst.wf .b .dalt
  | .moveW src dst => src.wf .w .all && dst.wf .w .dalt
  | .moveL src dst => src.wf .l .all && dst.wf .l .dalt
  | .moveaW src _ => src.wf .w .all
  | .moveaL src _ => src.wf .l .all
  | .negx sz dst | .clr sz dst | .neg sz dst | .notEa sz dst => dst.wf sz .dalt
  | .moveFromSr f => f.wf .dalt
  | .moveFromCcr dst => dst.wf .w .dalt
  | .moveToCcr src => src.wf .w .data
  | .moveToSr f => f.wf .data
  | .chkW src _ => src.wf .w .data
  | .chkL src _ => src.wf .l .data
  | .lea src _ | .pea src | .jsr src | .jmp src => src.wf .l .ctl
  | .nbcd dst | .tas dst => dst.wf .b .dalt
  | .linkL _ _ | .linkW _ _ | .unlk _ | .swap _ | .bkpt _ | .extW _ | .extL _ | .extbL _ => true
  | .movemToMem sz _ dst => sz != .b && dst.wf sz .caltPredec
  | .movemToReg sz _ src => sz != .b && src.wf sz .ctlPostinc
  | .tst sz src => src.wf sz .all
  | .illegal | .trap _ | .moveToUsp _ | .moveFromUsp _ | .reset | .nop | .stop | .rte | .rtd _ | .rts
  | .trapv | .rtr | .movec _ => true
  | .muluL _ _ src | .mulsL _ _ src | .divuL _ _ _ src | .divsL _ _ _ src => src.wf .l .data
  | .addq sz data dst | .subq sz data dst => quickWf data && dst.wf sz .alt
  | .scc _ dst => dst.wf .b .dalt
  | .dbcc _ _ _ | .trapcc _ _ => true
  | .bra d | .bsr d => d.wf
  | .bcc c d => c != .t && c != .f && d.wf
  | .moveq imm _ => Size.b.sext imm == imm
  | .orToReg sz src _ | .andToReg sz src _ => src.wf sz .data
  | .orToEa sz _ dst | .andToEa sz _ dst | .subToEa sz _ dst | .addToEa sz _ dst => dst.wf sz .malt
  | .subToReg sz src _ | .addToReg sz src _ | .cmp sz src _ => src.wf sz .all
  | .eor sz _ dst => dst.wf sz .dalt
  | .sbcd _ _ _ | .abcd _ _ _ | .pack _ _ _ _ | .unpk _ _ _ _ => true
  | .subx _ _ _ _ | .addx _ _ _ _ | .cmpm _ _ _ => true
  | .divuW src _ | .divsW src _ | .muluW src _ | .mulsW src _ => src.wf .w .data
  | .exgDD _ _ | .exgAA _ _ | .exgDA _ _ => true
  | .subaW src _ | .addaW src _ | .cmpaW src _ => src.wf .w .all
  | .subaL src _ | .addaL src _ | .cmpaL src _ => src.wf .l .all
  | .asrReg _ c _ | .aslReg _ c _ | .lsrReg _ c _ | .lslReg _ c _ | .roxrReg _ c _ | .roxlReg _ c _
  | .rorReg _ c _ | .rolReg _ c _ => c.wf
  | .asrMem dst | .aslMem dst | .lsrMem dst | .lslMem dst | .roxrMem dst | .roxlMem dst | .rorMem dst
  | .rolMem dst => dst.wf .w .malt
  | .bftst _ ea | .bfextu _ ea _ | .bfexts _ ea _ | .bfffo _ ea _ => ea.wf .l .dnCtl
  | .bfchg _ ea | .bfclr _ ea | .bfset _ ea | .bfins _ _ ea => ea.wf .l .dnCalt
  | .lineA _ | .lineF _ => true

end Sys2Proof
end

