-- ==== Sys2Proof/Decode.lean ====
section
/-! DEFINITION. The decoder (30_encoding.md): the opcode table of R136 as data, the decoding algorithm of R133
over a list of instruction words, and after it the encoder, written from the same table. Decoding is a
pure function of the words (R120); it stops by name when a word is illegal (R137, R140) or when the list
ends before the instruction does, and in each case the words left over say how many it consumed. -/

namespace Sys2Proof

/-! ### Mnemonics and the parameter `Supported` -/

/-- The mnemonics of spec/opcode_table.json (`notM`, `andM`, `orM` are NOT, AND, OR). -/
inductive Mnemonic where
  | ori | oriToCcr | oriToSr | andi | andiToCcr | andiToSr | eori | eoriToCcr | eoriToSr | subi | addi
  | cmpi | cmp2 | chk2 | rtm | callm | btst | bchg | bclr | bset | movep | moves | cas | cas2 | move
  | movea | negx | clr | neg | notM | moveFromSr | moveFromCcr | moveToCcr | moveToSr | chk | lea | nbcd
  | link | swap | bkpt | pea | ext | extb | movem | tst | tas | illegal | mulu | muls | divu | divs | trap
  | unlk | moveUsp | reset | nop | stop | rte | rtd | rts | trapv | rtr | movec | jsr | jmp | addq | subq
  | scc | dbcc | trapcc | bra | bsr | bcc | moveq | orM | sbcd | andM | abcd | pack | unpk | exg | sub
  | suba | subx | add | adda | addx | cmp | cmpa | eor | cmpm | asr | asl | lsr | lsl | roxr | roxl | ror
  | rol | bftst | bfextu | bfchg | bfexts | bfclr | bfffo | bfset | bfins | lineA | lineF
deriving DecidableEq, Repr, Inhabited

/-- The set `Core`: the mnemonics the source names, which every conforming implementation decodes (R11). -/
def Mnemonic.isCore : Mnemonic → Bool
  | .ori | .andi | .eori | .cmpi | .btst | .bchg | .bclr | .bset | .move | .movea | .negx | .clr | .neg
  | .notM | .chk | .lea | .nbcd | .link | .swap | .pea | .ext | .movem | .tst | .illegal | .mulu | .muls
  | .divu | .divs | .trap | .unlk | .reset | .nop | .rts | .trapv | .rtr | .jsr | .jmp | .addq | .subq
  | .bra | .bsr | .bcc | .moveq | .orM | .andM | .sub | .suba | .subx | .add | .adda | .addx | .cmp | .cmpa
  | .eor | .asr | .asl | .lsr | .lsl | .roxr | .roxl | .ror | .rol => true
  | .oriToCcr | .oriToSr | .andiToCcr | .andiToSr | .eoriToCcr | .eoriToSr | .subi | .addi | .cmp2 | .chk2
  | .rtm | .callm | .movep | .moves | .cas | .cas2 | .moveFromSr | .moveFromCcr | .moveToCcr | .moveToSr
  | .bkpt | .extb | .tas | .moveUsp | .stop | .rte | .rtd | .movec | .scc | .dbcc | .trapcc | .sbcd | .abcd
  | .pack | .unpk | .exg | .cmpm | .bftst | .bfextu | .bfchg | .bfexts | .bfclr | .bfffo | .bfset | .bfins
  | .lineA | .lineF => false

/-- The parameter `Supported` of R10: the mnemonics the decoder admits. -/
abbrev Supported := Mnemonic → Bool

/-- `Core ⊆ Supported` (R10; `Supported ⊆ All` holds of every set of mnemonics of the table). -/
abbrev Supported.legal (sup : Supported) : Prop := ∀ m, m.isCore = true → sup m = true

/-- DESIGN CHOICE (log entry 2): the model fixes `Supported = All`, the largest set D1 allows, so that
no instruction of the table is refused. -/
def Config.supported : Supported := fun _ => true

/-! ### The opcode table -/

/-- A row of the opcode table, named as the constructor of `Instr` it decodes to. -/
inductive Op where
  | ori | oriToCcr | oriToSr | andi | andiToCcr | andiToSr | eori | eoriToCcr | eoriToSr | subi | addi
  | cmpi | cmp2 | chk2 | rtm | callm | btstImm | btstReg | bchgImm | bchgReg | bclrImm | bclrReg | bsetImm
  | bsetReg | movep | moves | casB | casW | casL | cas2W | cas2L | moveB | moveW | moveL | moveaW | moveaL
  | negx | clr | neg | notEa | moveFromSr | moveFromCcr | moveToCcr | moveToSr | chkW | chkL | lea | nbcd
  | linkL | swap | bkpt | pea | extW | extL | extbL | movemToMem | movemToReg | tst | tas | illegal | muluL
  | mulsL | divuL | divsL | trap | linkW | unlk | moveToUsp | moveFromUsp | reset | nop | stop | rte | rtd
  | rts | trapv | rtr | movec | jsr | jmp | addq | subq | scc | dbcc | trapcc | bra | bsr | bcc | moveq
  | orToReg | orToEa | sbcd | andToReg | andToEa | abcd | divuW | divsW | pack | unpk | muluW | mulsW
  | exgDD | exgAA | exgDA | subToReg | subToEa | subaW | subaL | subx | addToReg | addToEa | addaW | addaL
  | addx | cmp | cmpaW | cmpaL | eor | cmpm | asrReg | asrMem | aslReg | aslMem | lsrReg | lsrMem | lslReg
  | lslMem | roxrReg | roxrMem | roxlReg | roxlMem | rorReg | rorMem | rolReg | rolMem | bftst | bfextu
  | bfchg | bfexts | bfclr | bfffo | bfset | bfins | lineA | lineF
deriving DecidableEq, Repr, Inhabited

/-- Where a row holds a size field that must not be 11 (R126). -/
inductive SizeField where
  | none
  | at76
  | at109
deriving DecidableEq, Repr, Inhabited

/-- Constraints of a row on its condition or operand-count field (R136). -/
inductive CondField where
  | none
  /-- Bcc: c is neither 0000 nor 0001. -/
  | branch
  /-- TRAPcc: bits 2:0 are 010, 011 or 100. -/
  | trapcc
deriving DecidableEq, Repr, Inhabited

/-- One row of R136: the bits it fixes, its constraints, whether it is privileged, and, where a second
word selects the row within its group, the mask and match of that word. -/
structure OpRow where
  op : Op
  mnemonic : Mnemonic
  pat : Word16
  mask : Word16
  size : SizeField := .none
  /-- The class of the effective address in bits 5:0. -/
  ea : Option EaClass := none
  /-- The class of a MOVE destination in bits 11:6. -/
  dst : Option EaClass := none
  /-- Mode An only at W and L. -/
  anNotByte : Bool := false
  cond : CondField := .none
  privileged : Bool := false
  ext : Option (Word16 × Word16) := none
deriving DecidableEq, Repr


/-- Rows of line 0 (R136). -/
def opcodeLine0 : List OpRow :=
  [
    { op := .ori, mnemonic := .ori, pat := 0x0000, mask := 0xFF00,
      size := .at76, ea := some .dalt },
    { op := .oriToCcr, mnemonic := .oriToCcr, pat := 0x003C, mask := 0xFFFF },
    { op := .oriToSr, mnemonic := .oriToSr, pat := 0x007C, mask := 0xFFFF,
      privileged := true },
    { op := .andi, mnemonic := .andi, pat := 0x0200, mask := 0xFF00,
      size := .at76, ea := some .dalt },
    { op := .andiToCcr, mnemonic := .andiToCcr, pat := 0x023C, mask := 0xFFFF },
    { op := .andiToSr, mnemonic := .andiToSr, pat := 0x027C, mask := 0xFFFF,
      privileged := true },
    { op := .eori, mnemonic := .eori, pat := 0x0A00, mask := 0xFF00,
      size := .at76, ea := some .dalt },
    { op := .eoriToCcr, mnemonic := .eoriToCcr, pat := 0x0A3C, mask := 0xFFFF },
    { op := .eoriToSr, mnemonic := .eoriToSr, pat := 0x0A7C, mask := 0xFFFF,
      privileged := true },
    { op := .subi, mnemonic := .subi, pat := 0x0400, mask := 0xFF00,
      size := .at76, ea := some .dalt },
    { op := .addi, mnemonic := .addi, pat := 0x0600, mask := 0xFF00,
      size := .at76, ea := some .dalt },
    { op := .cmpi, mnemonic := .cmpi, pat := 0x0C00, mask := 0xFF00,
      size := .at76, ea := some .dataNoImm } ] ++
  [
    { op := .cmp2, mnemonic := .cmp2, pat := 0x00C0, mask := 0xF9C0,
      size := .at109, ea := some .ctl, ext := some (0x0FFF, 0x0000) },
    { op := .chk2, mnemonic := .chk2, pat := 0x00C0, mask := 0xF9C0,
      size := .at109, ea := some .ctl, ext := some (0x0FFF, 0x0800) },
    { op := .rtm, mnemonic := .rtm, pat := 0x06C0, mask := 0xFFF0 },
    { op := .callm, mnemonic := .callm, pat := 0x06C0, mask := 0xFFC0,
      ea := some .ctl },
    { op := .btstImm, mnemonic := .btst, pat := 0x0800, mask := 0xFFC0,
      ea := some .dataNoImm },
    { op := .btstReg, mnemonic := .btst, pat := 0x0100, mask := 0xF1C0,
      ea := some .data },
    { op := .bchgImm, mnemonic := .bchg, pat := 0x0840, mask := 0xFFC0,
      ea := some .dalt },
    { op := .bchgReg, mnemonic := .bchg, pat := 0x0140, mask := 0xF1C0,
      ea := some .dalt },
    { op := .bclrImm, mnemonic := .bclr, pat := 0x0880, mask := 0xFFC0,
      ea := some .dalt },
    { op := .bclrReg, mnemonic := .bclr, pat := 0x0180, mask := 0xF1C0,
      ea := some .dalt },
    { op := .bsetImm, mnemonic := .bset, pat := 0x08C0, mask := 0xFFC0,
      ea := some .dalt },
    { op := .bsetReg, mnemonic := .bset, pat := 0x01C0, mask := 0xF1C0,
      ea := some .dalt } ] ++
  [
    { op := .movep, mnemonic := .movep, pat := 0x0108, mask := 0xF138 },
    { op := .moves, mnemonic := .moves, pat := 0x0E00, mask := 0xFF00,
      size := .at76, ea := some .malt, privileged := true },
    { op := .casB, mnemonic := .cas, pat := 0x0AC0, mask := 0xFFC0,
      ea := some .malt, ext := some (0xFE38, 0x0000) },
    { op := .casW, mnemonic := .cas, pat := 0x0CC0, mask := 0xFFC0,
      ea := some .malt, ext := some (0xFE38, 0x0000) },
    { op := .casL, mnemonic := .cas, pat := 0x0EC0, mask := 0xFFC0,
      ea := some .malt, ext := some (0xFE38, 0x0000) },
    { op := .cas2W, mnemonic := .cas2, pat := 0x0CFC, mask := 0xFFFF },
    { op := .cas2L, mnemonic := .cas2, pat := 0x0EFC, mask := 0xFFFF } ]

/-- Rows of line 1 (R136). -/
def opcodeLine1 : List OpRow :=
  [
    { op := .moveB, mnemonic := .move, pat := 0x1000, mask := 0xF000,
      ea := some .data, dst := some .dalt } ]

/-- Rows of line 2 (R136). -/
def opcodeLine2 : List OpRow :=
  [
    { op := .moveL, mnemonic := .move, pat := 0x2000, mask := 0xF000,
      ea := some .all, dst := some .dalt },
    { op := .moveaL, mnemonic := .movea, pat := 0x2040, mask := 0xF1C0,
      ea := some .all } ]

/-- Rows of line 3 (R136). -/
def opcodeLine3 : List OpRow :=
  [
    { op := .moveW, mnemonic := .move, pat := 0x3000, mask := 0xF000,
      ea := some .all, dst := some .dalt },
    { op := .moveaW, mnemonic := .movea, pat := 0x3040, mask := 0xF1C0,
      ea := some .all } ]

/-- Rows of line 4 (R136). -/
def opcodeLine4 : List OpRow :=
  [
    { op := .negx, mnemonic := .negx, pat := 0x4000, mask := 0xFF00,
      size := .at76, ea := some .dalt },
    { op := .clr, mnemonic := .clr, pat := 0x4200, mask := 0xFF00,
      size := .at76, ea := some .dalt },
    { op := .neg, mnemonic := .neg, pat := 0x4400, mask := 0xFF00,
      size := .at76, ea := some .dalt },
    { op := .notEa, mnemonic := .notM, pat := 0x4600, mask := 0xFF00,
      size := .at76, ea := some .dalt },
    { op := .moveFromSr, mnemonic := .moveFromSr, pat := 0x40C0, mask := 0xFFC0,
      ea := some .dalt, privileged := true },
    { op := .moveFromCcr, mnemonic := .moveFromCcr, pat := 0x42C0, mask := 0xFFC0,
      ea := some .dalt },
    { op := .moveToCcr, mnemonic := .moveToCcr, pat := 0x44C0, mask := 0xFFC0,
      ea := some .data },
    { op := .moveToSr, mnemonic := .moveToSr, pat := 0x46C0, mask := 0xFFC0,
      ea := some .data, privileged := true },
    { op := .chkW, mnemonic := .chk, pat := 0x4180, mask := 0xF1C0,
      ea := some .data },
    { op := .chkL, mnemonic := .chk, pat := 0x4100, mask := 0xF1C0,
      ea := some .data },
    { op := .lea, mnemonic := .lea, pat := 0x41C0, mask := 0xF1C0,
      ea := some .ctl },
    { op := .nbcd, mnemonic := .nbcd, pat := 0x4800, mask := 0xFFC0,
      ea := some .dalt } ] ++
  [
    { op := .linkL, mnemonic := .link, pat := 0x4808, mask := 0xFFF8 },
    { op := .swap, mnemonic := .swap, pat := 0x4840, mask := 0xFFF8 },
    { op := .bkpt, mnemonic := .bkpt, pat := 0x4848, mask := 0xFFF8 },
    { op := .pea, mnemonic := .pea, pat := 0x4840, mask := 0xFFC0,
      ea := some .ctl },
    { op := .extW, mnemonic := .ext, pat := 0x4880, mask := 0xFFF8 },
    { op := .extL, mnemonic := .ext, pat := 0x48C0, mask := 0xFFF8 },
    { op := .extbL, mnemonic := .extb, pat := 0x49C0, mask := 0xFFF8 },
    { op := .movemToMem, mnemonic := .movem, pat := 0x4880, mask := 0xFF80,
      ea := some .caltPredec },
    { op := .movemToReg, mnemonic := .movem, pat := 0x4C80, mask := 0xFF80,
      ea := some .ctlPostinc },
    { op := .tst, mnemonic := .tst, pat := 0x4A00, mask := 0xFF00,
      size := .at76, ea := some .all, anNotByte := true },
    { op := .tas, mnemonic := .tas, pat := 0x4AC0, mask := 0xFFC0,
      ea := some .dalt },
    { op := .illegal, mnemonic := .illegal, pat := 0x4AFC, mask := 0xFFFF } ] ++
  [
    { op := .muluL, mnemonic := .mulu, pat := 0x4C00, mask := 0xFFC0,
      ea := some .data, ext := some (0x8BF8, 0x0000) },
    { op := .mulsL, mnemonic := .muls, pat := 0x4C00, mask := 0xFFC0,
      ea := some .data, ext := some (0x8BF8, 0x0800) },
    { op := .divuL, mnemonic := .divu, pat := 0x4C40, mask := 0xFFC0,
      ea := some .data, ext := some (0x8BF8, 0x0000) },
    { op := .divsL, mnemonic := .divs, pat := 0x4C40, mask := 0xFFC0,
      ea := some .data, ext := some (0x8BF8, 0x0800) },
    { op := .trap, mnemonic := .trap, pat := 0x4E40, mask := 0xFFF0 },
    { op := .linkW, mnemonic := .link, pat := 0x4E50, mask := 0xFFF8 },
    { op := .unlk, mnemonic := .unlk, pat := 0x4E58, mask := 0xFFF8 },
    { op := .moveToUsp, mnemonic := .moveUsp, pat := 0x4E60, mask := 0xFFF8,
      privileged := true },
    { op := .moveFromUsp, mnemonic := .moveUsp, pat := 0x4E68, mask := 0xFFF8,
      privileged := true },
    { op := .reset, mnemonic := .reset, pat := 0x4E70, mask := 0xFFFF },
    { op := .nop, mnemonic := .nop, pat := 0x4E71, mask := 0xFFFF },
    { op := .stop, mnemonic := .stop, pat := 0x4E72, mask := 0xFFFF,
      privileged := true } ] ++
  [
    { op := .rte, mnemonic := .rte, pat := 0x4E73, mask := 0xFFFF,
      privileged := true },
    { op := .rtd, mnemonic := .rtd, pat := 0x4E74, mask := 0xFFFF },
    { op := .rts, mnemonic := .rts, pat := 0x4E75, mask := 0xFFFF },
    { op := .trapv, mnemonic := .trapv, pat := 0x4E76, mask := 0xFFFF },
    { op := .rtr, mnemonic := .rtr, pat := 0x4E77, mask := 0xFFFF },
    { op := .movec, mnemonic := .movec, pat := 0x4E7A, mask := 0xFFFE,
      privileged := true },
    { op := .jsr, mnemonic := .jsr, pat := 0x4E80, mask := 0xFFC0,
      ea := some .ctl },
    { op := .jmp, mnemonic := .jmp, pat := 0x4EC0, mask := 0xFFC0,
      ea := some .ctl } ]

/-- Rows of line 5 (R136). -/
def opcodeLine5 : List OpRow :=
  [
    { op := .addq, mnemonic := .addq, pat := 0x5000, mask := 0xF100,
      size := .at76, ea := some .alt, anNotByte := true },
    { op := .subq, mnemonic := .subq, pat := 0x5100, mask := 0xF100,
      size := .at76, ea := some .alt, anNotByte := true },
    { op := .scc, mnemonic := .scc, pat := 0x50C0, mask := 0xF0C0,
      ea := some .dalt },
    { op := .dbcc, mnemonic := .dbcc, pat := 0x50C8, mask := 0xF0F8 },
    { op := .trapcc, mnemonic := .trapcc, pat := 0x50F8, mask := 0xF0F8,
      cond := .trapcc } ]

/-- Rows of line 6 (R136). -/
def opcodeLine6 : List OpRow :=
  [
    { op := .bra, mnemonic := .bra, pat := 0x6000, mask := 0xFF00 },
    { op := .bsr, mnemonic := .bsr, pat := 0x6100, mask := 0xFF00 },
    { op := .bcc, mnemonic := .bcc, pat := 0x6000, mask := 0xF000,
      cond := .branch } ]

/-- Rows of line 7 (R136). -/
def opcodeLine7 : List OpRow :=
  [
    { op := .moveq, mnemonic := .moveq, pat := 0x7000, mask := 0xF100 } ]

/-- Rows of line 8 (R136). -/
def opcodeLine8 : List OpRow :=
  [
    { op := .orToReg, mnemonic := .orM, pat := 0x8000, mask := 0xF100,
      size := .at76, ea := some .data },
    { op := .orToEa, mnemonic := .orM, pat := 0x8100, mask := 0xF100,
      size := .at76, ea := some .malt },
    { op := .sbcd, mnemonic := .sbcd, pat := 0x8100, mask := 0xF1F0 },
    { op := .divuW, mnemonic := .divu, pat := 0x80C0, mask := 0xF1C0,
      ea := some .data },
    { op := .divsW, mnemonic := .divs, pat := 0x81C0, mask := 0xF1C0,
      ea := some .data },
    { op := .pack, mnemonic := .pack, pat := 0x8140, mask := 0xF1F0 },
    { op := .unpk, mnemonic := .unpk, pat := 0x8180, mask := 0xF1F0 } ]

/-- Rows of line 9 (R136). -/
def opcodeLine9 : List OpRow :=
  [
    { op := .subToReg, mnemonic := .sub, pat := 0x9000, mask := 0xF100,
      size := .at76, ea := some .all, anNotByte := true },
    { op := .subToEa, mnemonic := .sub, pat := 0x9100, mask := 0xF100,
      size := .at76, ea := some .malt },
    { op := .subaW, mnemonic := .suba, pat := 0x90C0, mask := 0xF1C0,
      ea := some .all },
    { op := .subaL, mnemonic := .suba, pat := 0x91C0, mask := 0xF1C0,
      ea := some .all },
    { op := .subx, mnemonic := .subx, pat := 0x9100, mask := 0xF130,
      size := .at76 } ]

/-- Rows of line A (R136). -/
def opcodeLineA : List OpRow :=
  [
    { op := .lineA, mnemonic := .lineA, pat := 0xA000, mask := 0xF000 } ]

/-- Rows of line B (R136). -/
def opcodeLineB : List OpRow :=
  [
    { op := .cmp, mnemonic := .cmp, pat := 0xB000, mask := 0xF100,
      size := .at76, ea := some .all, anNotByte := true },
    { op := .cmpaW, mnemonic := .cmpa, pat := 0xB0C0, mask := 0xF1C0,
      ea := some .all },
    { op := .cmpaL, mnemonic := .cmpa, pat := 0xB1C0, mask := 0xF1C0,
      ea := some .all },
    { op := .eor, mnemonic := .eor, pat := 0xB100, mask := 0xF100,
      size := .at76, ea := some .dalt },
    { op := .cmpm, mnemonic := .cmpm, pat := 0xB108, mask := 0xF138,
      size := .at76 } ]

/-- Rows of line C (R136). -/
def opcodeLineC : List OpRow :=
  [
    { op := .andToReg, mnemonic := .andM, pat := 0xC000, mask := 0xF100,
      size := .at76, ea := some .data },
    { op := .andToEa, mnemonic := .andM, pat := 0xC100, mask := 0xF100,
      size := .at76, ea := some .malt },
    { op := .abcd, mnemonic := .abcd, pat := 0xC100, mask := 0xF1F0 },
    { op := .muluW, mnemonic := .mulu, pat := 0xC0C0, mask := 0xF1C0,
      ea := some .data },
    { op := .mulsW, mnemonic := .muls, pat := 0xC1C0, mask := 0xF1C0,
      ea := some .data },
    { op := .exgDD, mnemonic := .exg, pat := 0xC140, mask := 0xF1F8 },
    { op := .exgAA, mnemonic := .exg, pat := 0xC148, mask := 0xF1F8 },
    { op := .exgDA, mnemonic := .exg, pat := 0xC188, mask := 0xF1F8 } ]

/-- Rows of line D (R136). -/
def opcodeLineD : List OpRow :=
  [
    { op := .addToReg, mnemonic := .add, pat := 0xD000, mask := 0xF100,
      size := .at76, ea := some .all, anNotByte := true },
    { op := .addToEa, mnemonic := .add, pat := 0xD100, mask := 0xF100,
      size := .at76, ea := some .malt },
    { op := .addaW, mnemonic := .adda, pat := 0xD0C0, mask := 0xF1C0,
      ea := some .all },
    { op := .addaL, mnemonic := .adda, pat := 0xD1C0, mask := 0xF1C0,
      ea := some .all },
    { op := .addx, mnemonic := .addx, pat := 0xD100, mask := 0xF130,
      size := .at76 } ]

/-- Rows of line E (R136). -/
def opcodeLineE : List OpRow :=
  [
    { op := .asrReg, mnemonic := .asr, pat := 0xE000, mask := 0xF118,
      size := .at76 },
    { op := .asrMem, mnemonic := .asr, pat := 0xE0C0, mask := 0xFFC0,
      ea := some .malt },
    { op := .aslReg, mnemonic := .asl, pat := 0xE100, mask := 0xF118,
      size := .at76 },
    { op := .aslMem, mnemonic := .asl, pat := 0xE1C0, mask := 0xFFC0,
      ea := some .malt },
    { op := .lsrReg, mnemonic := .lsr, pat := 0xE008, mask := 0xF118,
      size := .at76 },
    { op := .lsrMem, mnemonic := .lsr, pat := 0xE2C0, mask := 0xFFC0,
      ea := some .malt },
    { op := .lslReg, mnemonic := .lsl, pat := 0xE108, mask := 0xF118,
      size := .at76 },
    { op := .lslMem, mnemonic := .lsl, pat := 0xE3C0, mask := 0xFFC0,
      ea := some .malt },
    { op := .roxrReg, mnemonic := .roxr, pat := 0xE010, mask := 0xF118,
      size := .at76 },
    { op := .roxrMem, mnemonic := .roxr, pat := 0xE4C0, mask := 0xFFC0,
      ea := some .malt },
    { op := .roxlReg, mnemonic := .roxl, pat := 0xE110, mask := 0xF118,
      size := .at76 },
    { op := .roxlMem, mnemonic := .roxl, pat := 0xE5C0, mask := 0xFFC0,
      ea := some .malt } ] ++
  [
    { op := .rorReg, mnemonic := .ror, pat := 0xE018, mask := 0xF118,
      size := .at76 },
    { op := .rorMem, mnemonic := .ror, pat := 0xE6C0, mask := 0xFFC0,
      ea := some .malt },
    { op := .rolReg, mnemonic := .rol, pat := 0xE118, mask := 0xF118,
      size := .at76 },
    { op := .rolMem, mnemonic := .rol, pat := 0xE7C0, mask := 0xFFC0,
      ea := some .malt },
    { op := .bftst, mnemonic := .bftst, pat := 0xE8C0, mask := 0xFFC0,
      ea := some .dnCtl },
    { op := .bfextu, mnemonic := .bfextu, pat := 0xE9C0, mask := 0xFFC0,
      ea := some .dnCtl },
    { op := .bfchg, mnemonic := .bfchg, pat := 0xEAC0, mask := 0xFFC0,
      ea := some .dnCalt },
    { op := .bfexts, mnemonic := .bfexts, pat := 0xEBC0, mask := 0xFFC0,
      ea := some .dnCtl },
    { op := .bfclr, mnemonic := .bfclr, pat := 0xECC0, mask := 0xFFC0,
      ea := some .dnCalt },
    { op := .bfffo, mnemonic := .bfffo, pat := 0xEDC0, mask := 0xFFC0,
      ea := some .dnCtl },
    { op := .bfset, mnemonic := .bfset, pat := 0xEEC0, mask := 0xFFC0,
      ea := some .dnCalt },
    { op := .bfins, mnemonic := .bfins, pat := 0xEFC0, mask := 0xFFC0,
      ea := some .dnCalt } ]

/-- Rows of line F (R136). -/
def opcodeLineF : List OpRow :=
  [
    { op := .lineF, mnemonic := .lineF, pat := 0xF000, mask := 0xF000 } ]

/-- The top-level dispatch on bits 15:12 (R123). -/
def opcodeLine (w : Word16) : List OpRow :=
  match (w >>> 12).toNat with
  | 0x0 => opcodeLine0 | 0x1 => opcodeLine1 | 0x2 => opcodeLine2 | 0x3 => opcodeLine3
  | 0x4 => opcodeLine4 | 0x5 => opcodeLine5 | 0x6 => opcodeLine6 | 0x7 => opcodeLine7
  | 0x8 => opcodeLine8 | 0x9 => opcodeLine9 | 0xA => opcodeLineA | 0xB => opcodeLineB
  | 0xC => opcodeLineC | 0xD => opcodeLineD | 0xE => opcodeLineE | _ => opcodeLineF

/-- The whole table. -/
def opcodeTable : List OpRow :=
  opcodeLine0 ++ opcodeLine1 ++ opcodeLine2 ++ opcodeLine3 ++ opcodeLine4 ++ opcodeLine5 ++ opcodeLine6 ++
  opcodeLine7 ++ opcodeLine8 ++ opcodeLine9 ++ opcodeLineA ++ opcodeLineB ++ opcodeLineC ++ opcodeLineD ++
  opcodeLineE ++ opcodeLineF

/-! ### Reading the table -/

/-- `v[hi:lo]` as a bit vector of `len` bits (R13). -/
abbrev field (w : Word16) (lo len : Nat) : BitVec len := w.extractLsb' lo len

/-- The size field of bits 7:6 (R126); 11 is excluded by the row. -/
def size76 (w : Word16) : Size :=
  if field w 6 2 = 0b00 then .b else if field w 6 2 = 0b01 then .w else .l

/-- The size field of bits 10:9 of CMP2 and CHK2 (R126). -/
def size109 (w : Word16) : Size :=
  if field w 9 2 = 0b00 then .b else if field w 9 2 = 0b01 then .w else .l

/-- The size bit 6 of MOVEM and MOVEP (R126). -/
def size6 (w : Word16) : Size := if field w 6 1 = 0 then .w else .l

/-- The mode bits 5:3 and register bits 2:0 spell a mode of the class (R124, R125). -/
def eaAdmits (cls : EaClass) (w : Word16) : Bool :=
  match EaMode.ofBits (field w 3 3) (field w 0 3) with
  | some m => cls.admits m
  | none => false

/-- The MOVE destination: register in bits 11:9, mode in bits 8:6 (R124). -/
def dstAdmits (cls : EaClass) (w : Word16) : Bool :=
  match EaMode.ofBits (field w 6 3) (field w 9 3) with
  | some m => cls.admits m
  | none => false

/-- Step (1) of R133: the row's mask, match and constraints select the word. -/
def OpRow.admits (r : OpRow) (w : Word16) : Bool :=
  w &&& r.mask == r.pat &&
  (match r.size with
   | .none => true
   | .at76 => field w 6 2 != 0b11
   | .at109 => field w 9 2 != 0b11) &&
  (match r.ea with
   | none => true
   | some cls => eaAdmits cls w) &&
  (match r.dst with
   | none => true
   | some cls => dstAdmits cls w) &&
  (!r.anNotByte || field w 3 3 != 0b001 || field w 6 2 != 0b00) &&
  (match r.cond with
   | .none => true
   | .branch => field w 9 3 != 0
   | .trapcc => field w 0 3 == 0b010 || field w 0 3 == 0b011 || field w 0 3 == 0b100)

/-- The second word is one the row accepts (step (6) of R133; its reserved bits are 0, R132). -/
def OpRow.acceptsExt (r : OpRow) (w2 : Word16) : Bool :=
  match r.ext with
  | none => true
  | some (m, p) => w2 &&& m == p

/-! ### The word stream -/

/-- Why decoding stops without an instruction: the words spell none (R137, R140), or the list of words
ended before the instruction did. -/
inductive DecodeStop where
  | illegal
  | short
deriving DecidableEq, Repr, Inhabited

/-- A decoder reads words from the front of a list; where it stops, the list it leaves says how many it
consumed. -/
abbrev Dec := EStateM DecodeStop (List Word16)

/-- Take the next word of the instruction stream. -/
def nextWord : Dec Word16 := fun ws =>
  match ws with
  | [] => .error .short []
  | w :: rest => .ok w rest

/-- The words read so far spell no instruction. -/
def decodeIllegal {α : Type} : Dec α := fun ws => .error .illegal ws

/-- Two words, the high half first (R128, R131). -/
def nextLong : Dec Long := do
  let hi ← nextWord
  let lo ← nextWord
  pure (hi ++ lo)

/-- Immediate data of the size: the low byte of a word, a word, or two words (R128). -/
def decodeImm : Size → Dec Long
  | .b => do
    let w ← nextWord
    pure ((w.setWidth 8).setWidth 32)
  | .w => do
    let w ← nextWord
    pure (w.setWidth 32)
  | .l => nextLong

/-! ### Operands -/

/-- A register named by a D/A bit and a number (R16). -/
def regSel (da : BitVec 1) (n : RegNo) : RegSel := if da = 0 then .d n else .a n

/-- The index fields common to both formats (R207, R208). -/
def decodeIndex (w : Word16) : Index where
  reg := regSel (field w 15 1) (field w 12 3)
  long := field w 11 1 = 1
  scale := field w 9 2

/-- A base displacement by its BD SIZE (R208); 00 is reserved. -/
def decodeBd (sz : BitVec 2) : Dec Disp :=
  if sz = 0b01 then pure .null
  else if sz = 0b10 then do
    let d ← nextWord
    pure (.word d)
  else do
    let d ← nextLong
    pure (.long d)

/-- An outer displacement by the low two bits of I/IS: 01 null, 10 word, 11 long (R208). -/
def decodeOd (sz : BitVec 2) : Dec Disp := decodeBd sz

/-- The memory-indirect selection I/IS and its outer displacement; reserved values were refused (R208). -/
def decodeInd (iis : BitVec 3) : Dec Indirection :=
  if iis = 0b000 then pure .none
  else if iis.extractLsb' 2 1 = 0 then do
    let od ← decodeOd (iis.extractLsb' 0 2)
    pure (.pre od)
  else do
    let od ← decodeOd (iis.extractLsb' 0 2)
    pure (.post od)

/-- The reserved values of a full-format word: bit 3, BD SIZE = 00, I/IS = 100, and I/IS above 100 with the
index suppressed (R137, R208). -/
def fullReserved (w : Word16) : Bool :=
  field w 3 1 == 1 || field w 4 2 == 0b00 || field w 0 3 == 0b100 ||
  (field w 6 1 == 1 && field w 2 1 == 1)

/-- The extension words of an indexed mode: bit 8 selects the format (R207, R208). -/
def decodeIndexExt : Dec IndexExt := do
  let w ← nextWord
  if field w 8 1 = 0 then
    pure (.brief (decodeIndex w) (field w 0 8))
  else if fullReserved w then
    decodeIllegal
  else do
    let bd ← decodeBd (field w 4 2)
    let ind ← decodeInd (field w 0 3)
    pure (.full (decodeIndex w) (field w 7 1 = 1) (field w 6 1 = 1) bd ind)

/-- The operand a mode and register field spell, with its extension words (R124). -/
def decodeEa (sz : Size) (mode : BitVec 3) (reg : RegNo) : Dec EA :=
  match EaMode.ofBits mode reg with
  | some .dn => pure (.dreg reg)
  | some .an => pure (.areg reg)
  | some .ind => pure (.ind reg)
  | some .postinc => pure (.postinc reg)
  | some .predec => pure (.predec reg)
  | some .disp => do
    let d ← nextWord
    pure (.disp reg d)
  | some .index => do
    let x ← decodeIndexExt
    pure (.index reg x)
  | some .absW => do
    let a ← nextWord
    pure (.absW a)
  | some .absL => do
    let a ← nextLong
    pure (.absL a)
  | some .pcDisp => do
    let d ← nextWord
    pure (.pcDisp d)
  | some .pcIndex => do
    let x ← decodeIndexExt
    pure (.pcIndex x)
  | some .imm => do
    let v ← decodeImm sz
    pure (.imm v)
  | none => decodeIllegal

/-- The operand of bits 5:0. -/
def decodeSrc (sz : Size) (w : Word16) : Dec EA := decodeEa sz (field w 3 3) (field w 0 3)

/-- The MOVE destination of bits 11:6. -/
def decodeDst (sz : Size) (w : Word16) : Dec EA := decodeEa sz (field w 6 3) (field w 9 3)

/-- The field of bits 5:0 whose extension words are not fetched (R138). -/
def eaFieldOf (w : Word16) : EaField := { mode := field w 3 3, reg := field w 0 3 }

/-- The condition of a four-bit field (R480). -/
def condOf (c : BitVec 4) : Cond :=
  match c.toNat with
  | 0 => .t | 1 => .f | 2 => .hi | 3 => .ls | 4 => .cc | 5 => .cs | 6 => .ne | 7 => .eq
  | 8 => .vc | 9 => .vs | 10 => .pl | 11 => .mi | 12 => .ge | 13 => .lt | 14 => .gt | _ => .le

/-- Quick data and shift counts: 0 means 8 (R129). -/
def quickOf (q : BitVec 3) : BitVec 4 := if q = 0 then 8 else q.setWidth 4

/-- The count of a register shift: bit 5 selects a register (R330). -/
def shiftCountOf (w : Word16) : ShiftCount :=
  if field w 5 1 = 0 then .imm (quickOf (field w 9 3)) else .reg (field w 9 3)

/-- A branch displacement: 0x00 selects one word, 0xFF two (R130). -/
def decodeBranch (w : Word16) : Dec BranchDisp :=
  if field w 0 8 = 0x00 then do
    let d ← nextWord
    pure (.word d)
  else if field w 0 8 = 0xFF then do
    let d ← nextLong
    pure (.long d)
  else pure (.byte (field w 0 8))

/-- The operand words of TRAPcc: 010 one word, 011 two, 100 none (R131). -/
def decodeTrapcc (w : Word16) : Dec TrapccOperand :=
  if field w 0 3 = 0b010 then do
    let d ← nextWord
    pure (.word d)
  else if field w 0 3 = 0b011 then do
    let d ← nextLong
    pure (.long d)
  else pure .none

/-- A CAS2 operand word: bits 11:9 and 5:3 are reserved (R132). -/
def decodeCas2Operand : Dec Cas2Operand := do
  let w ← nextWord
  if field w 9 3 ≠ 0 ∨ field w 3 3 ≠ 0 then decodeIllegal
  else pure { rn := regSel (field w 15 1) (field w 12 3), du := field w 6 3, dc := field w 0 3 }

/-- The reserved bits of a bit-field word: 15; 10:9 with Do; 4:3 with Dw (R132, R370). -/
def bfReserved (w : Word16) : Bool :=
  field w 15 1 == 1 || (field w 11 1 == 1 && field w 9 2 != 0) || (field w 5 1 == 1 && field w 3 2 != 0)

/-- The offset and width a bit-field word spells (R370). -/
def bfSpecOf (w : Word16) : BfSpec where
  offset := if field w 11 1 = 0 then .imm (field w 6 5) else .reg (field w 6 3)
  width := if field w 5 1 = 0 then .imm (field w 0 5) else .reg (field w 0 3)

/-- A bit-field word without a register operand: bits 14:12 are reserved too (R132). -/
def decodeBf : Dec BfSpec := do
  let w ← nextWord
  if bfReserved w || field w 12 3 != 0 then decodeIllegal else pure (bfSpecOf w)

/-- A bit-field word with its register operand in bits 14:12. -/
def decodeBfReg : Dec (BfSpec × RegNo) := do
  let w ← nextWord
  if bfReserved w then decodeIllegal else pure (bfSpecOf w, field w 12 3)

/-- The product form of a long multiply: bits 2:0 are ignored when bit 10 is 0 (R132). -/
def productOf (w2 : Word16) : Product := if field w2 10 1 = 0 then .narrow else .wide (field w2 0 3)

/-- Steps (6) and (7) of R133: the instruction of a row, from the opcode word `w`, the second word `w2`
where the row has one, and the remaining extension words in the order of R122. -/
def decodeOperands (op : Op) (w w2 : Word16) : Dec Instr :=
  match op with
  | .ori => do
    let imm ← decodeImm (size76 w)
    let dst ← decodeSrc (size76 w) w
    pure (.ori (size76 w) imm dst)
  | .oriToCcr => do
    let i ← nextWord
    pure (.oriToCcr (i.setWidth 8))
  | .oriToSr => pure .oriToSr
  | .andi => do
    let imm ← decodeImm (size76 w)
    let dst ← decodeSrc (size76 w) w
    pure (.andi (size76 w) imm dst)
  | .andiToCcr => do
    let i ← nextWord
    pure (.andiToCcr (i.setWidth 8))
  | .andiToSr => pure .andiToSr
  | .eori => do
    let imm ← decodeImm (size76 w)
    let dst ← decodeSrc (size76 w) w
    pure (.eori (size76 w) imm dst)
  | .eoriToCcr => do
    let i ← nextWord
    pure (.eoriToCcr (i.setWidth 8))
  | .eoriToSr => pure .eoriToSr
  | .subi => do
    let imm ← decodeImm (size76 w)
    let dst ← decodeSrc (size76 w) w
    pure (.subi (size76 w) imm dst)
  | .addi => do
    let imm ← decodeImm (size76 w)
    let dst ← decodeSrc (size76 w) w
    pure (.addi (size76 w) imm dst)
  | .cmpi => do
    let imm ← decodeImm (size76 w)
    let dst ← decodeSrc (size76 w) w
    pure (.cmpi (size76 w) imm dst)
  | .cmp2 => do
    let src ← decodeSrc (size109 w) w
    pure (.cmp2 (size109 w) (regSel (field w2 15 1) (field w2 12 3)) src)
  | .chk2 => do
    let src ← decodeSrc (size109 w) w
    pure (.chk2 (size109 w) (regSel (field w2 15 1) (field w2 12 3)) src)
  | .rtm => pure (.rtm (regSel (field w 3 1) (field w 0 3)))
  | .callm => do
    let arg ← nextWord
    let src ← decodeSrc .l w
    pure (.callm arg src)
  | .btstImm => do
    let n ← nextWord
    let ea ← decodeSrc .b w
    pure (.btstImm (n.setWidth 8) ea)
  | .btstReg => do
    let ea ← decodeSrc .b w
    pure (.btstReg (field w 9 3) ea)
  | .bchgImm => do
    let n ← nextWord
    let ea ← decodeSrc .b w
    pure (.bchgImm (n.setWidth 8) ea)
  | .bchgReg => do
    let ea ← decodeSrc .b w
    pure (.bchgReg (field w 9 3) ea)
  | .bclrImm => do
    let n ← nextWord
    let ea ← decodeSrc .b w
    pure (.bclrImm (n.setWidth 8) ea)
  | .bclrReg => do
    let ea ← decodeSrc .b w
    pure (.bclrReg (field w 9 3) ea)
  | .bsetImm => do
    let n ← nextWord
    let ea ← decodeSrc .b w
    pure (.bsetImm (n.setWidth 8) ea)
  | .bsetReg => do
    let ea ← decodeSrc .b w
    pure (.bsetReg (field w 9 3) ea)
  | .movep => do
    let d ← nextWord
    pure (.movep (field w 7 1 = 1) (size6 w) (field w 9 3) (field w 0 3) d)
  | .moves => pure (.moves (size76 w) (eaFieldOf w))
  | .casB => do
    let dst ← decodeSrc .b w
    pure (.casB (field w2 0 3) (field w2 6 3) dst)
  | .casW => do
    let dst ← decodeSrc .w w
    pure (.casW (field w2 0 3) (field w2 6 3) dst)
  | .casL => do
    let dst ← decodeSrc .l w
    pure (.casL (field w2 0 3) (field w2 6 3) dst)
  | .cas2W => do
    let op1 ← decodeCas2Operand
    let op2 ← decodeCas2Operand
    pure (.cas2W op1 op2)
  | .cas2L => do
    let op1 ← decodeCas2Operand
    let op2 ← decodeCas2Operand
    pure (.cas2L op1 op2)
  | .moveB => do
    let src ← decodeSrc .b w
    let dst ← decodeDst .b w
    pure (.moveB src dst)
  | .moveW => do
    let src ← decodeSrc .w w
    let dst ← decodeDst .w w
    pure (.moveW src dst)
  | .moveL => do
    let src ← decodeSrc .l w
    let dst ← decodeDst .l w
    pure (.moveL src dst)
  | .moveaW => do
    let src ← decodeSrc .w w
    pure (.moveaW src (field w 9 3))
  | .moveaL => do
    let src ← decodeSrc .l w
    pure (.moveaL src (field w 9 3))
  | .negx => do
    let dst ← decodeSrc (size76 w) w
    pure (.negx (size76 w) dst)
  | .clr => do
    let dst ← decodeSrc (size76 w) w
    pure (.clr (size76 w) dst)
  | .neg => do
    let dst ← decodeSrc (size76 w) w
    pure (.neg (size76 w) dst)
  | .notEa => do
    let dst ← decodeSrc (size76 w) w
    pure (.notEa (size76 w) dst)
  | .moveFromSr => pure (.moveFromSr (eaFieldOf w))
  | .moveFromCcr => do
    let dst ← decodeSrc .w w
    pure (.moveFromCcr dst)
  | .moveToCcr => do
    let src ← decodeSrc .w w
    pure (.moveToCcr src)
  | .moveToSr => pure (.moveToSr (eaFieldOf w))
  | .chkW => do
    let src ← decodeSrc .w w
    pure (.chkW src (field w 9 3))
  | .chkL => do
    let src ← decodeSrc .l w
    pure (.chkL src (field w 9 3))
  | .lea => do
    let src ← decodeSrc .l w
    pure (.lea src (field w 9 3))
  | .nbcd => do
    let dst ← decodeSrc .b w
    pure (.nbcd dst)
  | .linkL => do
    let d ← nextLong
    pure (.linkL (field w 0 3) d)
  | .swap => pure (.swap (field w 0 3))
  | .bkpt => pure (.bkpt (field w 0 3))
  | .pea => do
    let src ← decodeSrc .l w
    pure (.pea src)
  | .extW => pure (.extW (field w 0 3))
  | .extL => pure (.extL (field w 0 3))
  | .extbL => pure (.extbL (field w 0 3))
  | .movemToMem => do
    let mask ← nextWord
    let dst ← decodeSrc (size6 w) w
    pure (.movemToMem (size6 w) mask dst)
  | .movemToReg => do
    let mask ← nextWord
    let src ← decodeSrc (size6 w) w
    pure (.movemToReg (size6 w) mask src)
  | .tst => do
    let src ← decodeSrc (size76 w) w
    pure (.tst (size76 w) src)
  | .tas => do
    let dst ← decodeSrc .b w
    pure (.tas dst)
  | .illegal => pure .illegal
  | .muluL => do
    let src ← decodeSrc .l w
    pure (.muluL (field w2 12 3) (productOf w2) src)
  | .mulsL => do
    let src ← decodeSrc .l w
    pure (.mulsL (field w2 12 3) (productOf w2) src)
  | .divuL => do
    let src ← decodeSrc .l w
    pure (.divuL (field w2 12 3) (field w2 10 1 = 1) (field w2 0 3) src)
  | .divsL => do
    let src ← decodeSrc .l w
    pure (.divsL (field w2 12 3) (field w2 10 1 = 1) (field w2 0 3) src)
  | .trap => pure (.trap (field w 0 4))
  | .linkW => do
    let d ← nextWord
    pure (.linkW (field w 0 3) d)
  | .unlk => pure (.unlk (field w 0 3))
  | .moveToUsp => pure (.moveToUsp (field w 0 3))
  | .moveFromUsp => pure (.moveFromUsp (field w 0 3))
  | .reset => pure .reset
  | .nop => pure .nop
  | .stop => pure .stop
  | .rte => pure .rte
  | .rtd => do
    let d ← nextWord
    pure (.rtd d)
  | .rts => pure .rts
  | .trapv => pure .trapv
  | .rtr => pure .rtr
  | .movec => pure (.movec (field w 0 1 = 1))
  | .jsr => do
    let src ← decodeSrc .l w
    pure (.jsr src)
  | .jmp => do
    let src ← decodeSrc .l w
    pure (.jmp src)
  | .addq => do
    let dst ← decodeSrc (size76 w) w
    pure (.addq (size76 w) (quickOf (field w 9 3)) dst)
  | .subq => do
    let dst ← decodeSrc (size76 w) w
    pure (.subq (size76 w) (quickOf (field w 9 3)) dst)
  | .scc => do
    let dst ← decodeSrc .b w
    pure (.scc (condOf (field w 8 4)) dst)
  | .dbcc => do
    let d ← nextWord
    pure (.dbcc (condOf (field w 8 4)) (field w 0 3) d)
  | .trapcc => do
    let operand ← decodeTrapcc w
    pure (.trapcc (condOf (field w 8 4)) operand)
  | .bra => do
    let d ← decodeBranch w
    pure (.bra d)
  | .bsr => do
    let d ← decodeBranch w
    pure (.bsr d)
  | .bcc => do
    let d ← decodeBranch w
    pure (.bcc (condOf (field w 8 4)) d)
  | .moveq => pure (.moveq ((field w 0 8).signExtend 32) (field w 9 3))
  | .orToReg => do
    let src ← decodeSrc (size76 w) w
    pure (.orToReg (size76 w) src (field w 9 3))
  | .orToEa => do
    let dst ← decodeSrc (size76 w) w
    pure (.orToEa (size76 w) (field w 9 3) dst)
  | .sbcd => pure (.sbcd (field w 3 1 = 1) (field w 9 3) (field w 0 3))
  | .andToReg => do
    let src ← decodeSrc (size76 w) w
    pure (.andToReg (size76 w) src (field w 9 3))
  | .andToEa => do
    let dst ← decodeSrc (size76 w) w
    pure (.andToEa (size76 w) (field w 9 3) dst)
  | .abcd => pure (.abcd (field w 3 1 = 1) (field w 9 3) (field w 0 3))
  | .divuW => do
    let src ← decodeSrc .w w
    pure (.divuW src (field w 9 3))
  | .divsW => do
    let src ← decodeSrc .w w
    pure (.divsW src (field w 9 3))
  | .pack => do
    let adj ← nextWord
    pure (.pack (field w 3 1 = 1) (field w 0 3) (field w 9 3) adj)
  | .unpk => do
    let adj ← nextWord
    pure (.unpk (field w 3 1 = 1) (field w 0 3) (field w 9 3) adj)
  | .muluW => do
    let src ← decodeSrc .w w
    pure (.muluW src (field w 9 3))
  | .mulsW => do
    let src ← decodeSrc .w w
    pure (.mulsW src (field w 9 3))
  | .exgDD => pure (.exgDD (field w 9 3) (field w 0 3))
  | .exgAA => pure (.exgAA (field w 9 3) (field w 0 3))
  | .exgDA => pure (.exgDA (field w 9 3) (field w 0 3))
  | .subToReg => do
    let src ← decodeSrc (size76 w) w
    pure (.subToReg (size76 w) src (field w 9 3))
  | .subToEa => do
    let dst ← decodeSrc (size76 w) w
    pure (.subToEa (size76 w) (field w 9 3) dst)
  | .subaW => do
    let src ← decodeSrc .w w
    pure (.subaW src (field w 9 3))
  | .subaL => do
    let src ← decodeSrc .l w
    pure (.subaL src (field w 9 3))
  | .subx => pure (.subx (size76 w) (field w 3 1 = 1) (field w 9 3) (field w 0 3))
  | .addToReg => do
    let src ← decodeSrc (size76 w) w
    pure (.addToReg (size76 w) src (field w 9 3))
  | .addToEa => do
    let dst ← decodeSrc (size76 w) w
    pure (.addToEa (size76 w) (field w 9 3) dst)
  | .addaW => do
    let src ← decodeSrc .w w
    pure (.addaW src (field w 9 3))
  | .addaL => do
    let src ← decodeSrc .l w
    pure (.addaL src (field w 9 3))
  | .addx => pure (.addx (size76 w) (field w 3 1 = 1) (field w 9 3) (field w 0 3))
  | .cmp => do
    let src ← decodeSrc (size76 w) w
    pure (.cmp (size76 w) src (field w 9 3))
  | .cmpaW => do
    let src ← decodeSrc .w w
    pure (.cmpaW src (field w 9 3))
  | .cmpaL => do
    let src ← decodeSrc .l w
    pure (.cmpaL src (field w 9 3))
  | .eor => do
    let dst ← decodeSrc (size76 w) w
    pure (.eor (size76 w) (field w 9 3) dst)
  | .cmpm => pure (.cmpm (size76 w) (field w 9 3) (field w 0 3))
  | .asrReg => pure (.asrReg (size76 w) (shiftCountOf w) (field w 0 3))
  | .asrMem => do
    let dst ← decodeSrc .w w
    pure (.asrMem dst)
  | .aslReg => pure (.aslReg (size76 w) (shiftCountOf w) (field w 0 3))
  | .aslMem => do
    let dst ← decodeSrc .w w
    pure (.aslMem dst)
  | .lsrReg => pure (.lsrReg (size76 w) (shiftCountOf w) (field w 0 3))
  | .lsrMem => do
    let dst ← decodeSrc .w w
    pure (.lsrMem dst)
  | .lslReg => pure (.lslReg (size76 w) (shiftCountOf w) (field w 0 3))
  | .lslMem => do
    let dst ← decodeSrc .w w
    pure (.lslMem dst)
  | .roxrReg => pure (.roxrReg (size76 w) (shiftCountOf w) (field w 0 3))
  | .roxrMem => do
    let dst ← decodeSrc .w w
    pure (.roxrMem dst)
  | .roxlReg => pure (.roxlReg (size76 w) (shiftCountOf w) (field w 0 3))
  | .roxlMem => do
    let dst ← decodeSrc .w w
    pure (.roxlMem dst)
  | .rorReg => pure (.rorReg (size76 w) (shiftCountOf w) (field w 0 3))
  | .rorMem => do
    let dst ← decodeSrc .w w
    pure (.rorMem dst)
  | .rolReg => pure (.rolReg (size76 w) (shiftCountOf w) (field w 0 3))
  | .rolMem => do
    let dst ← decodeSrc .w w
    pure (.rolMem dst)
  | .bftst => do
    let bf ← decodeBf
    let ea ← decodeSrc .l w
    pure (.bftst bf ea)
  | .bfextu => do
    let bf ← decodeBfReg
    let ea ← decodeSrc .l w
    pure (.bfextu bf.1 ea bf.2)
  | .bfchg => do
    let bf ← decodeBf
    let ea ← decodeSrc .l w
    pure (.bfchg bf ea)
  | .bfexts => do
    let bf ← decodeBfReg
    let ea ← decodeSrc .l w
    pure (.bfexts bf.1 ea bf.2)
  | .bfclr => do
    let bf ← decodeBf
    let ea ← decodeSrc .l w
    pure (.bfclr bf ea)
  | .bfffo => do
    let bf ← decodeBfReg
    let ea ← decodeSrc .l w
    pure (.bfffo bf.1 ea bf.2)
  | .bfset => do
    let bf ← decodeBf
    let ea ← decodeSrc .l w
    pure (.bfset bf ea)
  | .bfins => do
    let bf ← decodeBfReg
    let ea ← decodeSrc .l w
    pure (.bfins bf.1 bf.2 ea)
  | .lineA => pure (.lineA (field w 0 12))
  | .lineF => pure (.lineF (field w 0 12))

/-- Steps (4) to (7) of R133 for the rows that select `w`: rows outside `Supported` are as unassigned (R134);
a privileged row fetches no extension word (R138); within a group the second word keeps one row. -/
def decodeRows (sup : Supported) (rows : List OpRow) (w : Word16) : Dec Instr :=
  match rows.filter (fun r => sup r.mnemonic) with
  | [] => decodeIllegal
  | r :: rs =>
    match r.ext with
    | none => decodeOperands r.op w 0
    | some _ => do
      let w2 ← nextWord
      match (r :: rs).find? (·.acceptsExt w2) with
      | none => decodeIllegal
      | some r' => decodeOperands r'.op w w2

/-- The decoding algorithm of R133. Line A and line F words stand outside `Supported` (step (3)). -/
def decodeWith (sup : Supported) : Dec Instr := do
  let w ← nextWord
  match (opcodeLine w).filter (·.admits w) with
  | [] => decodeIllegal
  | r :: rs =>
    match r.op with
    | .lineA => pure (.lineA (field w 0 12))
    | .lineF => pure (.lineF (field w 0 12))
    | _ => decodeRows sup (r :: rs) w

/-- The decoder of the model. -/
def decode : Dec Instr := decodeWith Config.supported

/-- The words at bits 15:0, 31:16, ... of a number, `k` of them: spec/opcode_table.json numbers bit 0 as the
least significant bit of the first word. -/
def wordsOfNat : Nat → Nat → List Word16
  | 0, _ => []
  | k + 1, n => BitVec.ofNat 16 n :: wordsOfNat k (n / 2 ^ 16)

/-- The longest instruction has eleven words, 22 bytes (R121). -/
def maxWords : Nat := 11

/-- Big-endian bytes of a list of words, as the hardware stores them (R82). -/
def bytesOfWords (ws : List Word16) : List Byte :=
  ws.flatMap fun w => [w.extractLsb' 8 8, w.extractLsb' 0 8]

/-- Words of a list of big-endian bytes; a last odd byte makes no word. -/
def wordsOfBytes : List Byte → List Word16
  | hi :: lo :: rest => (hi ++ lo) :: wordsOfBytes rest
  | _ => []

/-- The instruction a list of bytes begins with, and the bytes after it (R120). -/
def decodeBytes (bs : List Byte) : Option (Instr × List Byte) :=
  match decode (wordsOfBytes bs) with
  | .ok i rest => some (i, bs.drop (2 * ((wordsOfBytes bs).length - rest.length)))
  | .error _ _ => none

/-- The bits `w` of an instruction, numbered as spec/opcode_table.json numbers them, `nbits` of them
and every later bit 0, as the words the hardware stores. -/
def tableWords (nbits w : Nat) : List Word16 := wordsOfNat maxWords (w % 2 ^ nbits)

/-- The instruction this decoder reads from an instruction whose table bits are `w`. -/
def decodeTableWord (nbits w : Nat) : Option Instr :=
  (decodeBytes (bytesOfWords (tableWords nbits w))).map (·.1)

/-! ### The encoder -/

/-- Size field 00, 01, 10 (R126). -/
def Size.bits2 : Size → BitVec 2
  | .b => 0b00
  | .w => 0b01
  | .l => 0b10

/-- Size bit of MOVEM and MOVEP: 0 W, 1 L (R126). -/
def Size.bit1 : Size → BitVec 1
  | .b | .w => 0
  | .l => 1

/-- Mode bits of an operand (R124). -/
def EA.modeBits : EA → BitVec 3
  | .dreg _ => 0b000
  | .areg _ => 0b001
  | .ind _ => 0b010
  | .postinc _ => 0b011
  | .predec _ => 0b100
  | .disp _ _ => 0b101
  | .index _ _ => 0b110
  | .absW _ | .absL _ | .pcDisp _ | .pcIndex _ | .imm _ => 0b111

/-- Register bits of an operand (R124). -/
def EA.regBits : EA → BitVec 3
  | .dreg n | .areg n | .ind n | .postinc n | .predec n | .disp n _ | .index n _ => n
  | .absW _ => 0b000
  | .absL _ => 0b001
  | .pcDisp _ => 0b010
  | .pcIndex _ => 0b011
  | .imm _ => 0b100

/-- One bit of a yes-or-no field. -/
def bit1 (b : Bool) : BitVec 1 := if b then 1 else 0

/-- High word, then low word (R128). -/
def longWords (v : Long) : List Word16 := [v.extractLsb' 16 16, v.extractLsb' 0 16]

/-- Immediate data of the size (R128). -/
def immWords : Size → Long → List Word16
  | .b, v => [(v.setWidth 8).setWidth 16]
  | .w, v => [v.setWidth 16]
  | .l, v => longWords v

/-- D/A bit and number of a register (R16). -/
def RegSel.bits : RegSel → BitVec 4
  | .d n => (0 : BitVec 1) ++ n
  | .a n => (1 : BitVec 1) ++ n

/-- Bits 15:9 of an index word (R207). -/
def Index.bits (x : Index) : BitVec 7 := x.reg.bits ++ bit1 x.long ++ x.scale

/-- The two-bit size of a displacement: 01 null, 10 word, 11 long (R208). -/
def Disp.bits : Disp → BitVec 2
  | .null => 0b01
  | .word _ => 0b10
  | .long _ => 0b11

def Disp.words : Disp → List Word16
  | .null => []
  | .word d => [d]
  | .long d => longWords d

/-- I/IS (R208). -/
def Indirection.bits : Indirection → BitVec 3
  | .none => 0b000
  | .pre od => (0 : BitVec 1) ++ od.bits
  | .post od => (1 : BitVec 1) ++ od.bits

def Indirection.words : Indirection → List Word16
  | .none => []
  | .pre od | .post od => od.words

/-- The extension words of an indexed mode (R207, R208). -/
def IndexExt.words : IndexExt → List Word16
  | .brief x d8 => [x.bits ++ (0 : BitVec 1) ++ d8]
  | .full x bs is bd ind =>
    (x.bits ++ (1 : BitVec 1) ++ bit1 bs ++ bit1 is ++ bd.bits ++ (0 : BitVec 1) ++ ind.bits) ::
      (bd.words ++ ind.words)

/-- The extension words of an operand (R217). -/
def EA.words (sz : Size) : EA → List Word16
  | .dreg _ | .areg _ | .ind _ | .postinc _ | .predec _ => []
  | .disp _ d | .pcDisp d => [d]
  | .index _ x | .pcIndex x => x.words
  | .absW a => [a]
  | .absL a => longWords a
  | .imm v => immWords sz v

/-- The condition field (R480). -/
def Cond.bits : Cond → BitVec 4
  | .t => 0 | .f => 1 | .hi => 2 | .ls => 3 | .cc => 4 | .cs => 5 | .ne => 6 | .eq => 7
  | .vc => 8 | .vs => 9 | .pl => 10 | .mi => 11 | .ge => 12 | .lt => 13 | .gt => 14 | .le => 15

/-- The 8-bit displacement field (R130). -/
def BranchDisp.bits : BranchDisp → BitVec 8
  | .byte d => d
  | .word _ => 0x00
  | .long _ => 0xFF

def BranchDisp.words : BranchDisp → List Word16
  | .byte _ => []
  | .word d => [d]
  | .long d => longWords d

def TrapccOperand.bits : TrapccOperand → BitVec 3
  | .none => 0b100
  | .word _ => 0b010
  | .long _ => 0b011

def TrapccOperand.words : TrapccOperand → List Word16
  | .none => []
  | .word w => [w]
  | .long l => longWords l

/-- Count or register in bits 11:9 (R330). -/
def ShiftCount.bits : ShiftCount → BitVec 3
  | .imm n => n.setWidth 3
  | .reg n => n

/-- Bit 5: 0 a count, 1 a register (R330). -/
def ShiftCount.ir : ShiftCount → BitVec 1
  | .imm _ => 0
  | .reg _ => 1

/-- Do and the offset field (R370). -/
def BfOffset.bits : BfOffset → BitVec 6
  | .imm o => (0 : BitVec 1) ++ o
  | .reg n => (0b100 : BitVec 3) ++ n

/-- Dw and the width field (R370). -/
def BfWidth.bits : BfWidth → BitVec 6
  | .imm w => (0 : BitVec 1) ++ w
  | .reg n => (0b100 : BitVec 3) ++ n

/-- The bit-field word with register bits `n` (R370). -/
def BfSpec.word (bf : BfSpec) (n : RegNo) : Word16 := (0 : BitVec 1) ++ n ++ bf.offset.bits ++ bf.width.bits

def Cas2Operand.word (o : Cas2Operand) : Word16 := o.rn.bits ++ (0 : BitVec 3) ++ o.du ++ (0 : BitVec 3) ++ o.dc

/-- Bits 10 and 2:0 of a long multiply's second word (R132). -/
def Product.word (p : Product) (dl : RegNo) (signed : BitVec 1) : Word16 :=
  match p with
  | .narrow => (0 : BitVec 1) ++ dl ++ signed ++ (0 : BitVec 1) ++ (0 : BitVec 10)
  | .wide dh => (0 : BitVec 1) ++ dl ++ signed ++ (1 : BitVec 1) ++ (0 : BitVec 7) ++ dh

/-- A long divide's second word (R132). -/
def divWord (dq : RegNo) (signed : BitVec 1) (wide : Bool) (dr : RegNo) : Word16 :=
  (0 : BitVec 1) ++ dq ++ signed ++ bit1 wide ++ (0 : BitVec 7) ++ dr

/-- The six bits `mmmrrr` of an operand. -/
def EA.field6 (ea : EA) : BitVec 6 := ea.modeBits ++ ea.regBits

/-- The six bits `RRRMMM` of a MOVE destination. -/
def EA.dstField6 (ea : EA) : BitVec 6 := ea.regBits ++ ea.modeBits

def EaField.bits (f : EaField) : BitVec 6 := f.mode ++ f.reg

/-- F_SHIFT_REG: `1110 nnn D ss i tt yyy` (R127). -/
def shiftRegWord (count : ShiftCount) (left : BitVec 1) (sz : Size) (tt : BitVec 2) (dy : RegNo) : Word16 :=
  (0b1110 : BitVec 4) ++ count.bits ++ left ++ sz.bits2 ++ count.ir ++ tt ++ dy

/-- The opcode word of an instruction: the pattern of its row of R136, bit 15 first. -/
def opcodeWord : Instr → Word16
  | .ori sz _ dst => (0b00000000 : BitVec 8) ++ sz.bits2 ++ dst.field6
  | .oriToCcr _ => 0x003C
  | .oriToSr => 0x007C
  | .andi sz _ dst => (0b00000010 : BitVec 8) ++ sz.bits2 ++ dst.field6
  | .andiToCcr _ => 0x023C
  | .andiToSr => 0x027C
  | .eori sz _ dst => (0b00001010 : BitVec 8) ++ sz.bits2 ++ dst.field6
  | .eoriToCcr _ => 0x0A3C
  | .eoriToSr => 0x0A7C
  | .subi sz _ dst => (0b00000100 : BitVec 8) ++ sz.bits2 ++ dst.field6
  | .addi sz _ dst => (0b00000110 : BitVec 8) ++ sz.bits2 ++ dst.field6
  | .cmpi sz _ dst => (0b00001100 : BitVec 8) ++ sz.bits2 ++ dst.field6
  | .cmp2 sz _ src => (0b00000 : BitVec 5) ++ sz.bits2 ++ (0b011 : BitVec 3) ++ src.field6
  | .chk2 sz _ src => (0b00000 : BitVec 5) ++ sz.bits2 ++ (0b011 : BitVec 3) ++ src.field6
  | .rtm rn => (0b000001101100 : BitVec 12) ++ rn.bits
  | .callm _ src => (0b0000011011 : BitVec 10) ++ src.field6
  | .btstImm _ ea => (0b0000100000 : BitVec 10) ++ ea.field6
  | .btstReg dn ea => (0b0000 : BitVec 4) ++ dn ++ (0b100 : BitVec 3) ++ ea.field6
  | .bchgImm _ ea => (0b0000100001 : BitVec 10) ++ ea.field6
  | .bchgReg dn ea => (0b0000 : BitVec 4) ++ dn ++ (0b101 : BitVec 3) ++ ea.field6
  | .bclrImm _ ea => (0b0000100010 : BitVec 10) ++ ea.field6
  | .bclrReg dn ea => (0b0000 : BitVec 4) ++ dn ++ (0b110 : BitVec 3) ++ ea.field6
  | .bsetImm _ ea => (0b0000100011 : BitVec 10) ++ ea.field6
  | .bsetReg dn ea => (0b0000 : BitVec 4) ++ dn ++ (0b111 : BitVec 3) ++ ea.field6
  | .movep toMem sz dx ay _ =>
    (0b0000 : BitVec 4) ++ dx ++ (1 : BitVec 1) ++ bit1 toMem ++ sz.bit1 ++ (0b001 : BitVec 3) ++ ay
  | .moves sz f => (0b00001110 : BitVec 8) ++ sz.bits2 ++ f.bits
  | .casB _ _ dst => (0b0000101011 : BitVec 10) ++ dst.field6
  | .casW _ _ dst => (0b0000110011 : BitVec 10) ++ dst.field6
  | .casL _ _ dst => (0b0000111011 : BitVec 10) ++ dst.field6
  | .cas2W _ _ => 0x0CFC
  | .cas2L _ _ => 0x0EFC
  | .moveB src dst => (0b0001 : BitVec 4) ++ dst.dstField6 ++ src.field6
  | .moveW src dst => (0b0011 : BitVec 4) ++ dst.dstField6 ++ src.field6
  | .moveL src dst => (0b0010 : BitVec 4) ++ dst.dstField6 ++ src.field6
  | .moveaW src an => (0b0011 : BitVec 4) ++ an ++ (0b001 : BitVec 3) ++ src.field6
  | .moveaL src an => (0b0010 : BitVec 4) ++ an ++ (0b001 : BitVec 3) ++ src.field6
  | .negx sz dst => (0b01000000 : BitVec 8) ++ sz.bits2 ++ dst.field6
  | .clr sz dst => (0b01000010 : BitVec 8) ++ sz.bits2 ++ dst.field6
  | .neg sz dst => (0b01000100 : BitVec 8) ++ sz.bits2 ++ dst.field6
  | .notEa sz dst => (0b01000110 : BitVec 8) ++ sz.bits2 ++ dst.field6
  | .moveFromSr f => (0b0100000011 : BitVec 10) ++ f.bits
  | .moveFromCcr dst => (0b0100001011 : BitVec 10) ++ dst.field6
  | .moveToCcr src => (0b0100010011 : BitVec 10) ++ src.field6
  | .moveToSr f => (0b0100011011 : BitVec 10) ++ f.bits
  | .chkW src dn => (0b0100 : BitVec 4) ++ dn ++ (0b110 : BitVec 3) ++ src.field6
  | .chkL src dn => (0b0100 : BitVec 4) ++ dn ++ (0b100 : BitVec 3) ++ src.field6
  | .lea src an => (0b0100 : BitVec 4) ++ an ++ (0b111 : BitVec 3) ++ src.field6
  | .nbcd dst => (0b0100100000 : BitVec 10) ++ dst.field6
  | .linkL an _ => (0b0100100000001 : BitVec 13) ++ an
  | .swap dn => (0b0100100001000 : BitVec 13) ++ dn
  | .bkpt v => (0b0100100001001 : BitVec 13) ++ v
  | .pea src => (0b0100100001 : BitVec 10) ++ src.field6
  | .extW dn => (0b0100100010000 : BitVec 13) ++ dn
  | .extL dn => (0b0100100011000 : BitVec 13) ++ dn
  | .extbL dn => (0b0100100111000 : BitVec 13) ++ dn
  | .movemToMem sz _ dst => (0b010010001 : BitVec 9) ++ sz.bit1 ++ dst.field6
  | .movemToReg sz _ src => (0b010011001 : BitVec 9) ++ sz.bit1 ++ src.field6
  | .tst sz src => (0b01001010 : BitVec 8) ++ sz.bits2 ++ src.field6
  | .tas dst => (0b0100101011 : BitVec 10) ++ dst.field6
  | .illegal => 0x4AFC
  | .muluL _ _ src => (0b0100110000 : BitVec 10) ++ src.field6
  | .mulsL _ _ src => (0b0100110000 : BitVec 10) ++ src.field6
  | .divuL _ _ _ src => (0b0100110001 : BitVec 10) ++ src.field6
  | .divsL _ _ _ src => (0b0100110001 : BitVec 10) ++ src.field6
  | .trap v => (0b010011100100 : BitVec 12) ++ v
  | .linkW an _ => (0b0100111001010 : BitVec 13) ++ an
  | .unlk an => (0b0100111001011 : BitVec 13) ++ an
  | .moveToUsp an => (0b0100111001100 : BitVec 13) ++ an
  | .moveFromUsp an => (0b0100111001101 : BitVec 13) ++ an
  | .reset => 0x4E70
  | .nop => 0x4E71
  | .stop => 0x4E72
  | .rte => 0x4E73
  | .rtd _ => 0x4E74
  | .rts => 0x4E75
  | .trapv => 0x4E76
  | .rtr => 0x4E77
  | .movec toControl => (0b010011100111101 : BitVec 15) ++ bit1 toControl
  | .jsr src => (0b0100111010 : BitVec 10) ++ src.field6
  | .jmp src => (0b0100111011 : BitVec 10) ++ src.field6
  | .addq sz q dst => (0b0101 : BitVec 4) ++ q.setWidth 3 ++ (0 : BitVec 1) ++ sz.bits2 ++ dst.field6
  | .subq sz q dst => (0b0101 : BitVec 4) ++ q.setWidth 3 ++ (1 : BitVec 1) ++ sz.bits2 ++ dst.field6
  | .scc c dst => (0b0101 : BitVec 4) ++ c.bits ++ (0b11 : BitVec 2) ++ dst.field6
  | .dbcc c dn _ => (0b0101 : BitVec 4) ++ c.bits ++ (0b11001 : BitVec 5) ++ dn
  | .trapcc c o => (0b0101 : BitVec 4) ++ c.bits ++ (0b11111 : BitVec 5) ++ o.bits
  | .bra d => (0b01100000 : BitVec 8) ++ d.bits
  | .bsr d => (0b01100001 : BitVec 8) ++ d.bits
  | .bcc c d => (0b0110 : BitVec 4) ++ c.bits ++ d.bits
  | .moveq imm dn => (0b0111 : BitVec 4) ++ dn ++ (0 : BitVec 1) ++ imm.setWidth 8
  | .orToReg sz src dn => (0b1000 : BitVec 4) ++ dn ++ (0 : BitVec 1) ++ sz.bits2 ++ src.field6
  | .orToEa sz dn dst => (0b1000 : BitVec 4) ++ dn ++ (1 : BitVec 1) ++ sz.bits2 ++ dst.field6
  | .sbcd mem x y => (0b1000 : BitVec 4) ++ x ++ (0b10000 : BitVec 5) ++ bit1 mem ++ y
  | .andToReg sz src dn => (0b1100 : BitVec 4) ++ dn ++ (0 : BitVec 1) ++ sz.bits2 ++ src.field6
  | .andToEa sz dn dst => (0b1100 : BitVec 4) ++ dn ++ (1 : BitVec 1) ++ sz.bits2 ++ dst.field6
  | .abcd mem x y => (0b1100 : BitVec 4) ++ x ++ (0b10000 : BitVec 5) ++ bit1 mem ++ y
  | .divuW src dn => (0b1000 : BitVec 4) ++ dn ++ (0b011 : BitVec 3) ++ src.field6
  | .divsW src dn => (0b1000 : BitVec 4) ++ dn ++ (0b111 : BitVec 3) ++ src.field6
  | .pack mem x y _ => (0b1000 : BitVec 4) ++ y ++ (0b10100 : BitVec 5) ++ bit1 mem ++ x
  | .unpk mem x y _ => (0b1000 : BitVec 4) ++ y ++ (0b11000 : BitVec 5) ++ bit1 mem ++ x
  | .muluW src dn => (0b1100 : BitVec 4) ++ dn ++ (0b011 : BitVec 3) ++ src.field6
  | .mulsW src dn => (0b1100 : BitVec 4) ++ dn ++ (0b111 : BitVec 3) ++ src.field6
  | .exgDD x y => (0b1100 : BitVec 4) ++ x ++ (0b101000 : BitVec 6) ++ y
  | .exgAA x y => (0b1100 : BitVec 4) ++ x ++ (0b101001 : BitVec 6) ++ y
  | .exgDA x y => (0b1100 : BitVec 4) ++ x ++ (0b110001 : BitVec 6) ++ y
  | .subToReg sz src dn => (0b1001 : BitVec 4) ++ dn ++ (0 : BitVec 1) ++ sz.bits2 ++ src.field6
  | .subToEa sz dn dst => (0b1001 : BitVec 4) ++ dn ++ (1 : BitVec 1) ++ sz.bits2 ++ dst.field6
  | .subaW src an => (0b1001 : BitVec 4) ++ an ++ (0b011 : BitVec 3) ++ src.field6
  | .subaL src an => (0b1001 : BitVec 4) ++ an ++ (0b111 : BitVec 3) ++ src.field6
  | .subx sz mem x y =>
    (0b1001 : BitVec 4) ++ x ++ (1 : BitVec 1) ++ sz.bits2 ++ (0b00 : BitVec 2) ++ bit1 mem ++ y
  | .addToReg sz src dn => (0b1101 : BitVec 4) ++ dn ++ (0 : BitVec 1) ++ sz.bits2 ++ src.field6
  | .addToEa sz dn dst => (0b1101 : BitVec 4) ++ dn ++ (1 : BitVec 1) ++ sz.bits2 ++ dst.field6
  | .addaW src an => (0b1101 : BitVec 4) ++ an ++ (0b011 : BitVec 3) ++ src.field6
  | .addaL src an => (0b1101 : BitVec 4) ++ an ++ (0b111 : BitVec 3) ++ src.field6
  | .addx sz mem x y =>
    (0b1101 : BitVec 4) ++ x ++ (1 : BitVec 1) ++ sz.bits2 ++ (0b00 : BitVec 2) ++ bit1 mem ++ y
  | .cmp sz src dn => (0b1011 : BitVec 4) ++ dn ++ (0 : BitVec 1) ++ sz.bits2 ++ src.field6
  | .cmpaW src an => (0b1011 : BitVec 4) ++ an ++ (0b011 : BitVec 3) ++ src.field6
  | .cmpaL src an => (0b1011 : BitVec 4) ++ an ++ (0b111 : BitVec 3) ++ src.field6
  | .eor sz dn dst => (0b1011 : BitVec 4) ++ dn ++ (1 : BitVec 1) ++ sz.bits2 ++ dst.field6
  | .cmpm sz x y => (0b1011 : BitVec 4) ++ x ++ (1 : BitVec 1) ++ sz.bits2 ++ (0b001 : BitVec 3) ++ y
  | .asrReg sz c dy => shiftRegWord c 0 sz 0b00 dy
  | .asrMem dst => (0b1110000011 : BitVec 10) ++ dst.field6
  | .aslReg sz c dy => shiftRegWord c 1 sz 0b00 dy
  | .aslMem dst => (0b1110000111 : BitVec 10) ++ dst.field6
  | .lsrReg sz c dy => shiftRegWord c 0 sz 0b01 dy
  | .lsrMem dst => (0b1110001011 : BitVec 10) ++ dst.field6
  | .lslReg sz c dy => shiftRegWord c 1 sz 0b01 dy
  | .lslMem dst => (0b1110001111 : BitVec 10) ++ dst.field6
  | .roxrReg sz c dy => shiftRegWord c 0 sz 0b10 dy
  | .roxrMem dst => (0b1110010011 : BitVec 10) ++ dst.field6
  | .roxlReg sz c dy => shiftRegWord c 1 sz 0b10 dy
  | .roxlMem dst => (0b1110010111 : BitVec 10) ++ dst.field6
  | .rorReg sz c dy => shiftRegWord c 0 sz 0b11 dy
  | .rorMem dst => (0b1110011011 : BitVec 10) ++ dst.field6
  | .rolReg sz c dy => shiftRegWord c 1 sz 0b11 dy
  | .rolMem dst => (0b1110011111 : BitVec 10) ++ dst.field6
  | .bftst _ ea => (0b1110100011 : BitVec 10) ++ ea.field6
  | .bfextu _ ea _ => (0b1110100111 : BitVec 10) ++ ea.field6
  | .bfchg _ ea => (0b1110101011 : BitVec 10) ++ ea.field6
  | .bfexts _ ea _ => (0b1110101111 : BitVec 10) ++ ea.field6
  | .bfclr _ ea => (0b1110110011 : BitVec 10) ++ ea.field6
  | .bfffo _ ea _ => (0b1110110111 : BitVec 10) ++ ea.field6
  | .bfset _ ea => (0b1110111011 : BitVec 10) ++ ea.field6
  | .bfins _ _ ea => (0b1110111111 : BitVec 10) ++ ea.field6
  | .lineA bits => (0b1010 : BitVec 4) ++ bits
  | .lineF bits => (0b1111 : BitVec 4) ++ bits

/-- The extension words of an instruction, in the order of R122. Privileged instructions have none here: the
core fetches none of theirs (R138). -/
def extWords : Instr → List Word16
  | .ori sz imm dst | .andi sz imm dst | .eori sz imm dst | .subi sz imm dst | .addi sz imm dst
  | .cmpi sz imm dst => immWords sz imm ++ dst.words sz
  | .oriToCcr imm | .andiToCcr imm | .eoriToCcr imm => [imm.setWidth 16]
  | .oriToSr | .andiToSr | .eoriToSr => []
  | .cmp2 sz rn src => (rn.bits ++ (0 : BitVec 12)) :: src.words sz
  | .chk2 sz rn src => (rn.bits ++ (1 : BitVec 1) ++ (0 : BitVec 11)) :: src.words sz
  | .rtm _ => []
  | .callm arg src => arg :: src.words .l
  | .btstImm n ea | .bchgImm n ea | .bclrImm n ea | .bsetImm n ea => n.setWidth 16 :: ea.words .b
  | .btstReg _ ea | .bchgReg _ ea | .bclrReg _ ea | .bsetReg _ ea => ea.words .b
  | .movep _ _ _ _ d => [d]
  | .moves _ _ => []
  | .casB dc du dst => ((0 : BitVec 7) ++ du ++ (0 : BitVec 3) ++ dc) :: dst.words .b
  | .casW dc du dst => ((0 : BitVec 7) ++ du ++ (0 : BitVec 3) ++ dc) :: dst.words .w
  | .casL dc du dst => ((0 : BitVec 7) ++ du ++ (0 : BitVec 3) ++ dc) :: dst.words .l
  | .cas2W o1 o2 | .cas2L o1 o2 => [o1.word, o2.word]
  | .moveB src dst => src.words .b ++ dst.words .b
  | .moveW src dst => src.words .w ++ dst.words .w
  | .moveL src dst => src.words .l ++ dst.words .l
  | .moveaW src _ => src.words .w
  | .moveaL src _ => src.words .l
  | .negx sz dst | .clr sz dst | .neg sz dst | .notEa sz dst => dst.words sz
  | .moveFromSr _ | .moveToSr _ => []
  | .moveFromCcr ea | .moveToCcr ea => ea.words .w
  | .chkW src _ => src.words .w
  | .chkL src _ => src.words .l
  | .lea src _ | .pea src | .jsr src | .jmp src => src.words .l
  | .nbcd dst | .tas dst => dst.words .b
  | .linkL _ d => longWords d
  | .swap _ | .bkpt _ | .extW _ | .extL _ | .extbL _ => []
  | .movemToMem sz mask ea | .movemToReg sz mask ea => mask :: ea.words sz
  | .tst sz src => src.words sz
  | .illegal => []
  | .muluL dl p src => p.word dl 0 :: src.words .l
  | .mulsL dl p src => p.word dl 1 :: src.words .l
  | .divuL dq wide dr src => divWord dq 0 wide dr :: src.words .l
  | .divsL dq wide dr src => divWord dq 1 wide dr :: src.words .l
  | .trap _ => []
  | .linkW _ d => [d]
  | .unlk _ | .moveToUsp _ | .moveFromUsp _ | .reset | .nop | .stop | .rte => []
  | .rtd d => [d]
  | .rts | .trapv | .rtr | .movec _ => []
  | .addq sz _ dst | .subq sz _ dst => dst.words sz
  | .scc _ dst => dst.words .b
  | .dbcc _ _ d => [d]
  | .trapcc _ o => o.words
  | .bra d | .bsr d | .bcc _ d => d.words
  | .moveq _ _ => []
  | .orToReg sz ea _ | .andToReg sz ea _ | .subToReg sz ea _ | .addToReg sz ea _ | .cmp sz ea _
  | .orToEa sz _ ea | .andToEa sz _ ea | .subToEa sz _ ea | .addToEa sz _ ea | .eor sz _ ea => ea.words sz
  | .sbcd _ _ _ | .abcd _ _ _ => []
  | .divuW src _ | .divsW src _ | .muluW src _ | .mulsW src _ => src.words .w
  | .pack _ _ _ adj | .unpk _ _ _ adj => [adj]
  | .exgDD _ _ | .exgAA _ _ | .exgDA _ _ => []
  | .subaW src _ | .addaW src _ | .cmpaW src _ => src.words .w
  | .subaL src _ | .addaL src _ | .cmpaL src _ => src.words .l
  | .subx _ _ _ _ | .addx _ _ _ _ | .cmpm _ _ _ => []
  | .asrReg _ _ _ | .aslReg _ _ _ | .lsrReg _ _ _ | .lslReg _ _ _ | .roxrReg _ _ _ | .roxlReg _ _ _
  | .rorReg _ _ _ | .rolReg _ _ _ => []
  | .asrMem dst | .aslMem dst | .lsrMem dst | .lslMem dst | .roxrMem dst | .roxlMem dst | .rorMem dst
  | .rolMem dst => dst.words .w
  | .bftst bf ea | .bfchg bf ea | .bfclr bf ea | .bfset bf ea => bf.word 0 :: ea.words .l
  | .bfextu bf ea dn | .bfexts bf ea dn | .bfffo bf ea dn | .bfins bf dn ea => bf.word dn :: ea.words .l
  | .lineA _ | .lineF _ => []

/-- The words of an instruction. -/
def encode (i : Instr) : List Word16 := opcodeWord i :: extWords i

/-- `bytes_consumed`: the length in bytes of the whole instruction, opcode word included (R121). -/
def byteLength (i : Instr) : Nat := 2 * (encode i).length

end Sys2Proof
end

