-- ==== Sys2Proof/Machine/State.lean ====
section
/-! DEFINITION. The state of the core (R40): registers, CCR, run status, the fetch bookkeeping, guest
memory and its region map, and the model's own draw counter; the halt record (R604); the reasons a step
stops; and the state after reset (R56, R650). Plain data only. -/

namespace Sys2Proof.Machine

open Sys2Proof

/-- What stopped the core (R604). -/
inductive Cause where
  | busError
  | addressError
  | illegalInstruction
  | divideByZero
  | chk
  | trapcc
  | privilegeViolation
  | lineA
  | lineF
  | trap
  | staleFetch
deriving DecidableEq, Repr, Inhabited

/-- The MC68020 frame format a halt record names (R600): 0 or 2. -/
inductive FrameFormat where
  | format0
  | format2
deriving DecidableEq, Repr, Inhabited

/-- The access that failed: its first byte address, its kind and its length in bytes (R604). -/
structure FaultDetail where
  addr : Addr
  kind : Access
  size : Nat
deriving DecidableEq, Repr, Inhabited

/-- The halt record: what an MC68020 exception frame would have held (R604). -/
structure HaltRecord where
  cause : Cause
  vector : Option (BitVec 8)
  format : Option FrameFormat
  pc : Addr
  instrAddr : Addr
  sr : BitVec 16
  opcode : Option Word16
  fault : Option FaultDetail
deriving DecidableEq, Repr, Inhabited

/-- The run status (R51). -/
inductive Status where
  | running
  | syscallPending
  | halted (rec : HaltRecord)
  | exited (code : BitVec 8)
deriving DecidableEq, Repr, Inhabited

/-- An exception, as `raise E(info)` names it (R19, R600). AddressError and StaleFetch arise only in a fetch. -/
inductive Raise where
  | busError (fault : FaultDetail)
  | addressError (addr : Addr)
  | staleFetch (addr : Addr)
  | illegalInstruction
  | divideByZero
  | chk
  | trapcc
  | privilegeViolation
  | lineA
  | lineF
  /-- `TRAP #n`, n = 1 to 15. -/
  | trap (n : BitVec 4)
  /-- `TRAP #0`. -/
  | syscall
deriving DecidableEq, Repr, Inhabited

/-- The state of the core. SR bits 15:5 are fixed at 0 and are no state (R45); the control registers of the
MC68020 are no state either (R50). -/
structure State where
  /-- D0 to D7 (R41). -/
  d : Vector Long 8
  /-- A0 to A7; A7 is the stack pointer (R42). -/
  a : Vector Long 8
  /-- The address of the next opcode word; during an instruction, `pc_op` (R47). -/
  pc : Addr
  /-- The condition codes X N Z V C (R46). -/
  ccr : Ccr
  /-- The run status (R51). -/
  status : Status
  /-- The byte addresses read as instruction-stream bytes since reset, in rising order (R52). -/
  ifetched : List Nat
  /-- Those of them written after they were last fetched, in rising order (R52). -/
  stale : List Nat
  /-- Guest memory: the bytes that differ from 0, in rising order of address (R80, log entry 3). -/
  mem : List Host.Cell
  /-- The region map (R80). -/
  regions : List Region
  /-- The MODEL's own: how many free values have been drawn (log entry 4). -/
  draws : Nat
deriving DecidableEq, Repr

/-- Why no step exists from a state. Neither is raised by an instruction: every instruction of the model
answers a next state, its exception included. -/
inductive Fault where
  /-- Raised by `step` when `status` is `halted`: "no further step exists" (R51, R623). Safe. -/
  | halted
  /-- Raised by `step` when `status` is `exited`: the run has ended (R51, R623). Safe. -/
  | exited
deriving DecidableEq, Repr, Inhabited

/-- Why an instruction is refused. -/
inductive Refusal where
  /-- Raised by an arm of `exec` for an instruction with no meaning yet; no arm does. Safe. -/
  | notModelled (mnemonic : String)
deriving DecidableEq, Repr, Inhabited

/-- `Reset(entry_pc, init_sp, init_regs, init_ccr, init_mem, init_regions)` of R650. -/
def State.launch (l : Launch) : State where
  d := l.initD
  a := (l.initA.push l.initSp)
  pc := l.entryPc
  ccr := l.initCcr
  status := .running
  ifetched := []
  stale := []
  mem := l.initMem
  regions := l.initRegions
  draws := 0

/-- The machine right after reset: the launch `Config.launch` (log entry 1). -/
def State.reset : State := State.launch Config.launch

end Sys2Proof.Machine
end

