-- ==== Sys2Proof/Machine/Ops.lean ====
section
/-! DEFINITION. The named operations: guest memory, the region map, the byte-address sets, registers and
CCR, the access primitives of R84 to R88 and R20, the draws, taking an exception (R603, R604, R612) and
the return from the one that returns (R613), and the frame every instruction runs in (R54). -/

namespace Sys2Proof.Machine

open Sys2Proof

abbrev Outcome := Host.Outcome State Fault Refusal

/-- What an instruction does: it changes the state and answers a value, or raises, and then what it did
before the raise stays (R19, R609). -/
abbrev Exec := EStateM Raise State

/-- `raise E(info)` (R19). -/
def raise {α : Type} (e : Raise) : Exec α := fun s => .error e s

/-! ### Guest memory as a list of cells -/

/-- The byte at an address; an unlisted address reads as 0 (log entry 3). -/
def Memory.get : List Host.Cell → Nat → Byte
  | [], _ => 0
  | (a, v) :: m, k => if a = k then v else Memory.get m k

/-- Write one byte, keeping the canonical form. -/
def Memory.set : List Host.Cell → Nat → Byte → List Host.Cell
  | [], k, v => if v = 0 then [] else [(k, v)]
  | (a, x) :: m, k, v =>
    if a < k then (a, x) :: Memory.set m k v
    else if a = k then (if v = 0 then m else (k, v) :: m)
    else if v = 0 then (a, x) :: m
    else (k, v) :: (a, x) :: m

/-- The canonical form from address `lo` on: strictly rising addresses of 32 bits, no byte 0 listed. -/
def Memory.wfFrom (lo : Nat) : List Host.Cell → Bool
  | [] => true
  | (a, v) :: m => decide (lo ≤ a) && decide (a < 2 ^ 32) && v != 0 && Memory.wfFrom (a + 1) m

/-- The canonical form of guest memory. -/
def Memory.wf (m : List Host.Cell) : Bool := Memory.wfFrom 0 m

/-- The byte addresses of an access of `n` bytes at `a`, each modulo 2^32 (R83). -/
def byteAddrs (a : Addr) : Nat → List Nat
  | 0 => []
  | n + 1 => a.toNat :: byteAddrs (a + 1) n

/-- A list of bytes as a big-endian number: `Σ byte[i] * 2^(8*(n-1-i))` (R82). -/
def beValue : List Byte → Nat
  | [] => 0
  | b :: bs => b.toNat * 256 ^ bs.length + beValue bs

/-- The low `n` bytes of a number, big-endian (R82). -/
def beBytes : Nat → Nat → List Byte
  | 0, _ => []
  | n + 1, v => BitVec.ofNat 8 (v / 256 ^ n) :: beBytes n v

/-- Write bytes at consecutive addresses modulo 2^32, the first at `a`. -/
def Memory.setBytes : List Host.Cell → Addr → List Byte → List Host.Cell
  | m, _, [] => m
  | m, a, b :: bs => Memory.setBytes (Memory.set m a.toNat b) (a + 1) bs

/-! ### Sets of byte addresses -/

/-- Add an address to a set held in rising order. -/
def AddrSet.insert : List Nat → Nat → List Nat
  | [], k => [k]
  | a :: as, k => if a < k then a :: AddrSet.insert as k else if a = k then a :: as else k :: a :: as

/-- Rising order from `lo` on. -/
def AddrSet.wfFrom (lo : Nat) : List Nat → Bool
  | [] => true
  | a :: as => decide (lo ≤ a) && AddrSet.wfFrom (a + 1) as

/-- The canonical form of a set of byte addresses. -/
def AddrSet.wf (as : List Nat) : Bool := AddrSet.wfFrom 0 as

/-- Add several addresses. -/
def AddrSet.insertAll (as : List Nat) (ks : List Nat) : List Nat := ks.foldl AddrSet.insert as

/-! ### The region map -/

def Region.contains (r : Region) (a : Nat) : Bool := decide (r.base ≤ a) && decide (a < r.base + r.length)

/-- The permission an access needs: X, R or W (R84 to R86, R95). -/
def Region.allows (r : Region) : Access → Bool
  | .fetch => r.x
  | .read => r.r
  | .write => r.w

/-- A byte address is mapped when it lies in a region (R80). -/
def mappedAt (rs : List Region) (a : Nat) : Bool := rs.any fun r => Region.contains r a

/-- The byte is mapped and its region has the permission. -/
def allowedAt (rs : List Region) (k : Access) (a : Nat) : Bool :=
  rs.any fun r => Region.contains r a && Region.allows r k

/-- Every byte of an access is mapped with the permission: an access is checked whole (R87). -/
def allowed (rs : List Region) (k : Access) (a : Addr) (n : Nat) : Bool :=
  (byteAddrs a n).all (allowedAt rs k)

/-! ### Registers and flags -/

def State.getD (s : State) (n : RegNo) : Long := s.d[n.toNat]

def State.setD (s : State) (n : RegNo) (v : Long) : State := { s with d := s.d.set n.toNat v }

def State.getA (s : State) (n : RegNo) : Long := s.a[n.toNat]

def State.setA (s : State) (n : RegNo) (v : Long) : State := { s with a := s.a.set n.toNat v }

/-- `R[k]` (R16). -/
def State.getR (s : State) : RegSel → Long
  | .d n => s.getD n
  | .a n => s.getA n

def State.setR (s : State) (r : RegSel) (v : Long) : State :=
  match r with
  | .d n => s.setD n v
  | .a n => s.setA n v

/-- `WriteD(n, s, v)`'s value: the upper bits of the register are kept (R16). -/
def mergeLow (sz : Size) (old v : Long) : Long :=
  match sz with
  | .b => old.extractLsb' 8 24 ++ v.extractLsb' 0 8
  | .w => old.extractLsb' 16 16 ++ v.extractLsb' 0 16
  | .l => v

/-- `WriteD(n, s, v)` (R16). -/
def State.writeD (s : State) (n : RegNo) (sz : Size) (v : Long) : State :=
  s.setD n (mergeLow sz (s.getD n) v)

/-- `WriteA(n, s, v)`: always 32 bits, sign-extended (R16). -/
def State.writeA (s : State) (n : RegNo) (sz : Size) (v : Long) : State := s.setA n (sz.sext v)

def State.setCcr (s : State) (c : Ccr) : State := { s with ccr := c }

/-- CCR bits 4:0: X N Z V C (R45). -/
def Ccr.toBits (c : Ccr) : BitVec 5 := bit1 c.x ++ bit1 c.n ++ bit1 c.z ++ bit1 c.v ++ bit1 c.c

/-- A write of the CCR keeps bits 4:0 (R46). -/
def Ccr.ofBits (b : BitVec 5) : Ccr where
  x := b.getLsbD 4
  n := b.getLsbD 3
  z := b.getLsbD 2
  v := b.getLsbD 1
  c := b.getLsbD 0

/-- SR as software reads it: bits 15:5 are 0 (R45, R46). -/
def State.sr (s : State) : BitVec 16 := (Ccr.toBits s.ccr).setWidth 16

/-! ### Memory in the state -/

/-- The big-endian value of `n` bytes at `a`, no check made (R82, R83). -/
def State.load (s : State) (a : Addr) (n : Nat) : Nat := beValue ((byteAddrs a n).map (Memory.get s.mem))

/-- A write makes stale those of its bytes that were fetched (R86, R101). -/
def markStale (ifetched stale : List Nat) (ks : List Nat) : List Nat :=
  AddrSet.insertAll stale (ks.filter fun k => ifetched.contains k)

/-- Write `n` bytes of `v` big-endian at `a`, no check made, and mark what becomes stale (R82, R86). -/
def State.store (s : State) (a : Addr) (n : Nat) (v : Nat) : State :=
  { s with
    mem := Memory.setBytes s.mem a (beBytes n v)
    stale := markStale s.ifetched s.stale (byteAddrs a n) }

/-! ### Primitives of an instruction -/

def readD (n : RegNo) : Exec Long := fun s => .ok (s.getD n) s

def readA (n : RegNo) : Exec Long := fun s => .ok (s.getA n) s

def readR (r : RegSel) : Exec Long := fun s => .ok (s.getR r) s

/-- `D[n][bits(s)-1:0]`. -/
def readDLow (n : RegNo) (sz : Size) : Exec Long := fun s => .ok (sz.trunc (s.getD n)) s

def putD (n : RegNo) (v : Long) : Exec Unit := fun s => .ok () (s.setD n v)

def putA (n : RegNo) (v : Long) : Exec Unit := fun s => .ok () (s.setA n v)

def putR (r : RegSel) (v : Long) : Exec Unit := fun s => .ok () (s.setR r v)

def putDLow (n : RegNo) (sz : Size) (v : Long) : Exec Unit := fun s => .ok () (s.writeD n sz v)

def putASized (n : RegNo) (sz : Size) (v : Long) : Exec Unit := fun s => .ok () (s.writeA n sz v)

def readCcr : Exec Ccr := fun s => .ok s.ccr s

def putCcr (c : Ccr) : Exec Unit := fun s => .ok () (s.setCcr c)

/-- Change the flags as a function of the flags. -/
def modifyCcr (f : Ccr → Ccr) : Exec Unit := fun s => .ok () (s.setCcr (f s.ccr))

/-- `pc_op`: the PC does not move before the instruction ends (R97). -/
def readPcOp : Exec Addr := fun s => .ok s.pc s

/-- The next draw of an undefined bit (D7). -/
def drawBit : Exec Bool := fun s => .ok (Config.drawBit s.draws) { s with draws := s.draws + 1 }

/-- The next draw of an undefined byte (D25). -/
def drawByte : Exec Byte := fun s => .ok (Config.drawByte s.draws) { s with draws := s.draws + 1 }

/-- The next draw of an undefined register value (D22). -/
def drawLong : Exec Long := fun s => .ok (Config.drawLong s.draws) { s with draws := s.draws + 1 }

/-- A draw from two values (D20, D21, D36). -/
def drawFrom (x y : Long) : Exec Long := do
  let b ← drawBit
  pure (if b then x else y)

/-- A draw from two values where the condition holds, else the third (D20, D21). -/
def drawIf (c : Bool) (x y z : Long) : Exec Long := if c then drawFrom x y else pure z

/-- Raise BusError unless every byte of the access is mapped with its permission (R84 to R87). -/
def checkAccess (k : Access) (a : Addr) (n : Nat) : Exec Unit := fun s =>
  if allowed s.regions k a n then .ok () s
  else .error (.busError { addr := a, kind := k, size := n }) s

/-- `MemRead(a, n)` (R85). -/
def memRead (a : Addr) (n : Nat) : Exec Nat := fun s =>
  if allowed s.regions .read a n then .ok (s.load a n) s
  else .error (.busError { addr := a, kind := .read, size := n }) s

/-- `MemWrite(a, n, v)` (R86). -/
def memWrite (a : Addr) (n : Nat) (v : Nat) : Exec Unit := fun s =>
  if allowed s.regions .write a n then .ok () (s.store a n v)
  else .error (.busError { addr := a, kind := .write, size := n }) s

/-- `MemRead(a, bytes(s))` as a register value. -/
def memReadSized (sz : Size) (a : Addr) : Exec Long := do
  let v ← memRead a sz.bytes
  pure (BitVec.ofNat 32 v)

/-- `MemWrite(a, bytes(s), v)` of a register value. -/
def memWriteSized (sz : Size) (a : Addr) (v : Long) : Exec Unit := memWrite a sz.bytes v.toNat

/-- A7, the stack pointer (R42). -/
abbrev spReg : RegNo := 7

/-- `Push(4, v)`: A7 is written after the access (R20). -/
def push (v : Long) : Exec Unit := do
  let sp ← readA spReg
  memWriteSized .l (sp - 4) v
  putA spReg (sp - 4)

/-- `Pop(n)` of a word or a long: A7 is written after the access (R20). -/
def pop (sz : Size) : Exec Long := do
  let sp ← readA spReg
  let v ← memReadSized sz sp
  putA spReg (sp + BitVec.ofNat 32 sz.bytes)
  pure v

/-! ### Exceptions -/

/-- The cause a halt record names; SyscallTrap makes no record (R612). -/
def Raise.cause : Raise → Cause
  | .busError _ => .busError
  | .addressError _ => .addressError
  | .staleFetch _ => .staleFetch
  | .illegalInstruction => .illegalInstruction
  | .divideByZero => .divideByZero
  | .chk => .chk
  | .trapcc => .trapcc
  | .privilegeViolation => .privilegeViolation
  | .lineA => .lineA
  | .lineF => .lineF
  | .trap _ | .syscall => .trap

/-- The vector numbers of R600. -/
def Raise.vector : Raise → Option (BitVec 8)
  | .busError _ => some 2
  | .addressError _ => some 3
  | .staleFetch _ => none
  | .illegalInstruction => some 4
  | .divideByZero => some 5
  | .chk => some 6
  | .trapcc => some 7
  | .privilegeViolation => some 8
  | .lineA => some 10
  | .lineF => some 11
  | .trap n => some (32 + n.setWidth 8)
  | .syscall => some 32

/-- The frame formats of R600, A and B recorded as none (R604). -/
def Raise.format : Raise → Option FrameFormat
  | .busError _ | .addressError _ | .staleFetch _ | .syscall => none
  | .illegalInstruction | .privilegeViolation | .lineA | .lineF | .trap _ => some .format0
  | .divideByZero | .chk | .trapcc => some .format2

/-- The traps record pc_next; the faults record pc_op (R600, D26). -/
def Raise.isTrap : Raise → Bool
  | .divideByZero | .chk | .trapcc | .trap _ | .syscall => true
  | .busError _ | .addressError _ | .staleFetch _ | .illegalInstruction | .privilegeViolation | .lineA
  | .lineF => false

/-- The fault details of BusError, AddressError and StaleFetch (R604, R606). -/
def Raise.fault : Raise → Option FaultDetail
  | .busError f => some f
  | .addressError a | .staleFetch a => some { addr := a, kind := .fetch, size := 2 }
  | .illegalInstruction | .divideByZero | .chk | .trapcc | .privilegeViolation | .lineA | .lineF | .trap _
  | .syscall => none

/-- The halt record of R604. -/
def haltRecord (pcOp pcNext : Addr) (opcode : Option Word16) (e : Raise) (s : State) : HaltRecord where
  cause := e.cause
  vector := e.vector
  format := e.format
  pc := if e.isTrap then pcNext else pcOp
  instrAddr := pcOp
  sr := s.sr
  opcode := opcode
  fault := e.fault

/-- TAKING AN EXCEPTION (R603, R612). `TRAP #0` moves the PC to pc_next and waits for the host; every other
exception halts the core with its record: no frame, no vector, no change of A7, SR or PC. -/
def takeException (pcOp pcNext : Addr) (opcode : Option Word16) (e : Raise) (s : State) : State :=
  match e with
  | .syscall => { s with pc := pcNext, status := .syscallPending }
  | .busError _ | .addressError _ | .staleFetch _ | .illegalInstruction | .divideByZero | .chk | .trapcc
  | .privilegeViolation | .lineA | .lineF | .trap _ =>
    { s with status := .halted (haltRecord pcOp pcNext opcode e s) }

/-- The signal the host makes of a halt (R611); StaleFetch has none. -/
def HaltRecord.signal (r : HaltRecord) : Option Signal :=
  match r.cause with
  | .illegalInstruction | .lineA | .lineF | .privilegeViolation => some .sigill
  | .busError => some .sigsegv
  | .addressError => some .sigbus
  | .divideByZero | .chk | .trapcc => some .sigfpe
  | .trap => r.vector.map Config.trapSignal
  | .staleFetch => none

/-! ### The return from `TRAP #0` -/

/-- What the host sees while the call is pending (R613). -/
def State.hostView (s : State) : HostView where
  d := s.d
  a := s.a
  ccr := s.ccr
  pc := s.pc
  mem := s.mem
  regions := s.regions

/-- The bytes that stay when the host leaves the region map `rs`: a byte no region holds any more is lost (R101). Only
the map after the answer decides (DESIGN CHOICE, log entry 21). -/
def Memory.restrict (m : List Host.Cell) (rs : List Region) : List Host.Cell :=
  m.filter fun c => mappedAt rs c.1

/-- One byte the host writes: only a mapped byte exists; a fetched one becomes stale (R101). -/
def State.hostWrite (s : State) (a : Addr) (b : Byte) : State :=
  if mappedAt s.regions a.toNat then
    { s with
      mem := Memory.set s.mem a.toNat b
      stale := markStale s.ifetched s.stale [a.toNat] }
  else s

/-- `Resume(D0', mem', regions')`: the other registers, CCR and PC keep their values (R613, D37). DESIGN CHOICE (log entry
21): an answer is its final region map and its writes, and R101 does not say how a region unmapped and created anew within
one call shows in it. A byte mapped before the answer and after it keeps its value unless a write names it, even where the
host unmapped its region and created it anew in this call: such a host lists the zeros as writes. A byte an earlier answer
left unmapped has lost its value and reads as 0 when mapped again (log entry 3). Only the bytes the answer lists as writes
become stale: R101 and R660 do not say that the bytes a new region holds are host writes. -/
def State.resume (s : State) (d0 : Long) (writes : List (Addr × Byte)) (rs : List Region) : State :=
  let t := { s with mem := Memory.restrict s.mem rs, regions := rs }
  let u := writes.foldl (fun t w => t.hostWrite w.1 w.2) t
  { u.setD 0 d0 with status := .running }

/-- -38, ENOSYS (R613). -/
abbrev enosys : Long := 0xFFFFFFDA

/-- RETURNING FROM `TRAP #0` (R613, R614): the host answers the pending call. A number outside its table gives
-38 with nothing else touched; the rest is the parameter `Syscall` (log entry 5). -/
def hostReturn (s : State) : State :=
  if Config.syscallSupported (s.getD 0) then
    match Config.syscall s.draws s.hostView with
    | .resume d0 writes rs _ => { s.resume d0 writes rs with draws := s.draws + 1 }
    | .exit code => { s with status := .exited (code.setWidth 8), draws := s.draws + 1 }
  else { s.setD 0 enosys with status := .running }

/-! ### The frame of an instruction -/

/-- `pc_next`: the address after the whole instruction, modulo 2^32 (R19, R48). -/
def pcNext (i : Instr) (pcOp : Addr) : Addr := pcOp + BitVec.ofNat 32 (byteLength i)

/-- Execute an instruction whose body answers the next PC; the PC is set last (R54, R97). A raise is taken
with what was done before it kept. -/
def runTo (i : Instr) (body : Exec Addr) (s : State) : Outcome :=
  match body s with
  | .ok target t => .next { t with pc := target }
  | .error e t => .next (takeException s.pc (pcNext i s.pc) (some (opcodeWord i)) e t)

/-- Execute an instruction that does not set the PC: it advances to pc_next (R48, R54). -/
def runSeq (i : Instr) (body : Exec Unit) (s : State) : Outcome :=
  match body s with
  | .ok _ t => .next { t with pc := pcNext i s.pc }
  | .error e t => .next (takeException s.pc (pcNext i s.pc) (some (opcodeWord i)) e t)

end Sys2Proof.Machine
end

