-- ==== Sys2Proof/Machine/Operands.lean ====
section
/-! DEFINITION. The effective-address resolver (40_effective_address.md): from an operand descriptor to an
operand, and the reads and writes of operands. `k` is always the number of instruction words before the
operand's own extension words, so that `ext_addr(op) = pc_op + 2 * k` (R201, R211). -/

namespace Sys2Proof.Machine

open Sys2Proof

/-- An operand (R200). `post` is the address register of a postincrement whose step is still to be applied,
right after the operand's first memory access (R204). -/
inductive Operand where
  | dreg (n : RegNo)
  | areg (n : RegNo)
  | mem (a : Addr) (post : Option RegNo)
  | imm (v : Long)
deriving DecidableEq, Repr, Inhabited

/-- `step(reg, s)`: A7 steps by 2 for a byte (R204). -/
def stepOf (n : RegNo) (sz : Size) : Long :=
  if n = spReg ∧ sz = .b then 2 else BitVec.ofNat 32 sz.bytes

/-- The index of an indexed mode: the register or its low word sign-extended, scaled (R207). -/
def State.indexValue (s : State) (x : Index) : Long :=
  (if x.long then s.getR x.reg else Size.w.sext (s.getR x.reg)) <<< x.scale.toNat

/-- A displacement sign-extended to 32 bits (R208). -/
def Disp.value : Disp → Long
  | .null => 0
  | .word d => d.signExtend 32
  | .long d => d

/-- The address of an indexed mode over a base (R207 to R209); a memory-indirect form reads its pointer. -/
def indexedAddr (base : Long) (x : IndexExt) : Exec Addr :=
  match x with
  | .brief i d8 => fun s => .ok (base + d8.signExtend 32 + s.indexValue i) s
  | .full i bs is bd ind => do
    let s ← get
    let b := if bs then 0 else base
    let idx := if is then 0 else s.indexValue i
    match ind with
    | .none => pure (b + Disp.value bd + idx)
    | .pre od => do
      let p ← memReadSized .l (b + Disp.value bd + idx)
      pure (p + Disp.value od)
    | .post od => do
      let p ← memReadSized .l (b + Disp.value bd)
      pure (p + idx + Disp.value od)

/-- `ext_addr(op)` (R201). -/
def extAddr (pcOp : Addr) (k : Nat) : Addr := pcOp + BitVec.ofNat 32 (2 * k)

/-- `EA(mode, reg, s)` (R202 to R212). A predecrement is applied here, before the access (R205). -/
def resolve (sz : Size) (ea : EA) (k : Nat) : Exec Operand :=
  match ea with
  | .dreg n => pure (.dreg n)
  | .areg n => pure (.areg n)
  | .ind n => do
    let a ← readA n
    pure (.mem a none)
  | .postinc n => do
    let a ← readA n
    pure (.mem a (some n))
  | .predec n => do
    let a ← readA n
    putA n (a - stepOf n sz)
    pure (.mem (a - stepOf n sz) none)
  | .disp n d => do
    let a ← readA n
    pure (.mem (a + d.signExtend 32) none)
  | .index n x => do
    let a ← readA n
    let ad ← indexedAddr a x
    pure (.mem ad none)
  | .absW a => pure (.mem (a.signExtend 32) none)
  | .absL a => pure (.mem a none)
  | .pcDisp d => do
    let pc ← readPcOp
    pure (.mem (extAddr pc k + d.signExtend 32) none)
  | .pcIndex x => do
    let pc ← readPcOp
    let ad ← indexedAddr (extAddr pc k) x
    pure (.mem ad none)
  | .imm v => pure (.imm v)

/-- Apply the step of a postincrement operand (R204). -/
def applyPost (sz : Size) (post : Option RegNo) : Exec Unit :=
  match post with
  | none => pure ()
  | some n => do
    let a ← readA n
    putA n (a + stepOf n sz)

/-- `ReadOp(op, s)`, then the step of a postincrement (R213, R204). -/
def readOp (sz : Size) (op : Operand) : Exec Long :=
  match op with
  | .dreg n => readDLow n sz
  | .areg n => do
    let v ← readA n
    pure (sz.trunc v)
  | .mem a post => do
    let v ← memReadSized sz a
    applyPost sz post
    pure v
  | .imm v => pure (sz.trunc v)

/-- `WriteOp(op, s, v)` to an operand already read (R214, R215). No row admits #imm here; such a term is no
instruction (R140). -/
def writeBack (sz : Size) (op : Operand) (v : Long) : Exec Unit :=
  match op with
  | .dreg n => putDLow n sz v
  | .areg n => putASized n sz v
  | .mem a _ => memWriteSized sz a v
  | .imm _ => raise .illegalInstruction

/-- `WriteOp(op, s, v)` to an operand that is only written: its write is the first access, and the step of a
postincrement follows it (R204, R214). -/
def writeOnly (sz : Size) (op : Operand) (v : Long) : Exec Unit :=
  match op with
  | .dreg n => putDLow n sz v
  | .areg n => putASized n sz v
  | .mem a post => do
    memWriteSized sz a v
    applyPost sz post
  | .imm _ => raise .illegalInstruction

/-- Resolve a source operand and read it (R216). -/
def readEa (sz : Size) (ea : EA) (k : Nat) : Exec Long := do
  let op ← resolve sz ea k
  readOp sz op

/-- Resolve a destination that is only written and write it. -/
def writeEa (sz : Size) (ea : EA) (k : Nat) (v : Long) : Exec Unit := do
  let op ← resolve sz ea k
  writeOnly sz op v

/-- `addr(op)` of a control mode: the address, not its contents (R219). A register or immediate is no control
mode; such a term is no instruction (R140). -/
def addrOf (ea : EA) (k : Nat) : Exec Addr := do
  let op ← resolve .l ea k
  match op with
  | .mem a _ => pure a
  | .dreg _ | .areg _ | .imm _ => raise .illegalInstruction

/-- How many words the immediate data of the size takes (R128). -/
def immWordCount : Size → Nat
  | .b | .w => 1
  | .l => 2

end Sys2Proof.Machine
end

