-- ==== Sys2Proof/Machine/Flags.lean ====
section
/-! DEFINITION. Flag computations (R21, R250, R251, R266, R300, R480): exact integers first, narrowed
at the end. -/

namespace Sys2Proof.Machine

open Sys2Proof

/-- A result and the flags its computation yields. -/
structure AluResult where
  value : Long
  n : Bool
  z : Bool
  v : Bool
  c : Bool
deriving DecidableEq, Repr, Inhabited

/-- `x ∉ [-2^(N-1), 2^(N-1) - 1]` (R21). -/
def outOfRange (bits : Nat) (x : Int) : Bool :=
  decide (x < -(2 ^ (bits - 1) : Int)) || decide ((2 ^ (bits - 1) : Int) - 1 < x)

/-- An exact value cut to the size, `trunc_N` of an integer (R14). -/
def truncInt (sz : Size) (x : Int) : Long := BitVec.ofInt 32 (x % (2 ^ sz.bits : Int))

/-- `AddCore(s, d, x, c_in)` (R250). -/
def addCore (sz : Size) (d x : Long) (cin : Bool) : AluResult :=
  let du := (sz.trunc d).toNat
  let xu := (sz.trunc x).toNat
  let r := BitVec.ofNat 32 ((du + xu + cin.toNat) % 2 ^ sz.bits)
  { value := r
    n := sz.msb r
    z := r == 0
    v := outOfRange sz.bits (sz.toInt d + sz.toInt x + cin.toNat)
    c := decide (2 ^ sz.bits ≤ du + xu + cin.toNat) }

/-- `SubCore(s, d, x, b_in)`: `d - x - b_in` (R251). -/
def subCore (sz : Size) (d x : Long) (bin : Bool) : AluResult :=
  let du := (sz.trunc d).toNat
  let xu := (sz.trunc x).toNat
  let r := truncInt sz ((du : Int) - xu - bin.toNat)
  { value := r
    n := sz.msb r
    z := r == 0
    v := outOfRange sz.bits (sz.toInt d - sz.toInt x - bin.toNat)
    c := decide (du < xu + bin.toNat) }

/-- X N Z V C from a result, X = C (R252). -/
def arithCcr (r : AluResult) (_old : Ccr) : Ccr := { x := r.c, n := r.n, z := r.z, v := r.v, c := r.c }

/-- As `arithCcr` but Z is only ever cleared: the multi-precision chain (R256, R261, R271). -/
def extendedCcr (r : AluResult) (old : Ccr) : Ccr :=
  { x := r.c, n := r.n, z := r.z && old.z, v := r.v, c := r.c }

/-- N Z V C from a comparison, X unchanged (R262). -/
def compareCcr (r : AluResult) (old : Ccr) : Ccr := { x := old.x, n := r.n, z := r.z, v := r.v, c := r.c }

/-- `LogicFlags(s, r)`: N and Z from the result, V = C = 0, X unchanged (R300). -/
def logicCcr (sz : Size) (r : Long) (old : Ccr) : Ccr :=
  { x := old.x, n := sz.msb r, z := sz.trunc r == 0, v := false, c := false }

/-- The predicates of R480. -/
def condHolds (c : Cond) (f : Ccr) : Bool :=
  match c with
  | .t => true
  | .f => false
  | .hi => !f.c && !f.z
  | .ls => f.c || f.z
  | .cc => !f.c
  | .cs => f.c
  | .ne => !f.z
  | .eq => f.z
  | .vc => !f.v
  | .vs => f.v
  | .pl => !f.n
  | .mi => f.n
  | .ge => f.n == f.v
  | .lt => f.n != f.v
  | .gt => !f.z && f.n == f.v
  | .le => f.z || f.n != f.v

/-- Z and C of `BoundsCheck` at equal width: `v` against the bounds, unsigned (R266, D24). -/
def boundsZ (lo hi v : Long) : Bool := v == lo || v == hi

def boundsC (lo hi v : Long) : Bool :=
  if lo ≤ hi then decide (v < lo) || decide (hi < v) else decide (hi < v) && decide (v < lo)

/-- `BoundsCheck(s, Rsel, a)`: reads the two bounds and sets Z and C; N and V are draws (R266). -/
def boundsCheck (sz : Size) (rn : RegSel) (a : Addr) : Exec Unit := do
  let lo ← memReadSized sz a
  let hi ← memReadSized sz (a + BitVec.ofNat 32 sz.bytes)
  let r ← readR rn
  let n ← drawBit
  let v ← drawBit
  match rn with
  | .a _ =>
    modifyCcr fun f =>
      { x := f.x, n := n, z := boundsZ (sz.sext lo) (sz.sext hi) r, v := v,
        c := boundsC (sz.sext lo) (sz.sext hi) r }
  | .d _ =>
    modifyCcr fun f =>
      { x := f.x, n := n, z := boundsZ lo hi (sz.trunc r), v := v, c := boundsC lo hi (sz.trunc r) }

end Sys2Proof.Machine
end

