-- ==== Sys2Proof/Machine/Rmw.lean ====
section
/-! DEFINITION. The shapes that instructions share: a step from an old value and the flags to a new value and
new flags, applied to a data register or to a read-modify-write operand (R215), and the steps of the
arithmetic and logical instructions (41_integer_arithmetic.md, 42_logical.md). -/

namespace Sys2Proof.Machine

open Sys2Proof

/-- From the destination's value and the flags, the new value and the new flags. -/
abbrev Step := Long → Ccr → Long × Ccr

/-- Apply a step to a data register at a size. -/
def updateD (sz : Size) (dn : RegNo) (f : Step) : Exec Unit := do
  let d ← readDLow dn sz
  let c ← readCcr
  putDLow dn sz (f d c).1
  modifyCcr fun old => (f d old).2

/-- Apply a step to a read-modify-write operand: read, write, then the flags (R97, R215). -/
def rmwEa (sz : Size) (ea : EA) (k : Nat) (f : Step) : Exec Unit := do
  let op ← resolve sz ea k
  let d ← readOp sz op
  let c ← readCcr
  writeBack sz op (f d c).1
  modifyCcr fun old => (f d old).2

/-- Apply a step whose rule sets the flags before the result is written back (R340, R360). -/
def rmwEaFlagsFirst (sz : Size) (ea : EA) (k : Nat) (f : Step) : Exec Unit := do
  let op ← resolve sz ea k
  let d ← readOp sz op
  let c ← readCcr
  modifyCcr fun old => (f d old).2
  writeBack sz op (f d c).1

/-- `<ea>,Dn`: the source is read, then the register is updated. -/
def eaToReg (sz : Size) (src : EA) (dn : RegNo) (f : Long → Step) : Exec Unit := do
  let x ← readEa sz src 1
  updateD sz dn (f x)

/-- `Dn,<ea>`. -/
def regToEa (sz : Size) (dn : RegNo) (dst : EA) (f : Long → Step) : Exec Unit := do
  let x ← readDLow dn sz
  rmwEa sz dst 1 (f x)

/-- `#<data>,<ea>`: the immediate's words come before the operand's (R122). -/
def immToEa (sz : Size) (imm : Long) (dst : EA) (f : Long → Step) : Exec Unit :=
  rmwEa sz dst (1 + immWordCount sz) (f imm)

/-- `Dy,Dx` or `-(Ay),-(Ax)` (R256, R261). -/
def extendedOp (sz : Size) (mem : Bool) (x y : RegNo) (f : Long → Step) : Exec Unit :=
  if mem then do
    let v ← readEa sz (.predec y) 1
    rmwEa sz (.predec x) 1 (f v)
  else do
    let v ← readDLow y sz
    updateD sz x (f v)

/-- ADD's step (R252). -/
def addStep (sz : Size) (x : Long) : Step := fun d c =>
  ((addCore sz d x false).value, arithCcr (addCore sz d x false) c)

/-- ADDX's step (R256). -/
def addxStep (sz : Size) (x : Long) : Step := fun d c =>
  ((addCore sz d x c.x).value, extendedCcr (addCore sz d x c.x) c)

/-- SUB's step (R257). -/
def subStep (sz : Size) (x : Long) : Step := fun d c =>
  ((subCore sz d x false).value, arithCcr (subCore sz d x false) c)

/-- SUBX's step (R261). -/
def subxStep (sz : Size) (x : Long) : Step := fun d c =>
  ((subCore sz d x c.x).value, extendedCcr (subCore sz d x c.x) c)

/-- NEG's step, 0 - d (R270). -/
def negStep (sz : Size) : Step := fun d c =>
  ((subCore sz 0 d false).value, arithCcr (subCore sz 0 d false) c)

/-- NEGX's step, 0 - d - X (R271). -/
def negxStep (sz : Size) : Step := fun d c =>
  ((subCore sz 0 d c.x).value, extendedCcr (subCore sz 0 d c.x) c)

/-- AND, OR and EOR with LogicFlags (R300, R301, R303, R305). -/
def andStep (sz : Size) (x : Long) : Step := fun d c => (d &&& x, logicCcr sz (d &&& x) c)

def orStep (sz : Size) (x : Long) : Step := fun d c => (d ||| x, logicCcr sz (d ||| x) c)

def eorStep (sz : Size) (x : Long) : Step := fun d c => (d ^^^ x, logicCcr sz (d ^^^ x) c)

/-- NOT's step (R307). -/
def notStep (sz : Size) : Step := fun d c => (sz.trunc (~~~d), logicCcr sz (~~~d) c)

/-- Compare a destination value with a source: N Z V C of `dst - src`, X unchanged, nothing written (R262). -/
def compareValues (sz : Size) (dst src : Long) : Exec Unit :=
  modifyCcr (compareCcr (subCore sz dst src false))

end Sys2Proof.Machine
end

