-- ==== Sys2Proof/Machine/Arith.lean ====
section
/-! DEFINITION. Integer arithmetic, compare and extend (41_integer_arithmetic.md). -/

namespace Sys2Proof.Machine

open Sys2Proof

/-- ADDQ and SUBQ to An: the whole register, no flags (R255, R260). -/
def quickToA (n : RegNo) (v : Long → Long) : Exec Unit := do
  let a ← readA n
  putA n (v a)

/-- ADDA and SUBA: the source sign-extended, all 32 bits of An as it stands after the source is read (R253). -/
def eaToA (sz : Size) (src : EA) (an : RegNo) (f : Long → Long → Long) : Exec Unit := do
  let x ← readEa sz src 1
  let a ← readA an
  putA an (f a (sz.sext x))

/-- CMPA: the source sign-extended, compared at long size (R263). -/
def compareA (sz : Size) (src : EA) (an : RegNo) : Exec Unit := do
  let x ← readEa sz src 1
  let a ← readA an
  compareValues .l a (sz.sext x)

/-- ADD <ea>,Dn (R252). -/
def execAddToReg (sz : Size) (src : EA) (dn : RegNo) (s : State) : Outcome :=
  runSeq (.addToReg sz src dn) (eaToReg sz src dn (addStep sz)) s

/-- ADD Dn,<ea> (R252). -/
def execAddToEa (sz : Size) (dn : RegNo) (dst : EA) (s : State) : Outcome :=
  runSeq (.addToEa sz dn dst) (regToEa sz dn dst (addStep sz)) s

/-- ADDA.W (R253). -/
def execAddaW (src : EA) (an : RegNo) (s : State) : Outcome :=
  runSeq (.addaW src an) (eaToA .w src an (· + ·)) s

/-- ADDA.L (R253). -/
def execAddaL (src : EA) (an : RegNo) (s : State) : Outcome :=
  runSeq (.addaL src an) (eaToA .l src an (· + ·)) s

/-- ADDI (R254). -/
def execAddi (sz : Size) (imm : Long) (dst : EA) (s : State) : Outcome :=
  runSeq (.addi sz imm dst) (immToEa sz imm dst (addStep sz)) s

/-- ADDQ (R255). -/
def execAddq (sz : Size) (data : BitVec 4) (dst : EA) (s : State) : Outcome :=
  runSeq (.addq sz data dst)
    (match dst with
     | .areg n => quickToA n (· + data.setWidth 32)
     | _ => rmwEa sz dst 1 (addStep sz (data.setWidth 32))) s

/-- ADDX (R256). -/
def execAddx (sz : Size) (mem : Bool) (x y : RegNo) (s : State) : Outcome :=
  runSeq (.addx sz mem x y) (extendedOp sz mem x y (addxStep sz)) s

/-- SUB <ea>,Dn (R257). -/
def execSubToReg (sz : Size) (src : EA) (dn : RegNo) (s : State) : Outcome :=
  runSeq (.subToReg sz src dn) (eaToReg sz src dn (subStep sz)) s

/-- SUB Dn,<ea> (R257). -/
def execSubToEa (sz : Size) (dn : RegNo) (dst : EA) (s : State) : Outcome :=
  runSeq (.subToEa sz dn dst) (regToEa sz dn dst (subStep sz)) s

/-- SUBA.W (R258). -/
def execSubaW (src : EA) (an : RegNo) (s : State) : Outcome :=
  runSeq (.subaW src an) (eaToA .w src an (· - ·)) s

/-- SUBA.L (R258). -/
def execSubaL (src : EA) (an : RegNo) (s : State) : Outcome :=
  runSeq (.subaL src an) (eaToA .l src an (· - ·)) s

/-- SUBI (R259). -/
def execSubi (sz : Size) (imm : Long) (dst : EA) (s : State) : Outcome :=
  runSeq (.subi sz imm dst) (immToEa sz imm dst (subStep sz)) s

/-- SUBQ (R260). -/
def execSubq (sz : Size) (data : BitVec 4) (dst : EA) (s : State) : Outcome :=
  runSeq (.subq sz data dst)
    (match dst with
     | .areg n => quickToA n (· - data.setWidth 32)
     | _ => rmwEa sz dst 1 (subStep sz (data.setWidth 32))) s

/-- SUBX (R261). -/
def execSubx (sz : Size) (mem : Bool) (x y : RegNo) (s : State) : Outcome :=
  runSeq (.subx sz mem x y) (extendedOp sz mem x y (subxStep sz)) s

/-- CMP (R262). -/
def execCmp (sz : Size) (src : EA) (dn : RegNo) (s : State) : Outcome :=
  runSeq (.cmp sz src dn) (do
    let x ← readEa sz src 1
    let d ← readDLow dn sz
    compareValues sz d x) s

/-- CMPA.W (R263). -/
def execCmpaW (src : EA) (an : RegNo) (s : State) : Outcome :=
  runSeq (.cmpaW src an) (compareA .w src an) s

/-- CMPA.L (R263). -/
def execCmpaL (src : EA) (an : RegNo) (s : State) : Outcome :=
  runSeq (.cmpaL src an) (compareA .l src an) s

/-- CMPI (R264). -/
def execCmpi (sz : Size) (imm : Long) (dst : EA) (s : State) : Outcome :=
  runSeq (.cmpi sz imm dst) (do
    let d ← readEa sz dst (1 + immWordCount sz)
    compareValues sz d imm) s

/-- CMPM (R265). -/
def execCmpm (sz : Size) (x y : RegNo) (s : State) : Outcome :=
  runSeq (.cmpm sz x y) (do
    let v ← readEa sz (.postinc y) 1
    let d ← readEa sz (.postinc x) 1
    compareValues sz d v) s

/-- CMP2 (R267). -/
def execCmp2 (sz : Size) (rn : RegSel) (src : EA) (s : State) : Outcome :=
  runSeq (.cmp2 sz rn src) (do
    let a ← addrOf src 2
    boundsCheck sz rn a) s

/-- TST (R268). -/
def execTst (sz : Size) (src : EA) (s : State) : Outcome :=
  runSeq (.tst sz src) (do
    let v ← readEa sz src 1
    modifyCcr (logicCcr sz v)) s

/-- CLR: the destination is not read (R269). -/
def execClr (sz : Size) (dst : EA) (s : State) : Outcome :=
  runSeq (.clr sz dst) (do
    writeEa sz dst 1 0
    modifyCcr (logicCcr sz 0)) s

/-- NEG (R270). -/
def execNeg (sz : Size) (dst : EA) (s : State) : Outcome :=
  runSeq (.neg sz dst) (rmwEa sz dst 1 (negStep sz)) s

/-- NEGX (R271). -/
def execNegx (sz : Size) (dst : EA) (s : State) : Outcome :=
  runSeq (.negx sz dst) (rmwEa sz dst 1 (negxStep sz)) s

/-- EXT.W: byte to word, the upper half kept (R272). -/
def execExtW (dn : RegNo) (s : State) : Outcome :=
  runSeq (.extW dn) (updateD .w dn fun d c => (Size.b.sext d, logicCcr .w (Size.b.sext d) c)) s

/-- EXT.L: word to long (R272). -/
def execExtL (dn : RegNo) (s : State) : Outcome :=
  runSeq (.extL dn) (updateD .l dn fun d c => (Size.w.sext d, logicCcr .l (Size.w.sext d) c)) s

/-- EXTB.L: byte to long (R273). -/
def execExtbL (dn : RegNo) (s : State) : Outcome :=
  runSeq (.extbL dn) (updateD .l dn fun d c => (Size.b.sext d, logicCcr .l (Size.b.sext d) c)) s

end Sys2Proof.Machine
end

