-- ==== Sys2Proof/Machine/Bcd.lean ====
section
/-! DEFINITION. Binary-coded decimal (48_bcd.md). -/

namespace Sys2Proof.Machine

open Sys2Proof

/-- Both digits are at most 9 (R520). -/
def bcdValid (b : Nat) : Bool := decide (b / 16 ≤ 9) && decide (b % 16 ≤ 9)

/-- `dec(b)` (R520). -/
def bcdDec (b : Nat) : Nat := 10 * (b / 16) + b % 16

/-- `bcd(v)` (R520). -/
def bcdOf (v : Nat) : Nat := 16 * (v / 10) + v % 10

/-- `BcdAdd` on valid digits (R520). -/
def bcdAdd (d s : Nat) (x : Bool) : Nat × Bool :=
  (bcdOf ((bcdDec d + bcdDec s + x.toNat) % 100), decide (100 ≤ bcdDec d + bcdDec s + x.toNat))

/-- `BcdSub` on valid digits, `v mod 100` in 0 to 99 (R520). -/
def bcdSub (d s : Nat) (x : Bool) : Nat × Bool :=
  let v : Int := (bcdDec d : Int) - bcdDec s - x.toNat
  (bcdOf (v % 100).toNat, decide (v < 0))

/-- The result byte and the decimal carry of `f`, or draws when a digit is above 9 (R520, D25). -/
def bcdCompute (f : Nat → Nat → Bool → Nat × Bool) (d s : Long) : Exec (Long × Bool) := do
  let old ← readCcr
  if bcdValid d.toNat && bcdValid s.toNat then
    pure (BitVec.ofNat 32 (f d.toNat s.toNat old.x).1, (f d.toNat s.toNat old.x).2)
  else do
    let r ← drawByte
    let c ← drawBit
    pure (r.setWidth 32, c)

/-- C and X the carry, Z only ever cleared, N and V draws (R520). -/
def bcdFlags (r : Long) (c : Bool) : Exec Unit := do
  let n ← drawBit
  let v ← drawBit
  modifyCcr fun old => { x := c, n := n, z := r == 0 && old.z, v := v, c := c }

/-- ABCD's and SBCD's two forms: x the destination, y the source (R521). -/
def bcdOp (f : Nat → Nat → Bool → Nat × Bool) (mem : Bool) (x y : RegNo) : Exec Unit :=
  if mem then do
    let sv ← readEa .b (.predec y) 1
    let op ← resolve .b (.predec x) 1
    let d ← readOp .b op
    let r ← bcdCompute f d sv
    writeBack .b op r.1
    bcdFlags r.1 r.2
  else do
    let sv ← readDLow y .b
    let d ← readDLow x .b
    let r ← bcdCompute f d sv
    putDLow x .b r.1
    bcdFlags r.1 r.2

/-- ABCD (R521). -/
def execAbcd (mem : Bool) (x y : RegNo) (s : State) : Outcome := runSeq (.abcd mem x y) (bcdOp bcdAdd mem x y) s

/-- SBCD (R522). -/
def execSbcd (mem : Bool) (x y : RegNo) (s : State) : Outcome := runSeq (.sbcd mem x y) (bcdOp bcdSub mem x y) s

/-- NBCD: 0 less the operand less X (R523). -/
def execNbcd (dst : EA) (s : State) : Outcome :=
  runSeq (.nbcd dst) (do
    let op ← resolve .b dst 1
    let d ← readOp .b op
    let r ← bcdCompute bcdSub 0 d
    writeBack .b op r.1
    bcdFlags r.1 r.2) s

/-- Bits 11:8 and 3:0 of the adjusted word (R524). -/
def packByte (v : BitVec 16) : Long := (v.extractLsb' 8 4 ++ v.extractLsb' 0 4).setWidth 32

/-- The two digits spread over a word and adjusted (R525). -/
def unpackWord (b : Long) (adj : BitVec 16) : BitVec 16 :=
  ((0 : BitVec 4) ++ b.extractLsb' 4 4 ++ (0 : BitVec 4) ++ b.extractLsb' 0 4) + adj

/-- PACK: x the source, y the destination (R524). DESIGN CHOICE (log entry 25): from `-(A7)` each byte read steps A7 by 2
(R205), so the source bytes are those at A7 - 2 and A7 - 4, as R524's operation gives them, and not the word at A7 - 2 of
its corner; to `-(A7)` the byte written is at A7 - 2 (R524 notes no address for it). -/
def execPack (mem : Bool) (x y : RegNo) (adj : BitVec 16) (s : State) : Outcome :=
  runSeq (.pack mem x y adj) (
    if mem then do
      let lo ← readEa .b (.predec x) 2
      let hi ← readEa .b (.predec x) 2
      writeEa .b (.predec y) 2 (packByte (hi.extractLsb' 0 8 ++ lo.extractLsb' 0 8 + adj))
    else do
      let d ← readD x
      putDLow y .b (packByte (d.extractLsb' 0 16 + adj))) s

/-- UNPK: x the source, y the destination; in memory the low byte is written first (R525). DESIGN CHOICE (log entry 25): to
`-(A7)` each byte written steps A7 by 2 (R205), so the low byte is at A7 - 2 and the high byte at A7 - 4, as R525's
operation gives them, and not the word at A7 - 2 of its corner. -/
def execUnpk (mem : Bool) (x y : RegNo) (adj : BitVec 16) (s : State) : Outcome :=
  runSeq (.unpk mem x y adj) (
    if mem then do
      let b ← readEa .b (.predec x) 2
      writeEa .b (.predec y) 2 (((unpackWord b adj).extractLsb' 0 8).setWidth 32)
      writeEa .b (.predec y) 2 (((unpackWord b adj).extractLsb' 8 8).setWidth 32)
    else do
      let d ← readD x
      putDLow y .w ((unpackWord d adj).setWidth 32)) s

end Sys2Proof.Machine
end

