-- ==== Sys2Proof/Machine/Bits.lean ====
section
/-! DEFINITION. Single-bit operations and bit fields (44_bit_and_bitfield.md). -/

namespace Sys2Proof.Machine

open Sys2Proof

/-! ### Single bits -/

/-- A data register is tested as 32 bits, memory and immediates as one byte (R360). -/
def bitSize (ea : EA) : Size := if ea.mode = .dn then .l else .b

/-- The bit number modulo 32 or modulo 8 (R360). -/
def bitIndex (ea : EA) (num : Nat) : Nat := num % (bitSize ea).bits

/-- Z is the complement of the old bit; the other flags are unchanged (R360). -/
def bitCcr (b : Nat) (v : Long) (old : Ccr) : Ccr := { old with z := !v.getLsbD b }

/-- `2^b`. -/
def bitMask (b : Nat) : Long := BitVec.ofNat 32 (2 ^ b)

/-- Test a bit of the operand and write nothing (R361). -/
def bitTest (num : Nat) (ea : EA) (k : Nat) : Exec Unit := do
  let v ← readEa (bitSize ea) ea k
  modifyCcr (bitCcr (bitIndex ea num) v)

/-- Test a bit, then write the operand back changed (R360, R362 to R364); `f` takes the value and `2^b`. -/
def bitChange (num : Nat) (ea : EA) (k : Nat) (f : Long → Long → Long) : Exec Unit :=
  rmwEaFlagsFirst (bitSize ea) ea k fun v c =>
    (f v (bitMask (bitIndex ea num)), bitCcr (bitIndex ea num) v c)

/-- BTST #n (R361). -/
def execBtstImm (num : BitVec 8) (ea : EA) (s : State) : Outcome :=
  runSeq (.btstImm num ea) (bitTest num.toNat ea 2) s

/-- BTST Dn (R361). -/
def execBtstReg (dn : RegNo) (ea : EA) (s : State) : Outcome :=
  runSeq (.btstReg dn ea) (do
    let num ← readD dn
    bitTest num.toNat ea 1) s

/-- BCHG #n (R362). -/
def execBchgImm (num : BitVec 8) (ea : EA) (s : State) : Outcome :=
  runSeq (.bchgImm num ea) (bitChange num.toNat ea 2 fun v m => v ^^^ m) s

/-- BCHG Dn (R362). -/
def execBchgReg (dn : RegNo) (ea : EA) (s : State) : Outcome :=
  runSeq (.bchgReg dn ea) (do
    let num ← readD dn
    bitChange num.toNat ea 1 fun v m => v ^^^ m) s

/-- BCLR #n (R363). -/
def execBclrImm (num : BitVec 8) (ea : EA) (s : State) : Outcome :=
  runSeq (.bclrImm num ea) (bitChange num.toNat ea 2 fun v m => v &&& ~~~m) s

/-- BCLR Dn (R363). -/
def execBclrReg (dn : RegNo) (ea : EA) (s : State) : Outcome :=
  runSeq (.bclrReg dn ea) (do
    let num ← readD dn
    bitChange num.toNat ea 1 fun v m => v &&& ~~~m) s

/-- BSET #n (R364). -/
def execBsetImm (num : BitVec 8) (ea : EA) (s : State) : Outcome :=
  runSeq (.bsetImm num ea) (bitChange num.toNat ea 2 fun v m => v ||| m) s

/-- BSET Dn (R364). -/
def execBsetReg (dn : RegNo) (ea : EA) (s : State) : Outcome :=
  runSeq (.bsetReg dn ea) (do
    let num ← readD dn
    bitChange num.toNat ea 1 fun v m => v ||| m) s

/-! ### Bit fields -/

/-- What holds a bit field: a data register rotated left by `rot` (R371), or `n` bytes at `base` (R372). -/
inductive FieldHome where
  | reg (y : RegNo) (rot : Nat)
  | mem (base : Addr) (n : Nat)
deriving DecidableEq, Repr, Inhabited

/-- A located bit field: `width` bits that start `skip` bits below the most significant bit of the home's
`bits` bits, and the offset BFFFO counts from (R371, R372, R376). -/
structure BitField where
  home : FieldHome
  bits : Nat
  skip : Nat
  width : Nat
  offset : Int
deriving DecidableEq, Repr, Inhabited

/-- The offset: 0 to 31, or a register as a signed number (R370). -/
def bfOffset (s : State) : BfOffset → Int
  | .imm o => o.toNat
  | .reg n => (s.getD n).toInt

/-- `((wfield - 1) mod 32) + 1` (R370). -/
def bfWidthOf (wfield : Nat) : Nat := (wfield + 31) % 32 + 1

def bfWidth (s : State) : BfWidth → Nat
  | .imm w => bfWidthOf w.toNat
  | .reg n => bfWidthOf (s.getD n).toNat

/-- `ceil((bo + width) / 8)` (R372). -/
def bfBytes (bo width : Nat) : Nat := (bo + width + 7) / 8

/-- Locate a field of a data register (R371). -/
def bfInRegister (y : RegNo) (offset : Int) (width : Nat) : BitField where
  home := .reg y (offset % 32).toNat
  bits := 32
  skip := 0
  width := width
  offset := offset % 32

/-- Locate a field of memory from the operand's address (R372). -/
def bfInMemory (a : Addr) (offset : Int) (width : Nat) : BitField where
  home := .mem (a + BitVec.ofInt 32 (offset / 8)) (bfBytes (offset % 8).toNat width)
  bits := 8 * bfBytes (offset % 8).toNat width
  skip := (offset % 8).toNat
  width := width
  offset := offset

/-- Locate the field of a bit-field instruction. -/
def bfLocate (bf : BfSpec) (ea : EA) : Exec BitField := do
  let s ← get
  match ea with
  | .dreg y => pure (bfInRegister y (bfOffset s bf.offset) (bfWidth s bf.width))
  | .areg _ | .ind _ | .postinc _ | .predec _ | .disp _ _ | .index _ _ | .absW _ | .absL _ | .pcDisp _
  | .pcIndex _ | .imm _ =>
    let a ← addrOf ea 2
    pure (bfInMemory a (bfOffset s bf.offset) (bfWidth s bf.width))

/-- The field's value in its home's value `v`. -/
def BitField.extract (f : BitField) (v : Nat) : Nat := v / 2 ^ (f.bits - f.skip - f.width) % 2 ^ f.width

/-- `v` with the field replaced by the low `width` bits of `x`. -/
def BitField.replace (f : BitField) (v x : Nat) : Nat :=
  v / 2 ^ (f.bits - f.skip) * 2 ^ (f.bits - f.skip) +
    x % 2 ^ f.width * 2 ^ (f.bits - f.skip - f.width) + v % 2 ^ (f.bits - f.skip - f.width)

/-- Read the home: the rotated register, or one access of n bytes checked whole (R371, R372). -/
def bfRead (f : BitField) : Exec Nat :=
  match f.home with
  | .reg y rot => do
    let v ← readD y
    pure (v.rotateLeft rot).toNat
  | .mem base n => memRead base n

/-- Write the home back. -/
def bfWrite (f : BitField) (v : Nat) : Exec Unit :=
  match f.home with
  | .reg y rot => putD y ((BitVec.ofNat 32 v).rotateRight rot)
  | .mem base n => memWrite base n v

/-- N and Z of a field value, V = C = 0, X unchanged (R373). -/
def fieldCcr (width : Nat) (x : Nat) (old : Ccr) : Ccr :=
  { x := old.x, n := x.testBit (width - 1), z := x == 0, v := false, c := false }

/-- The index of the first 1 bit from the most significant of `w` bits, or `w` (R376). -/
def firstOne : Nat → Nat → Nat
  | 0, _ => 0
  | w + 1, x => if x.testBit w then 0 else firstOne w x + 1

/-- Read a field into a data register (R374 to R376). -/
def bfToReg (bf : BfSpec) (ea : EA) (dn : RegNo) (g : BitField → Nat → Long) : Exec Unit := do
  let f ← bfLocate bf ea
  let v ← bfRead f
  putD dn (g f (f.extract v))
  modifyCcr (fieldCcr f.width (f.extract v))

/-- Test a field, set the flags from it, then write it changed (R377 to R379). -/
def bfChange (bf : BfSpec) (ea : EA) (g : BitField → Nat → Nat) : Exec Unit := do
  let f ← bfLocate bf ea
  let v ← bfRead f
  modifyCcr (fieldCcr f.width (f.extract v))
  bfWrite f (f.replace v (g f (f.extract v)))

/-- BFTST (R373). -/
def execBftst (bf : BfSpec) (ea : EA) (s : State) : Outcome :=
  runSeq (.bftst bf ea) (do
    let f ← bfLocate bf ea
    let v ← bfRead f
    modifyCcr (fieldCcr f.width (f.extract v))) s

/-- BFEXTU (R374). -/
def execBfextu (bf : BfSpec) (ea : EA) (dn : RegNo) (s : State) : Outcome :=
  runSeq (.bfextu bf ea dn) (bfToReg bf ea dn fun _ x => BitVec.ofNat 32 x) s

/-- BFEXTS (R375). -/
def execBfexts (bf : BfSpec) (ea : EA) (dn : RegNo) (s : State) : Outcome :=
  runSeq (.bfexts bf ea dn) (bfToReg bf ea dn fun f x =>
    if x.testBit (f.width - 1) then BitVec.ofInt 32 ((x : Int) - 2 ^ f.width) else BitVec.ofNat 32 x) s

/-- BFFFO: the offset of the first one (R376). -/
def execBfffo (bf : BfSpec) (ea : EA) (dn : RegNo) (s : State) : Outcome :=
  runSeq (.bfffo bf ea dn) (bfToReg bf ea dn fun f x => BitVec.ofInt 32 (f.offset + firstOne f.width x)) s

/-- BFCHG (R377). -/
def execBfchg (bf : BfSpec) (ea : EA) (s : State) : Outcome :=
  runSeq (.bfchg bf ea) (bfChange bf ea fun f x => x ^^^ (2 ^ f.width - 1)) s

/-- BFCLR (R378). -/
def execBfclr (bf : BfSpec) (ea : EA) (s : State) : Outcome :=
  runSeq (.bfclr bf ea) (bfChange bf ea fun _ _ => 0) s

/-- BFSET (R379). -/
def execBfset (bf : BfSpec) (ea : EA) (s : State) : Outcome :=
  runSeq (.bfset bf ea) (bfChange bf ea fun f _ => 2 ^ f.width - 1) s

/-- BFINS: the home is read first, the flags come from the inserted value (R380). -/
def execBfins (bf : BfSpec) (dn : RegNo) (ea : EA) (s : State) : Outcome :=
  runSeq (.bfins bf dn ea) (do
    let x ← readD dn
    let f ← bfLocate bf ea
    let v ← bfRead f
    bfWrite f (f.replace v (x.toNat % 2 ^ f.width))
    modifyCcr (fieldCcr f.width (x.toNat % 2 ^ f.width))) s

end Sys2Proof.Machine
end

