-- ==== Sys2Proof/Machine/Control.lean ====
section
/-! DEFINITION. Program control (47_program_control.md): conditions, branches, jumps, returns and stack
frames. A branch is relative to pc_op + 2 in every form (R481). -/

namespace Sys2Proof.Machine

open Sys2Proof

/-- A displacement sign-extended to 32 bits (R481). -/
def BranchDisp.value : BranchDisp → Long
  | .byte d => d.signExtend 32
  | .word d => d.signExtend 32
  | .long d => d

/-- `trunc_32(pc_op + 2 + disp)` (R481). -/
def branchTarget (pcOp : Addr) (disp : Long) : Addr := pcOp + 2 + disp

/-- Bcc (R481). -/
def execBcc (c : Cond) (disp : BranchDisp) (s : State) : Outcome :=
  runTo (.bcc c disp) (do
    let pc ← readPcOp
    let f ← readCcr
    pure (if condHolds c f then branchTarget pc (BranchDisp.value disp) else pcNext (.bcc c disp) pc)) s

/-- BRA (R482). -/
def execBra (disp : BranchDisp) (s : State) : Outcome :=
  runTo (.bra disp) (do
    let pc ← readPcOp
    pure (branchTarget pc (BranchDisp.value disp))) s

/-- BSR (R483). -/
def execBsr (disp : BranchDisp) (s : State) : Outcome :=
  runTo (.bsr disp) (do
    let pc ← readPcOp
    push (pcNext (.bsr disp) pc)
    pure (branchTarget pc (BranchDisp.value disp))) s

/-- DBcc: only the low word of Dn counts (R484). -/
def execDbcc (c : Cond) (dn : RegNo) (disp : BitVec 16) (s : State) : Outcome :=
  runTo (.dbcc c dn disp) (do
    let pc ← readPcOp
    let f ← readCcr
    if condHolds c f then pure (pcNext (.dbcc c dn disp) pc)
    else do
      let d ← readDLow dn .w
      putDLow dn .w (d - 1)
      pure (if d = 0 then pcNext (.dbcc c dn disp) pc else branchTarget pc (disp.signExtend 32))) s

/-- Scc: the destination is not read (R485). -/
def execScc (c : Cond) (dst : EA) (s : State) : Outcome :=
  runSeq (.scc c dst) (do
    let f ← readCcr
    writeEa .b dst 1 (if condHolds c f then 0xFF else 0)) s

/-- JMP (R486). -/
def execJmp (src : EA) (s : State) : Outcome := runTo (.jmp src) (addrOf src 1) s

/-- JSR: the target is computed before the push (R487). -/
def execJsr (src : EA) (s : State) : Outcome :=
  runTo (.jsr src) (do
    let pc ← readPcOp
    let a ← addrOf src 1
    push (pcNext (.jsr src) pc)
    pure a) s

/-- RTS (R488). -/
def execRts (s : State) : Outcome := runTo .rts (pop .l) s

/-- RTR: the CCR is restored between the two pops (R489). -/
def execRtr (s : State) : Outcome :=
  runTo .rtr (do
    let v ← pop .w
    putCcr (Ccr.ofBits (v.setWidth 5))
    pop .l) s

/-- RTD (R490). -/
def execRtd (disp : BitVec 16) (s : State) : Outcome :=
  runTo (.rtd disp) (do
    let v ← pop .l
    let sp ← readA spReg
    putA spReg (sp + disp.signExtend 32)
    pure v) s

/-- LINK: push An, An takes A7, A7 moves by the displacement; with An = A7 the value pushed is a draw from the
old and the new A7 (R491, D21). -/
def link (an : RegNo) (disp : Long) : Exec Unit := do
  let sp ← readA spReg
  let a ← readA an
  let v ← drawIf (an == spReg) sp (sp - 4) a
  memWriteSized .l (sp - 4) v
  putA spReg (sp - 4)
  putA an (sp - 4)
  let t ← readA spReg
  putA spReg (t + disp)

/-- LINK.W (R491). -/
def execLinkW (an : RegNo) (disp : BitVec 16) (s : State) : Outcome :=
  runSeq (.linkW an disp) (link an (disp.signExtend 32)) s

/-- LINK.L (R491). -/
def execLinkL (an : RegNo) (disp : BitVec 32) (s : State) : Outcome :=
  runSeq (.linkL an disp) (link an disp) s

/-- UNLK: A7 takes An before the read; with An = A7 the register ends as a draw from the value read and A7
(R492, D21). -/
def execUnlk (an : RegNo) (s : State) : Outcome :=
  runSeq (.unlk an) (do
    let a ← readA an
    putA spReg a
    let v ← memReadSized .l a
    putA spReg (a + 4)
    let u ← drawIf (an == spReg) v (a + 4) v
    putA an u) s

end Sys2Proof.Machine
end

