-- ==== Sys2Proof/Machine/Logical.lean ====
section
/-! DEFINITION. Logical operations and the immediate operations on the CCR (42_logical.md). -/

namespace Sys2Proof.Machine

open Sys2Proof

/-- AND <ea>,Dn (R301). -/
def execAndToReg (sz : Size) (src : EA) (dn : RegNo) (s : State) : Outcome :=
  runSeq (.andToReg sz src dn) (eaToReg sz src dn (andStep sz)) s

/-- AND Dn,<ea> (R301). -/
def execAndToEa (sz : Size) (dn : RegNo) (dst : EA) (s : State) : Outcome :=
  runSeq (.andToEa sz dn dst) (regToEa sz dn dst (andStep sz)) s

/-- ANDI (R302). -/
def execAndi (sz : Size) (imm : Long) (dst : EA) (s : State) : Outcome :=
  runSeq (.andi sz imm dst) (immToEa sz imm dst (andStep sz)) s

/-- OR <ea>,Dn (R303). -/
def execOrToReg (sz : Size) (src : EA) (dn : RegNo) (s : State) : Outcome :=
  runSeq (.orToReg sz src dn) (eaToReg sz src dn (orStep sz)) s

/-- OR Dn,<ea> (R303). -/
def execOrToEa (sz : Size) (dn : RegNo) (dst : EA) (s : State) : Outcome :=
  runSeq (.orToEa sz dn dst) (regToEa sz dn dst (orStep sz)) s

/-- ORI (R304). -/
def execOri (sz : Size) (imm : Long) (dst : EA) (s : State) : Outcome :=
  runSeq (.ori sz imm dst) (immToEa sz imm dst (orStep sz)) s

/-- EOR Dn,<ea> (R305). -/
def execEor (sz : Size) (dn : RegNo) (dst : EA) (s : State) : Outcome :=
  runSeq (.eor sz dn dst) (regToEa sz dn dst (eorStep sz)) s

/-- EORI (R306). -/
def execEori (sz : Size) (imm : Long) (dst : EA) (s : State) : Outcome :=
  runSeq (.eori sz imm dst) (immToEa sz imm dst (eorStep sz)) s

/-- NOT (R307). -/
def execNotEa (sz : Size) (dst : EA) (s : State) : Outcome :=
  runSeq (.notEa sz dst) (rmwEa sz dst 1 (notStep sz)) s

/-- ANDI to CCR: bits 4:0 of the immediate (R308). -/
def execAndiToCcr (imm : BitVec 8) (s : State) : Outcome :=
  runSeq (.andiToCcr imm) (modifyCcr fun c => Ccr.ofBits (Ccr.toBits c &&& imm.setWidth 5)) s

/-- ORI to CCR (R309). -/
def execOriToCcr (imm : BitVec 8) (s : State) : Outcome :=
  runSeq (.oriToCcr imm) (modifyCcr fun c => Ccr.ofBits (Ccr.toBits c ||| imm.setWidth 5)) s

/-- EORI to CCR (R310). -/
def execEoriToCcr (imm : BitVec 8) (s : State) : Outcome :=
  runSeq (.eoriToCcr imm) (modifyCcr fun c => Ccr.ofBits (Ccr.toBits c ^^^ imm.setWidth 5)) s

end Sys2Proof.Machine
end

