-- ==== Sys2Proof/Machine/Move.lean ====
section
/-! DEFINITION. Data movement (45_data_movement.md). -/

namespace Sys2Proof.Machine

open Sys2Proof

/-- MOVE: the source is read, then the destination is resolved and written, then the flags (R400). -/
def moveData (sz : Size) (src dst : EA) : Exec Unit := do
  let v ← readEa sz src 1
  writeEa sz dst (1 + (EA.words sz src).length) v
  modifyCcr (logicCcr sz v)

/-- MOVEA: a word is sign-extended; no flags (R401). -/
def moveAddress (sz : Size) (src : EA) (an : RegNo) : Exec Unit := do
  let v ← readEa sz src 1
  putASized an sz v

/-- MOVE.B (R400). -/
def execMoveB (src dst : EA) (s : State) : Outcome := runSeq (.moveB src dst) (moveData .b src dst) s

/-- MOVE.W (R400). -/
def execMoveW (src dst : EA) (s : State) : Outcome := runSeq (.moveW src dst) (moveData .w src dst) s

/-- MOVE.L (R400). -/
def execMoveL (src dst : EA) (s : State) : Outcome := runSeq (.moveL src dst) (moveData .l src dst) s

/-- MOVEA.W (R401). -/
def execMoveaW (src : EA) (an : RegNo) (s : State) : Outcome :=
  runSeq (.moveaW src an) (moveAddress .w src an) s

/-- MOVEA.L (R401). -/
def execMoveaL (src : EA) (an : RegNo) (s : State) : Outcome :=
  runSeq (.moveaL src an) (moveAddress .l src an) s

/-- MOVEQ: the immediate is already sign-extended (R402). -/
def execMoveq (imm : Long) (dn : RegNo) (s : State) : Outcome :=
  runSeq (.moveq imm dn) (do
    putD dn imm
    modifyCcr (logicCcr .l imm)) s

/-- MOVE from CCR: bits 15:5 of the word are 0 (R403). -/
def execMoveFromCcr (dst : EA) (s : State) : Outcome :=
  runSeq (.moveFromCcr dst) (do
    let c ← readCcr
    writeEa .w dst 1 ((Ccr.toBits c).setWidth 32)) s

/-- MOVE to CCR: bits 4:0 of the source word (R404). -/
def execMoveToCcr (src : EA) (s : State) : Outcome :=
  runSeq (.moveToCcr src) (do
    let v ← readEa .w src 1
    putCcr (Ccr.ofBits (v.setWidth 5))) s

/-- Exchange two registers (R405). -/
def exchange (x y : RegSel) : Exec Unit := do
  let t ← readR x
  let u ← readR y
  putR x u
  putR y t

/-- EXG Dx,Dy (R405). -/
def execExgDD (x y : RegNo) (s : State) : Outcome := runSeq (.exgDD x y) (exchange (.d x) (.d y)) s

/-- EXG Ax,Ay (R405). -/
def execExgAA (x y : RegNo) (s : State) : Outcome := runSeq (.exgAA x y) (exchange (.a x) (.a y)) s

/-- EXG Dx,Ay (R405). -/
def execExgDA (x y : RegNo) (s : State) : Outcome := runSeq (.exgDA x y) (exchange (.d x) (.a y)) s

/-- The halves of a register exchanged (R406). -/
def swapHalves (d : Long) : Long := d.extractLsb' 0 16 ++ d.extractLsb' 16 16

/-- SWAP (R406). -/
def execSwap (dn : RegNo) (s : State) : Outcome :=
  runSeq (.swap dn) (updateD .l dn fun d c => (swapHalves d, logicCcr .l (swapHalves d) c)) s

/-- LEA (R407). -/
def execLea (src : EA) (an : RegNo) (s : State) : Outcome :=
  runSeq (.lea src an) (do
    let a ← addrOf src 1
    putA an a) s

/-- PEA (R408). -/
def execPea (src : EA) (s : State) : Outcome :=
  runSeq (.pea src) (do
    let a ← addrOf src 1
    push a) s

/-! ### MOVEM -/

/-- `R[k]` (R16). -/
def regOfIndex (k : Nat) : RegSel :=
  if k < 8 then .d (BitVec.ofNat 3 k) else .a (BitVec.ofNat 3 (k - 8))

/-- The registers a mask selects, D0 to A7 (R430). -/
def maskRegs (mask : BitVec 16) : List RegSel :=
  ((List.range 16).filter fun i => mask.getLsbD i).map regOfIndex

/-- The registers a `-(An)` mask selects, A7 down to D0: bit i is `R[15 - i]` (R430). -/
def maskRegsDown (mask : BitVec 16) : List RegSel :=
  ((List.range 16).filter fun i => mask.getLsbD i).map fun i => regOfIndex (15 - i)

/-- Store registers at rising addresses (R431). -/
def storeUp (sz : Size) : List RegSel → Addr → Exec Unit
  | [], _ => pure ()
  | r :: rs, a => do
    let v ← readR r
    memWriteSized sz a v
    storeUp sz rs (a + BitVec.ofNat 32 sz.bytes)

/-- Store registers at falling addresses and answer the last. The value stored for An itself is a draw from
its value and its value less the size (R431, D20). -/
def storeDown (sz : Size) (n : RegNo) : List RegSel → Addr → Exec Addr
  | [], a => pure a
  | r :: rs, a => do
    let u ← readR r
    let v ← drawIf (r == .a n) u (u - BitVec.ofNat 32 sz.bytes) u
    memWriteSized sz (a - BitVec.ofNat 32 sz.bytes) v
    storeDown sz n rs (a - BitVec.ofNat 32 sz.bytes)

/-- Load registers from rising addresses, each sign-extended to 32 bits, and answer the address after the
last (R432). -/
def loadUp (sz : Size) : List RegSel → Addr → Exec Addr
  | [], a => pure a
  | r :: rs, a => do
    let v ← memReadSized sz a
    putR r (sz.sext v)
    loadUp sz rs (a + BitVec.ofNat 32 sz.bytes)

/-- MOVEM registers to memory (R431). -/
def movemStore (sz : Size) (mask : BitVec 16) (dst : EA) : Exec Unit :=
  match dst with
  | .predec n => do
    let a ← readA n
    let b ← storeDown sz n (maskRegsDown mask) a
    putA n b
  | .dreg _ | .areg _ | .ind _ | .postinc _ | .disp _ _ | .index _ _ | .absW _ | .absL _ | .pcDisp _
  | .pcIndex _ | .imm _ => do
    let a ← addrOf dst 2
    storeUp sz (maskRegs mask) a

/-- MOVEM memory to registers: with `(An)+`, An ends at the final address even if it is in the list (R432). DESIGN CHOICE
(log entry 23): where An is in the list and a read faults after An was loaded, An holds the loaded value, as R432 says of a
register loaded before the fault; R609 says that the `(An)+` register keeps its old value. -/
def movemLoad (sz : Size) (mask : BitVec 16) (src : EA) : Exec Unit :=
  match src with
  | .postinc n => do
    let a ← readA n
    let b ← loadUp sz (maskRegs mask) a
    putA n b
  | .dreg _ | .areg _ | .ind _ | .predec _ | .disp _ _ | .index _ _ | .absW _ | .absL _ | .pcDisp _
  | .pcIndex _ | .imm _ => do
    let a ← addrOf src 2
    let _ ← loadUp sz (maskRegs mask) a
    pure ()

/-- MOVEM to memory (R431). -/
def execMovemToMem (sz : Size) (mask : BitVec 16) (dst : EA) (s : State) : Outcome :=
  runSeq (.movemToMem sz mask dst) (movemStore sz mask dst) s

/-- MOVEM to registers (R432). -/
def execMovemToReg (sz : Size) (mask : BitVec 16) (src : EA) (s : State) : Outcome :=
  runSeq (.movemToReg sz mask src) (movemLoad sz mask src) s

/-! ### MOVEP -/

/-- Read `n` bytes two apart, big-endian (R435). -/
def readSpread : Nat → Addr → Exec Nat
  | 0, _ => pure 0
  | n + 1, a => do
    let b ← memRead a 1
    let rest ← readSpread n (a + 2)
    pure (b * 256 ^ n + rest)

/-- Write the low `n` bytes of a value two apart, the high byte first (R435). -/
def writeSpread : Nat → Addr → Nat → Exec Unit
  | 0, _, _ => pure ()
  | n + 1, a, v => do
    memWrite a 1 (v / 256 ^ n % 256)
    writeSpread n (a + 2) v

/-- MOVEP (R435). DESIGN CHOICE (log entry 22): where a read of the form to a register faults after the first byte, Dx is
unchanged, since R435's operation assigns Dx once, from all the bytes; its text and R609 say that the earlier bytes stay
transferred. -/
def execMovep (toMem : Bool) (sz : Size) (dx ay : RegNo) (disp : BitVec 16) (s : State) : Outcome :=
  runSeq (.movep toMem sz dx ay disp) (do
    let a ← readA ay
    if toMem then do
      let v ← readD dx
      writeSpread sz.bytes (a + disp.signExtend 32) v.toNat
    else do
      let v ← readSpread sz.bytes (a + disp.signExtend 32)
      putDLow dx sz (BitVec.ofNat 32 v)) s

end Sys2Proof.Machine
end

