-- ==== Sys2Proof/Machine/MulDiv.lean ====
section
/-! DEFINITION. Multiply and divide (46_multiply_divide.md): operands are exact integers, signed or unsigned,
and products, quotients and remainders are narrowed when they are written. -/

namespace Sys2Proof.Machine

open Sys2Proof

/-- A register value as an exact integer, signed or unsigned (R14). -/
def exactOf (signed : Bool) (sz : Size) (v : Long) : Int :=
  if signed then sz.toInt v else (sz.trunc v).toNat

/-- The low 32 bits of an exact integer. -/
def low32 (p : Int) : Long := BitVec.ofInt 32 p

/-- Bits 63:32 of an exact integer. -/
def high32 (p : Int) : Long := BitVec.ofInt 32 (p / 2 ^ 32)

/-- `<ea>,Dn` of 16 by 16 bits to 32 (R450, R451). -/
def mulWord (signed : Bool) (src : EA) (dn : RegNo) : Exec Unit := do
  let x ← readEa .w src 1
  let d ← readD dn
  let p := exactOf signed .w d * exactOf signed .w x
  putD dn (low32 p)
  modifyCcr (logicCcr .l (low32 p))

/-- A product that does not fit 32 bits: the V of the 32-bit form (R452, R453). -/
def mulOverflow (signed : Bool) (p : Int) : Bool :=
  if signed then outOfRange 32 p else decide (2 ^ 32 ≤ p)

/-- Write a 64-bit product as Dh:Dl; with Dh = Dl the register is a draw (R452, D22). -/
def putProduct (dh dl : RegNo) (p : Int) : Exec Unit :=
  if dh = dl then do
    let u ← drawLong
    putD dl u
  else do
    putD dh (high32 p)
    putD dl (low32 p)

/-- The long multiplies, to 32 bits or to Dh:Dl (R452, R453). -/
def mulLong (signed : Bool) (dl : RegNo) (form : Product) (src : EA) : Exec Unit := do
  let x ← readEa .l src 2
  let d ← readD dl
  let p := exactOf signed .l d * exactOf signed .l x
  match form with
  | .narrow => do
    putD dl (low32 p)
    modifyCcr fun f =>
      { x := f.x, n := Size.l.msb (low32 p), z := low32 p == 0, v := mulOverflow signed p, c := false }
  | .wide dh => do
    putProduct dh dl p
    modifyCcr fun f => { x := f.x, n := Size.l.msb (high32 p), z := p == 0, v := false, c := false }

/-- MULU.W (R450). -/
def execMuluW (src : EA) (dn : RegNo) (s : State) : Outcome :=
  runSeq (.muluW src dn) (mulWord false src dn) s

/-- MULS.W (R451). -/
def execMulsW (src : EA) (dn : RegNo) (s : State) : Outcome :=
  runSeq (.mulsW src dn) (mulWord true src dn) s

/-- MULU.L (R452). -/
def execMuluL (dl : RegNo) (form : Product) (src : EA) (s : State) : Outcome :=
  runSeq (.muluL dl form src) (mulLong false dl form src) s

/-- MULS.L (R453). -/
def execMulsL (dl : RegNo) (form : Product) (src : EA) (s : State) : Outcome :=
  runSeq (.mulsL dl form src) (mulLong true dl form src) s

/-- `overflow` of R458: the quotient does not fit `qw` bits. -/
def divOverflow (signed : Bool) (qw : Nat) (q : Int) : Bool :=
  if signed then outOfRange qw q else decide ((2 ^ qw : Int) ≤ q)

/-- `Divide(sg, dvd, dvs, qw)` (R458, R459): sets the flags and answers quotient and remainder, or none on
overflow. The quotient truncates toward zero. -/
def divide (signed : Bool) (dvd dvs : Int) (qw : Nat) : Exec (Option (Int × Int)) :=
  if dvs = 0 then do
    let n ← drawBit
    let z ← drawBit
    let v ← drawBit
    modifyCcr fun f => { x := f.x, n := n, z := z, v := v, c := false }
    raise .divideByZero
  else if divOverflow signed qw (dvd.tdiv dvs) then do
    let n ← drawBit
    let z ← drawBit
    modifyCcr fun f => { x := f.x, n := n, z := z, v := true, c := false }
    pure none
  else do
    modifyCcr fun f =>
      { x := f.x, n := (low32 (dvd.tdiv dvs)).getLsbD (qw - 1), z := dvd.tdiv dvs == 0, v := false, c := false }
    pure (some (dvd.tdiv dvs, dvd.tmod dvs))

/-- Remainder in the high word, quotient in the low word (R454). -/
def packQuotient (q r : Int) : Long := BitVec.ofInt 16 r ++ BitVec.ofInt 16 q

/-- 32 by 16 bits to a 16-bit quotient and remainder (R454, R455). -/
def divWord16 (signed : Bool) (src : EA) (dn : RegNo) : Exec Unit := do
  let x ← readEa .w src 1
  let d ← readD dn
  let res ← divide signed (exactOf signed .l d) (exactOf signed .w x) 16
  match res with
  | none => pure ()
  | some (q, r) => putD dn (packQuotient q r)

/-- The 64-bit dividend Dr:Dq (R456, R457). -/
def wideDividend (signed : Bool) (hi lo : Long) : Int := exactOf signed .l hi * 2 ^ 32 + lo.toNat

/-- The long divides (R456, R457): the remainder is written before the quotient; the wide form with Dr = Dq
leaves a draw (D22). DESIGN CHOICE (log entry 26): the 32-bit form with Dr = Dq writes the quotient alone, as R456, R457 and
vector MD9 say; section 1.4 of 93_implementation_defined.md lists DIVxL.L with Dr = Dq as any value. -/
def divLong (signed : Bool) (dq : RegNo) (wide : Bool) (dr : RegNo) (src : EA) : Exec Unit := do
  let x ← readEa .l src 2
  let lo ← readD dq
  let hi ← readD dr
  let dvd := if wide then wideDividend signed hi lo else exactOf signed .l lo
  let res ← divide signed dvd (exactOf signed .l x) 32
  match res with
  | none => pure ()
  | some (q, r) =>
    if dr = dq then
      if wide then do
        let u ← drawLong
        putD dq u
      else putD dq (low32 q)
    else do
      putD dr (low32 r)
      putD dq (low32 q)

/-- DIVU.W (R454). -/
def execDivuW (src : EA) (dn : RegNo) (s : State) : Outcome :=
  runSeq (.divuW src dn) (divWord16 false src dn) s

/-- DIVS.W (R455). -/
def execDivsW (src : EA) (dn : RegNo) (s : State) : Outcome :=
  runSeq (.divsW src dn) (divWord16 true src dn) s

/-- DIVU.L and DIVUL.L (R456). -/
def execDivuL (dq : RegNo) (wide : Bool) (dr : RegNo) (src : EA) (s : State) : Outcome :=
  runSeq (.divuL dq wide dr src) (divLong false dq wide dr src) s

/-- DIVS.L and DIVSL.L (R457). -/
def execDivsL (dq : RegNo) (wide : Bool) (dr : RegNo) (src : EA) (s : State) : Outcome :=
  runSeq (.divsL dq wide dr src) (divLong true dq wide dr src) s

end Sys2Proof.Machine
end

