-- ==== Sys2Proof/Machine/Shift.lean ====
section
/-! DEFINITION. Shifts and rotates (43_shift_rotate.md): the formulas of R331 to R339 over natural numbers, the
register forms and the memory forms. -/

namespace Sys2Proof.Machine

open Sys2Proof

/-- What a shift of a non-zero count yields: the N-bit result, the bit C, V, and X where the kind writes it. -/
structure ShiftResult where
  value : Nat
  c : Bool
  v : Bool
  x : Option Bool
deriving DecidableEq, Repr, Inhabited

/-- ASL of an N-bit value by c ≥ 1 (R332). -/
def shiftAsl (bits d c : Nat) : ShiftResult :=
  let out := decide (c ≤ bits) && d.testBit (bits - c)
  { value := d * 2 ^ c % 2 ^ bits
    c := out
    v := if c < bits then
        decide (d / 2 ^ (bits - 1 - c) ≠ 0) && decide (d / 2 ^ (bits - 1 - c) ≠ 2 ^ (c + 1) - 1)
      else decide (d ≠ 0)
    x := some out }

/-- ASR of an N-bit value by c ≥ 1 (R333). -/
def shiftAsr (bits d c : Nat) : ShiftResult :=
  let sign := d.testBit (bits - 1)
  let signed : Int := if sign then (d : Int) - 2 ^ bits else d
  let out := if c ≤ bits then d.testBit (c - 1) else sign
  { value := (signed / 2 ^ c % 2 ^ bits).toNat, c := out, v := false, x := some out }

/-- LSL of an N-bit value by c ≥ 1 (R334). -/
def shiftLsl (bits d c : Nat) : ShiftResult :=
  let out := decide (c ≤ bits) && d.testBit (bits - c)
  { value := d * 2 ^ c % 2 ^ bits, c := out, v := false, x := some out }

/-- LSR of an N-bit value by c ≥ 1 (R335). -/
def shiftLsr (bits d c : Nat) : ShiftResult :=
  let out := decide (c ≤ bits) && d.testBit (c - 1)
  { value := if c < bits then d / 2 ^ c else 0, c := out, v := false, x := some out }

/-- ROL of an N-bit value by c ≥ 1; X unchanged (R336). -/
def shiftRol (bits d c : Nat) : ShiftResult :=
  let k := c % bits
  let r := d * 2 ^ k % 2 ^ bits ||| d / 2 ^ (bits - k)
  { value := r, c := r.testBit 0, v := false, x := none }

/-- ROR of an N-bit value by c ≥ 1; X unchanged (R337). -/
def shiftRor (bits d c : Nat) : ShiftResult :=
  let k := c % bits
  let r := d / 2 ^ k ||| d * 2 ^ (bits - k) % 2 ^ bits
  { value := r, c := r.testBit (bits - 1), v := false, x := none }

/-- ROXL: the value and X form a ring of N + 1 bits with X on top (R338). -/
def shiftRoxl (bits d : Nat) (x : Bool) (c : Nat) : ShiftResult :=
  let t := x.toNat * 2 ^ bits + d
  let k := c % (bits + 1)
  let r := t * 2 ^ k % 2 ^ (bits + 1) ||| t / 2 ^ (bits + 1 - k)
  { value := r % 2 ^ bits, c := r.testBit bits, v := false, x := some (r.testBit bits) }

/-- ROXR (R339). -/
def shiftRoxr (bits d : Nat) (x : Bool) (c : Nat) : ShiftResult :=
  let t := x.toNat * 2 ^ bits + d
  let k := c % (bits + 1)
  let r := t / 2 ^ k ||| t * 2 ^ (bits + 1 - k) % 2 ^ (bits + 1)
  { value := r % 2 ^ bits, c := r.testBit bits, v := false, x := some (r.testBit bits) }

/-- The value and flags of a shift: N and Z of the result (R332 to R339). -/
def shiftFlags (sz : Size) (r : ShiftResult) (old : Ccr) : Long × Ccr :=
  let v := BitVec.ofNat 32 r.value
  (v, { x := r.x.getD old.x, n := sz.msb v, z := v == 0, v := r.v, c := r.c })

/-- Count zero: the operand and X unchanged, N and Z of it, V = 0, and `c0` the kind's C (R331). -/
def shiftZero (sz : Size) (d : Long) (c0 : Bool) (old : Ccr) : Long × Ccr :=
  (d, { x := old.x, n := sz.msb d, z := d == 0, v := false, c := c0 })

/-- The step of a shift that does not take X in: ASd, LSd, ROd. At count 0, C = 0 (R331). -/
def plainShift (sz : Size) (f : Nat → Nat → Nat → ShiftResult) (count : Nat) : Step := fun d old =>
  if count = 0 then shiftZero sz d false old else shiftFlags sz (f sz.bits d.toNat count) old

/-- The step of a rotate through X. At count 0, C = X (R331, C2). -/
def extendShift (sz : Size) (f : Nat → Nat → Bool → Nat → ShiftResult) (count : Nat) : Step := fun d old =>
  if count = 0 then shiftZero sz d old.x old else shiftFlags sz (f sz.bits d.toNat old.x count) old

/-- The count: 1 to 8, or a data register modulo 64 (R330). -/
def readCount (c : ShiftCount) : Exec Nat :=
  match c with
  | .imm n => pure n.toNat
  | .reg n => do
    let v ← readD n
    pure (v.toNat % 64)

/-- A register form (R330). -/
def shiftReg (sz : Size) (c : ShiftCount) (dy : RegNo) (f : Nat → Step) : Exec Unit := do
  let n ← readCount c
  updateD sz dy (f n)

/-- A memory form: one word, count 1; the kind's rule, flags included, is applied and then the result is
written (R340). -/
def shiftMem (dst : EA) (f : Nat → Step) : Exec Unit := rmwEaFlagsFirst .w dst 1 (f 1)

/-- ASR register (R333). -/
def execAsrReg (sz : Size) (c : ShiftCount) (dy : RegNo) (s : State) : Outcome :=
  runSeq (.asrReg sz c dy) (shiftReg sz c dy (plainShift sz shiftAsr)) s

/-- ASR <ea> (R333, R340). -/
def execAsrMem (dst : EA) (s : State) : Outcome :=
  runSeq (.asrMem dst) (shiftMem dst (plainShift .w shiftAsr)) s

/-- ASL register (R332). -/
def execAslReg (sz : Size) (c : ShiftCount) (dy : RegNo) (s : State) : Outcome :=
  runSeq (.aslReg sz c dy) (shiftReg sz c dy (plainShift sz shiftAsl)) s

/-- ASL <ea> (R332, R340). -/
def execAslMem (dst : EA) (s : State) : Outcome :=
  runSeq (.aslMem dst) (shiftMem dst (plainShift .w shiftAsl)) s

/-- LSR register (R335). -/
def execLsrReg (sz : Size) (c : ShiftCount) (dy : RegNo) (s : State) : Outcome :=
  runSeq (.lsrReg sz c dy) (shiftReg sz c dy (plainShift sz shiftLsr)) s

/-- LSR <ea> (R335, R340). -/
def execLsrMem (dst : EA) (s : State) : Outcome :=
  runSeq (.lsrMem dst) (shiftMem dst (plainShift .w shiftLsr)) s

/-- LSL register (R334). -/
def execLslReg (sz : Size) (c : ShiftCount) (dy : RegNo) (s : State) : Outcome :=
  runSeq (.lslReg sz c dy) (shiftReg sz c dy (plainShift sz shiftLsl)) s

/-- LSL <ea> (R334, R340). -/
def execLslMem (dst : EA) (s : State) : Outcome :=
  runSeq (.lslMem dst) (shiftMem dst (plainShift .w shiftLsl)) s

/-- ROXR register (R339). -/
def execRoxrReg (sz : Size) (c : ShiftCount) (dy : RegNo) (s : State) : Outcome :=
  runSeq (.roxrReg sz c dy) (shiftReg sz c dy (extendShift sz shiftRoxr)) s

/-- ROXR <ea> (R339, R340). -/
def execRoxrMem (dst : EA) (s : State) : Outcome :=
  runSeq (.roxrMem dst) (shiftMem dst (extendShift .w shiftRoxr)) s

/-- ROXL register (R338). -/
def execRoxlReg (sz : Size) (c : ShiftCount) (dy : RegNo) (s : State) : Outcome :=
  runSeq (.roxlReg sz c dy) (shiftReg sz c dy (extendShift sz shiftRoxl)) s

/-- ROXL <ea> (R338, R340). -/
def execRoxlMem (dst : EA) (s : State) : Outcome :=
  runSeq (.roxlMem dst) (shiftMem dst (extendShift .w shiftRoxl)) s

/-- ROR register (R337). -/
def execRorReg (sz : Size) (c : ShiftCount) (dy : RegNo) (s : State) : Outcome :=
  runSeq (.rorReg sz c dy) (shiftReg sz c dy (plainShift sz shiftRor)) s

/-- ROR <ea> (R337, R340). -/
def execRorMem (dst : EA) (s : State) : Outcome :=
  runSeq (.rorMem dst) (shiftMem dst (plainShift .w shiftRor)) s

/-- ROL register (R336). -/
def execRolReg (sz : Size) (c : ShiftCount) (dy : RegNo) (s : State) : Outcome :=
  runSeq (.rolReg sz c dy) (shiftReg sz c dy (plainShift sz shiftRol)) s

/-- ROL <ea> (R336, R340). -/
def execRolMem (dst : EA) (s : State) : Outcome :=
  runSeq (.rolMem dst) (shiftMem dst (plainShift .w shiftRol)) s

end Sys2Proof.Machine
end

