-- ==== Sys2Proof/Machine/System.lean ====
section
/-! DEFINITION. Traps, no-operations, synchronising, module and privileged instructions
(49_system_and_trap.md). The core runs with S = 0 for its whole life, so a privileged instruction always
raises its exception (R45, R570). -/

namespace Sys2Proof.Machine

open Sys2Proof

/-! ### Traps -/

/-- TRAP: vector 0 is the system call (R540). -/
def execTrap (vector : BitVec 4) (s : State) : Outcome :=
  runSeq (.trap vector) (if vector = 0 then raise .syscall else raise (.trap vector)) s

/-- TRAPV (R541). -/
def execTrapv (s : State) : Outcome :=
  runSeq .trapv (do
    let f ← readCcr
    if f.v then raise .trapcc else pure ()) s

/-- TRAPcc: the operand words are not used (R542). -/
def execTrapcc (c : Cond) (operand : TrapccOperand) (s : State) : Outcome :=
  runSeq (.trapcc c operand) (do
    let f ← readCcr
    if condHolds c f then raise .trapcc else pure ()) s

/-- CHK (R543): the flags are set before the raise; the undefined ones are draws. -/
def checkBound (sz : Size) (src : EA) (dn : RegNo) : Exec Unit := do
  let b ← readEa sz src 1
  let d ← readD dn
  let free ← drawBit
  let z ← drawBit
  let v ← drawBit
  let c ← drawBit
  let low := decide (sz.toInt d < 0)
  let high := decide (sz.toInt b < sz.toInt d)
  modifyCcr fun f => { x := f.x, n := if low then true else if high then false else free, z := z, v := v, c := c }
  if low || high then raise .chk else pure ()

/-- CHK.W (R543). -/
def execChkW (src : EA) (dn : RegNo) (s : State) : Outcome :=
  runSeq (.chkW src dn) (checkBound .w src dn) s

/-- CHK.L (R543). -/
def execChkL (src : EA) (dn : RegNo) (s : State) : Outcome :=
  runSeq (.chkL src dn) (checkBound .l src dn) s

/-- CHK2 (R544). -/
def execChk2 (sz : Size) (rn : RegSel) (src : EA) (s : State) : Outcome :=
  runSeq (.chk2 sz rn src) (do
    let a ← addrOf src 2
    boundsCheck sz rn a
    let f ← readCcr
    if f.c then raise .chk else pure ()) s

/-- ILLEGAL (R545). -/
def execIllegal (s : State) : Outcome := runSeq .illegal (raise .illegalInstruction) s

/-- BKPT: no debugger answers (R583). -/
def execBkpt (num : BitVec 3) (s : State) : Outcome := runSeq (.bkpt num) (raise .illegalInstruction) s

/-- Line A (R591). -/
def execLineA (bits : BitVec 12) (s : State) : Outcome := runSeq (.lineA bits) (raise .lineA) s

/-- Line F (R590). -/
def execLineF (bits : BitVec 12) (s : State) : Outcome := runSeq (.lineF bits) (raise .lineF) s

/-! ### No-operations -/

/-- RESET: accepted and ignored (R560). -/
def execReset (s : State) : Outcome := runSeq .reset (pure ()) s

/-- NOP (R568). -/
def execNop (s : State) : Outcome := runSeq .nop (pure ()) s

/-! ### Synchronising instructions -/

/-- Both permissions are checked before any access of an indivisible instruction (R88, D23), W first: R605 has an operand
without W reported as a write. -/
def checkReadWrite (a : Addr) (n : Nat) : Exec Unit := do
  checkAccess .write a n
  checkAccess .read a n

/-- TAS's check: a register operand needs none (R576). -/
def checkTas (op : Operand) : Exec Unit :=
  match op with
  | .mem a _ => checkReadWrite a 1
  | .dreg _ | .areg _ | .imm _ => pure ()

/-- CAS's check: its operand is in memory; another is no instruction (R577, R140). -/
def checkCas (sz : Size) (op : Operand) : Exec Unit :=
  match op with
  | .mem a _ => checkReadWrite a sz.bytes
  | .dreg _ | .areg _ | .imm _ => raise .illegalInstruction

/-- TAS (R576). -/
def testAndSet (dst : EA) : Exec Unit := do
  let op ← resolve .b dst 1
  checkTas op
  let v ← readOp .b op
  modifyCcr (logicCcr .b v)
  writeBack .b op (v ||| 0x80)

/-- TAS (R576). -/
def execTas (dst : EA) (s : State) : Outcome := runSeq (.tas dst) (testAndSet dst) s

/-- CAS (R577): R and W are checked before the read, even when the comparison then fails (D23). -/
def compareAndSwap (sz : Size) (dc du : RegNo) (dst : EA) : Exec Unit := do
  let op ← resolve sz dst 2
  checkCas sz op
  let v ← readOp sz op
  let c ← readDLow dc sz
  compareValues sz v c
  let f ← readCcr
  if f.z then do
    let u ← readDLow du sz
    writeBack sz op u
  else putDLow dc sz v

/-- CAS.B (R577). -/
def execCasB (dc du : RegNo) (dst : EA) (s : State) : Outcome :=
  runSeq (.casB dc du dst) (compareAndSwap .b dc du dst) s

/-- CAS.W (R577). -/
def execCasW (dc du : RegNo) (dst : EA) (s : State) : Outcome :=
  runSeq (.casW dc du dst) (compareAndSwap .w dc du dst) s

/-- CAS.L (R577). -/
def execCasL (dc du : RegNo) (dst : EA) (s : State) : Outcome :=
  runSeq (.casL dc du dst) (compareAndSwap .l dc du dst) s

/-- CAS2's second comparison, made only when the first succeeded (R578). -/
def compareSecond (sz : Size) (v c : Long) : Exec Unit := do
  let f ← readCcr
  if f.z then compareValues sz v c else pure ()

/-- CAS2 on a match: both registers are stored (R578). -/
def cas2Store (sz : Size) (a1 a2 : Addr) (du1 du2 : RegNo) : Exec Unit := do
  let u1 ← readDLow du1 sz
  let u2 ← readDLow du2 sz
  memWriteSized sz a1 u1
  memWriteSized sz a2 u2

/-- CAS2 on a mismatch: both values are loaded; with Dc1 = Dc2 the register is a draw from them (R578, D36). -/
def cas2Load (sz : Size) (dc1 dc2 : RegNo) (v1 v2 : Long) : Exec Unit :=
  if dc1 = dc2 then do
    let v ← drawFrom v1 v2
    putDLow dc1 sz v
  else do
    putDLow dc1 sz v1
    putDLow dc2 sz v2

/-- CAS2 (R578): every check comes before any read; the flags come from the first comparison that fails, or
from the second. -/
def compareAndSwap2 (sz : Size) (o1 o2 : Cas2Operand) : Exec Unit := do
  let a1 ← readR o1.rn
  let a2 ← readR o2.rn
  checkAccess .write a1 sz.bytes
  checkAccess .write a2 sz.bytes
  checkAccess .read a1 sz.bytes
  checkAccess .read a2 sz.bytes
  let v1 ← memReadSized sz a1
  let v2 ← memReadSized sz a2
  let c1 ← readDLow o1.dc sz
  let c2 ← readDLow o2.dc sz
  compareValues sz v1 c1
  compareSecond sz v2 c2
  let f ← readCcr
  if f.z then cas2Store sz a1 a2 o1.du o2.du else cas2Load sz o1.dc o2.dc v1 v2

/-- CAS2.W (R578). -/
def execCas2W (o1 o2 : Cas2Operand) (s : State) : Outcome :=
  runSeq (.cas2W o1 o2) (compareAndSwap2 .w o1 o2) s

/-- CAS2.L (R578). -/
def execCas2L (o1 o2 : Cas2Operand) (s : State) : Outcome :=
  runSeq (.cas2L o1 o2) (compareAndSwap2 .l o1 o2) s

/-! ### Module instructions -/

/-- CALLM: no operand or descriptor is read (R586). -/
def execCallm (arg : BitVec 16) (src : EA) (s : State) : Outcome :=
  runSeq (.callm arg src) (raise .illegalInstruction) s

/-- RTM (R587). -/
def execRtm (rn : RegSel) (s : State) : Outcome := runSeq (.rtm rn) (raise .illegalInstruction) s

/-! ### Privileged instructions -/

/-- MOVE from SR (R571). -/
def execMoveFromSr (ea : EaField) (s : State) : Outcome :=
  runSeq (.moveFromSr ea) (raise .privilegeViolation) s

/-- MOVE to SR (R579). -/
def execMoveToSr (ea : EaField) (s : State) : Outcome := runSeq (.moveToSr ea) (raise .privilegeViolation) s

/-- MOVEC (R572). -/
def execMovec (toControl : Bool) (s : State) : Outcome :=
  runSeq (.movec toControl) (raise .privilegeViolation) s

/-- MOVE An,USP (R573). -/
def execMoveToUsp (an : RegNo) (s : State) : Outcome := runSeq (.moveToUsp an) (raise .privilegeViolation) s

/-- MOVE USP,An (R573). -/
def execMoveFromUsp (an : RegNo) (s : State) : Outcome :=
  runSeq (.moveFromUsp an) (raise .privilegeViolation) s

/-- MOVES (R574). -/
def execMoves (sz : Size) (ea : EaField) (s : State) : Outcome :=
  runSeq (.moves sz ea) (raise .privilegeViolation) s

/-- ANDI to SR (R580). -/
def execAndiToSr (s : State) : Outcome := runSeq .andiToSr (raise .privilegeViolation) s

/-- ORI to SR (R581). -/
def execOriToSr (s : State) : Outcome := runSeq .oriToSr (raise .privilegeViolation) s

/-- EORI to SR (R582). -/
def execEoriToSr (s : State) : Outcome := runSeq .eoriToSr (raise .privilegeViolation) s

/-- RTE (R584). -/
def execRte (s : State) : Outcome := runSeq .rte (raise .privilegeViolation) s

/-- STOP (R585). -/
def execStop (s : State) : Outcome := runSeq .stop (raise .privilegeViolation) s

end Sys2Proof.Machine
end

