-- ==== Sys2Proof/Machine/Dispatch.lean ====
section
/-! DEFINITION. The dispatcher: one arm per constructor of `Instr`, each one call of its meaning (R54). -/

namespace Sys2Proof.Machine

open Sys2Proof

/-- Execute one instruction. -/
def exec (i : Instr) (s : State) : Host.Outcome State Fault Refusal :=
  match i with
  -- logical and arithmetic immediates
  | .ori sz imm dst => Sys2Proof.Machine.execOri sz imm dst s
  | .oriToCcr imm => Sys2Proof.Machine.execOriToCcr imm s
  | .oriToSr => Sys2Proof.Machine.execOriToSr s
  | .andi sz imm dst => Sys2Proof.Machine.execAndi sz imm dst s
  | .andiToCcr imm => Sys2Proof.Machine.execAndiToCcr imm s
  | .andiToSr => Sys2Proof.Machine.execAndiToSr s
  | .eori sz imm dst => Sys2Proof.Machine.execEori sz imm dst s
  | .eoriToCcr imm => Sys2Proof.Machine.execEoriToCcr imm s
  | .eoriToSr => Sys2Proof.Machine.execEoriToSr s
  | .subi sz imm dst => Sys2Proof.Machine.execSubi sz imm dst s
  | .addi sz imm dst => Sys2Proof.Machine.execAddi sz imm dst s
  | .cmpi sz imm dst => Sys2Proof.Machine.execCmpi sz imm dst s
  | .cmp2 sz rn src => Sys2Proof.Machine.execCmp2 sz rn src s
  | .chk2 sz rn src => Sys2Proof.Machine.execChk2 sz rn src s
  | .rtm rn => Sys2Proof.Machine.execRtm rn s
  | .callm arg src => Sys2Proof.Machine.execCallm arg src s
  -- single-bit operations: static and dynamic bit number
  | .btstImm num ea => Sys2Proof.Machine.execBtstImm num ea s
  | .btstReg dn ea => Sys2Proof.Machine.execBtstReg dn ea s
  | .bchgImm num ea => Sys2Proof.Machine.execBchgImm num ea s
  | .bchgReg dn ea => Sys2Proof.Machine.execBchgReg dn ea s
  | .bclrImm num ea => Sys2Proof.Machine.execBclrImm num ea s
  | .bclrReg dn ea => Sys2Proof.Machine.execBclrReg dn ea s
  | .bsetImm num ea => Sys2Proof.Machine.execBsetImm num ea s
  | .bsetReg dn ea => Sys2Proof.Machine.execBsetReg dn ea s
  | .movep toMem sz dx ay disp => Sys2Proof.Machine.execMovep toMem sz dx ay disp s
  | .moves sz ea => Sys2Proof.Machine.execMoves sz ea s
  | .casB dc du dst => Sys2Proof.Machine.execCasB dc du dst s
  | .casW dc du dst => Sys2Proof.Machine.execCasW dc du dst s
  | .casL dc du dst => Sys2Proof.Machine.execCasL dc du dst s
  | .cas2W op1 op2 => Sys2Proof.Machine.execCas2W op1 op2 s
  | .cas2L op1 op2 => Sys2Proof.Machine.execCas2L op1 op2 s
  -- moves
  | .moveB src dst => Sys2Proof.Machine.execMoveB src dst s
  | .moveW src dst => Sys2Proof.Machine.execMoveW src dst s
  | .moveL src dst => Sys2Proof.Machine.execMoveL src dst s
  | .moveaW src an => Sys2Proof.Machine.execMoveaW src an s
  | .moveaL src an => Sys2Proof.Machine.execMoveaL src an s
  -- line 4
  | .negx sz dst => Sys2Proof.Machine.execNegx sz dst s
  | .clr sz dst => Sys2Proof.Machine.execClr sz dst s
  | .neg sz dst => Sys2Proof.Machine.execNeg sz dst s
  | .notEa sz dst => Sys2Proof.Machine.execNotEa sz dst s
  | .moveFromSr ea => Sys2Proof.Machine.execMoveFromSr ea s
  | .moveFromCcr dst => Sys2Proof.Machine.execMoveFromCcr dst s
  | .moveToCcr src => Sys2Proof.Machine.execMoveToCcr src s
  | .moveToSr ea => Sys2Proof.Machine.execMoveToSr ea s
  | .chkW src dn => Sys2Proof.Machine.execChkW src dn s
  | .chkL src dn => Sys2Proof.Machine.execChkL src dn s
  | .lea src an => Sys2Proof.Machine.execLea src an s
  | .nbcd dst => Sys2Proof.Machine.execNbcd dst s
  | .linkL an disp => Sys2Proof.Machine.execLinkL an disp s
  | .swap dn => Sys2Proof.Machine.execSwap dn s
  | .bkpt num => Sys2Proof.Machine.execBkpt num s
  | .pea src => Sys2Proof.Machine.execPea src s
  | .extW dn => Sys2Proof.Machine.execExtW dn s
  | .extL dn => Sys2Proof.Machine.execExtL dn s
  | .extbL dn => Sys2Proof.Machine.execExtbL dn s
  | .movemToMem sz mask dst => Sys2Proof.Machine.execMovemToMem sz mask dst s
  | .movemToReg sz mask src => Sys2Proof.Machine.execMovemToReg sz mask src s
  | .tst sz src => Sys2Proof.Machine.execTst sz src s
  | .tas dst => Sys2Proof.Machine.execTas dst s
  | .illegal => Sys2Proof.Machine.execIllegal s
  | .muluL dl form src => Sys2Proof.Machine.execMuluL dl form src s
  | .mulsL dl form src => Sys2Proof.Machine.execMulsL dl form src s
  | .divuL dq wide dr src => Sys2Proof.Machine.execDivuL dq wide dr src s
  | .divsL dq wide dr src => Sys2Proof.Machine.execDivsL dq wide dr src s
  | .trap vector => Sys2Proof.Machine.execTrap vector s
  | .linkW an disp => Sys2Proof.Machine.execLinkW an disp s
  | .unlk an => Sys2Proof.Machine.execUnlk an s
  | .moveToUsp an => Sys2Proof.Machine.execMoveToUsp an s
  | .moveFromUsp an => Sys2Proof.Machine.execMoveFromUsp an s
  | .reset => Sys2Proof.Machine.execReset s
  | .nop => Sys2Proof.Machine.execNop s
  | .stop => Sys2Proof.Machine.execStop s
  | .rte => Sys2Proof.Machine.execRte s
  | .rtd disp => Sys2Proof.Machine.execRtd disp s
  | .rts => Sys2Proof.Machine.execRts s
  | .trapv => Sys2Proof.Machine.execTrapv s
  | .rtr => Sys2Proof.Machine.execRtr s
  | .movec toControl => Sys2Proof.Machine.execMovec toControl s
  | .jsr src => Sys2Proof.Machine.execJsr src s
  | .jmp src => Sys2Proof.Machine.execJmp src s
  -- line 5: quick and conditional
  | .addq sz data dst => Sys2Proof.Machine.execAddq sz data dst s
  | .subq sz data dst => Sys2Proof.Machine.execSubq sz data dst s
  | .scc c dst => Sys2Proof.Machine.execScc c dst s
  | .dbcc c dn disp => Sys2Proof.Machine.execDbcc c dn disp s
  | .trapcc c operand => Sys2Proof.Machine.execTrapcc c operand s
  -- branches
  | .bra disp => Sys2Proof.Machine.execBra disp s
  | .bsr disp => Sys2Proof.Machine.execBsr disp s
  | .bcc c disp => Sys2Proof.Machine.execBcc c disp s
  | .moveq imm dn => Sys2Proof.Machine.execMoveq imm dn s
  -- lines 8 to D
  | .orToReg sz src dn => Sys2Proof.Machine.execOrToReg sz src dn s
  | .orToEa sz dn dst => Sys2Proof.Machine.execOrToEa sz dn dst s
  | .sbcd mem x y => Sys2Proof.Machine.execSbcd mem x y s
  | .andToReg sz src dn => Sys2Proof.Machine.execAndToReg sz src dn s
  | .andToEa sz dn dst => Sys2Proof.Machine.execAndToEa sz dn dst s
  | .abcd mem x y => Sys2Proof.Machine.execAbcd mem x y s
  | .divuW src dn => Sys2Proof.Machine.execDivuW src dn s
  | .divsW src dn => Sys2Proof.Machine.execDivsW src dn s
  | .pack mem x y adj => Sys2Proof.Machine.execPack mem x y adj s
  | .unpk mem x y adj => Sys2Proof.Machine.execUnpk mem x y adj s
  | .muluW src dn => Sys2Proof.Machine.execMuluW src dn s
  | .mulsW src dn => Sys2Proof.Machine.execMulsW src dn s
  | .exgDD x y => Sys2Proof.Machine.execExgDD x y s
  | .exgAA x y => Sys2Proof.Machine.execExgAA x y s
  | .exgDA x y => Sys2Proof.Machine.execExgDA x y s
  | .subToReg sz src dn => Sys2Proof.Machine.execSubToReg sz src dn s
  | .subToEa sz dn dst => Sys2Proof.Machine.execSubToEa sz dn dst s
  | .subaW src an => Sys2Proof.Machine.execSubaW src an s
  | .subaL src an => Sys2Proof.Machine.execSubaL src an s
  | .subx sz mem x y => Sys2Proof.Machine.execSubx sz mem x y s
  | .addToReg sz src dn => Sys2Proof.Machine.execAddToReg sz src dn s
  | .addToEa sz dn dst => Sys2Proof.Machine.execAddToEa sz dn dst s
  | .addaW src an => Sys2Proof.Machine.execAddaW src an s
  | .addaL src an => Sys2Proof.Machine.execAddaL src an s
  | .addx sz mem x y => Sys2Proof.Machine.execAddx sz mem x y s
  | .cmp sz src dn => Sys2Proof.Machine.execCmp sz src dn s
  | .cmpaW src an => Sys2Proof.Machine.execCmpaW src an s
  | .cmpaL src an => Sys2Proof.Machine.execCmpaL src an s
  | .eor sz dn dst => Sys2Proof.Machine.execEor sz dn dst s
  | .cmpm sz x y => Sys2Proof.Machine.execCmpm sz x y s
  -- line E: shifts, rotates and bit fields
  | .asrReg sz count dy => Sys2Proof.Machine.execAsrReg sz count dy s
  | .asrMem dst => Sys2Proof.Machine.execAsrMem dst s
  | .aslReg sz count dy => Sys2Proof.Machine.execAslReg sz count dy s
  | .aslMem dst => Sys2Proof.Machine.execAslMem dst s
  | .lsrReg sz count dy => Sys2Proof.Machine.execLsrReg sz count dy s
  | .lsrMem dst => Sys2Proof.Machine.execLsrMem dst s
  | .lslReg sz count dy => Sys2Proof.Machine.execLslReg sz count dy s
  | .lslMem dst => Sys2Proof.Machine.execLslMem dst s
  | .roxrReg sz count dy => Sys2Proof.Machine.execRoxrReg sz count dy s
  | .roxrMem dst => Sys2Proof.Machine.execRoxrMem dst s
  | .roxlReg sz count dy => Sys2Proof.Machine.execRoxlReg sz count dy s
  | .roxlMem dst => Sys2Proof.Machine.execRoxlMem dst s
  | .rorReg sz count dy => Sys2Proof.Machine.execRorReg sz count dy s
  | .rorMem dst => Sys2Proof.Machine.execRorMem dst s
  | .rolReg sz count dy => Sys2Proof.Machine.execRolReg sz count dy s
  | .rolMem dst => Sys2Proof.Machine.execRolMem dst s
  | .bftst bf ea => Sys2Proof.Machine.execBftst bf ea s
  | .bfextu bf ea dn => Sys2Proof.Machine.execBfextu bf ea dn s
  | .bfchg bf ea => Sys2Proof.Machine.execBfchg bf ea s
  | .bfexts bf ea dn => Sys2Proof.Machine.execBfexts bf ea dn s
  | .bfclr bf ea => Sys2Proof.Machine.execBfclr bf ea s
  | .bfffo bf ea dn => Sys2Proof.Machine.execBfffo bf ea dn s
  | .bfset bf ea => Sys2Proof.Machine.execBfset bf ea s
  | .bfins bf dn ea => Sys2Proof.Machine.execBfins bf dn ea s
  -- words that are no instruction of this core (R139)
  | .lineA bits => Sys2Proof.Machine.execLineA bits s
  | .lineF bits => Sys2Proof.Machine.execLineF bits s

end Sys2Proof.Machine
end

