-- ==== Sys2Proof/Machine/Fetch.lean ====
section
/-! DEFINITION. Fetching an instruction: the checks of FetchWord (R84), the words the decoder may take, the
exceptions of fetch and decode in the order of R607, and how an instruction is placed where the next step
fetches it. -/

namespace Sys2Proof.Machine

open Sys2Proof

/-- Why `FetchWord(a)` raises, in its order: an odd address, a byte without X, a stale byte (R84). -/
def fetchCheck (s : State) (a : Addr) : Option Raise :=
  if a.getLsbD 0 then some (.addressError a)
  else if !allowed s.regions .fetch a 2 then some (.busError { addr := a, kind := .fetch, size := 2 })
  else if (byteAddrs a 2).any fun k => s.stale.contains k then some (.staleFetch a)
  else none

/-- The word `FetchWord(a)` returns when it does not raise: the R permission is not needed (R84). -/
def State.wordAt (s : State) (a : Addr) : Word16 := BitVec.ofNat 16 (s.load a 2)

/-- At most `n` words from `a` on, up to the first that cannot be fetched, and why it cannot. -/
def fetchWindow (s : State) : Nat → Addr → List Word16 × Option Raise
  | 0, _ => ([], none)
  | n + 1, a =>
    match fetchCheck s a with
    | some e => ([], some e)
    | none => (s.wordAt a :: (fetchWindow s n (a + 2)).1, (fetchWindow s n (a + 2)).2)

/-- The bytes of the first `n` words at PC join `ifetched` (R84, R660). -/
def State.markFetched (s : State) (n : Nat) : State :=
  { s with ifetched := AddrSet.insertAll s.ifetched (byteAddrs s.pc (2 * n)) }

/-- What fetch and decode answer: an instruction to execute, or the state after the exception they raised. -/
inductive Fetched where
  | run (i : Instr) (s : State)
  | raised (s : State)
deriving DecidableEq, Repr

/-- An exception of fetch or decode: its record names the opcode word, or none if that word's fetch failed
(R604, R606). -/
def raiseAtFetch (s : State) (ws : List Word16) (consumed : Nat) (e : Raise) : Fetched :=
  .raised (takeException s.pc s.pc ws.head? e (s.markFetched consumed))

/-- Fetch and decode at PC. The decoder takes its words one by one (R120, R133): a word it does not take is not
fetched, and where it asks for a word that cannot be fetched, that fetch's exception is raised. No instruction
is longer than the window (R121), so the last case, a window that ends with no exception, does not arise. -/
def fetchInstr (s : State) : Fetched :=
  let w := fetchWindow s maxWords s.pc
  match decode w.1 with
  | .ok i rest => .run i (s.markFetched (w.1.length - rest.length))
  | .error .illegal rest => raiseAtFetch s w.1 (w.1.length - rest.length) .illegalInstruction
  | .error .short _ => raiseAtFetch s w.1 w.1.length (w.2.getD .illegalInstruction)

/-! ### Placing an instruction -/

/-- A part of a region: nothing when it has no length. -/
def Region.part (r : Region) (base length : Nat) : List Region :=
  if length = 0 then [] else [{ r with base := base, length := length }]

/-- Give one byte the permission X, mapping it if it is unmapped, and nothing else. -/
def grantFetch : List Region → Nat → List Region
  | [], a => [{ base := a, length := 1, r := false, w := false, x := true }]
  | r :: rs, a =>
    if a < r.base then { base := a, length := 1, r := false, w := false, x := true } :: r :: rs
    else if a < r.base + r.length then
      if r.x then r :: rs
      else Region.part r r.base (a - r.base) ++ [{ r with base := a, length := 1, x := true }] ++
        Region.part r (a + 1) (r.base + r.length - (a + 1)) ++ rs
    else r :: grantFetch rs a

/-- Bit 0 of an address cleared: an instruction is fetched at an even PC (R47). -/
def evenAddr (a : Addr) : Addr := a &&& 0xFFFFFFFE

/-- Store words where the next step fetches its instruction, each byte fetchable and not stale, the core
running at an even PC. This stands for the loader, which is outside the machine (log entry 1). -/
def State.placeWords (s : State) (ws : List Word16) : State :=
  let a := evenAddr s.pc
  let ks := byteAddrs a (2 * ws.length)
  { s with
    pc := a
    status := .running
    stale := s.stale.filter fun k => !ks.contains k
    mem := Memory.setBytes s.mem a (bytesOfWords ws)
    regions := ks.foldl grantFetch s.regions }

end Sys2Proof.Machine
end

