-- ==== Sys2Proof/Machine/Step.lean ====
section
/-! DEFINITION. One step of the machine (R54): the core's instruction cycle while it runs, the host's answer
while a system call is pending (R613), and no step after a halt or an exit (R51, R623). -/

namespace Sys2Proof.Machine

open Sys2Proof

/-- One step. -/
def step (s : State) : Host.Outcome State Fault Refusal :=
  match s.status with
  | .running =>
    match fetchInstr s with
    | .run i t => exec i t
    | .raised t => .next t
  | .syscallPending => .next (hostReturn s)
  | .halted _ => .fault .halted
  | .exited _ => .fault .exited

/-- The state with the instruction of table bits `w` placed where `step` fetches its next instruction. -/
def State.withFetchWord (s : State) (nbits w : Nat) : State := s.placeWords (tableWords nbits w)

end Sys2Proof.Machine
end

