-- ==== Sys2Proof/Safety.lean ====
section
/-! DEFINITION. What counts as a good launch (R653, R654), what every state of a run satisfies (R52, R80), and
what a run may observe at its end (R623). -/

namespace Sys2Proof.Machine

open Sys2Proof

/-! ### A good launch -/

/-- What a segment of the image is for (R653 item 1). -/
inductive SegmentUse where
  | code (readsItself : Bool)
  | data
deriving DecidableEq, Repr, Inhabited

/-- The permissions a segment's bytes need: code X, and R where it reads its own constants; data and BSS R and W
(R653 item 1). -/
def SegmentUse.needs : SegmentUse → Access → Bool
  | .code _, .fetch => true
  | .code readsItself, .read => readsItself
  | .code _, .write => false
  | .data, .fetch => false
  | .data, .read | .data, .write => true

/-- A segment of the image: the file's bytes at `vaddr`, and zeros up to `memSize` (R651). -/
structure Segment where
  vaddr : Addr
  bytes : List Byte
  memSize : Nat
  use : SegmentUse
deriving DecidableEq, Repr, Inhabited

/-- The launch has the segment written, in regions with the permissions it needs (R651, R653 item 1). -/
def Segment.WrittenIn (g : Segment) (l : Launch) : Prop :=
  g.bytes.length ≤ g.memSize ∧ g.vaddr.toNat + g.memSize ≤ 2 ^ 32 ∧
  ∀ i < g.memSize, Memory.get l.initMem (g.vaddr.toNat + i) = g.bytes.getD i 0 ∧
    ∀ k ∈ [Access.fetch, .read, .write], g.use.needs k = true →
      allowedAt l.initRegions k (g.vaddr.toNat + i) = true

/-- The entries of the auxiliary vector that R652 lists before AT_NULL. -/
inductive AuxType where
  | pagesz | phdr | phent | phnum | entry | uid | gid | euid | egid | random
deriving DecidableEq, Repr, Inhabited

def AuxType.all : List AuxType := [.pagesz, .phdr, .phent, .phnum, .entry, .uid, .gid, .euid, .egid, .random]

/-- PRESUMED (log entry 24): the numbers of Linux, which the spec does not give. -/
def AuxType.code : AuxType → Long
  | .phdr => 3
  | .phent => 4
  | .phnum => 5
  | .pagesz => 6
  | .entry => 9
  | .uid => 11
  | .euid => 12
  | .gid => 13
  | .egid => 14
  | .random => 25

/-- The structures of the initial stack (R652). `nullValue` is the value beside AT_NULL, which nothing fixes;
`stringBytes` counts the bytes of the strings and of AT_RANDOM above the vectors. -/
structure InitialStack where
  argv : List Long
  envp : List Long
  auxv : List (AuxType × Long)
  nullValue : Long
  stringBytes : Nat
deriving DecidableEq, Repr, Inhabited

/-- The longs from `init_sp` up: argc, the argv pointers and a null, the envp pointers and a null, the auxv pairs and
AT_NULL, whose number is 0 (R652, log entry 24). -/
def InitialStack.longs (k : InitialStack) : List Long :=
  [BitVec.ofNat 32 k.argv.length] ++ k.argv ++ [0] ++ k.envp ++ [0] ++
    (k.auxv.flatMap fun e => [AuxType.code e.1, e.2]) ++ [0, k.nullValue]

/-- Where the strings begin: right above the longs. -/
def InitialStack.strings (k : InitialStack) (l : Launch) : Nat := l.initSp.toNat + 4 * (InitialStack.longs k).length

/-- Where the structures end. -/
def InitialStack.stop (k : InitialStack) (l : Launch) : Nat := InitialStack.strings k l + k.stringBytes

/-- The structures stand at and above `init_sp`, big-endian: every pointer of argv and envp points to a string that ends
before `stop`, every listed entry is in the auxiliary vector, AT_PAGESZ is 4096 and AT_RANDOM points to 16 bytes
(R652). -/
def InitialStack.BuiltIn (k : InitialStack) (l : Launch) : Prop :=
  (∀ i < (InitialStack.longs k).length, (State.launch l).load (l.initSp + BitVec.ofNat 32 (4 * i)) 4 =
    ((InitialStack.longs k).getD i 0).toNat) ∧
  (∀ p ∈ k.argv ++ k.envp, InitialStack.strings k l ≤ p.toNat ∧
    ∃ e, p.toNat ≤ e ∧ e < InitialStack.stop k l ∧ Memory.get l.initMem e = 0) ∧
  (∀ t ∈ AuxType.all, t ∈ k.auxv.map Prod.fst) ∧
  ∀ e ∈ k.auxv, (e.1 = .pagesz → e.2 = 4096) ∧
    (e.1 = .random → InitialStack.strings k l ≤ e.2.toNat ∧ e.2.toNat + 16 ≤ InitialStack.stop k l)

/-- What the program of a launch needs: its segments, how many bytes of stack it uses below `init_sp`, and the
structures the host builds above it. -/
structure Image where
  segments : List Segment
  stackBytes : Nat
  stack : InitialStack
deriving DecidableEq, Repr, Inhabited

/-- The named launch premise `LaunchOK` (R654), items 1 to 3 of R653: the map is a region map whose bytes hold the memory
given, with the image written in regions that have the permissions it needs; the entry point is even and its word can be
fetched; and one region with R and W holds the stack the program uses below `init_sp` and the structures of R652 above
it. -/
def LaunchOK (m : Image) (l : Launch) : Prop :=
  Region.mapWf l.initRegions = true ∧ Memory.wf l.initMem = true ∧
  (∀ c ∈ l.initMem, mappedAt l.initRegions c.1 = true) ∧
  (∀ g ∈ m.segments, Segment.WrittenIn g l) ∧
  l.entryPc.getLsbD 0 = false ∧ allowed l.initRegions .fetch l.entryPc 2 = true ∧
  InitialStack.BuiltIn m.stack l ∧
  ∃ r ∈ l.initRegions, r.r = true ∧ r.w = true ∧ r.base + m.stackBytes ≤ l.initSp.toNat ∧
    InitialStack.stop m.stack l ≤ r.base + r.length

/-! ### The invariant -/

/-- The invariant of the model: memory, the region map and the two address sets are in canonical form, every
listed byte is mapped (R80, R101), and `stale` is a subset of `ifetched` (R52). -/
def Inv (s : State) : Prop :=
  Memory.wf s.mem = true ∧ Region.mapWf s.regions = true ∧ AddrSet.wf s.ifetched = true ∧
  AddrSet.wf s.stale = true ∧ (∀ k ∈ s.stale, k ∈ s.ifetched) ∧
  (∀ c ∈ s.mem, mappedAt s.regions c.1 = true)

/-- The exceptions an instruction raises beside the bus errors of its operand accesses (R602). -/
def ownRaise : Instr → Raise → Prop
  | .divuW _ _, e | .divsW _ _, e | .divuL _ _ _ _, e | .divsL _ _ _ _, e => e = .divideByZero
  | .chkW _ _, e | .chkL _ _, e | .chk2 _ _ _, e => e = .chk
  | .trapv, e | .trapcc _ _, e => e = .trapcc
  | .trap v, e => e = if v = 0 then .syscall else .trap v
  | .illegal, e | .bkpt _, e | .callm _ _, e | .rtm _, e => e = .illegalInstruction
  | .lineA _, e => e = .lineA
  | .lineF _, e => e = .lineF
  | .moveFromSr _, e | .moveToSr _, e | .andiToSr, e | .oriToSr, e | .eoriToSr, e | .moveToUsp _, e
  | .moveFromUsp _, e | .movec _, e | .moves _ _, e | .rte, e | .stop, e => e = .privilegeViolation
  | .ori _ _ _, _ | .oriToCcr _, _ | .andi _ _ _, _ | .andiToCcr _, _ | .eori _ _ _, _ | .eoriToCcr _, _
  | .subi _ _ _, _ | .addi _ _ _, _ | .cmpi _ _ _, _ | .cmp2 _ _ _, _ | .btstImm _ _, _ | .btstReg _ _, _
  | .bchgImm _ _, _ | .bchgReg _ _, _ | .bclrImm _ _, _ | .bclrReg _ _, _ | .bsetImm _ _, _ | .bsetReg _ _, _
  | .movep _ _ _ _ _, _ | .casB _ _ _, _ | .casW _ _ _, _ | .casL _ _ _, _ | .cas2W _ _, _ | .cas2L _ _, _
  | .moveB _ _, _ | .moveW _ _, _ | .moveL _ _, _ | .moveaW _ _, _ | .moveaL _ _, _ | .negx _ _, _
  | .clr _ _, _ | .neg _ _, _ | .notEa _ _, _ | .moveFromCcr _, _ | .moveToCcr _, _ | .lea _ _, _ | .nbcd _, _
  | .linkL _ _, _ | .swap _, _ | .pea _, _ | .extW _, _ | .extL _, _ | .extbL _, _ | .movemToMem _ _ _, _
  | .movemToReg _ _ _, _ | .tst _ _, _ | .tas _, _ | .muluL _ _ _, _ | .mulsL _ _ _, _ | .linkW _ _, _
  | .unlk _, _ | .reset, _ | .nop, _ | .rtd _, _ | .rts, _ | .rtr, _ | .jsr _, _ | .jmp _, _ | .addq _ _ _, _
  | .subq _ _ _, _ | .scc _ _, _ | .dbcc _ _ _, _ | .bra _, _ | .bsr _, _ | .bcc _ _, _ | .moveq _ _, _
  | .orToReg _ _ _, _ | .orToEa _ _ _, _ | .sbcd _ _ _, _ | .andToReg _ _ _, _ | .andToEa _ _ _, _
  | .abcd _ _ _, _ | .pack _ _ _ _, _ | .unpk _ _ _ _, _ | .muluW _ _, _ | .mulsW _ _, _ | .exgDD _ _, _
  | .exgAA _ _, _ | .exgDA _ _, _ | .subToReg _ _ _, _ | .subToEa _ _ _, _ | .subaW _ _, _ | .subaL _ _, _
  | .subx _ _ _ _, _ | .addToReg _ _ _, _ | .addToEa _ _ _, _ | .addaW _ _, _ | .addaL _ _, _
  | .addx _ _ _ _, _ | .cmp _ _ _, _ | .cmpaW _ _, _ | .cmpaL _ _, _ | .eor _ _ _, _ | .cmpm _ _ _, _
  | .asrReg _ _ _, _ | .asrMem _, _ | .aslReg _ _ _, _ | .aslMem _, _ | .lsrReg _ _ _, _ | .lsrMem _, _
  | .lslReg _ _ _, _ | .lslMem _, _ | .roxrReg _ _ _, _ | .roxrMem _, _ | .roxlReg _ _ _, _ | .roxlMem _, _
  | .rorReg _ _ _, _ | .rorMem _, _ | .rolReg _ _ _, _ | .rolMem _, _ | .bftst _ _, _ | .bfextu _ _ _, _
  | .bfchg _ _, _ | .bfexts _ _ _, _ | .bfclr _ _, _ | .bfffo _ _ _, _ | .bfset _ _, _ | .bfins _ _ _, _ => False

/-- What data accesses raise: a bus error, never of a fetch (R602, R605). -/
def AccessRaise (e : Raise) : Prop := ∃ f, e = .busError f ∧ f.kind ≠ .fetch

/-- What instruction `i` raises (R602): bus errors of its data accesses and its own exceptions; a term that is no
instruction raises IllegalInstruction (R140). -/
def MayRaise (i : Instr) (e : Raise) : Prop :=
  AccessRaise e ∨ ownRaise i e ∨ (Instr.wf i = false ∧ e = .illegalInstruction)

/-! ### What an instruction may write -/

/-- The address register an operand steps: postincrement and predecrement (R204, R205). -/
def EA.stepped : EA → List RegSel
  | .postinc n | .predec n => [.a n]
  | .dreg _ | .areg _ | .ind _ | .disp _ _ | .index _ _ | .absW _ | .absL _ | .pcDisp _ | .pcIndex _ | .imm _ => []

/-- The register an operand is. -/
def EA.regs : EA → List RegSel
  | .dreg n => [.d n]
  | .areg n => [.a n]
  | .ind _ | .postinc _ | .predec _ | .disp _ _ | .index _ _ | .absW _ | .absL _ | .pcDisp _ | .pcIndex _
  | .imm _ => []

/-- A destination operand: the register it is and the register it steps. -/
def EA.dest (ea : EA) : List RegSel := EA.stepped ea ++ EA.regs ea

/-- The registers of the memory form `-(Ay),-(Ax)`, or the destination Dx. -/
def extendedRegs (mem : Bool) (x y : RegNo) : List RegSel := if mem then [.a y, .a x] else [.d x]

/-- The registers an instruction may write: its destinations, the registers its addressing modes step, and the
stack pointer where its rule names it. -/
def writesRegs : Instr → List RegSel
  | .ori _ _ dst | .andi _ _ dst | .eori _ _ dst | .subi _ _ dst | .addi _ _ dst => EA.dest dst
  | .oriToCcr _ | .andiToCcr _ | .eoriToCcr _ => []
  | .oriToSr | .andiToSr | .eoriToSr | .moves _ _ | .moveFromSr _ | .moveToSr _ | .moveToUsp _ | .moveFromUsp _
  | .stop | .rte | .movec _ => []
  | .cmpi _ _ dst => EA.stepped dst
  | .cmp2 _ _ src | .chk2 _ _ src => EA.stepped src
  | .rtm _ | .callm _ _ | .illegal | .bkpt _ | .lineA _ | .lineF _ | .trap _ | .trapv | .trapcc _ _ => []
  | .btstImm _ ea | .btstReg _ ea => EA.stepped ea
  | .bchgImm _ ea | .bchgReg _ ea | .bclrImm _ ea | .bclrReg _ ea | .bsetImm _ ea | .bsetReg _ ea => EA.dest ea
  | .movep toMem _ dx _ _ => if toMem then [] else [.d dx]
  | .casB dc _ dst | .casW dc _ dst | .casL dc _ dst => .d dc :: EA.dest dst
  | .cas2W o1 o2 | .cas2L o1 o2 => [.d o1.dc, .d o2.dc]
  | .moveB src dst | .moveW src dst | .moveL src dst => EA.stepped src ++ EA.dest dst
  | .moveaW src an | .moveaL src an => .a an :: EA.stepped src
  | .negx _ dst | .clr _ dst | .neg _ dst | .notEa _ dst => EA.dest dst
  | .moveFromCcr dst => EA.dest dst
  | .moveToCcr src => EA.stepped src
  | .chkW src _ | .chkL src _ => EA.stepped src
  | .lea src an => .a an :: EA.stepped src
  | .nbcd dst | .tas dst | .scc _ dst => EA.dest dst
  | .linkL an _ | .linkW an _ | .unlk an => [.a spReg, .a an]
  | .swap dn | .extW dn | .extL dn | .extbL dn | .moveq _ dn => [.d dn]
  | .pea src | .jsr src => .a spReg :: EA.stepped src
  | .jmp src => EA.stepped src
  | .movemToMem _ _ dst => EA.stepped dst
  | .movemToReg _ mask src => EA.stepped src ++ maskRegs mask
  | .tst _ src => EA.stepped src
  | .muluL dl form src | .mulsL dl form src =>
    match form with
    | .narrow => .d dl :: EA.stepped src
    | .wide dh => .d dl :: .d dh :: EA.stepped src
  | .divuL dq _ dr src | .divsL dq _ dr src => .d dq :: .d dr :: EA.stepped src
  | .reset | .nop => []
  | .rtd _ | .rts | .rtr | .bsr _ => [.a spReg]
  | .addq _ _ dst | .subq _ _ dst => EA.dest dst
  | .dbcc _ dn _ => [.d dn]
  | .bra _ | .bcc _ _ => []
  | .orToReg _ src dn | .andToReg _ src dn | .subToReg _ src dn | .addToReg _ src dn => .d dn :: EA.stepped src
  | .orToEa _ _ dst | .andToEa _ _ dst | .subToEa _ _ dst | .addToEa _ _ dst | .eor _ _ dst => EA.dest dst
  | .sbcd mem x y | .abcd mem x y => extendedRegs mem x y
  | .subx _ mem x y | .addx _ mem x y => extendedRegs mem x y
  | .divuW src dn | .divsW src dn | .muluW src dn | .mulsW src dn => .d dn :: EA.stepped src
  | .pack mem x y _ | .unpk mem x y _ => if mem then [.a x, .a y] else [.d y]
  | .exgDD x y => [.d x, .d y]
  | .exgAA x y => [.a x, .a y]
  | .exgDA x y => [.d x, .a y]
  | .subaW src an | .subaL src an | .addaW src an | .addaL src an => .a an :: EA.stepped src
  | .cmp _ src _ => EA.stepped src
  | .cmpaW src _ | .cmpaL src _ => EA.stepped src
  | .cmpm _ x y => [.a y, .a x]
  | .asrReg _ _ dy | .aslReg _ _ dy | .lsrReg _ _ dy | .lslReg _ _ dy | .roxrReg _ _ dy | .roxlReg _ _ dy
  | .rorReg _ _ dy | .rolReg _ _ dy => [.d dy]
  | .asrMem dst | .aslMem dst | .lsrMem dst | .lslMem dst | .roxrMem dst | .roxlMem dst | .rorMem dst
  | .rolMem dst => EA.dest dst
  | .bftst _ ea => EA.stepped ea
  | .bfextu _ ea dn | .bfexts _ ea dn | .bfffo _ ea dn => .d dn :: EA.stepped ea
  | .bfchg _ ea | .bfclr _ ea | .bfset _ ea | .bfins _ _ ea => EA.dest ea

/-- A set of flags. -/
abbrev FlagSet := Ccr

def FlagSet.none : FlagSet := { x := false, n := false, z := false, v := false, c := false }

def FlagSet.all : FlagSet := { x := true, n := true, z := true, v := true, c := true }

def FlagSet.nzvc : FlagSet := { x := false, n := true, z := true, v := true, c := true }

def FlagSet.zOnly : FlagSet := { x := false, n := false, z := true, v := false, c := false }

/-- The flags outside `w` are unchanged. -/
def Ccr.Keeps (w : FlagSet) (old new : Ccr) : Prop :=
  (w.x = false → new.x = old.x) ∧ (w.n = false → new.n = old.n) ∧ (w.z = false → new.z = old.z) ∧
  (w.v = false → new.v = old.v) ∧ (w.c = false → new.c = old.c)

/-- The flags an instruction may write (the table of R49). -/
def writesFlags : Instr → FlagSet
  | .addi _ _ _ | .subi _ _ _ | .addToReg _ _ _ | .addToEa _ _ _ | .subToReg _ _ _ | .subToEa _ _ _
  | .addx _ _ _ _ | .subx _ _ _ _ | .neg _ _ | .negx _ _ => .all
  | .addq _ _ dst | .subq _ _ dst =>
    match dst with
    | .areg _ => .none
    | .dreg _ | .ind _ | .postinc _ | .predec _ | .disp _ _ | .index _ _ | .absW _ | .absL _ | .pcDisp _
    | .pcIndex _ | .imm _ => .all
  | .asrReg _ _ _ | .aslReg _ _ _ | .lsrReg _ _ _ | .lslReg _ _ _ | .roxrReg _ _ _ | .roxlReg _ _ _
  | .asrMem _ | .aslMem _ | .lsrMem _ | .lslMem _ | .roxrMem _ | .roxlMem _ => .all
  | .abcd _ _ _ | .sbcd _ _ _ | .nbcd _ => .all
  | .moveToCcr _ | .oriToCcr _ | .andiToCcr _ | .eoriToCcr _ | .rtr => .all
  | .btstImm _ _ | .btstReg _ _ | .bchgImm _ _ | .bchgReg _ _ | .bclrImm _ _ | .bclrReg _ _ | .bsetImm _ _
  | .bsetReg _ _ => .zOnly
  | .ori _ _ _ | .andi _ _ _ | .eori _ _ _ | .orToReg _ _ _ | .orToEa _ _ _ | .andToReg _ _ _ | .andToEa _ _ _
  | .eor _ _ _ | .notEa _ _ | .clr _ _ | .tst _ _ | .tas _ | .moveB _ _ | .moveW _ _ | .moveL _ _ | .moveq _ _
  | .swap _ | .extW _ | .extL _ | .extbL _ => .nzvc
  | .cmpi _ _ _ | .cmp _ _ _ | .cmpaW _ _ | .cmpaL _ _ | .cmpm _ _ _ | .cmp2 _ _ _ | .chk2 _ _ _ | .chkW _ _
  | .chkL _ _ | .casB _ _ _ | .casW _ _ _ | .casL _ _ _ | .cas2W _ _ | .cas2L _ _ => .nzvc
  | .muluW _ _ | .mulsW _ _ | .muluL _ _ _ | .mulsL _ _ _ | .divuW _ _ | .divsW _ _ | .divuL _ _ _ _
  | .divsL _ _ _ _ => .nzvc
  | .rorReg _ _ _ | .rolReg _ _ _ | .rorMem _ | .rolMem _ => .nzvc
  | .bftst _ _ | .bfextu _ _ _ | .bfchg _ _ | .bfexts _ _ _ | .bfclr _ _ | .bfffo _ _ _ | .bfset _ _
  | .bfins _ _ _ => .nzvc
  | .oriToSr | .andiToSr | .eoriToSr | .moves _ _ | .moveFromSr _ | .moveToSr _ | .moveToUsp _ | .moveFromUsp _
  | .stop | .rte | .movec _ | .rtm _ | .callm _ _ | .illegal | .bkpt _ | .lineA _ | .lineF _ | .trap _ | .trapv
  | .trapcc _ _ => .none
  | .movep _ _ _ _ _ | .moveaW _ _ | .moveaL _ _ | .moveFromCcr _ | .lea _ _ | .linkL _ _ | .linkW _ _ | .unlk _
  | .pea _ | .movemToMem _ _ _ | .movemToReg _ _ _ | .reset | .nop | .rtd _ | .rts | .jsr _ | .jmp _ | .scc _ _
  | .dbcc _ _ _ | .bra _ | .bsr _ | .bcc _ _ | .pack _ _ _ _ | .unpk _ _ _ _ | .exgDD _ _ | .exgAA _ _
  | .exgDA _ _ | .subaW _ _ | .subaL _ _ | .addaW _ _ | .addaL _ _ => .none

/-! ### The bytes an instruction stores to -/

/-- The state a body leaves when it completes, and a value computed from it. -/
def afterOk {α : Type} (r : EStateM.Result Raise State α) (f : α → State → List Nat) : List Nat :=
  match r with
  | .ok a t => f a t
  | .error _ _ => []

/-- The bytes of an operand in memory. -/
def Operand.span (sz : Size) : Operand → List Nat
  | .mem a _ => byteAddrs a sz.bytes
  | .dreg _ | .areg _ | .imm _ => []

/-- The bytes of the operand an effective address resolves to. -/
def opSpan (sz : Size) (ea : EA) (k : Nat) (s : State) : List Nat :=
  afterOk (resolve sz ea k s) fun op _ => Operand.span sz op

/-- The four bytes below the stack pointer: a push of a long (R20). -/
def pushSpan (s : State) : List Nat := byteAddrs (s.getA spReg - 4) 4

/-- The bytes of `m` accesses at rising addresses (R431). -/
def upSpan (sz : Size) : Nat → Addr → List Nat
  | 0, _ => []
  | m + 1, a => byteAddrs a sz.bytes ++ upSpan sz m (a + BitVec.ofNat 32 sz.bytes)

/-- The bytes of `m` accesses at falling addresses (R431). -/
def downSpan (sz : Size) : Nat → Addr → List Nat
  | 0, _ => []
  | m + 1, a =>
    byteAddrs (a - BitVec.ofNat 32 sz.bytes) sz.bytes ++ downSpan sz m (a - BitVec.ofNat 32 sz.bytes)

/-- `n` bytes two apart (R435). -/
def spreadSpan : Nat → Addr → List Nat
  | 0, _ => []
  | n + 1, a => byteAddrs a 1 ++ spreadSpan n (a + 2)

/-- The bytes that hold a bit field (R372). -/
def BitField.span (f : BitField) : List Nat :=
  match f.home with
  | .reg _ _ => []
  | .mem base n => byteAddrs base n

/-- The bytes MOVEM stores to (R431). -/
def movemSpan (sz : Size) (mask : BitVec 16) (dst : EA) (s : State) : List Nat :=
  match dst with
  | .predec n => downSpan sz (maskRegsDown mask).length (s.getA n)
  | .dreg _ | .areg _ | .ind _ | .postinc _ | .disp _ _ | .index _ _ | .absW _ | .absL _ | .pcDisp _
  | .pcIndex _ | .imm _ => afterOk (addrOf dst 2 s) fun a _ => upSpan sz (maskRegs mask).length a

/-- MOVE's destination is resolved after its source is read (R400). -/
def moveSpan (sz : Size) (src dst : EA) (s : State) : List Nat :=
  afterOk (readEa sz src 1 s) fun _ t => opSpan sz dst (1 + (EA.words sz src).length) t

/-- `-(Ax)` is resolved after `-(Ay)` is read (R256, R261, R521). -/
def extendedSpan (sz : Size) (mem : Bool) (x y : RegNo) (s : State) : List Nat :=
  if mem then afterOk (readEa sz (.predec y) 1 s) fun _ t => opSpan sz (.predec x) 1 t else []

/-- PACK reads two bytes before it stores one (R524). -/
def packSpan (mem : Bool) (x y : RegNo) (s : State) : List Nat :=
  if mem then afterOk (readEa .b (.predec x) 2 s) fun _ t => afterOk (readEa .b (.predec x) 2 t) fun _ u =>
    opSpan .b (.predec y) 2 u
  else []

/-- UNPK reads one byte and stores two, the low byte first (R525; to `-(A7)` they lie two apart, log entry 25). -/
def unpkSpan (mem : Bool) (x y : RegNo) (adj : BitVec 16) (s : State) : List Nat :=
  if mem then afterOk (readEa .b (.predec x) 2 s) fun b t =>
    opSpan .b (.predec y) 2 t ++
      afterOk (writeEa .b (.predec y) 2 (((unpackWord b adj).extractLsb' 0 8).setWidth 32) t) fun _ u =>
        opSpan .b (.predec y) 2 u
  else []

/-- The bytes an instruction may store to, each address computed as its meaning computes it. -/
def storeSpan (i : Instr) (s : State) : List Nat :=
  match i with
  | .ori sz _ dst | .andi sz _ dst | .eori sz _ dst | .subi sz _ dst | .addi sz _ dst =>
    opSpan sz dst (1 + immWordCount sz) s
  | .bchgImm _ ea | .bclrImm _ ea | .bsetImm _ ea => opSpan (bitSize ea) ea 2 s
  | .bchgReg _ ea | .bclrReg _ ea | .bsetReg _ ea => opSpan (bitSize ea) ea 1 s
  | .movep toMem sz _ ay disp => if toMem then spreadSpan sz.bytes (s.getA ay + disp.signExtend 32) else []
  | .casB _ _ dst => opSpan .b dst 2 s
  | .casW _ _ dst => opSpan .w dst 2 s
  | .casL _ _ dst => opSpan .l dst 2 s
  | .cas2W o1 o2 => byteAddrs (s.getR o1.rn) 2 ++ byteAddrs (s.getR o2.rn) 2
  | .cas2L o1 o2 => byteAddrs (s.getR o1.rn) 4 ++ byteAddrs (s.getR o2.rn) 4
  | .moveB src dst => moveSpan .b src dst s
  | .moveW src dst => moveSpan .w src dst s
  | .moveL src dst => moveSpan .l src dst s
  | .negx sz dst | .clr sz dst | .neg sz dst | .notEa sz dst => opSpan sz dst 1 s
  | .moveFromCcr dst => opSpan .w dst 1 s
  | .nbcd dst | .tas dst | .scc _ dst => opSpan .b dst 1 s
  | .linkL _ _ | .linkW _ _ | .bsr _ => pushSpan s
  | .pea src | .jsr src => afterOk (addrOf src 1 s) fun _ t => pushSpan t
  | .movemToMem sz mask dst => movemSpan sz mask dst s
  | .addq sz _ dst | .subq sz _ dst => opSpan sz dst 1 s
  | .orToEa sz _ dst | .andToEa sz _ dst | .subToEa sz _ dst | .addToEa sz _ dst | .eor sz _ dst => opSpan sz dst 1 s
  | .sbcd mem x y | .abcd mem x y => extendedSpan .b mem x y s
  | .subx sz mem x y | .addx sz mem x y => extendedSpan sz mem x y s
  | .pack mem x y _ => packSpan mem x y s
  | .unpk mem x y adj => unpkSpan mem x y adj s
  | .asrMem dst | .aslMem dst | .lsrMem dst | .lslMem dst | .roxrMem dst | .roxlMem dst | .rorMem dst
  | .rolMem dst => opSpan .w dst 1 s
  | .bfchg bf ea | .bfclr bf ea | .bfset bf ea | .bfins bf _ ea => afterOk (bfLocate bf ea s) fun f _ => f.span
  | .oriToCcr _ | .andiToCcr _ | .eoriToCcr _ | .oriToSr | .andiToSr | .eoriToSr | .moves _ _ | .moveFromSr _
  | .moveToSr _ | .moveToUsp _ | .moveFromUsp _ | .stop | .rte | .movec _ | .rtm _ | .callm _ _ | .illegal | .bkpt _
  | .lineA _ | .lineF _ | .trap _ | .trapv | .trapcc _ _ | .cmpi _ _ _ | .cmp2 _ _ _ | .chk2 _ _ _ | .btstImm _ _
  | .btstReg _ _ | .moveaW _ _ | .moveaL _ _ | .moveToCcr _ | .chkW _ _ | .chkL _ _ | .lea _ _ | .unlk _ | .swap _
  | .extW _ | .extL _ | .extbL _ | .moveq _ _ | .jmp _ | .movemToReg _ _ _ | .tst _ _ | .muluL _ _ _ | .mulsL _ _ _
  | .divuL _ _ _ _ | .divsL _ _ _ _ | .reset | .nop | .rtd _ | .rts | .rtr | .dbcc _ _ _ | .bra _ | .bcc _ _
  | .orToReg _ _ _ | .andToReg _ _ _ | .subToReg _ _ _ | .addToReg _ _ _ | .divuW _ _ | .divsW _ _ | .muluW _ _
  | .mulsW _ _ | .exgDD _ _ | .exgAA _ _ | .exgDA _ _ | .subaW _ _ | .subaL _ _ | .addaW _ _ | .addaL _ _
  | .cmp _ _ _ | .cmpaW _ _ | .cmpaL _ _ | .cmpm _ _ _ | .asrReg _ _ _ | .aslReg _ _ _ | .lsrReg _ _ _
  | .lslReg _ _ _ | .roxrReg _ _ _ | .roxlReg _ _ _ | .rorReg _ _ _ | .rolReg _ _ _ | .bftst _ _ | .bfextu _ _ _
  | .bfexts _ _ _ | .bfffo _ _ _ => []

/-! ### Words for claims -/

/-- Instruction `i` completes at `s`: the next state is `t` with the PC at pc_next (R48, R54). -/
def Completes (i : Instr) (s t : State) : Prop := exec i s = .next { t with pc := pcNext i s.pc }

/-- Instruction `i` completes at `s` and goes on at `target`. -/
def GoesTo (i : Instr) (s t : State) (target : Addr) : Prop := exec i s = .next { t with pc := target }

/-- Instruction `i` raises `e`; `t` holds what it did before the raise (R603, R609). A halt leaves the PC of the state at
pc_op, as `t` has it (log entry 6). -/
def Raises (i : Instr) (s : State) (e : Raise) (t : State) : Prop :=
  exec i s = .next (takeException s.pc (pcNext i s.pc) (some (opcodeWord i)) e t)

/-- The halt record of an instruction at `s.pc` with the SR of `s` (R604). -/
def State.record (s : State) (cause : Cause) (vector : Option (BitVec 8)) (format : Option FrameFormat) (pc : Addr)
    (opcode : Option Word16) (fault : Option FaultDetail) : HaltRecord where
  cause := cause
  vector := vector
  format := format
  pc := pc
  instrAddr := s.pc
  sr := s.sr
  opcode := opcode
  fault := fault

/-- The core halted with a record, nothing else changed (R603). -/
def State.halt (s : State) (r : HaltRecord) : State := { s with status := .halted r }

/-- The operand can be written: a register, or bytes that are all mapped with W (R86, R87). -/
def Operand.accepts (sz : Size) (rs : List Region) : Operand → Prop
  | .dreg _ | .areg _ => True
  | .mem a _ => allowed rs .write a sz.bytes = true
  | .imm _ => False

/-- What `WriteOp(op, s, v)` makes of the state (R214). -/
def State.putOp (s : State) (sz : Size) (op : Operand) (v : Long) : State :=
  match op with
  | .dreg n => s.writeD n sz v
  | .areg n => s.writeA n sz v
  | .mem a _ => s.store a sz.bytes v.toNat
  | .imm _ => s

/-- The step of a postincrement operand (R204). -/
def State.stepPost (s : State) (sz : Size) (op : Operand) : State :=
  match op with
  | .mem _ (some n) => s.setA n (s.getA n + stepOf n sz)
  | .mem _ none | .dreg _ | .areg _ | .imm _ => s

/-- The read-modify-write operand `ea` is `op`, holds `d` and can be written; `s1` is the state after it is read
(R215). -/
def CanChange (sz : Size) (ea : EA) (k : Nat) (s : State) (op : Operand) (d : Long) (s1 : State) : Prop :=
  ∃ s0, resolve sz ea k s = .ok op s0 ∧ readOp sz op s0 = .ok d s1 ∧ Operand.accepts sz s.regions op

/-- The destination `ea` is `op` and can be written; `s1` is the state after it is resolved (R214). -/
def CanWrite (sz : Size) (ea : EA) (k : Nat) (s : State) (op : Operand) (s1 : State) : Prop :=
  resolve sz ea k s = .ok op s1 ∧ Operand.accepts sz s.regions op

/-- A long can be pushed (R20). -/
def CanPush (s : State) : Prop := allowed s.regions .write (s.getA spReg - 4) 4 = true

/-- The state after `Push(4, v)` (R20). -/
def State.pushed (s : State) (v : Long) : State :=
  (s.store (s.getA spReg - 4) 4 v.toNat).setA spReg (s.getA spReg - 4)

/-- A value can be popped (R20). -/
def CanPop (sz : Size) (s : State) : Prop := allowed s.regions .read (s.getA spReg) sz.bytes = true

/-- The value on top of the stack (R20). -/
def State.top (s : State) (sz : Size) : Long := BitVec.ofNat 32 (s.load (s.getA spReg) sz.bytes)

/-- The state after a pop (R20). -/
def State.popped (s : State) (sz : Size) : State := s.setA spReg (s.getA spReg + BitVec.ofNat 32 sz.bytes)

/-- The count of a register shift (R330). -/
def State.countOf (s : State) : ShiftCount → Nat
  | .imm n => n.toNat
  | .reg n => (s.getD n).toNat % 64

/-- The registers stored at rising addresses from `a` (R431). -/
def State.saveUp (s : State) (sz : Size) : List RegSel → Addr → State
  | [], _ => s
  | r :: rs, a => (s.store a sz.bytes (s.getR r).toNat).saveUp sz rs (a + BitVec.ofNat 32 sz.bytes)

/-- The registers stored at falling addresses below `a`; `w` is what is stored for `An` itself (R431, D20). -/
def State.saveDown (s : State) (sz : Size) (n : RegNo) (w : Long) : List RegSel → Addr → State
  | [], _ => s
  | r :: rs, a =>
    (s.store (a - BitVec.ofNat 32 sz.bytes) sz.bytes (if r = .a n then w else s.getR r).toNat).saveDown sz n w rs
      (a - BitVec.ofNat 32 sz.bytes)

/-- The registers loaded from rising addresses, each sign-extended (R432). -/
def State.restore (s : State) (sz : Size) : List RegSel → Addr → State
  | [], _ => s
  | r :: rs, a =>
    (s.setR r (sz.sext (BitVec.ofNat 32 (s.load a sz.bytes)))).restore sz rs (a + BitVec.ofNat 32 sz.bytes)

/-- `a` plus `m` operand sizes. -/
def upBy (a : Addr) (sz : Size) (m : Nat) : Addr := a + BitVec.ofNat 32 (m * sz.bytes)

/-- `a` less `m` operand sizes. -/
def downBy (a : Addr) (sz : Size) (m : Nat) : Addr := a - BitVec.ofNat 32 (m * sz.bytes)

/-- The `n` bytes two apart from `a`, as a big-endian number (R435). -/
def State.spread (s : State) : Nat → Addr → Nat
  | 0, _ => 0
  | n + 1, a => (Memory.get s.mem a.toNat).toNat * 256 ^ n + s.spread n (a + 2)

/-- The low `n` bytes of `v` stored two apart from `a`, the high byte first (R435). -/
def State.storeSpread (s : State) : Nat → Addr → Nat → State
  | 0, _, _ => s
  | n + 1, a, v => (s.store a 1 (v / 256 ^ n % 256)).storeSpread n (a + 2) v

/-- The value of a bit field's home: the rotated register, or its bytes (R371, R372). -/
def State.homeOf (s : State) (f : BitField) : Nat :=
  match f.home with
  | .reg y rot => ((s.getD y).rotateLeft rot).toNat
  | .mem base n => s.load base n

/-- A bit field's home set to `v`. -/
def State.setHome (s : State) (f : BitField) (v : Nat) : State :=
  match f.home with
  | .reg y rot => s.setD y ((BitVec.ofNat 32 v).rotateRight rot)
  | .mem base n => s.store base n v

/-- A bit field's home allows the access (R372). -/
def BitField.allows (f : BitField) (rs : List Region) (k : Access) : Prop :=
  match f.home with
  | .reg _ _ => True
  | .mem base n => allowed rs k base n = true

/-- The number k of the register `R[k]`: D0 to D7 are 0 to 7, A0 to A7 are 8 to 15 (R16). -/
def RegSel.number : RegSel → Nat
  | .d n => n.toNat
  | .a n => 8 + n.toNat

/-- Two decimal digits as a byte (R520). -/
def bcdByte (hi lo : Nat) : Nat := 16 * hi + lo

/-! ### Runs -/

/-- A run has ended: no further step exists (R51, R623). -/
def Ended (s : State) : Prop :=
  match s.status with
  | .halted _ | .exited _ => True
  | .running | .syscallPending => False

/-- The core stopped with a record of this cause (R604). -/
def HaltedBy (c : Cause) (s : State) : Prop := ∃ r, s.status = .halted r ∧ r.cause = c

/-- A safe run's states: the core has not halted. -/
def Safe (s : State) : Prop := ∀ r, s.status ≠ .halted r

end Sys2Proof.Machine
end

