-- ==== Sys2Proof/Certificates/Slice0/Obligations.lean ====
section
/-! DEFINITION. The statements for the provers. A statement about an operand in memory takes as hypotheses that the
operand can be read or written (`readEa … = .ok x s1`, `CanChange`, `CanWrite`, `CanPush`, `CanPop`): what these come
to, mode by mode, is `Obligations.OperandModes`. `Completes i s t` unfolds to
`exec i s = .next { t with pc := pcNext i s.pc }`, `GoesTo i s t a` to `exec i s = .next { t with pc := a }`, and
`Raises i s e t` to `exec i s = .next (takeException … e t)`. A draw counter after a step is bound by an existential:
it is the model's own (log entry 4) and no statement rests on it. A halt leaves the PC of the state at pc_op, in `Raises`
and wherever a halted state is written out: the model's reading (log entry 6), which the spec does not state. -/

open Sys2Proof Sys2Proof.Machine

/-! ### Encoding -/

/-- Words written out from the encodings of 30_encoding.md and the instruction rules, one or more per line of the
table, decode to the instruction they stand for. That each decodes, whatever its mnemonic, rests on the model's choice
`Supported` = All (log entry 2). -/
def Obligations.DecodeSpecWords : Prop :=
  decode [0x0667, 0x1234] = .ok (.addi .w 0x1234 (.predec 7)) [] ∧
  decode [0x003C, 0x0001] = .ok (.oriToCcr 1) [] ∧
  decode [0x0834, 0x0007, 0x1A04] = .ok (.btstImm 7 (.index 4 (.brief ⟨.d 1, true, 1⟩ 4))) [] ∧
  decode [0x0ED0, 0x0040] = .ok (.casL 0 1 (.ind 0)) [] ∧
  decode [0x0EFC, 0x8080, 0x90C1] = .ok (.cas2L ⟨.a 0, 2, 0⟩ ⟨.a 1, 3, 1⟩) [] ∧
  decode [0x13D8, 0x0000, 0x2000] = .ok (.moveB (.postinc 0) (.absL 0x2000)) [] ∧
  decode [0x2630, 0x1322, 0x0008, 0x0004] =
    .ok (.moveL (.index 0 (.full ⟨.d 1, false, 1⟩ false false (.word 8) (.pre (.word 4)))) (.dreg 3)) [] ∧
  decode [0x3200] = .ok (.moveW (.dreg 0) (.dreg 1)) [] ∧ decode [0x3240] = .ok (.moveaW (.dreg 0) 1) [] ∧
  decode [0x48E7, 0xFFFE] = .ok (.movemToMem .l 0xFFFE (.predec 7)) [] ∧
  decode [0x4C01, 0x3C02] = .ok (.mulsL 3 (.wide 2) (.dreg 1)) [] ∧
  decode [0x40C0] = .ok (.moveFromSr ⟨0, 0⟩) [] ∧
  decode [0x4AFC] = .ok .illegal [] ∧ decode [0x4E71] = .ok .nop [] ∧ decode [0x4E4F] = .ok (.trap 15) [] ∧
  decode [0x5148] = .ok (.subq .w 8 (.areg 0)) [] ∧ decode [0x57C9, 0xFFFC] = .ok (.dbcc .eq 1 0xFFFC) [] ∧
  decode [0x61FF, 0x0001, 0x0000] = .ok (.bsr (.long 0x10000)) [] ∧
  decode [0x76FF] = .ok (.moveq 0xFFFFFFFF 3) [] ∧ decode [0x81FC, 0x0007] = .ok (.divsW (.imm 7) 0) [] ∧
  decode [0x9181] = .ok (.subx .l false 0 1) [] ∧ decode [0xA123] = .ok (.lineA 0x123) [] ∧
  decode [0xB308] = .ok (.cmpm .b 1 0) [] ∧ decode [0xC189] = .ok (.exgDA 0 1) [] ∧
  decode [0xC509] = .ok (.abcd true 2 1) [] ∧ decode [0xD041] = .ok (.addToReg .w (.dreg 1) 0) [] ∧
  decode [0xE185] = .ok (.aslReg .l (.imm 8) 5) [] ∧
  decode [0xE9D1, 0x4885] = .ok (.bfextu ⟨.reg 2, .imm 5⟩ (.ind 1) 4) [] ∧
  decode [0xF200] = .ok (.lineF 0x200) [] ∧ decode [0x4AFA] = .error .illegal []

/-- Decoding the words of a well-formed instruction gives it back, whatever follows them: no operand bit is dropped. That
every mnemonic decodes rests on the model's choice `Supported` = All (log entry 2). -/
def Obligations.DecodeEncode : Prop :=
  ∀ (i : Instr) (rest : List Word16), Instr.wf i = true → decode (encode i ++ rest) = .ok i rest

/-- What the decoder answers is well formed, begins with its own opcode word, and has the length the decoder took
from the stream; pc_next is the address after those words (R48, R120, R121). -/
def Obligations.DecodeSound : Prop :=
  ∀ (ws : List Word16) (i : Instr) (rest : List Word16), decode ws = .ok i rest →
    Instr.wf i = true ∧ ws.head? = some (opcodeWord i) ∧ ws.length = (encode i).length + rest.length ∧
    ws.drop (encode i).length = rest ∧
    ∀ pc : Addr, pcNext i pc = pc + BitVec.ofNat 32 (2 * (ws.length - rest.length))

/-! ### One step -/

/-- A running core whose words at PC decode to an instruction executes exactly that instruction, after the bytes of
the words it took have joined `ifetched` (R54, R84). -/
def Obligations.StepRunsDecoded : Prop :=
  ∀ (s : State) (i : Instr) (rest : List Word16), s.status = .running →
    decode (fetchWindow s maxWords s.pc).1 = .ok i rest →
    step s = exec i (s.markFetched ((fetchWindow s maxWords s.pc).1.length - rest.length))

/-- Where the words of a well-formed instruction stand at PC and each can be fetched, a step executes it. That every
mnemonic decodes rests on the model's choice `Supported` = All (log entry 2). -/
def Obligations.StepRunsEncoded : Prop :=
  ∀ (s : State) (i : Instr), s.status = .running → Instr.wf i = true →
    (∀ j < (encode i).length, fetchCheck s (s.pc + BitVec.ofNat 32 (2 * j)) = none ∧
      (encode i)[j]? = some (s.wordAt (s.pc + BitVec.ofNat 32 (2 * j)))) →
    step s = exec i (s.markFetched (encode i).length)

/-- R606, R89: an odd PC halts the core at the start of the step, with the record the rule gives and nothing else
changed; only an odd PC does, and no instruction does: not the one that set the odd PC, not a misaligned data access. -/
def Obligations.OddPc : Prop :=
  (∀ s : State, s.status = .running → s.pc.getLsbD 0 = true →
    step s = .next (s.halt (s.record .addressError (some 3) none s.pc none
      (some { addr := s.pc, kind := .fetch, size := 2 })))) ∧
  (∀ (s t : State) (r : HaltRecord), s.status = .running → step s = .next t → t.status = .halted r →
    r.cause = .addressError → s.pc.getLsbD 0 = true) ∧
  ∀ (i : Instr) (s t : State) (r : HaltRecord), s.status = .running → exec i s = .next t → t.status = .halted r →
    r.cause ≠ .addressError

/-- R84, R137, R140, R604, R607: what stops a step before its instruction, at an even PC. An opcode word whose bytes lack
X: BusError. One that may be executed but holds a stale byte: StaleFetch. Words that spell no instruction:
IllegalInstruction, with the opcode word in the record. Where the decoder has taken the first `n` words and asks for one
more, and that word cannot be fetched: the same two exceptions, at that word's own address, with the opcode word in the
record (no instruction is longer than `maxWords`, R121). Only the words taken have joined `ifetched`. -/
def Obligations.FetchAndDecodeFaults : Prop :=
  ∀ s : State, s.status = .running → s.pc.getLsbD 0 = false →
    let detail : Option FaultDetail := some { addr := s.pc, kind := .fetch, size := 2 }
    (allowed s.regions .fetch s.pc 2 = false →
      step s = .next (s.halt (s.record .busError (some 2) none s.pc none detail))) ∧
    (allowed s.regions .fetch s.pc 2 = true → s.pc.toNat ∈ s.stale ∨ (s.pc + 1).toNat ∈ s.stale →
      step s = .next (s.halt (s.record .staleFetch none none s.pc none detail))) ∧
    (∀ rest : List Word16, decode (fetchWindow s maxWords s.pc).1 = .error .illegal rest →
      step s = .next ((s.markFetched ((fetchWindow s maxWords s.pc).1.length - rest.length)).halt
        (s.record .illegalInstruction (some 4) (some .format0) s.pc (some (s.wordAt s.pc)) none))) ∧
    ∀ (n : Nat) (rest : List Word16), 0 < n → n < maxWords →
      (∀ j < n, fetchCheck s (s.pc + BitVec.ofNat 32 (2 * j)) = none) →
      decode ((List.range n).map fun j => s.wordAt (s.pc + BitVec.ofNat 32 (2 * j))) = .error .short rest →
      let a := s.pc + BitVec.ofNat 32 (2 * n)
      let stopped (c : Cause) (v : Option (BitVec 8)) : Prop := step s = .next ((s.markFetched n).halt
        (s.record c v none s.pc (some (s.wordAt s.pc)) (some { addr := a, kind := .fetch, size := 2 })))
      (allowed s.regions .fetch a 2 = false → stopped .busError (some 2)) ∧
      (allowed s.regions .fetch a 2 = true → a.toNat ∈ s.stale ∨ (a + 1).toNat ∈ s.stale → stopped .staleFetch none)

/-- R623: `Halted` and `Exited` are final, no step exists from them, and a step exists from every other state. That `step`
answers the faults `halted` and `exited` there is the model's choice (log entry 14). R611: the signal the host makes of a
halt record; that of `TRAP #1` to `TRAP #15` is the open parameter `trap_signal` of the record's vector, and StaleFetch has
none. -/
def Obligations.EndIsFinal : Prop :=
  (∀ s : State, (Ended s ↔ ∀ t, step s ≠ .next t) ∧
    ((∃ r, s.status = .halted r) → step s = .fault .halted) ∧ ((∃ c, s.status = .exited c) → step s = .fault .exited)) ∧
  ∀ r : HaltRecord,
    (r.cause ∈ [Cause.illegalInstruction, .lineA, .lineF, .privilegeViolation] → r.signal = some .sigill) ∧
    (r.cause = .busError → r.signal = some .sigsegv) ∧ (r.cause = .addressError → r.signal = some .sigbus) ∧
    (r.cause ∈ [Cause.divideByZero, .chk, .trapcc] → r.signal = some .sigfpe) ∧
    (∀ v, r.cause = .trap → r.vector = some v → r.signal = some (Config.trapSignal v)) ∧
    (r.cause = .staleFetch → r.signal = none)

/-- R613, R101: while a system call is pending the step is the host's answer. A number outside the host's table gives -38
in D0 and touches nothing else (which numbers are in the table is the free parameter of log entry 5). For another the host
resumes the core or ends it. An exit changes no register and no memory; a resumption changes only D0, memory, the regions
and what its writes make stale, and `ifetched` keeps its bytes (log entry 7). What a resumption does: it leaves the host's
region map; no byte the host leaves unmapped is left; of the bytes it leaves mapped, a written one holds the last value written
and the others keep theirs (in the order of log entry 5); and exactly the fetched bytes among those written become stale.
That a byte whose region the host unmaps and creates anew within the one answer keeps its value where no write names it,
and that a region created anew makes no byte stale, is the model's choice (log entry 21). -/
def Obligations.HostAnswers : Prop :=
  (∀ s : State, s.status = .syscallPending → ∃ t, step s = .next t ∧
    ((Config.syscallSupported (s.getD 0) = false ∧ t = { s with d := s.d.set 0 0xFFFFFFDA, status := .running }) ∨
      (Config.syscallSupported (s.getD 0) = true ∧ ∃ g : Nat,
        (∃ (d0 : Long) (writes : List (Addr × Byte)) (rs : List Region), Region.mapWf rs = true ∧
          t = { s.resume d0 writes rs with draws := g }) ∨
        ∃ c : BitVec 8, t = { s with status := .exited c, draws := g })) ∧
    t.pc = s.pc ∧ t.ccr = s.ccr ∧ t.a = s.a ∧ t.ifetched = s.ifetched ∧
    (∀ n : RegNo, n ≠ 0 → t.getD n = s.getD n) ∧ (∀ j ∈ s.stale, j ∈ t.stale) ∧
    (t.status = .running ∨ ∃ c, t.status = .exited c ∧ t.d = s.d ∧ t.mem = s.mem ∧ t.regions = s.regions)) ∧
  ∀ (s : State) (d0 : Long) (writes : List (Addr × Byte)) (rs : List Region),
    let t := s.resume d0 writes rs
    t.status = .running ∧ t.regions = rs ∧ t.getD 0 = d0 ∧ (∀ c ∈ t.mem, mappedAt rs c.1 = true) ∧
    (∀ k, k ∈ t.stale ↔ k ∈ s.stale ∨ (k ∈ s.ifetched ∧ mappedAt rs k = true ∧ ∃ w ∈ writes, w.1.toNat = k)) ∧
    (∀ k, mappedAt rs k = true → (∀ w ∈ writes, w.1.toNat ≠ k) → Memory.get t.mem k = Memory.get s.mem k) ∧
    (Memory.wf s.mem = true → ∀ (before after : List (Addr × Byte)) (a : Addr) (b : Byte),
      writes = before ++ (a, b) :: after → mappedAt rs a.toNat = true → (∀ w ∈ after, w.1 ≠ a) →
      Memory.get t.mem a.toNat = b)

/-! ### Reset -/

/-- R650: the state after a launch holds what the launch gives, with empty fetch sets, and runs; the RESET instruction
resets nothing. -/
def Obligations.LaunchState : Prop :=
  (∀ l : Launch,
    (∀ n : RegNo, (State.launch l).getD n = l.initD[n.toNat]) ∧
    (∀ n : Fin 7, (State.launch l).getA (BitVec.ofNat 3 n) = l.initA[n]) ∧ (State.launch l).getA 7 = l.initSp ∧
    (State.launch l).pc = l.entryPc ∧ (State.launch l).ccr = l.initCcr ∧ (State.launch l).mem = l.initMem ∧
    (State.launch l).regions = l.initRegions ∧ (State.launch l).ifetched = [] ∧ (State.launch l).stale = [] ∧
    (State.launch l).status = .running) ∧
  ∀ s : State, exec .reset s = .next { s with pc := s.pc + 2 }

/-- A launch that meets `LaunchOK` (R653, R654; the numbers of its auxiliary vector are log entry 24) gives a state that
meets the invariant, and so does the launch `State.reset` takes (log entry 1: the model's own choice of launch). -/
def Obligations.LaunchInv : Prop :=
  (∀ (m : Image) (l : Launch), LaunchOK m l → Machine.Inv (State.launch l)) ∧ Machine.Inv State.reset

/-! ### Over all instructions -/

/-- The invariant is kept by every step, from every state that has it. -/
def Obligations.InvStep : Prop := ∀ s t : State, Machine.Inv s → step s = .next t → Machine.Inv t

/-- Every instruction answers a next state, its exception included: exec never stops on its own, and the status becomes
a halt, a pending call, or stays (R51, R54, R610). That the PC of the halted state stays at pc_op is log entry 6. -/
def Obligations.ExecAnswers : Prop :=
  ∀ (i : Instr) (s : State), ∃ t, exec i s = .next t ∧
    (t.status = s.status ∨ (t.status = .syscallPending ∧ i = .trap 0) ∨
      ∃ r, t.status = .halted r ∧ r.instrAddr = s.pc ∧ r.opcode = some (opcodeWord i) ∧ r.sr = t.sr ∧ t.pc = s.pc)

/-- R602: what a well-formed instruction halts with: a bus error of a data access, or the exception its own rule
names; and the record's PC is pc_next for the traps, pc_op for the faults. -/
def Obligations.RaisesOnly : Prop :=
  ∀ (i : Instr) (s t : State) (r : HaltRecord), Instr.wf i = true → s.status = .running → exec i s = .next t →
    t.status = .halted r →
    ∃ e, e ≠ .syscall ∧ (AccessRaise e ∨ ownRaise i e) ∧ r.cause = e.cause ∧ r.vector = e.vector ∧
      r.format = e.format ∧ r.fault = e.fault ∧ r.pc = (if e.isTrap then pcNext i s.pc else s.pc)

/-- Frame: a register outside `writesRegs i` (destinations, the address registers the modes step, and A7 where the
rule moves it) and a flag R49 does not give to the instruction are unchanged by instruction i. -/
def Obligations.FrameRegisters : Prop :=
  ∀ (i : Instr) (s t : State), exec i s = .next t →
    (∀ r : RegSel, r ∉ writesRegs i → t.getR r = s.getR r) ∧ Ccr.Keeps (writesFlags i) s.ccr t.ccr

/-- Frame: a byte outside `storeSpan i s`, the bytes at the addresses the meaning itself computes, reads as before, and
becomes stale only if it was. A form that stores nothing has an empty span. The region map is never changed by an
instruction, and neither is the fetched set: the model keeps a stale byte in `ifetched`, by R52's definition of `stale`,
where R86 and R660 say that a write moves it (log entry 7). The bytes UNPK stores to `-(A7)` are log entry 25's choice. -/
def Obligations.FrameMemory : Prop :=
  ∀ (i : Instr) (s t : State), exec i s = .next t →
    (∀ j : Nat, j ∉ storeSpan i s → Memory.get t.mem j = Memory.get s.mem j ∧ (j ∈ t.stale ↔ j ∈ s.stale)) ∧
    t.regions = s.regions ∧ t.ifetched = s.ifetched

/-- R51, R80, R95, R621: while the core runs, no step changes the region map or a byte without W; the status stays
Running, or becomes a pending system call, or a halt. That the halted state keeps the instruction's own PC is the model's
reading (log entry 6). -/
def Obligations.CoreSteps : Prop :=
  ∀ s t : State, s.status = .running → step s = .next t →
    t.regions = s.regions ∧
    (∀ j, allowedAt s.regions .write j = false → Memory.get t.mem j = Memory.get s.mem j) ∧
    (t.status = .running ∨ t.status = .syscallPending ∨ ∃ r, t.status = .halted r ∧ r.instrAddr = s.pc ∧ t.pc = s.pc)

/-- R52, R660: neither set shrinks in a step, the host's answer included (that a stale byte stays in `ifetched` is log entry
7); what joins `stale` while the core runs was
fetched and lies in bytes with W; what joins `ifetched` lies in the window at PC. -/
def Obligations.FetchSetsGrow : Prop :=
  ∀ s t : State, step s = .next t →
    (∀ j ∈ s.ifetched, j ∈ t.ifetched) ∧ (∀ j ∈ s.stale, j ∈ t.stale) ∧
    (s.status = .running → ∀ j ∈ t.stale, j ∈ s.stale ∨ (j ∈ t.ifetched ∧ allowedAt s.regions .write j = true)) ∧
    ∀ j ∈ t.ifetched, j ∈ s.ifetched ∨ j ∈ byteAddrs s.pc (2 * maxWords)

/-! ### Shared operations -/

/-- R16: register access by `R[k]`, WriteD keeps the bits outside the size, WriteA writes 32 bits sign-extended, and
no other register changes. -/
def Obligations.RegisterWrites : Prop :=
  (∀ (s : State) (n m : RegNo) (sz : Size) (v : Long),
    (s.writeD n sz v).getD n = (s.getD n &&& ~~~(BitVec.ofNat 32 (2 ^ sz.bits - 1))) |||
      (v &&& BitVec.ofNat 32 (2 ^ sz.bits - 1)) ∧
    (m ≠ n → (s.writeD n sz v).getD m = s.getD m) ∧ (s.writeD n sz v).getA m = s.getA m ∧
    (s.writeA n sz v).getA n = BitVec.ofInt 32 (sz.toInt v) ∧
    (m ≠ n → (s.writeA n sz v).getA m = s.getA m) ∧ (s.writeA n sz v).getD m = s.getD m) ∧
  ∀ (s : State) (k : Nat) (h : k < 8), s.getR (regOfIndex k) = s.d[k] ∧ s.getR (regOfIndex (k + 8)) = s.a[k]

/-- R82, R83: an n-byte access is big-endian over byte addresses modulo 2^32; MemWrite sets byte i to its eight bits of
the value; a value stored is the value loaded; a fetched word has the byte at the lower address on top. -/
def Obligations.BigEndian : Prop :=
  (∀ (s : State) (a : Addr) (n : Nat),
    s.load a 0 = 0 ∧ s.load a (n + 1) = (Memory.get s.mem a.toNat).toNat * 256 ^ n + s.load (a + 1) n ∧
    s.wordAt a = Memory.get s.mem a.toNat ++ Memory.get s.mem (a + 1).toNat) ∧
  ∀ (s : State) (a : Addr) (n v : Nat), Memory.wf s.mem = true → n ≤ 2 ^ 32 →
    (s.store a n v).load a n = v % 256 ^ n ∧
    ∀ i < n, Memory.get (s.store a n v).mem (a + BitVec.ofNat 32 i).toNat = BitVec.ofNat 8 (v / 256 ^ (n - 1 - i))

/-- R85, R86, R87: an access to bytes that are all mapped with its permission reads or writes them all; any other
raises a bus error that names its first address, its kind and its length, and changes nothing. -/
def Obligations.AccessChecked : Prop :=
  ∀ (s : State) (a : Addr) (n v : Nat),
    ((∀ i < n, allowedAt s.regions .read (a + BitVec.ofNat 32 i).toNat = true) → memRead a n s = .ok (s.load a n) s) ∧
    ((∃ i < n, allowedAt s.regions .read (a + BitVec.ofNat 32 i).toNat = false) →
      memRead a n s = .error (.busError { addr := a, kind := .read, size := n }) s) ∧
    ((∀ i < n, allowedAt s.regions .write (a + BitVec.ofNat 32 i).toNat = true) →
      memWrite a n v s = .ok () (s.store a n v) ∧
      ∀ j, j ∈ (s.store a n v).stale ↔ j ∈ s.stale ∨ (j ∈ s.ifetched ∧ ∃ i < n, j = (a + BitVec.ofNat 32 i).toNat)) ∧
    ((∃ i < n, allowedAt s.regions .write (a + BitVec.ofNat 32 i).toNat = false) →
      memWrite a n v s = .error (.busError { addr := a, kind := .write, size := n }) s)

/-- R202 to R206, R210 to R215: reading and writing an operand, mode by mode: the address, the register a mode steps and
when, the value cut to the size, and the bus error of an operand that is refused, as one access (a predecrement stays, a
postincrement has not happened). -/
def Obligations.OperandModes : Prop :=
  ∀ (s : State) (sz : Size) (k : Nat) (n : RegNo) (v : Long),
    let step : Long := if n = 7 ∧ sz = .b then 2 else BitVec.ofNat 32 sz.bytes
    let refused (a : Addr) (kind : Access) : Raise := .busError { addr := a, kind := kind, size := sz.bytes }
    let cell (ea : EA) (a : Addr) (t : State) (u : State → State) : Prop :=
      (allowed s.regions .read a sz.bytes = true →
        readEa sz ea k s = .ok (BitVec.ofNat 32 (s.load a sz.bytes)) (u t)) ∧
      (allowed s.regions .read a sz.bytes = false → readEa sz ea k s = .error (refused a .read) t) ∧
      (allowed s.regions .write a sz.bytes = true →
        writeEa sz ea k v s = .ok () (u (t.store a sz.bytes v.toNat))) ∧
      (allowed s.regions .write a sz.bytes = false → writeEa sz ea k v s = .error (refused a .write) t)
    readEa sz (.dreg n) k s = .ok (sz.trunc (s.getD n)) s ∧ writeEa sz (.dreg n) k v s = .ok () (s.writeD n sz v) ∧
    readEa sz (.areg n) k s = .ok (sz.trunc (s.getA n)) s ∧ writeEa sz (.areg n) k v s = .ok () (s.writeA n sz v) ∧
    readEa sz (.imm v) k s = .ok (sz.trunc v) s ∧
    cell (.ind n) (s.getA n) s id ∧ cell (.postinc n) (s.getA n) s (fun t => t.setA n (s.getA n + step)) ∧
    cell (.predec n) (s.getA n - step) (s.setA n (s.getA n - step)) id ∧
    (∀ d, cell (.disp n d) (s.getA n + d.signExtend 32) s id) ∧ (∀ a, cell (.absW a) (a.signExtend 32) s id) ∧
    (∀ a, cell (.absL a) a s id) ∧
    ∀ d, cell (.pcDisp d) (s.pc + BitVec.ofNat 32 (2 * k) + d.signExtend 32) s id

/-- R207 to R209, R211: an indexed operand of base An, and of base ext_addr (pc_op and twice the words before the operand's
extension words). The address in the brief and the full formats: base or index suppressed or not, displacements
sign-extended, memory indirect pre- and post-indexed, the pointer's own read refused or not; and the operand read, written
or used as an address there, with the bus error of an access that is refused. No register changes. -/
def Obligations.IndexedAddress : Prop :=
  (Disp.value .null = 0 ∧ (∀ w : BitVec 16, Disp.value (.word w) = w.signExtend 32) ∧
    ∀ w : BitVec 32, Disp.value (.long w) = w) ∧
  ∀ (s : State) (sz : Size) (k : Nat) (n : RegNo) (u : Long) (x : Index) (d8 : BitVec 8) (bs is : Bool) (bd od : Disp),
    let v : Long := (if x.long then s.getR x.reg else ((s.getR x.reg).setWidth 16).signExtend 32) *
      BitVec.ofNat 32 (2 ^ x.scale.toNat)
    let refused (a : Addr) (kind : Access) (size : Nat) : Raise := .busError { addr := a, kind := kind, size := size }
    let at_ (ea : EA) (a : Addr) : Prop :=
      resolve sz ea k s = .ok (.mem a none) s ∧ addrOf ea k s = .ok a s ∧
      (allowed s.regions .read a sz.bytes = true → readEa sz ea k s = .ok (BitVec.ofNat 32 (s.load a sz.bytes)) s) ∧
      (allowed s.regions .read a sz.bytes = false → readEa sz ea k s = .error (refused a .read sz.bytes) s) ∧
      (allowed s.regions .write a sz.bytes = true → writeEa sz ea k u s = .ok () (s.store a sz.bytes u.toNat)) ∧
      (allowed s.regions .write a sz.bytes = false → writeEa sz ea k u s = .error (refused a .write sz.bytes) s)
    let through (ea : EA) (p add : Long) : Prop :=
      (allowed s.regions .read p 4 = true → at_ ea (BitVec.ofNat 32 (s.load p 4) + add)) ∧
      (allowed s.regions .read p 4 = false → resolve sz ea k s = .error (refused p .read 4) s ∧
        addrOf ea k s = .error (refused p .read 4) s ∧ readEa sz ea k s = .error (refused p .read 4) s ∧
        writeEa sz ea k u s = .error (refused p .read 4) s)
    let indexed (ea : IndexExt → EA) (base : Long) : Prop :=
      let b := if bs then 0 else base
      let i := if is then 0 else v
      at_ (ea (.brief x d8)) (base + d8.signExtend 32 + v) ∧
      at_ (ea (.full x bs is bd .none)) (b + Disp.value bd + i) ∧
      through (ea (.full x bs is bd (.pre od))) (b + Disp.value bd + i) (Disp.value od) ∧
      through (ea (.full x bs is bd (.post od))) (b + Disp.value bd) (i + Disp.value od)
    indexed (.index n) (s.getA n) ∧ indexed .pcIndex (s.pc + BitVec.ofNat 32 (2 * k))

/-- R20: a push stores below A7 and then moves A7 down by 4; a pop reads at A7 and then moves it up; where the access
faults, A7 keeps its value. A value pushed is the value popped. -/
def Obligations.Stack : Prop :=
  (∀ (s : State) (v : Long) (sz : Size),
    (CanPush s → push v s = .ok () ((s.store (s.getA 7 - 4) 4 v.toNat).setA 7 (s.getA 7 - 4))) ∧
    (¬CanPush s → ∃ e, push v s = .error e s) ∧
    (CanPop sz s → pop sz s =
      .ok (BitVec.ofNat 32 (s.load (s.getA 7) sz.bytes)) (s.setA 7 (s.getA 7 + BitVec.ofNat 32 sz.bytes))) ∧
    (¬CanPop sz s → ∃ e, pop sz s = .error e s)) ∧
  ∀ (s : State) (v : Long), Memory.wf s.mem = true → CanPush s → CanPop .l (s.pushed v) →
    ∃ t, pop .l (s.pushed v) = .ok v t ∧ t.a = s.a

/-- R21, R250, R251: the sum and the difference at a size with the sign-bit formulas of carry, borrow and overflow. -/
def Obligations.AddSubFlags : Prop :=
  ∀ (sz : Size) (d x : Long) (b : Bool),
    let bl : Long := if b then 1 else 0
    let r := (addCore sz d x b)
    let q := (subCore sz d x b)
    r.value = sz.trunc (d + x + bl) ∧ r.n = sz.msb r.value ∧ r.z = (r.value == 0) ∧
    r.c = ((sz.msb d && sz.msb x) || (!sz.msb r.value && (sz.msb d || sz.msb x))) ∧
    r.v = (sz.msb d == sz.msb x && sz.msb r.value != sz.msb d) ∧
    q.value = sz.trunc (d - x - bl) ∧ q.n = sz.msb q.value ∧ q.z = (q.value == 0) ∧
    q.c = ((!sz.msb d && sz.msb x) || (sz.msb q.value && (!sz.msb d || sz.msb x))) ∧
    q.v = (sz.msb d != sz.msb x && sz.msb q.value != sz.msb d)

/-- R262, R480: after a comparison the conditions say how the operands compare, unsigned and signed; MI and PL say the sign
of the difference at the size, VS and VC whether the exact difference leaves the signed range. On any flags, VC, VS, PL and
MI are the flag they name. -/
def Obligations.ConditionsCompare : Prop :=
  (∀ c : Ccr, condHolds .vc c = !c.v ∧ condHolds .vs c = c.v ∧ condHolds .pl c = !c.n ∧ condHolds .mi c = c.n) ∧
  ∀ (sz : Size) (d x : Long) (old : Ccr),
    let f := compareCcr (subCore sz d x false) old
    let fits : Prop := -2 ^ (sz.bits - 1) ≤ sz.toInt d - sz.toInt x ∧ sz.toInt d - sz.toInt x < 2 ^ (sz.bits - 1)
    condHolds .hi f = decide ((sz.trunc x).toNat < (sz.trunc d).toNat) ∧
    condHolds .ls f = decide ((sz.trunc d).toNat ≤ (sz.trunc x).toNat) ∧
    condHolds .cc f = decide ((sz.trunc x).toNat ≤ (sz.trunc d).toNat) ∧
    condHolds .cs f = decide ((sz.trunc d).toNat < (sz.trunc x).toNat) ∧
    condHolds .ne f = decide (sz.trunc d ≠ sz.trunc x) ∧ condHolds .eq f = decide (sz.trunc d = sz.trunc x) ∧
    (condHolds .vc f = true ↔ fits) ∧ (condHolds .vs f = true ↔ ¬fits) ∧
    condHolds .pl f = decide (0 ≤ sz.toInt (d - x)) ∧ condHolds .mi f = decide (sz.toInt (d - x) < 0) ∧
    condHolds .ge f = decide (sz.toInt x ≤ sz.toInt d) ∧ condHolds .lt f = decide (sz.toInt d < sz.toInt x) ∧
    condHolds .gt f = decide (sz.toInt x < sz.toInt d) ∧ condHolds .le f = decide (sz.toInt d ≤ sz.toInt x) ∧
    condHolds .t f = true ∧ condHolds .f f = false

/-! ### Arithmetic, logic, compare -/

/-- R252, R257, R301, R303: `<ea>,Dn` of ADD, SUB, AND and OR: once the source is read, the register takes the result
at the size and the flags are those of the operation. -/
def Obligations.AluToRegister : Prop :=
  ∀ (sz : Size) (src : EA) (dn : RegNo) (x : Long) (s s1 : State), readEa sz src 1 s = .ok x s1 →
    let d := sz.trunc (s1.getD dn)
    let done (i : Instr) (v : Long) (c : Ccr) : Prop := Completes i s ((s1.writeD dn sz v).setCcr c)
    let a := addCore sz d x false
    let b := subCore sz d x false
    let logic (r : Long) : Ccr := { x := s1.ccr.x, n := sz.msb r, z := sz.trunc r == 0, v := false, c := false }
    done (.addToReg sz src dn) (d + x) { x := a.c, n := a.n, z := a.z, v := a.v, c := a.c } ∧
    done (.subToReg sz src dn) (d - x) { x := b.c, n := b.n, z := b.z, v := b.v, c := b.c } ∧
    done (.andToReg sz src dn) (d &&& x) (logic (d &&& x)) ∧
    done (.orToReg sz src dn) (d ||| x) (logic (d ||| x))

/-- R252, R254, R255, R257, R259, R260, R270, R301 to R307: the read-modify-write forms. The operand is read once, written
once at the same address; the arithmetic flags are those of AddCore or SubCore with X = C, the logical ones N and Z of the
result, V = C = 0, X kept. -/
def Obligations.AluToOperand : Prop :=
  ∀ (sz : Size) (dst : EA) (k : Nat) (op : Operand) (d : Long) (s s1 : State), CanChange sz dst k s op d s1 →
    let arith (i : Instr) (r : AluResult) : Prop :=
      Completes i s ((s1.putOp sz op r.value).setCcr { x := r.c, n := r.n, z := r.z, v := r.v, c := r.c })
    let logic (i : Instr) (r : Long) : Prop :=
      Completes i s ((s1.putOp sz op r).setCcr
        { x := s1.ccr.x, n := sz.msb r, z := sz.trunc r == 0, v := false, c := false })
    let sum (x : Long) := addCore sz d x false
    let dif (x : Long) := subCore sz d x false
    (k = 1 → arith (.neg sz dst) (subCore sz 0 d false) ∧ logic (.notEa sz dst) (sz.trunc (~~~d)) ∧
      (∀ dn, let x := sz.trunc (s.getD dn)
        arith (.addToEa sz dn dst) (sum x) ∧ arith (.subToEa sz dn dst) (dif x) ∧
        logic (.andToEa sz dn dst) (d &&& x) ∧ logic (.orToEa sz dn dst) (d ||| x) ∧ logic (.eor sz dn dst) (d ^^^ x)) ∧
      ((∀ n, dst ≠ .areg n) → ∀ q, arith (.addq sz q dst) (sum (q.setWidth 32)) ∧
        arith (.subq sz q dst) (dif (q.setWidth 32)))) ∧
    (k = 1 + immWordCount sz → ∀ imm, arith (.addi sz imm dst) (sum imm) ∧ arith (.subi sz imm dst) (dif imm) ∧
      logic (.andi sz imm dst) (d &&& imm) ∧ logic (.ori sz imm dst) (d ||| imm) ∧ logic (.eori sz imm dst) (d ^^^ imm))

/-- R256, R261, R271: ADDX, SUBX and NEGX take X in, set X = C, and only ever clear Z. -/
def Obligations.ExtendedArithmetic : Prop :=
  let flags (r : AluResult) (c : Ccr) : Ccr := { x := r.c, n := r.n, z := r.z && c.z, v := r.v, c := r.c }
  (∀ (sz : Size) (x y : RegNo) (s : State),
    let d := sz.trunc (s.getD x)
    let v := sz.trunc (s.getD y)
    Completes (.addx sz false x y) s
      ((s.writeD x sz (addCore sz d v s.ccr.x).value).setCcr (flags (addCore sz d v s.ccr.x) s.ccr)) ∧
    Completes (.subx sz false x y) s
      ((s.writeD x sz (subCore sz d v s.ccr.x).value).setCcr (flags (subCore sz d v s.ccr.x) s.ccr))) ∧
  (∀ (sz : Size) (x y : RegNo) (v d : Long) (op : Operand) (s s1 s2 : State), readEa sz (.predec y) 1 s = .ok v s1 →
    CanChange sz (.predec x) 1 s1 op d s2 →
    Completes (.addx sz true x y) s
      ((s2.putOp sz op (addCore sz d v s.ccr.x).value).setCcr (flags (addCore sz d v s.ccr.x) s.ccr)) ∧
    Completes (.subx sz true x y) s
      ((s2.putOp sz op (subCore sz d v s.ccr.x).value).setCcr (flags (subCore sz d v s.ccr.x) s.ccr))) ∧
  ∀ (sz : Size) (dst : EA) (op : Operand) (d : Long) (s s1 : State), CanChange sz dst 1 s op d s1 →
    Completes (.negx sz dst) s
      ((s1.putOp sz op (subCore sz 0 d s.ccr.x).value).setCcr (flags (subCore sz 0 d s.ccr.x) s.ccr))

/-- R253, R255, R258, R260, R401: the forms that write an address register: 32 bits, a word source sign-extended, the
register as it stands after the source's own step, no flags. -/
def Obligations.AddressArithmetic : Prop :=
  (∀ (src : EA) (an : RegNo) (x : Long) (s s1 : State), readEa .w src 1 s = .ok x s1 →
    let w := (x.setWidth 16).signExtend 32
    Completes (.addaW src an) s (s1.setA an (s1.getA an + w)) ∧
    Completes (.subaW src an) s (s1.setA an (s1.getA an - w)) ∧ Completes (.moveaW src an) s (s1.setA an w)) ∧
  (∀ (src : EA) (an : RegNo) (x : Long) (s s1 : State), readEa .l src 1 s = .ok x s1 →
    Completes (.addaL src an) s (s1.setA an (s1.getA an + x)) ∧
    Completes (.subaL src an) s (s1.setA an (s1.getA an - x)) ∧ Completes (.moveaL src an) s (s1.setA an x)) ∧
  ∀ (sz : Size) (q : BitVec 4) (n : RegNo) (s : State),
    Completes (.addq sz q (.areg n)) s (s.setA n (s.getA n + q.setWidth 32)) ∧
    Completes (.subq sz q (.areg n)) s (s.setA n (s.getA n - q.setWidth 32))

/-- R262 to R265, R268: the comparisons set N Z V C of destination less source, keep X, and write nothing; TST sets
N and Z of its operand. CMPA compares 32 bits. -/
def Obligations.Compares : Prop :=
  let after (t : State) (r : AluResult) : State :=
    t.setCcr { x := t.ccr.x, n := r.n, z := r.z, v := r.v, c := r.c }
  (∀ (sz : Size) (src : EA) (x : Long) (s s1 : State), readEa sz src 1 s = .ok x s1 →
    (∀ dn, Completes (.cmp sz src dn) s (after s1 (subCore sz (s1.getD dn) x false))) ∧
    (sz = .w → ∀ an, Completes (.cmpaW src an) s
      (after s1 (subCore .l (s1.getA an) ((x.setWidth 16).signExtend 32) false))) ∧
    (sz = .l → ∀ an, Completes (.cmpaL src an) s (after s1 (subCore .l (s1.getA an) x false))) ∧
    Completes (.tst sz src) s
      (s1.setCcr { x := s1.ccr.x, n := sz.msb x, z := sz.trunc x == 0, v := false, c := false })) ∧
  (∀ (sz : Size) (imm : Long) (dst : EA) (d : Long) (s s1 : State), readEa sz dst (1 + immWordCount sz) s = .ok d s1 →
    Completes (.cmpi sz imm dst) s (after s1 (subCore sz d imm false))) ∧
  ∀ (sz : Size) (x y : RegNo) (v d : Long) (s s1 s2 : State), readEa sz (.postinc y) 1 s = .ok v s1 →
    readEa sz (.postinc x) 1 s1 = .ok d s2 → Completes (.cmpm sz x y) s (after s2 (subCore sz d v false))

/-- R266, R267, R544: CMP2 and CHK2 set Z where the register equals a bound and C where it is outside them, keep X, and
leave N and V undefined; CHK2 halts with CHK where C is set. An address register is compared with the bounds
sign-extended, a data register at the size; when the lower bound is above the upper, the bounds wrap. -/
def Obligations.BoundsChecks : Prop :=
  ∀ (sz : Size) (rn : RegSel) (src : EA) (a : Addr) (s s1 : State), addrOf src 2 s = .ok a s1 →
    allowed s.regions .read a sz.bytes = true → allowed s.regions .read (a + BitVec.ofNat 32 sz.bytes) sz.bytes = true →
    let bound (b : Addr) : Long :=
      match rn with
      | .a _ => sz.sext (BitVec.ofNat 32 (s.load b sz.bytes))
      | .d _ => BitVec.ofNat 32 (s.load b sz.bytes)
    let v : Long :=
      match rn with
      | .a n => s1.getA n
      | .d n => sz.trunc (s1.getD n)
    let lo := (bound a).toNat
    let hi := (bound (a + BitVec.ofNat 32 sz.bytes)).toNat
    let out : Prop := if lo ≤ hi then v.toNat < lo ∨ hi < v.toNat else hi < v.toNat ∧ v.toNat < lo
    let after (n o : Bool) (g : Nat) (c : Bool) : State :=
      { s1.setCcr { x := s1.ccr.x, n := n, z := decide (v.toNat = lo ∨ v.toNat = hi), v := o, c := c } with draws := g }
    (∃ (n o : Bool) (g : Nat), (out → Completes (.cmp2 sz rn src) s (after n o g true)) ∧
      (¬out → Completes (.cmp2 sz rn src) s (after n o g false))) ∧
    ∃ (n o : Bool) (g : Nat), (out → Raises (.chk2 sz rn src) s .chk (after n o g true)) ∧
      (¬out → Completes (.chk2 sz rn src) s (after n o g false))

/-- R543: CHK completes when 0 ≤ register ≤ bound, signed at the size, with N Z V C undefined and X kept; else it halts
with CHK, N set for a negative register and clear for one above its bound. -/
def Obligations.CheckBound : Prop :=
  ∀ (src : EA) (dn : RegNo) (b : Long) (sz : Size) (s s1 : State), readEa sz src 1 s = .ok b s1 →
    let low := sz.toInt (s1.getD dn) < 0
    let high := sz.toInt b < sz.toInt (s1.getD dn)
    let after (n : Bool) (c : Ccr) (g : Nat) : State := { s1.setCcr { c with x := s1.ccr.x, n := n } with draws := g }
    let holds (i : Instr) : Prop := ∃ (n : Bool) (c : Ccr) (g : Nat),
      (¬low → ¬high → Completes i s (after n c g)) ∧ (low → Raises i s .chk (after true c g)) ∧
      (¬low → high → Raises i s .chk (after false c g))
    (sz = .w → holds (.chkW src dn)) ∧ (sz = .l → holds (.chkL src dn))

/-! ### Data movement -/

/-- R269, R400, R403, R485: the instructions that write an operand without reading it. MOVE reads its source, then
resolves and writes its destination, N and Z of the value, V = C = 0, X kept; CLR writes 0; MOVE from CCR writes the CCR
zero-extended and Scc writes 0xFF or 0, without flags. -/
def Obligations.Moves : Prop :=
  (∀ (sz : Size) (src dst : EA) (v : Long) (op : Operand) (s s1 s2 : State), readEa sz src 1 s = .ok v s1 →
    CanWrite sz dst (1 + (EA.words sz src).length) s1 op s2 →
    let t := ((s2.putOp sz op v).stepPost sz op).setCcr
      { x := s.ccr.x, n := sz.msb v, z := sz.trunc v == 0, v := false, c := false }
    (sz = .b → Completes (.moveB src dst) s t) ∧ (sz = .w → Completes (.moveW src dst) s t) ∧
    (sz = .l → Completes (.moveL src dst) s t)) ∧
  (∀ (sz : Size) (dst : EA) (op : Operand) (s s1 : State), CanWrite sz dst 1 s op s1 →
    Completes (.clr sz dst) s (((s1.putOp sz op 0).stepPost sz op).setCcr
      { x := s.ccr.x, n := false, z := true, v := false, c := false })) ∧
  (∀ (dst : EA) (op : Operand) (s s1 : State), CanWrite .w dst 1 s op s1 →
    Completes (.moveFromCcr dst) s ((s1.putOp .w op (s.sr.setWidth 32)).stepPost .w op)) ∧
  ∀ (c : Cond) (dst : EA) (op : Operand) (s s1 : State), CanWrite .b dst 1 s op s1 →
    (condHolds c s.ccr = true → Completes (.scc c dst) s ((s1.putOp .b op 0xFF).stepPost .b op)) ∧
    (condHolds c s.ccr = false → Completes (.scc c dst) s ((s1.putOp .b op 0).stepPost .b op))

/-- R308 to R310, R404, R46: the instructions that write the CCR take bits 4:0 of their result, X N Z V C from the top,
and change nothing else. -/
def Obligations.CcrWrites : Prop :=
  let is (c : Ccr) (x n z v b : Bool) : Prop := c = { x := x, n := n, z := z, v := v, c := b }
  (∀ (imm : BitVec 8) (s : State), ∃ a o e : Ccr,
    is a (s.ccr.x && imm.getLsbD 4) (s.ccr.n && imm.getLsbD 3) (s.ccr.z && imm.getLsbD 2) (s.ccr.v && imm.getLsbD 1)
      (s.ccr.c && imm.getLsbD 0) ∧
    is o (s.ccr.x || imm.getLsbD 4) (s.ccr.n || imm.getLsbD 3) (s.ccr.z || imm.getLsbD 2) (s.ccr.v || imm.getLsbD 1)
      (s.ccr.c || imm.getLsbD 0) ∧
    is e (s.ccr.x ^^ imm.getLsbD 4) (s.ccr.n ^^ imm.getLsbD 3) (s.ccr.z ^^ imm.getLsbD 2) (s.ccr.v ^^ imm.getLsbD 1)
      (s.ccr.c ^^ imm.getLsbD 0) ∧
    Completes (.andiToCcr imm) s (s.setCcr a) ∧ Completes (.oriToCcr imm) s (s.setCcr o) ∧
    Completes (.eoriToCcr imm) s (s.setCcr e)) ∧
  ∀ (src : EA) (v : Long) (s s1 : State), readEa .w src 1 s = .ok v s1 → ∃ c : Ccr,
    is c (v.getLsbD 4) (v.getLsbD 3) (v.getLsbD 2) (v.getLsbD 1) (v.getLsbD 0) ∧
    Completes (.moveToCcr src) s (s1.setCcr c)

/-- R402, R405, R406, R272, R273: the instructions over registers alone: MOVEQ, SWAP, EXT.W, EXT.L, EXTB.L, and EXG,
which exchanges two registers (the same one twice: nothing changes). -/
def Obligations.RegisterOnly : Prop :=
  let logic (sz : Size) (r : Long) (c : Ccr) : Ccr :=
    { x := c.x, n := sz.msb r, z := sz.trunc r == 0, v := false, c := false }
  (∀ (imm : Long) (n : RegNo) (s : State),
    Completes (.moveq imm n) s ((s.setD n imm).setCcr (logic .l imm s.ccr)) ∧
    Completes (.swap n) s ((s.setD n ((s.getD n).rotateLeft 16)).setCcr (logic .l ((s.getD n).rotateLeft 16) s.ccr)) ∧
    Completes (.extW n) s ((s.writeD n .w (BitVec.ofInt 32 (Size.b.toInt (s.getD n)))).setCcr
      (logic .w (BitVec.ofInt 32 (Size.b.toInt (s.getD n))) s.ccr)) ∧
    Completes (.extL n) s ((s.setD n (BitVec.ofInt 32 (Size.w.toInt (s.getD n)))).setCcr
      (logic .l (BitVec.ofInt 32 (Size.w.toInt (s.getD n))) s.ccr)) ∧
    Completes (.extbL n) s ((s.setD n (BitVec.ofInt 32 (Size.b.toInt (s.getD n)))).setCcr
      (logic .l (BitVec.ofInt 32 (Size.b.toInt (s.getD n))) s.ccr))) ∧
  ∀ (x y : RegNo) (s : State),
    let swapped (i : Instr) (p q : RegSel) : Prop := ∃ t, Completes i s t ∧ t.getR p = s.getR q ∧
      t.getR q = s.getR p ∧ (∀ r, r ≠ p → r ≠ q → t.getR r = s.getR r) ∧ { t with d := s.d, a := s.a } = s
    swapped (.exgDD x y) (.d x) (.d y) ∧ swapped (.exgAA x y) (.a x) (.a y) ∧ swapped (.exgDA x y) (.d x) (.a y)

/-- R407, R408, R486, R487, R219: LEA, PEA, JMP and JSR use the address of a control operand, not its contents; PEA and
JSR push with the address computed first. -/
def Obligations.AddressUses : Prop :=
  ∀ (src : EA) (a : Addr) (s s1 : State), addrOf src 1 s = .ok a s1 →
    (∀ an, Completes (.lea src an) s (s1.setA an a)) ∧ GoesTo (.jmp src) s s1 a ∧
    (CanPush s1 → Completes (.pea src) s (s1.pushed a) ∧ GoesTo (.jsr src) s (s1.pushed (pcNext (.jsr src) s.pc)) a)

/-- R431, R432: MOVEM. To memory with `-(An)` the registers go to falling addresses, A7 first, and An ends at the last;
what is stored for An itself is its value or its value less the size (D20). With a control mode they go to rising addresses
from D0. To registers, each takes its word sign-extended or its long, from rising addresses; with `(An)+` An ends at the
address after the last, even if it is in the list. -/
def Obligations.Movem : Prop :=
  (∀ (sz : Size) (mask : BitVec 16) (n : RegNo) (s : State),
    let regs := maskRegsDown mask
    (∀ j ∈ downSpan sz regs.length (s.getA n), allowedAt s.regions .write j = true) →
    ∃ (w : Long) (g : Nat), (w = s.getA n ∨ w = s.getA n - BitVec.ofNat 32 sz.bytes) ∧
      Completes (.movemToMem sz mask (.predec n)) s
        { (s.saveDown sz n w regs (s.getA n)).setA n (downBy (s.getA n) sz regs.length) with draws := g }) ∧
  (∀ (sz : Size) (mask : BitVec 16) (dst : EA) (a : Addr) (s s1 : State), (∀ n, dst ≠ .predec n) →
    addrOf dst 2 s = .ok a s1 →
    (∀ j ∈ upSpan sz (maskRegs mask).length a, allowedAt s.regions .write j = true) →
    Completes (.movemToMem sz mask dst) s (s1.saveUp sz (maskRegs mask) a)) ∧
  (∀ (sz : Size) (mask : BitVec 16) (n : RegNo) (s : State),
    (∀ j ∈ upSpan sz (maskRegs mask).length (s.getA n), allowedAt s.regions .read j = true) →
    Completes (.movemToReg sz mask (.postinc n)) s
      ((s.restore sz (maskRegs mask) (s.getA n)).setA n (upBy (s.getA n) sz (maskRegs mask).length))) ∧
  ∀ (sz : Size) (mask : BitVec 16) (src : EA) (a : Addr) (s s1 : State), (∀ n, src ≠ .postinc n) →
    addrOf src 2 s = .ok a s1 →
    (∀ j ∈ upSpan sz (maskRegs mask).length a, allowedAt s.regions .read j = true) →
    Completes (.movemToReg sz mask src) s (s1.restore sz (maskRegs mask) a)

/-- R430: a MOVEM mask bit k selects register k of D0 to D7, A0 to A7, and the registers selected are moved in that order,
each once; with `-(An)` bit 15 - k selects register k, and the order is from A7 down to D0. -/
def Obligations.MovemMask : Prop :=
  ∀ (mask : BitVec 16),
    (∀ r, r ∈ maskRegs mask ↔ mask.getLsbD (RegSel.number r) = true) ∧
    (∀ r, r ∈ maskRegsDown mask ↔ mask.getLsbD (15 - RegSel.number r) = true) ∧
    (maskRegs mask).Pairwise (fun p q => RegSel.number p < RegSel.number q) ∧
    (maskRegsDown mask).Pairwise (fun p q => RegSel.number q < RegSel.number p) ∧
    List.Nodup (maskRegs mask) ∧ maskRegsDown mask = (maskRegs mask.reverse).reverse

/-- R435: MOVEP moves bytes two apart, the high byte first, between a data register and memory at An plus the
displacement; no flags. -/
def Obligations.Movep : Prop :=
  ∀ (sz : Size) (dx ay : RegNo) (disp : BitVec 16) (s : State),
    let a := s.getA ay + disp.signExtend 32
    ((∀ j ∈ spreadSpan sz.bytes a, allowedAt s.regions .read j = true) →
      Completes (.movep false sz dx ay disp) s (s.writeD dx sz (BitVec.ofNat 32 (s.spread sz.bytes a)))) ∧
    ((∀ j ∈ spreadSpan sz.bytes a, allowedAt s.regions .write j = true) →
      Completes (.movep true sz dx ay disp) s (s.storeSpread sz.bytes a (s.getD dx).toNat))

/-! ### Shifts, bits and bit fields -/

/-- R330 to R340: the shifts and rotates of a register by an immediate or by a register modulo 64, and of a memory word
by one: the operand takes the value of the kind's formula; N and Z of it, the formula's C and V, X where the kind writes
it; a count of 0 changes no operand and no X, clears V, and sets C to 0, or to X for ROXL and ROXR. -/
def Obligations.Shifts : Prop :=
  let result (sz : Size) (f : Nat → Nat → Nat → ShiftResult) (zero : Bool) (c : Nat) (d : Long) (old : Ccr) :
      Long × Ccr :=
    let r := f sz.bits d.toNat c
    let v : Long := BitVec.ofNat 32 r.value
    if c = 0 then (d, { x := old.x, n := sz.msb d, z := d == 0, v := false, c := zero })
    else (v, { x := r.x.getD old.x, n := sz.msb v, z := v == 0, v := r.v, c := r.c })
  (∀ (sz : Size) (count : ShiftCount) (dy : RegNo) (s : State),
    let d := sz.trunc (s.getD dy)
    let done (i : Instr) (f : Nat → Nat → Nat → ShiftResult) (zero : Bool) : Prop :=
      Completes i s ((s.writeD dy sz (result sz f zero (s.countOf count) d s.ccr).1).setCcr
        (result sz f zero (s.countOf count) d s.ccr).2)
    done (.aslReg sz count dy) shiftAsl false ∧ done (.asrReg sz count dy) shiftAsr false ∧
    done (.lslReg sz count dy) shiftLsl false ∧ done (.lsrReg sz count dy) shiftLsr false ∧
    done (.rolReg sz count dy) shiftRol false ∧ done (.rorReg sz count dy) shiftRor false ∧
    done (.roxlReg sz count dy) (fun b d c => shiftRoxl b d s.ccr.x c) s.ccr.x ∧
    done (.roxrReg sz count dy) (fun b d c => shiftRoxr b d s.ccr.x c) s.ccr.x) ∧
  ∀ (dst : EA) (op : Operand) (d : Long) (s s1 : State), CanChange .w dst 1 s op d s1 →
    let done (i : Instr) (f : Nat → Nat → Nat → ShiftResult) : Prop :=
      Completes i s ((s1.putOp .w op (result .w f false 1 d s1.ccr).1).setCcr (result .w f false 1 d s1.ccr).2)
    done (.aslMem dst) shiftAsl ∧ done (.asrMem dst) shiftAsr ∧ done (.lslMem dst) shiftLsl ∧
    done (.lsrMem dst) shiftLsr ∧ done (.rolMem dst) shiftRol ∧ done (.rorMem dst) shiftRor ∧
    done (.roxlMem dst) (fun b d c => shiftRoxl b d s1.ccr.x c) ∧
    done (.roxrMem dst) (fun b d c => shiftRoxr b d s1.ccr.x c)

/-- R332 to R335: where each bit of a shifted value comes from, that nothing lies above the operand's width, the last bit
out in C and in X, and V: of ASL it says whether the sign bit changed during the shift, of the others it is clear. -/
def Obligations.ShiftBits : Prop :=
  ∀ (bits d c : Nat), 0 < bits → d < 2 ^ bits → 0 < c →
    (∀ i < bits,
      (shiftAsl bits d c).value.testBit i = (decide (c ≤ i) && d.testBit (i - c)) ∧
      (shiftLsl bits d c).value.testBit i = (decide (c ≤ i) && d.testBit (i - c)) ∧
      (shiftLsr bits d c).value.testBit i = d.testBit (i + c) ∧
      (shiftAsr bits d c).value.testBit i = d.testBit (min (i + c) (bits - 1))) ∧
    (shiftAsl bits d c).value < 2 ^ bits ∧ (shiftAsr bits d c).value < 2 ^ bits ∧
    (shiftLsl bits d c).value < 2 ^ bits ∧ (shiftLsr bits d c).value < 2 ^ bits ∧
    (shiftAsl bits d c).c = (decide (c ≤ bits) && d.testBit (bits - c)) ∧
    (shiftLsl bits d c).c = (decide (c ≤ bits) && d.testBit (bits - c)) ∧
    (shiftLsr bits d c).c = d.testBit (c - 1) ∧ (shiftAsr bits d c).c = d.testBit (min (c - 1) (bits - 1)) ∧
    (shiftAsl bits d c).x = some (shiftAsl bits d c).c ∧ (shiftAsr bits d c).x = some (shiftAsr bits d c).c ∧
    (shiftLsl bits d c).x = some (shiftLsl bits d c).c ∧ (shiftLsr bits d c).x = some (shiftLsr bits d c).c ∧
    ((shiftAsl bits d c).v = true ↔
      ∃ k, k ≤ c ∧ (decide (k < bits) && d.testBit (bits - 1 - k)) ≠ d.testBit (bits - 1)) ∧
    (shiftAsr bits d c).v = false ∧ (shiftLsl bits d c).v = false ∧ (shiftLsr bits d c).v = false

/-- R336 to R339: a rotate by c carries bit i of the operand, or of the ring of the operand with X on top, to bit
i + c or from bit i + c, modulo the length; nothing lies above the operand's width; C is the bit the rule names, X is C of
the rotates through X and is kept by the others, and V is clear. -/
def Obligations.RotateBits : Prop :=
  ∀ (bits d c : Nat) (x : Bool), 0 < bits → d < 2 ^ bits →
    let ring (r : ShiftResult) : Nat := r.value + r.c.toNat * 2 ^ bits
    (∀ i < bits, (shiftRol bits d c).value.testBit ((i + c) % bits) = d.testBit i ∧
      (shiftRor bits d c).value.testBit i = d.testBit ((i + c) % bits)) ∧
    (∀ i < bits + 1, (ring (shiftRoxl bits d x c)).testBit ((i + c) % (bits + 1)) =
        (d + x.toNat * 2 ^ bits).testBit i ∧
      (ring (shiftRoxr bits d x c)).testBit i = (d + x.toNat * 2 ^ bits).testBit ((i + c) % (bits + 1))) ∧
    (shiftRol bits d c).c = (shiftRol bits d c).value.testBit 0 ∧
    (shiftRor bits d c).c = (shiftRor bits d c).value.testBit (bits - 1) ∧
    (shiftRoxl bits d x c).x = some (shiftRoxl bits d x c).c ∧ (shiftRoxr bits d x c).x = some (shiftRoxr bits d x c).c ∧
    (shiftRol bits d c).x = none ∧ (shiftRor bits d c).x = none ∧
    ∀ r ∈ [shiftRol bits d c, shiftRor bits d c, shiftRoxl bits d x c, shiftRoxr bits d x c],
      r.v = false ∧ r.value < 2 ^ bits

/-- R360 to R364: the bit instructions. The bit number counts modulo 32 in a data register and modulo 8 in memory; Z is
the complement of the old bit and no other flag changes; BCHG, BCLR and BSET then write the operand. -/
def Obligations.SingleBits : Prop :=
  ∀ (ea : EA) (k num : Nat) (sz : Size) (s : State), sz = (if ea.mode = .dn then .l else .b) →
    let b := num % sz.bits
    let m : Long := BitVec.ofNat 32 (2 ^ b)
    let flags (v : Long) (c : Ccr) : Ccr := { c with z := !v.getLsbD b }
    (∀ (v : Long) (s1 : State), readEa sz ea k s = .ok v s1 →
      (∀ n : BitVec 8, k = 2 → num = n.toNat → Completes (.btstImm n ea) s (s1.setCcr (flags v s1.ccr))) ∧
      (∀ dn, k = 1 → num = (s.getD dn).toNat → Completes (.btstReg dn ea) s (s1.setCcr (flags v s1.ccr)))) ∧
    ∀ (op : Operand) (v : Long) (s1 : State), CanChange sz ea k s op v s1 →
      let done (i : Instr) (r : Long) : Prop := Completes i s ((s1.putOp sz op r).setCcr (flags v s1.ccr))
      (∀ n : BitVec 8, k = 2 → num = n.toNat →
        done (.bchgImm n ea) (v ^^^ m) ∧ done (.bclrImm n ea) (v &&& ~~~m) ∧ done (.bsetImm n ea) (v ||| m)) ∧
      ∀ dn, k = 1 → num = (s.getD dn).toNat →
        done (.bchgReg dn ea) (v ^^^ m) ∧ done (.bclrReg dn ea) (v &&& ~~~m) ∧ done (.bsetReg dn ea) (v ||| m)

/-- R370 to R372: where a bit field lies, and what reading and writing it does. The offset is 0 to 31 or a register taken
signed, the width 1 to 32, from an immediate or a register modulo 32 with 0 meaning 32. In a data register the offset counts
modulo 32 and bit i of the field, from its most significant, is bit 31 - ((offset + i) mod 32): those bits are read, and
they alone are written. In memory the field starts at the byte the signed offset reaches, and its bytes, at most five, are
just those that hold it. Reading takes `width` bits of the home, and writing replaces those bits and no others. -/
def Obligations.FieldBits : Prop :=
  (∀ (bf : BfSpec) (s : State),
    let off := bfOffset s bf.offset
    let width := bfWidth s bf.width
    (∀ o, bfOffset s (.imm o) = o.toNat) ∧ (∀ n, bfOffset s (.reg n) = (s.getD n).toInt) ∧
    (∀ w, bfWidth s (.imm w) = if w = 0 then 32 else w.toNat) ∧
    (∀ n, bfWidth s (.reg n) = if (s.getD n).toNat % 32 = 0 then 32 else (s.getD n).toNat % 32) ∧
    (∀ y : RegNo, ∃ f, bfLocate bf (.dreg y) s = .ok f s ∧ f.width = width ∧ f.offset = off % 32 ∧
      f.skip + f.width ≤ f.bits ∧ s.homeOf f < 2 ^ f.bits ∧
      let place (i : Nat) : Nat := 31 - ((off % 32).toNat + i) % 32
      (∀ i < width, (f.extract (s.homeOf f)).testBit (width - 1 - i) = (s.getD y).getLsbD (place i)) ∧
      ∀ (x i : Nat), i < 32 → ((s.setHome f (f.replace (s.homeOf f) x)).getD y).getLsbD (place i) =
        (if i < width then x.testBit (width - 1 - i) else (s.getD y).getLsbD (place i))) ∧
    ∀ (ea : EA) (a : Addr) (s1 : State), (∀ y, ea ≠ .dreg y) → addrOf ea 2 s = .ok a s1 →
      bfLocate bf ea s = .ok (bfInMemory a off width) s1) ∧
  (∀ (o : Int) (w : Nat) (a : Addr), 0 < w → w ≤ 32 →
    let f := bfInMemory a o w
    ∃ n, f.home = .mem (a + BitVec.ofInt 32 (o / 8)) n ∧ f.bits = 8 * n ∧ 1 ≤ n ∧ n ≤ 5 ∧ f.skip + w ≤ 8 * n ∧
      8 * n < f.skip + w + 8 ∧ f.skip < 8 ∧ (f.skip : Int) = o % 8 ∧ f.width = w ∧ f.offset = o) ∧
  ∀ (f : BitField) (v x j : Nat), f.skip + f.width ≤ f.bits → v < 2 ^ f.bits →
    let low := f.bits - f.skip - f.width
    (f.extract v).testBit j = (decide (j < f.width) && v.testBit (low + j)) ∧
    (f.replace v x).testBit j = (if low ≤ j ∧ j < low + f.width then x.testBit (j - low) else v.testBit j) ∧
    f.extract (f.replace v x) = x % 2 ^ f.width

/-- R370, R373 to R380: the bit-field instructions set N and Z from the field (BFINS from the value it inserts), clear V
and C, and keep X. BFEXTU, BFEXTS and BFFFO write the field zero-extended, sign-extended, or the offset of its first 1 bit
(offset plus width when it has none); BFCHG, BFCLR, BFSET and BFINS replace it. -/
def Obligations.FieldOperations : Prop :=
  ∀ (bf : BfSpec) (ea : EA) (f : BitField) (s s1 : State), bfLocate bf ea s = .ok f s1 → f.allows s.regions .read →
    let v := s1.homeOf f
    let x := f.extract v
    let flags (y : Nat) : Ccr := { x := s.ccr.x, n := y.testBit (f.width - 1), z := y == 0, v := false, c := false }
    let replaced (i : Instr) (y z : Nat) : Prop := Completes i s ((s1.setHome f (f.replace v y)).setCcr (flags z))
    Completes (.bftst bf ea) s (s1.setCcr (flags x)) ∧
    (∀ dn : RegNo,
      Completes (.bfextu bf ea dn) s ((s1.setD dn (BitVec.ofNat 32 x)).setCcr (flags x)) ∧
      Completes (.bfexts bf ea dn) s ((s1.setD dn
        (BitVec.ofInt 32 (if x.testBit (f.width - 1) then (x : Int) - 2 ^ f.width else x))).setCcr (flags x)) ∧
      ∃ p ≤ f.width, (∀ q < p, x.testBit (f.width - 1 - q) = false) ∧
        (p < f.width → x.testBit (f.width - 1 - p) = true) ∧
        Completes (.bfffo bf ea dn) s ((s1.setD dn (BitVec.ofInt 32 (f.offset + p))).setCcr (flags x))) ∧
    (f.allows s.regions .write →
      replaced (.bfchg bf ea) (2 ^ f.width - 1 - x) x ∧ replaced (.bfclr bf ea) 0 x ∧
      replaced (.bfset bf ea) (2 ^ f.width - 1) x ∧
      ∀ dn, let y := (s.getD dn).toNat % 2 ^ f.width
        replaced (.bfins bf dn ea) y y)

/-! ### Multiply and divide -/

/-- R450 to R453: the products, unsigned and signed: 16 by 16 bits exactly; 32 by 32 bits cut to 32 with V telling that
it did not fit, or in 64 bits as Dh:Dl. With Dh = Dl the register alone is undefined (D22). In every form C = 0, X is kept,
and N and Z are those of the whole product at its width. -/
def Obligations.Products : Prop :=
  let flags (c : Ccr) (n z v : Bool) : Ccr := { x := c.x, n := n, z := z, v := v, c := false }
  (∀ (src : EA) (dn : RegNo) (x : Long) (s s1 : State), readEa .w src 1 s = .ok x s1 →
    (∃ p : Long, p.toNat = (Size.w.trunc (s1.getD dn)).toNat * (Size.w.trunc x).toNat ∧
      Completes (.muluW src dn) s ((s1.setD dn p).setCcr (flags s1.ccr p.msb (p == 0) false))) ∧
    ∃ p : Long, p.toInt = Size.w.toInt (s1.getD dn) * Size.w.toInt x ∧
      Completes (.mulsW src dn) s ((s1.setD dn p).setCcr (flags s1.ccr p.msb (p == 0) false))) ∧
  ∀ (src : EA) (dl : RegNo) (x : Long) (s s1 : State), readEa .l src 2 s = .ok x s1 →
    let d := s1.getD dl
    Completes (.muluL dl .narrow src) s ((s1.setD dl (d * x)).setCcr
      (flags s1.ccr (d * x).msb (d * x == 0) (decide (d.toNat * x.toNat ≠ (d * x).toNat)))) ∧
    Completes (.mulsL dl .narrow src) s ((s1.setD dl (d * x)).setCcr
      (flags s1.ccr (d * x).msb (d * x == 0) (decide (d.toInt * x.toInt ≠ (d * x).toInt)))) ∧
    ∀ dh : RegNo,
      let wide (i : Instr) (hi lo : Long) : Prop :=
        let c := flags s1.ccr hi.msb (hi == 0 && lo == 0) false
        (dh ≠ dl → Completes i s (((s1.setD dh hi).setD dl lo).setCcr c)) ∧
        (dh = dl → ∃ (u : Long) (g : Nat), Completes i s { (s1.setD dl u).setCcr c with draws := g })
      (∃ hi lo : Long, hi.toNat * 2 ^ 32 + lo.toNat = d.toNat * x.toNat ∧ wide (.muluL dl (.wide dh) src) hi lo) ∧
      ∃ hi lo : Long, hi.toInt * 2 ^ 32 + lo.toNat = d.toInt * x.toInt ∧ wide (.mulsL dl (.wide dh) src) hi lo

/-- R454, R455, R458, R459: the word divides of a 32-bit dividend. For the quotient and remainder of the division that
truncates toward zero, when the quotient fits 16 bits: remainder and quotient packed, N and Z of the quotient. When it does
not fit, V is set, N and Z are undefined and no register is written. A divisor of 0 halts the core with DivideByZero, no
register written, C cleared, N, Z and V undefined. -/
def Obligations.WordDivides : Prop :=
  ∀ (src : EA) (dn : RegNo) (x : Long) (s s1 : State) (q r : Int), readEa .w src 1 s = .ok x s1 →
    let divides (i : Instr) (dvd dvs lo hi : Int) : Prop :=
      (dvs = 0 → ∃ (n z v : Bool) (g : Nat), Raises i s .divideByZero
        { s1.setCcr { x := s1.ccr.x, n := n, z := z, v := v, c := false } with draws := g }) ∧
      (dvs ≠ 0 → dvd = q * dvs + r → r.natAbs < dvs.natAbs → (r = 0 ∨ r.sign = dvd.sign) →
        (lo ≤ q ∧ q ≤ hi → Completes i s ((s1.setD dn (BitVec.ofInt 16 r ++ BitVec.ofInt 16 q)).setCcr
          { x := s1.ccr.x, n := (BitVec.ofInt 16 q).msb, z := decide (q = 0), v := false, c := false })) ∧
        (¬(lo ≤ q ∧ q ≤ hi) → ∃ (n z : Bool) (g : Nat), Completes i s
          { s1.setCcr { x := s1.ccr.x, n := n, z := z, v := true, c := false } with draws := g }))
    divides (.divuW src dn) (s1.getD dn).toNat (Size.w.trunc x).toNat 0 (2 ^ 16 - 1) ∧
    divides (.divsW src dn) (s1.getD dn).toInt (Size.w.toInt x) (-2 ^ 15) (2 ^ 15 - 1)

/-- R456 to R459: the long divides, of Dq or of Dr:Dq: the remainder goes to Dr and the quotient to Dq; with Dr = Dq only
the quotient is kept, or in the 64-bit form the register is undefined (D22). That the 32-bit form with Dr = Dq keeps the
quotient is R456's word, against section 1.4 of 93_implementation_defined.md, which lists DIVxL.L there: the model's choice
(log entry 26). Overflow and a divisor of 0 as for the word divides. -/
def Obligations.LongDivides : Prop :=
  ∀ (src : EA) (dq dr : RegNo) (wide : Bool) (x : Long) (s s1 : State) (q r : Int), readEa .l src 2 s = .ok x s1 →
    let lo := s1.getD dq
    let hi := s1.getD dr
    let divides (i : Instr) (dvd dvs min max : Int) : Prop :=
      (dvs = 0 → ∃ (n z v : Bool) (g : Nat), Raises i s .divideByZero
        { s1.setCcr { x := s1.ccr.x, n := n, z := z, v := v, c := false } with draws := g }) ∧
      (dvs ≠ 0 → dvd = q * dvs + r → r.natAbs < dvs.natAbs → (r = 0 ∨ r.sign = dvd.sign) →
        let c : Ccr :=
          { x := s1.ccr.x, n := (BitVec.ofInt 32 q).msb, z := decide (q = 0), v := false, c := false }
        (min ≤ q ∧ q ≤ max →
          (dr ≠ dq → Completes i s
            (((s1.setD dr (BitVec.ofInt 32 r)).setD dq (BitVec.ofInt 32 q)).setCcr c)) ∧
          (dr = dq → wide = false → Completes i s ((s1.setD dq (BitVec.ofInt 32 q)).setCcr c)) ∧
          (dr = dq → wide = true → ∃ (u : Long) (g : Nat),
            Completes i s { (s1.setD dq u).setCcr c with draws := g })) ∧
        (¬(min ≤ q ∧ q ≤ max) → ∃ (n z : Bool) (g : Nat), Completes i s
          { s1.setCcr { x := s1.ccr.x, n := n, z := z, v := true, c := false } with draws := g }))
    divides (.divuL dq wide dr src) (if wide then hi.toNat * 2 ^ 32 + lo.toNat else lo.toNat) x.toNat 0 (2 ^ 32 - 1) ∧
    divides (.divsL dq wide dr src) (if wide then hi.toInt * 2 ^ 32 + lo.toNat else lo.toInt) x.toInt (-2 ^ 31)
      (2 ^ 31 - 1)

/-! ### Program control -/

/-- R130, R481 to R484: BRA, Bcc, BSR and DBcc: a taken branch goes to pc_op + 2 plus the displacement, sign-extended from
8 or 16 bits or taken as 32; BSR pushes pc_next; DBcc, its condition false, decrements the low word of Dn and branches unless it was 0. -/
def Obligations.Branches : Prop :=
  (∀ d : BitVec 8, BranchDisp.value (.byte d) = d.signExtend 32) ∧
  (∀ d : BitVec 16, BranchDisp.value (.word d) = d.signExtend 32) ∧
  (∀ d : BitVec 32, BranchDisp.value (.long d) = d) ∧
  ∀ (s : State) (disp : BranchDisp) (c : Cond) (dn : RegNo) (d16 : BitVec 16),
    let target := s.pc + 2 + BranchDisp.value disp
    GoesTo (.bra disp) s s target ∧ (CanPush s → GoesTo (.bsr disp) s (s.pushed (pcNext (.bsr disp) s.pc)) target) ∧
    (condHolds c s.ccr = true → GoesTo (.bcc c disp) s s target ∧ Completes (.dbcc c dn d16) s s) ∧
    (condHolds c s.ccr = false → Completes (.bcc c disp) s s ∧
      ((s.getD dn).setWidth 16 ≠ (0 : BitVec 16) →
        GoesTo (.dbcc c dn d16) s (s.writeD dn .w (s.getD dn - 1)) (s.pc + 2 + d16.signExtend 32)) ∧
      ((s.getD dn).setWidth 16 = (0 : BitVec 16) → Completes (.dbcc c dn d16) s (s.writeD dn .w 0xFFFF)))

/-- R488 to R490: RTS, RTD and RTR go to the long they pop; RTD then moves A7 by its displacement; RTR restores the CCR
from the word it pops first. -/
def Obligations.Returns : Prop :=
  ∀ s : State,
    (CanPop .l s → GoesTo .rts s (s.popped .l) (s.top .l) ∧
      ∀ d : BitVec 16, GoesTo (.rtd d) s (s.setA 7 (s.getA 7 + 4 + d.signExtend 32)) (s.top .l)) ∧
    (CanPop .w s → CanPop .l (s.popped .w) →
      let w := s.top .w
      let c : Ccr :=
        { x := w.getLsbD 4, n := w.getLsbD 3, z := w.getLsbD 2, v := w.getLsbD 1, c := w.getLsbD 0 }
      GoesTo .rtr s (((s.popped .w).popped .l).setCcr c) ((s.popped .w).top .l))

/-- R491, R492: LINK pushes An, An takes A7, and A7 moves by the displacement; UNLK undoes it. With An = A7 what LINK
pushes, and what UNLK leaves in A7, is one of two values (D21). -/
def Obligations.Frames : Prop :=
  (∀ (s : State) (an : RegNo), CanPush s →
    let sp := s.getA 7 - 4
    let linked (i : Instr) (disp : Long) : Prop := ∃ (w : Long) (g : Nat),
      (an ≠ 7 → w = s.getA an) ∧ (an = 7 → w = s.getA 7 ∨ w = sp) ∧
      Completes i s { (((s.store sp 4 w.toNat).setA 7 sp).setA an sp).setA 7 (sp + disp) with draws := g }
    (∀ d : BitVec 16, linked (.linkW an d) (d.signExtend 32)) ∧ ∀ d : BitVec 32, linked (.linkL an d) d) ∧
  ∀ (s : State) (an : RegNo), allowed s.regions .read (s.getA an) 4 = true → ∃ (u : Long) (g : Nat),
    (an ≠ 7 → u = BitVec.ofNat 32 (s.load (s.getA an) 4)) ∧
    (an = 7 → u = BitVec.ofNat 32 (s.load (s.getA an) 4) ∨ u = s.getA an + 4) ∧
    Completes (.unlk an) s { (s.setA 7 (s.getA an + 4)).setA an u with draws := g }

/-! ### Decimal -/

/-- R520 to R523: on decimal digits ABCD, SBCD and NBCD give the decimal sum or difference modulo 100 with its carry or
borrow in C and X, only ever clear Z, and leave N and V undefined. -/
def Obligations.DecimalValid : Prop :=
  ∀ (dh dl sh sl : Nat), dh ≤ 9 → dl ≤ 9 → sh ≤ 9 → sl ≤ 9 →
    let after (t : State) (r : Nat) (c n v : Bool) (g : Nat) : State :=
      { t.setCcr { x := c, n := n, z := decide (r = 0) && t.ccr.z, v := v, c := c } with draws := g }
    let d := 10 * dh + dl
    let x := 10 * sh + sl
    (∀ (rx ry : RegNo) (s : State), Size.b.trunc (s.getD rx) = BitVec.ofNat 32 (bcdByte dh dl) →
      Size.b.trunc (s.getD ry) = BitVec.ofNat 32 (bcdByte sh sl) →
      let e := s.ccr.x.toNat
      let sum := (d + x + e) % 100
      let dif := (100 + d - x - e) % 100
      (∃ (n v : Bool) (g : Nat),
        Completes (.abcd false rx ry) s (after (s.writeD rx .b (BitVec.ofNat 32 (bcdByte (sum / 10) (sum % 10)))) sum
          (decide (100 ≤ d + x + e)) n v g)) ∧
      ∃ (n v : Bool) (g : Nat),
        Completes (.sbcd false rx ry) s (after (s.writeD rx .b (BitVec.ofNat 32 (bcdByte (dif / 10) (dif % 10)))) dif
          (decide (d < x + e)) n v g)) ∧
    (∀ (rx ry : RegNo) (op : Operand) (s s1 s2 : State),
      readEa .b (.predec ry) 1 s = .ok (BitVec.ofNat 32 (bcdByte sh sl)) s1 →
      CanChange .b (.predec rx) 1 s1 op (BitVec.ofNat 32 (bcdByte dh dl)) s2 →
      let e := s.ccr.x.toNat
      let sum := (d + x + e) % 100
      let dif := (100 + d - x - e) % 100
      (∃ (n v : Bool) (g : Nat),
        Completes (.abcd true rx ry) s (after (s2.putOp .b op (BitVec.ofNat 32 (bcdByte (sum / 10) (sum % 10)))) sum
          (decide (100 ≤ d + x + e)) n v g)) ∧
      ∃ (n v : Bool) (g : Nat),
        Completes (.sbcd true rx ry) s (after (s2.putOp .b op (BitVec.ofNat 32 (bcdByte (dif / 10) (dif % 10)))) dif
          (decide (d < x + e)) n v g)) ∧
    ∀ (dst : EA) (op : Operand) (s s1 : State), CanChange .b dst 1 s op (BitVec.ofNat 32 (bcdByte dh dl)) s1 →
      let e := s.ccr.x.toNat
      let dif := (100 - d - e) % 100
      ∃ (n v : Bool) (g : Nat), Completes (.nbcd dst) s
        (after (s1.putOp .b op (BitVec.ofNat 32 (bcdByte (dif / 10) (dif % 10)))) dif (decide (0 < d + e)) n v g)

/-- R520, D25: on a byte with a digit above 9 the decimal instructions still complete: the result byte, C = X, N and V
are undefined and Z is only ever cleared, from the result. -/
def Obligations.DecimalInvalid : Prop :=
  let after (t : State) (r : Byte) (c n v : Bool) (g : Nat) : State :=
    { t.setCcr { x := c, n := n, z := r == 0 && t.ccr.z, v := v, c := c } with draws := g }
  let bad (v : Long) : Prop := 9 < v.toNat / 16 ∨ 9 < v.toNat % 16
  (∀ (rx ry : RegNo) (s : State), bad (Size.b.trunc (s.getD rx)) ∨ bad (Size.b.trunc (s.getD ry)) →
    (∃ (r : Byte) (c n v : Bool) (g : Nat),
      Completes (.abcd false rx ry) s (after (s.writeD rx .b (r.setWidth 32)) r c n v g)) ∧
    ∃ (r : Byte) (c n v : Bool) (g : Nat),
      Completes (.sbcd false rx ry) s (after (s.writeD rx .b (r.setWidth 32)) r c n v g)) ∧
  (∀ (rx ry : RegNo) (x d : Long) (op : Operand) (s s1 s2 : State), readEa .b (.predec ry) 1 s = .ok x s1 →
    CanChange .b (.predec rx) 1 s1 op d s2 → bad x ∨ bad d →
    (∃ (r : Byte) (c n v : Bool) (g : Nat),
      Completes (.abcd true rx ry) s (after (s2.putOp .b op (r.setWidth 32)) r c n v g)) ∧
    ∃ (r : Byte) (c n v : Bool) (g : Nat),
      Completes (.sbcd true rx ry) s (after (s2.putOp .b op (r.setWidth 32)) r c n v g)) ∧
  ∀ (dst : EA) (op : Operand) (d : Long) (s s1 : State), CanChange .b dst 1 s op d s1 → bad d →
    ∃ (r : Byte) (c n v : Bool) (g : Nat),
      Completes (.nbcd dst) s (after (s1.putOp .b op (r.setWidth 32)) r c n v g)

/-- R524, R525: PACK makes a byte of bits 11:8 and 3:0 of the adjusted word; UNPK spreads a byte's digits over a word
and adds the adjustment. In memory the byte at the lower address is the high byte, PACK reads it second and UNPK writes
it second. No flags. With A7 the two bytes lie two apart, each step of A7 being 2 as in R205: of the operation and the
corner of R524 and R525, which differ there, the model follows the operation (log entry 25). -/
def Obligations.Packing : Prop :=
  let packed (w : Nat) : Long := BitVec.ofNat 32 (w / 256 % 16 * 16 + w % 16)
  let spread (b : Nat) (adj : BitVec 16) : Nat := (b / 16 % 16 * 256 + b % 16 + adj.toNat) % 2 ^ 16
  (∀ (x y : RegNo) (adj : BitVec 16) (s : State),
    Completes (.pack false x y adj) s (s.writeD y .b (packed (((s.getD x).toNat + adj.toNat) % 2 ^ 16))) ∧
    Completes (.unpk false x y adj) s (s.writeD y .w (BitVec.ofNat 32 (spread (s.getD x).toNat adj)))) ∧
  (∀ (x y : RegNo) (adj : BitVec 16) (lo hi : Long) (op : Operand) (s s1 s2 s3 : State),
    readEa .b (.predec x) 2 s = .ok lo s1 → readEa .b (.predec x) 2 s1 = .ok hi s2 →
    CanWrite .b (.predec y) 2 s2 op s3 →
    Completes (.pack true x y adj) s
      (s3.putOp .b op (packed ((hi.toNat * 256 + lo.toNat + adj.toNat) % 2 ^ 16)))) ∧
  ∀ (x y : RegNo) (adj : BitVec 16) (b : Long) (op op' : Operand) (s s1 s2 s3 : State),
    readEa .b (.predec x) 2 s = .ok b s1 → CanWrite .b (.predec y) 2 s1 op s2 →
    let w := spread b.toNat adj
    CanWrite .b (.predec y) 2 (s2.putOp .b op (BitVec.ofNat 32 (w % 256))) op' s3 →
    Completes (.unpk true x y adj) s (s3.putOp .b op' (BitVec.ofNat 32 (w / 256)))

/-! ### Synchronising instructions -/

/-- R576 to R578: TAS sets bit 7 of its byte with N and Z of the old byte; CAS compares the operand with Dc and stores Du
where they are equal, else loads Dc. CAS2 compares both operands, stores both update registers where both are equal, else
loads both compare registers (one register for both: one of the two values, D36), with the flags of the first comparison
that fails, or of the second. A memory operand needs R and W before the read, whatever the comparison would find (D23): an
operand without W is refused as a write (R605), one with W and without R as a read, and nothing is read or written. -/
def Obligations.Synchronising : Prop :=
  (∀ (dst : EA) (op : Operand) (v : Long) (s s1 : State), CanChange .b dst 1 s op v s1 →
    Completes (.tas dst) s ((s1.putOp .b op (v ||| 0x80)).setCcr
      { x := s.ccr.x, n := v.getLsbD 7, z := v == 0, v := false, c := false })) ∧
  (∀ (sz : Size) (dst : EA) (k : Nat) (dc du : RegNo) (a : Addr) (post : Option RegNo) (s s0 : State),
    resolve sz dst k s = .ok (.mem a post) s0 →
    let refused (i : Instr) : Prop :=
      (allowed s.regions .write a sz.bytes = false →
        Raises i s (.busError { addr := a, kind := .write, size := sz.bytes }) s0) ∧
      (allowed s.regions .write a sz.bytes = true → allowed s.regions .read a sz.bytes = false →
        Raises i s (.busError { addr := a, kind := .read, size := sz.bytes }) s0)
    (k = 1 → sz = .b → refused (.tas dst)) ∧ (k = 2 → sz = .b → refused (.casB dc du dst)) ∧
    (k = 2 → sz = .w → refused (.casW dc du dst)) ∧ (k = 2 → sz = .l → refused (.casL dc du dst))) ∧
  (∀ (sz : Size) (dc du : RegNo) (dst : EA) (a : Addr) (post : Option RegNo) (v : Long) (s s1 : State),
    CanChange sz dst 2 s (.mem a post) v s1 →
    let r := subCore sz v (sz.trunc (s1.getD dc)) false
    let t := if v = sz.trunc (s1.getD dc) then s1.store a sz.bytes (sz.trunc (s1.getD du)).toNat
      else s1.writeD dc sz v
    let u := t.setCcr { x := s.ccr.x, n := r.n, z := decide (v = sz.trunc (s1.getD dc)), v := r.v, c := r.c }
    (sz = .b → Completes (.casB dc du dst) s u) ∧ (sz = .w → Completes (.casW dc du dst) s u) ∧
    (sz = .l → Completes (.casL dc du dst) s u)) ∧
  ∀ (sz : Size) (o p : Cas2Operand) (s : State),
    let a := s.getR o.rn
    let b := s.getR p.rn
    let refused (i : Instr) (kind : Access) : Prop := ∃ c : Addr, (c = a ∨ c = b) ∧
      allowed s.regions kind c sz.bytes = false ∧ Raises i s (.busError { addr := c, kind := kind, size := sz.bytes }) s
    let checked (i : Instr) : Prop :=
      (allowed s.regions .write a sz.bytes = false ∨ allowed s.regions .write b sz.bytes = false → refused i .write) ∧
      (allowed s.regions .write a sz.bytes = true → allowed s.regions .write b sz.bytes = true →
        allowed s.regions .read a sz.bytes = false ∨ allowed s.regions .read b sz.bytes = false → refused i .read)
    (sz = .w → checked (.cas2W o p)) ∧ (sz = .l → checked (.cas2L o p)) ∧
    ((allowed s.regions .read a sz.bytes = true ∧ allowed s.regions .write a sz.bytes = true ∧
      allowed s.regions .read b sz.bytes = true ∧ allowed s.regions .write b sz.bytes = true) →
    let v : Long := BitVec.ofNat 32 (s.load a sz.bytes)
    let w : Long := BitVec.ofNat 32 (s.load b sz.bytes)
    let c := sz.trunc (s.getD o.dc)
    let e := sz.trunc (s.getD p.dc)
    let r := if v = c then subCore sz w e false else subCore sz v c false
    let f : Ccr := { x := s.ccr.x, n := r.n, z := r.z, v := r.v, c := r.c }
    let holds (i : Instr) : Prop :=
      (v = c → w = e → Completes i s (((s.store a sz.bytes (sz.trunc (s.getD o.du)).toNat).store b sz.bytes
        (sz.trunc (s.getD p.du)).toNat).setCcr f)) ∧
      (¬(v = c ∧ w = e) →
        (o.dc ≠ p.dc → Completes i s (((s.writeD o.dc sz v).writeD p.dc sz w).setCcr f)) ∧
        (o.dc = p.dc → ∃ (u : Long) (g : Nat), (u = v ∨ u = w) ∧
          Completes i s { (s.writeD o.dc sz u).setCcr f with draws := g }))
    (sz = .w → holds (.cas2W o p)) ∧ (sz = .l → holds (.cas2L o p)))

/-! ### Traps and the rest -/

/-- R612: `TRAP #0` moves the PC to pc_next, waits for the host, and changes no other state. -/
def Obligations.SystemCall : Prop :=
  ∀ s : State, exec (.trap 0) s = .next { s with pc := s.pc + 2, status := .syscallPending }

/-- R540 to R542, R545, R583, R586, R587, R590, R591, R604: `TRAP #n`, TRAPV and TRAPcc halt the core with the vector of
their cause and the address of the next instruction; TRAPV without V and TRAPcc without its condition only advance the PC.
ILLEGAL, BKPT, CALLM, RTM, line A and line F halt it with their own address. Nothing else changes; that the PC of the
halted state stays at pc_op, for the traps too, is the model's reading (log entry 6). -/
def Obligations.Traps : Prop :=
  ∀ (s : State) (n : BitVec 4) (c : Cond) (w : TrapccOperand) (m : BitVec 3) (arg : BitVec 16) (src : EA)
    (rn : RegSel) (bits : BitVec 12),
    let trapped (i : Instr) (cause : Cause) (vector : BitVec 8) (f : FrameFormat) : Prop :=
      exec i s = .next (s.halt (s.record cause (some vector) (some f) (pcNext i s.pc) (some (opcodeWord i)) none))
    let faulted (i : Instr) (cause : Cause) (vector : BitVec 8) : Prop :=
      exec i s = .next (s.halt (s.record cause (some vector) (some .format0) s.pc (some (opcodeWord i)) none))
    (n ≠ 0 → trapped (.trap n) .trap (BitVec.ofNat 8 (32 + n.toNat)) .format0) ∧
    (s.ccr.v = true → trapped .trapv .trapcc 7 .format2) ∧ (s.ccr.v = false → Completes .trapv s s) ∧
    (condHolds c s.ccr = true → trapped (.trapcc c w) .trapcc 7 .format2) ∧
    (condHolds c s.ccr = false → Completes (.trapcc c w) s s) ∧
    faulted .illegal .illegalInstruction 4 ∧ faulted (.bkpt m) .illegalInstruction 4 ∧
    faulted (.callm arg src) .illegalInstruction 4 ∧ faulted (.rtm rn) .illegalInstruction 4 ∧
    faulted (.lineA bits) .lineA 10 ∧ faulted (.lineF bits) .lineF 11

/-- R570: every privileged instruction decodes from its opcode word alone, no extension word fetched, and halts the core
with PrivilegeViolation (vector 8) and its own address; none of its operations happens. That each of them decodes,
whatever its mnemonic, rests on the model's choice `Supported` = All (log entry 2). -/
def Obligations.Privileged : Prop :=
  ∀ i : Instr,
    (i = .oriToSr ∨ i = .andiToSr ∨ i = .eoriToSr ∨ (∃ sz ea, i = .moves sz ea) ∨ (∃ ea, i = .moveFromSr ea) ∨
      (∃ ea, i = .moveToSr ea) ∨ (∃ n, i = .moveToUsp n) ∨ (∃ n, i = .moveFromUsp n) ∨ i = .stop ∨ i = .rte ∨
      ∃ b, i = .movec b) →
    (Instr.wf i = true → decode [opcodeWord i] = .ok i []) ∧
    ∀ s : State, exec i s = .next (s.halt
      (s.record .privilegeViolation (some 8) (some .format0) s.pc (some (opcodeWord i)) none))

/-- R560, R568: RESET (0x4E70) and NOP (0x4E71) change nothing but the PC, which moves to pc_next. -/
def Obligations.NoOperations : Prop :=
  decode [0x4E70] = .ok .reset [] ∧ decode [0x4E71] = .ok .nop [] ∧
  ∀ s : State, exec .reset s = .next { s with pc := s.pc + 2 } ∧ exec .nop s = .next { s with pc := s.pc + 2 }
end

