-- ==== Sys2Proof/Laws/State.lean ====
section
/-! SUPPORT. One lemma per field per update of the state, and the laws of the register file: what each update
leaves unchanged is said here once. -/

namespace Sys2Proof.Machine

open Sys2Proof

@[simp] theorem State.setD_a (s : State) (n : RegNo) (v : Long) : (s.setD n v).a = s.a := rfl

@[simp] theorem State.setD_pc (s : State) (n : RegNo) (v : Long) : (s.setD n v).pc = s.pc := rfl

@[simp] theorem State.setD_ccr (s : State) (n : RegNo) (v : Long) : (s.setD n v).ccr = s.ccr := rfl

@[simp] theorem State.setD_status (s : State) (n : RegNo) (v : Long) : (s.setD n v).status = s.status := rfl

@[simp] theorem State.setD_ifetched (s : State) (n : RegNo) (v : Long) : (s.setD n v).ifetched = s.ifetched := rfl

@[simp] theorem State.setD_stale (s : State) (n : RegNo) (v : Long) : (s.setD n v).stale = s.stale := rfl

@[simp] theorem State.setD_mem (s : State) (n : RegNo) (v : Long) : (s.setD n v).mem = s.mem := rfl

@[simp] theorem State.setD_regions (s : State) (n : RegNo) (v : Long) : (s.setD n v).regions = s.regions := rfl

@[simp] theorem State.setD_draws (s : State) (n : RegNo) (v : Long) : (s.setD n v).draws = s.draws := rfl

@[simp] theorem State.setA_d (s : State) (n : RegNo) (v : Long) : (s.setA n v).d = s.d := rfl

@[simp] theorem State.setA_pc (s : State) (n : RegNo) (v : Long) : (s.setA n v).pc = s.pc := rfl

@[simp] theorem State.setA_ccr (s : State) (n : RegNo) (v : Long) : (s.setA n v).ccr = s.ccr := rfl

@[simp] theorem State.setA_status (s : State) (n : RegNo) (v : Long) : (s.setA n v).status = s.status := rfl

@[simp] theorem State.setA_ifetched (s : State) (n : RegNo) (v : Long) : (s.setA n v).ifetched = s.ifetched := rfl

@[simp] theorem State.setA_stale (s : State) (n : RegNo) (v : Long) : (s.setA n v).stale = s.stale := rfl

@[simp] theorem State.setA_mem (s : State) (n : RegNo) (v : Long) : (s.setA n v).mem = s.mem := rfl

@[simp] theorem State.setA_regions (s : State) (n : RegNo) (v : Long) : (s.setA n v).regions = s.regions := rfl

@[simp] theorem State.setA_draws (s : State) (n : RegNo) (v : Long) : (s.setA n v).draws = s.draws := rfl

@[simp] theorem State.setCcr_d (s : State) (c : Ccr) : (s.setCcr c).d = s.d := rfl

@[simp] theorem State.setCcr_a (s : State) (c : Ccr) : (s.setCcr c).a = s.a := rfl

@[simp] theorem State.setCcr_pc (s : State) (c : Ccr) : (s.setCcr c).pc = s.pc := rfl

@[simp] theorem State.setCcr_status (s : State) (c : Ccr) : (s.setCcr c).status = s.status := rfl

@[simp] theorem State.setCcr_ifetched (s : State) (c : Ccr) : (s.setCcr c).ifetched = s.ifetched := rfl

@[simp] theorem State.setCcr_stale (s : State) (c : Ccr) : (s.setCcr c).stale = s.stale := rfl

@[simp] theorem State.setCcr_mem (s : State) (c : Ccr) : (s.setCcr c).mem = s.mem := rfl

@[simp] theorem State.setCcr_regions (s : State) (c : Ccr) : (s.setCcr c).regions = s.regions := rfl

@[simp] theorem State.setCcr_draws (s : State) (c : Ccr) : (s.setCcr c).draws = s.draws := rfl

@[simp] theorem State.setCcr_ccr (s : State) (c : Ccr) : (s.setCcr c).ccr = c := rfl

@[simp] theorem State.writeD_a (s : State) (n : RegNo) (sz : Size) (v : Long) : (s.writeD n sz v).a = s.a := rfl

@[simp] theorem State.writeD_pc (s : State) (n : RegNo) (sz : Size) (v : Long) : (s.writeD n sz v).pc = s.pc := rfl

@[simp] theorem State.writeD_ccr (s : State) (n : RegNo) (sz : Size) (v : Long) : (s.writeD n sz v).ccr = s.ccr := rfl

@[simp] theorem State.writeD_status (s : State) (n : RegNo) (sz : Size) (v : Long) : (s.writeD n sz v).status = s.status := rfl

@[simp] theorem State.writeD_ifetched (s : State) (n : RegNo) (sz : Size) (v : Long) : (s.writeD n sz v).ifetched = s.ifetched := rfl

@[simp] theorem State.writeD_stale (s : State) (n : RegNo) (sz : Size) (v : Long) : (s.writeD n sz v).stale = s.stale := rfl

@[simp] theorem State.writeD_mem (s : State) (n : RegNo) (sz : Size) (v : Long) : (s.writeD n sz v).mem = s.mem := rfl

@[simp] theorem State.writeD_regions (s : State) (n : RegNo) (sz : Size) (v : Long) : (s.writeD n sz v).regions = s.regions := rfl

@[simp] theorem State.writeD_draws (s : State) (n : RegNo) (sz : Size) (v : Long) : (s.writeD n sz v).draws = s.draws := rfl

@[simp] theorem State.writeA_d (s : State) (n : RegNo) (sz : Size) (v : Long) : (s.writeA n sz v).d = s.d := rfl

@[simp] theorem State.writeA_pc (s : State) (n : RegNo) (sz : Size) (v : Long) : (s.writeA n sz v).pc = s.pc := rfl

@[simp] theorem State.writeA_ccr (s : State) (n : RegNo) (sz : Size) (v : Long) : (s.writeA n sz v).ccr = s.ccr := rfl

@[simp] theorem State.writeA_status (s : State) (n : RegNo) (sz : Size) (v : Long) : (s.writeA n sz v).status = s.status := rfl

@[simp] theorem State.writeA_ifetched (s : State) (n : RegNo) (sz : Size) (v : Long) : (s.writeA n sz v).ifetched = s.ifetched := rfl

@[simp] theorem State.writeA_stale (s : State) (n : RegNo) (sz : Size) (v : Long) : (s.writeA n sz v).stale = s.stale := rfl

@[simp] theorem State.writeA_mem (s : State) (n : RegNo) (sz : Size) (v : Long) : (s.writeA n sz v).mem = s.mem := rfl

@[simp] theorem State.writeA_regions (s : State) (n : RegNo) (sz : Size) (v : Long) : (s.writeA n sz v).regions = s.regions := rfl

@[simp] theorem State.writeA_draws (s : State) (n : RegNo) (sz : Size) (v : Long) : (s.writeA n sz v).draws = s.draws := rfl

@[simp] theorem State.store_d (s : State) (a : Addr) (n v : Nat) : (s.store a n v).d = s.d := rfl

@[simp] theorem State.store_a (s : State) (a : Addr) (n v : Nat) : (s.store a n v).a = s.a := rfl

@[simp] theorem State.store_pc (s : State) (a : Addr) (n v : Nat) : (s.store a n v).pc = s.pc := rfl

@[simp] theorem State.store_ccr (s : State) (a : Addr) (n v : Nat) : (s.store a n v).ccr = s.ccr := rfl

@[simp] theorem State.store_status (s : State) (a : Addr) (n v : Nat) : (s.store a n v).status = s.status := rfl

@[simp] theorem State.store_ifetched (s : State) (a : Addr) (n v : Nat) : (s.store a n v).ifetched = s.ifetched := rfl

@[simp] theorem State.store_regions (s : State) (a : Addr) (n v : Nat) : (s.store a n v).regions = s.regions := rfl

@[simp] theorem State.store_draws (s : State) (a : Addr) (n v : Nat) : (s.store a n v).draws = s.draws := rfl

@[simp] theorem State.store_mem (s : State) (a : Addr) (n v : Nat) :
    (s.store a n v).mem = Memory.setBytes s.mem a (beBytes n v) := rfl

@[simp] theorem State.store_stale (s : State) (a : Addr) (n v : Nat) :
    (s.store a n v).stale = markStale s.ifetched s.stale (byteAddrs a n) := rfl

@[simp] theorem State.markFetched_d (s : State) (n : Nat) : (s.markFetched n).d = s.d := rfl

@[simp] theorem State.markFetched_a (s : State) (n : Nat) : (s.markFetched n).a = s.a := rfl

@[simp] theorem State.markFetched_pc (s : State) (n : Nat) : (s.markFetched n).pc = s.pc := rfl

@[simp] theorem State.markFetched_ccr (s : State) (n : Nat) : (s.markFetched n).ccr = s.ccr := rfl

@[simp] theorem State.markFetched_status (s : State) (n : Nat) : (s.markFetched n).status = s.status := rfl

@[simp] theorem State.markFetched_stale (s : State) (n : Nat) : (s.markFetched n).stale = s.stale := rfl

@[simp] theorem State.markFetched_mem (s : State) (n : Nat) : (s.markFetched n).mem = s.mem := rfl

@[simp] theorem State.markFetched_regions (s : State) (n : Nat) : (s.markFetched n).regions = s.regions := rfl

@[simp] theorem State.markFetched_draws (s : State) (n : Nat) : (s.markFetched n).draws = s.draws := rfl

@[simp] theorem State.markFetched_ifetched (s : State) (n : Nat) :
    (s.markFetched n).ifetched = AddrSet.insertAll s.ifetched (byteAddrs s.pc (2 * n)) := rfl

@[simp] theorem State.placeWords_d (s : State) (ws : List Word16) : (s.placeWords ws).d = s.d := rfl

@[simp] theorem State.placeWords_a (s : State) (ws : List Word16) : (s.placeWords ws).a = s.a := rfl

@[simp] theorem State.placeWords_ccr (s : State) (ws : List Word16) : (s.placeWords ws).ccr = s.ccr := rfl

@[simp] theorem State.placeWords_ifetched (s : State) (ws : List Word16) : (s.placeWords ws).ifetched = s.ifetched := rfl

@[simp] theorem State.placeWords_draws (s : State) (ws : List Word16) : (s.placeWords ws).draws = s.draws := rfl

@[simp] theorem State.placeWords_pc (s : State) (ws : List Word16) : (s.placeWords ws).pc = evenAddr s.pc := rfl

@[simp] theorem State.placeWords_status (s : State) (ws : List Word16) : (s.placeWords ws).status = .running := rfl

/-! ### The register file -/

@[simp] theorem State.getD_setD (s : State) (n m : RegNo) (v : Long) :
    (s.setD n v).getD m = if n = m then v else s.getD m := by
  simp only [State.getD, State.setD, Vector.getElem_set, BitVec.toNat_inj]

@[simp] theorem State.getA_setA (s : State) (n m : RegNo) (v : Long) :
    (s.setA n v).getA m = if n = m then v else s.getA m := by
  simp only [State.getA, State.setA, Vector.getElem_set, BitVec.toNat_inj]

@[simp] theorem State.getA_setD (s : State) (n m : RegNo) (v : Long) : (s.setD n v).getA m = s.getA m := rfl

@[simp] theorem State.getD_setA (s : State) (n m : RegNo) (v : Long) : (s.setA n v).getD m = s.getD m := rfl

@[simp] theorem State.getD_setCcr (s : State) (c : Ccr) (m : RegNo) : (s.setCcr c).getD m = s.getD m := rfl

@[simp] theorem State.getA_setCcr (s : State) (c : Ccr) (m : RegNo) : (s.setCcr c).getA m = s.getA m := rfl

@[simp] theorem State.getD_store (s : State) (a : Addr) (n v : Nat) (m : RegNo) :
    (s.store a n v).getD m = s.getD m := rfl

@[simp] theorem State.getA_store (s : State) (a : Addr) (n v : Nat) (m : RegNo) :
    (s.store a n v).getA m = s.getA m := rfl

@[simp] theorem State.getA_writeD (s : State) (n m : RegNo) (sz : Size) (v : Long) :
    (s.writeD n sz v).getA m = s.getA m := rfl

@[simp] theorem State.getD_writeA (s : State) (n m : RegNo) (sz : Size) (v : Long) :
    (s.writeA n sz v).getD m = s.getD m := rfl

/-- `WriteD` changes the low part of its register and no other data register (R16). -/
theorem State.getD_writeD (s : State) (n m : RegNo) (sz : Size) (v : Long) :
    (s.writeD n sz v).getD m = if n = m then mergeLow sz (s.getD n) v else s.getD m := by
  simp [State.writeD]

/-- `WriteA` writes all 32 bits of its register, sign-extended, and no other address register (R16). -/
theorem State.getA_writeA (s : State) (n m : RegNo) (sz : Size) (v : Long) :
    (s.writeA n sz v).getA m = if n = m then sz.sext v else s.getA m := by
  simp [State.writeA]

/-- The low part of a register just written at a size is the value, and the bits above are kept (R16, R41). -/
theorem trunc_mergeLow (sz : Size) (old v : Long) : sz.trunc (mergeLow sz old v) = sz.trunc v := by
  cases sz <;> simp only [Size.trunc, mergeLow] <;> ext i hi <;>
    simp [BitVec.getElem_setWidth] <;> grind

theorem Ccr.ofBits_toBits (c : Ccr) : Ccr.ofBits (Ccr.toBits c) = c := by
  rcases c with ⟨x, n, z, v, c⟩
  cases x <;> cases n <;> cases z <;> cases v <;> cases c <;> rfl

theorem Ccr.toBits_ofBits (b : BitVec 5) : Ccr.toBits (Ccr.ofBits b) = b := by
  revert b; decide

end Sys2Proof.Machine
end

