-- ==== Sys2Proof/Laws/Memory.lean ====
section
/-! SUPPORT. The laws of guest memory and of the sets of byte addresses: a read after a write, what a write
leaves alone, the canonical forms and that every operation keeps them. -/

namespace Sys2Proof.Machine

open Sys2Proof

/-! ### One byte -/

@[simp] theorem Memory.get_nil (k : Nat) : Memory.get [] k = 0 := rfl

theorem Memory.wfFrom_mono {lo lo' : Nat} {m : List Host.Cell} (h : lo ≤ lo')
    (hm : Memory.wfFrom lo' m = true) : Memory.wfFrom lo m = true := by
  cases m with
  | nil => rfl
  | cons c m => simp only [Memory.wfFrom, Bool.and_eq_true, decide_eq_true_eq] at *; grind

/-- An address below every listed one reads as 0. -/
theorem Memory.get_below {lo k : Nat} {m : List Host.Cell} (hm : Memory.wfFrom lo m = true) (h : k < lo) :
    Memory.get m k = 0 := by
  induction m generalizing lo with
  | nil => rfl
  | cons c m ih =>
    simp only [Memory.wfFrom, Bool.and_eq_true, decide_eq_true_eq] at hm
    simp only [Memory.get, show c.1 ≠ k by omega, if_false]
    exact ih hm.2 (by omega)

/-- A write leaves every other byte alone. -/
theorem Memory.get_set_ne (m : List Host.Cell) {k j : Nat} (v : Byte) (h : k ≠ j) :
    Memory.get (Memory.set m k v) j = Memory.get m j := by
  induction m with
  | nil => simp only [Memory.set]; split <;> simp [Memory.get, h]
  | cons c m ih => simp only [Memory.set]; (repeat' split) <;> simp_all [Memory.get]

/-- A read after a write gives the byte written. -/
theorem Memory.get_set_self {lo : Nat} {m : List Host.Cell} (hm : Memory.wfFrom lo m = true) (k : Nat)
    (v : Byte) : Memory.get (Memory.set m k v) k = v := by
  induction m generalizing lo with
  | nil => simp only [Memory.set]; split <;> simp_all [Memory.get]
  | cons c m ih =>
    simp only [Memory.wfFrom, Bool.and_eq_true, decide_eq_true_eq] at hm
    simp only [Memory.set]
    split
    · simp only [Memory.get, show c.1 ≠ k by omega, if_false]; exact ih hm.2
    · split
      · split
        · next h3 => rw [h3]; exact Memory.get_below hm.2 (by omega)
        · simp [Memory.get]
      · split
        · next h4 =>
          rw [h4]; simp only [Memory.get, show c.1 ≠ k by omega, if_false]
          exact Memory.get_below hm.2 (by omega)
        · simp [Memory.get]

theorem Memory.get_set {lo : Nat} {m : List Host.Cell} (hm : Memory.wfFrom lo m = true) (k j : Nat) (v : Byte) :
    Memory.get (Memory.set m k v) j = if k = j then v else Memory.get m j := by
  split
  · next h => subst h; exact Memory.get_set_self hm k v
  · next h => exact Memory.get_set_ne m v h

/-- A write of one byte keeps the canonical form. -/
theorem Memory.wfFrom_set {lo k : Nat} {m : List Host.Cell} (hm : Memory.wfFrom lo m = true) (v : Byte)
    (hlo : lo ≤ k) (hk : k < 2 ^ 32) : Memory.wfFrom lo (Memory.set m k v) = true := by
  induction m generalizing lo with
  | nil => simp only [Memory.set]; split <;> simp_all [Memory.wfFrom]
  | cons c m ih =>
    have hm' := hm
    simp only [Memory.wfFrom, Bool.and_eq_true, decide_eq_true_eq, bne_iff_ne] at hm
    simp only [Memory.set]
    split
    · simp only [Memory.wfFrom, Bool.and_eq_true, decide_eq_true_eq, bne_iff_ne]
      exact ⟨hm.1, ih hm.2 (by omega)⟩
    · split
      · next h2 =>
        split
        · exact Memory.wfFrom_mono (by omega) hm.2
        · next h3 =>
          simp only [Memory.wfFrom, Bool.and_eq_true, decide_eq_true_eq, bne_iff_ne]
          exact ⟨⟨⟨hlo, hk⟩, h3⟩, h2 ▸ hm.2⟩
      · split
        · exact hm'
        · next h4 =>
          simp only [Memory.wfFrom, Bool.and_eq_true, decide_eq_true_eq, bne_iff_ne]
          exact ⟨⟨⟨hlo, hk⟩, h4⟩, ⟨⟨by omega, hm.1.1.2⟩, hm.1.2⟩, hm.2⟩

theorem Memory.wf_set {k : Nat} {m : List Host.Cell} (hm : Memory.wf m = true) (v : Byte) (hk : k < 2 ^ 32) :
    Memory.wf (Memory.set m k v) = true := Memory.wfFrom_set hm v (Nat.zero_le k) hk

/-- A cell of the memory after a write was there before, or is the byte written. -/
theorem Memory.mem_set {m : List Host.Cell} {k : Nat} {v : Byte} {c : Host.Cell}
    (h : c ∈ Memory.set m k v) : c ∈ m ∨ c.1 = k := by
  induction m with
  | nil => simp only [Memory.set] at h; split at h <;> simp_all
  | cons d m ih => grind [Memory.set]

/-- Two memories in canonical form that read the same everywhere are the same. -/
theorem Memory.ext_of_get {lo : Nat} {m m' : List Host.Cell} (hm : Memory.wfFrom lo m = true)
    (hm' : Memory.wfFrom lo m' = true) (h : ∀ k, Memory.get m k = Memory.get m' k) : m = m' := by
  induction m generalizing m' lo with
  | nil =>
    cases m' with
    | nil => rfl
    | cons d m' =>
      simp only [Memory.wfFrom, Bool.and_eq_true, decide_eq_true_eq, bne_iff_ne] at hm'
      have := h d.1
      simp only [Memory.get, if_true] at this
      exact absurd this.symm hm'.1.2
  | cons c m ih =>
    simp only [Memory.wfFrom, Bool.and_eq_true, decide_eq_true_eq, bne_iff_ne] at hm
    cases m' with
    | nil =>
      have := h c.1
      simp only [Memory.get, if_true] at this
      exact absurd this hm.1.2
    | cons d m' =>
      simp only [Memory.wfFrom, Bool.and_eq_true, decide_eq_true_eq, bne_iff_ne] at hm'
      rcases c with ⟨a, x⟩
      rcases d with ⟨b, y⟩
      have key : a = b := by
        rcases Nat.lt_trichotomy a b with hlt | heq | hlt
        · have := h a
          simp only [Memory.get, if_true, show b ≠ a by omega, if_false] at this
          rw [Memory.get_below hm'.2 (by simp; omega)] at this
          exact absurd this hm.1.2
        · exact heq
        · have := h b
          simp only [Memory.get, if_true, show a ≠ b by omega, if_false] at this
          rw [Memory.get_below hm.2 (by simp; omega)] at this
          exact absurd this.symm hm'.1.2
      subst key
      have hx := h a
      simp only [Memory.get, if_true] at hx
      subst hx
      congr 1
      refine ih hm.2 hm'.2 fun k => ?_
      have := h k
      simp only [Memory.get] at this
      split at this
      · next hk => subst hk; rw [Memory.get_below hm.2 (by simp), Memory.get_below hm'.2 (by simp)]
      · exact this

/-! ### Several bytes -/

theorem mem_byteAddrs {a : Addr} {n j : Nat} : j ∈ byteAddrs a n ↔ ∃ i < n, j = (a + BitVec.ofNat 32 i).toNat := by
  induction n generalizing a with
  | zero => simp [byteAddrs]
  | succ n ih =>
    simp only [byteAddrs, List.mem_cons, ih]
    constructor
    · rintro (h | ⟨i, hi, h⟩)
      · exact ⟨0, by omega, by simpa using h⟩
      · refine ⟨i + 1, by omega, ?_⟩
        rw [h]; congr 1
        apply BitVec.eq_of_toNat_eq
        simp only [BitVec.toNat_add, BitVec.toNat_ofNat, show (1 : Addr).toNat = 1 from rfl]; omega
    · rintro ⟨i, hi, h⟩
      cases i with
      | zero => left; simpa using h
      | succ i =>
        right
        refine ⟨i, by omega, ?_⟩
        rw [h]; congr 1
        apply BitVec.eq_of_toNat_eq
        simp only [BitVec.toNat_add, BitVec.toNat_ofNat, show (1 : Addr).toNat = 1 from rfl]; omega

theorem byteAddrs_lt {a : Addr} {n j : Nat} (h : j ∈ byteAddrs a n) : j < 2 ^ 32 := by
  obtain ⟨i, _, rfl⟩ := mem_byteAddrs.1 h; exact BitVec.isLt _

@[simp] theorem length_byteAddrs (a : Addr) (n : Nat) : (byteAddrs a n).length = n := by
  induction n generalizing a with
  | zero => rfl
  | succ n ih => simp [byteAddrs, ih]

theorem Memory.wf_setBytes {m : List Host.Cell} (hm : Memory.wf m = true) (a : Addr) (bs : List Byte) :
    Memory.wf (Memory.setBytes m a bs) = true := by
  induction bs generalizing m a with
  | nil => exact hm
  | cons b bs ih => exact ih (Memory.wf_set hm b a.isLt) _

/-- A write leaves every byte outside it alone. -/
theorem Memory.get_setBytes_outside {m : List Host.Cell} {a : Addr} {bs : List Byte} {j : Nat}
    (h : j ∉ byteAddrs a bs.length) : Memory.get (Memory.setBytes m a bs) j = Memory.get m j := by
  induction bs generalizing m a with
  | nil => rfl
  | cons b bs ih =>
    simp only [List.length_cons, byteAddrs, List.mem_cons, not_or] at h
    simp only [Memory.setBytes]
    rw [ih h.2, Memory.get_set_ne _ _ (fun e => h.1 e.symm)]

theorem Memory.mem_setBytes {m : List Host.Cell} {a : Addr} {bs : List Byte} {c : Host.Cell}
    (h : c ∈ Memory.setBytes m a bs) : c ∈ m ∨ c.1 ∈ byteAddrs a bs.length := by
  induction bs generalizing m a with
  | nil => exact .inl h
  | cons b bs ih =>
    simp only [List.length_cons, byteAddrs, List.mem_cons]
    rcases ih h with h | h
    · rcases Memory.mem_set h with h | h
      · exact .inl h
      · exact .inr (.inl h)
    · exact .inr (.inr h)

/-- Reading back the bytes just written, for an access that does not wrap onto itself. -/
theorem Memory.map_get_setBytes {m : List Host.Cell} (hm : Memory.wf m = true) (a : Addr) (bs : List Byte)
    (hn : bs.length ≤ 2 ^ 32) : (byteAddrs a bs.length).map (Memory.get (Memory.setBytes m a bs)) = bs := by
  induction bs generalizing m a with
  | nil => rfl
  | cons b bs ih =>
    simp only [List.length_cons] at hn
    have hout : a.toNat ∉ byteAddrs (a + 1) bs.length := by
      rw [mem_byteAddrs]
      rintro ⟨i, hi, h⟩
      simp only [BitVec.toNat_add, BitVec.toNat_ofNat, show (1 : Addr).toNat = 1 from rfl] at h
      have := a.isLt
      omega
    simp only [List.length_cons, byteAddrs, List.map_cons, Memory.setBytes]
    rw [ih (Memory.wf_set hm b a.isLt) (a + 1) (by omega), Memory.get_setBytes_outside hout,
      Memory.get_set_self hm]

@[simp] theorem length_beBytes (n v : Nat) : (beBytes n v).length = n := by
  induction n with
  | zero => rfl
  | succ n ih => simp [beBytes, ih]

/-- The big-endian value of the low n bytes of a number is the number modulo 256^n (R82). -/
theorem beValue_beBytes (n v : Nat) : beValue (beBytes n v) = v % 256 ^ n := by
  induction n with
  | zero => simp [beBytes, beValue, Nat.mod_one]
  | succ n ih =>
    simp only [beBytes, beValue, length_beBytes, ih, BitVec.toNat_ofNat]
    have h : v % 256 ^ (n + 1) = v % 256 ^ n + 256 ^ n * (v / 256 ^ n % 256) := by
      rw [Nat.pow_succ]; exact Nat.mod_mul
    rw [h, Nat.mul_comm (256 ^ n), Nat.add_comm]

/-- STORE THEN LOAD (R82): the value read back is the value written, cut to the access. -/
theorem State.load_store {s : State} (hm : Memory.wf s.mem = true) (a : Addr) (n v : Nat) (hn : n ≤ 2 ^ 32) :
    (s.store a n v).load a n = v % 256 ^ n := by
  have h := Memory.map_get_setBytes hm a (beBytes n v) (by simpa using hn)
  rw [length_beBytes] at h
  simp only [State.load, State.store_mem, h, beValue_beBytes]

theorem State.get_store_outside (s : State) {a : Addr} {n v j : Nat} (h : j ∉ byteAddrs a n) :
    Memory.get (s.store a n v).mem j = Memory.get s.mem j := by
  rw [State.store_mem]; exact Memory.get_setBytes_outside (by simpa using h)

theorem Memory.wf_store {s : State} (hm : Memory.wf s.mem = true) (a : Addr) (n v : Nat) :
    Memory.wf (s.store a n v).mem = true := Memory.wf_setBytes hm _ _

/-! ### Dropping the bytes of unmapped regions -/

theorem Memory.wfFrom_filter {lo : Nat} {m : List Host.Cell} (hm : Memory.wfFrom lo m = true)
    (p : Host.Cell → Bool) : Memory.wfFrom lo (m.filter p) = true := by
  induction m generalizing lo with
  | nil => rfl
  | cons c m ih =>
    simp only [Memory.wfFrom, Bool.and_eq_true, decide_eq_true_eq] at hm
    rw [List.filter_cons]
    split
    · simp only [Memory.wfFrom, Bool.and_eq_true, decide_eq_true_eq]; exact ⟨hm.1, ih hm.2⟩
    · exact Memory.wfFrom_mono (by omega) (ih hm.2)

theorem Memory.wf_restrict {m : List Host.Cell} (hm : Memory.wf m = true) (rs : List Region) :
    Memory.wf (Memory.restrict m rs) = true := Memory.wfFrom_filter hm _

theorem Memory.mapped_restrict {m : List Host.Cell} {rs : List Region} {c : Host.Cell}
    (h : c ∈ Memory.restrict m rs) : mappedAt rs c.1 = true := (List.mem_filter.1 h).2

theorem Memory.get_restrict {m : List Host.Cell} {rs : List Region} {k : Nat} (h : mappedAt rs k = true) :
    Memory.get (Memory.restrict m rs) k = Memory.get m k := by
  induction m with
  | nil => rfl
  | cons c m ih =>
    unfold Memory.restrict at ih ⊢
    rw [List.filter_cons]
    split
    · obtain ⟨a, v⟩ := c; simp only [Memory.get]; rw [ih]
    · next hc =>
      obtain ⟨a, v⟩ := c
      simp only [Memory.get]
      rw [if_neg]; · exact ih
      rintro rfl; exact hc h

/-! ### Sets of byte addresses -/

theorem AddrSet.wfFrom_mono {lo lo' : Nat} {as : List Nat} (h : lo ≤ lo') (ha : AddrSet.wfFrom lo' as = true) :
    AddrSet.wfFrom lo as = true := by
  cases as with
  | nil => rfl
  | cons a as => simp only [AddrSet.wfFrom, Bool.and_eq_true, decide_eq_true_eq] at *; grind

theorem AddrSet.mem_insert {as : List Nat} {k j : Nat} : j ∈ AddrSet.insert as k ↔ j = k ∨ j ∈ as := by
  induction as with
  | nil => simp [AddrSet.insert]
  | cons a as ih => simp only [AddrSet.insert]; (repeat' split) <;> simp_all <;> grind

theorem AddrSet.wfFrom_insert {lo k : Nat} {as : List Nat} (ha : AddrSet.wfFrom lo as = true) (hk : lo ≤ k) :
    AddrSet.wfFrom lo (AddrSet.insert as k) = true := by
  induction as generalizing lo with
  | nil => simpa [AddrSet.insert, AddrSet.wfFrom] using hk
  | cons a as ih =>
    have ha' := ha
    simp only [AddrSet.wfFrom, Bool.and_eq_true, decide_eq_true_eq] at ha
    simp only [AddrSet.insert]
    split
    · next h1 => simp only [AddrSet.wfFrom, Bool.and_eq_true, decide_eq_true_eq]; exact ⟨ha.1, ih ha.2 h1⟩
    · split
      · exact ha'
      · simp only [AddrSet.wfFrom, Bool.and_eq_true, decide_eq_true_eq]; exact ⟨hk, by omega, ha.2⟩

theorem AddrSet.wf_insertAll {as : List Nat} (ha : AddrSet.wf as = true) (ks : List Nat) :
    AddrSet.wf (AddrSet.insertAll as ks) = true := by
  induction ks generalizing as with
  | nil => exact ha
  | cons k ks ih => exact ih (AddrSet.wfFrom_insert ha (Nat.zero_le k))

theorem AddrSet.mem_insertAll {as ks : List Nat} {j : Nat} :
    j ∈ AddrSet.insertAll as ks ↔ j ∈ ks ∨ j ∈ as := by
  induction ks generalizing as with
  | nil => simp [AddrSet.insertAll]
  | cons k ks ih =>
    have : AddrSet.insertAll as (k :: ks) = AddrSet.insertAll (AddrSet.insert as k) ks := rfl
    rw [this, ih, AddrSet.mem_insert]; simp only [List.mem_cons]; grind

/-- A write makes stale exactly the fetched ones of its bytes, and keeps what was stale (R86, R660). -/
theorem mem_markStale {ifetched stale ks : List Nat} {j : Nat} :
    j ∈ markStale ifetched stale ks ↔ (j ∈ ks ∧ j ∈ ifetched) ∨ j ∈ stale := by
  simp [markStale, AddrSet.mem_insertAll]

theorem wf_markStale {stale : List Nat} (h : AddrSet.wf stale = true) (ifetched ks : List Nat) :
    AddrSet.wf (markStale ifetched stale ks) = true := AddrSet.wf_insertAll h _

/-! ### Permissions -/

theorem allowed_iff {rs : List Region} {k : Access} {a : Addr} {n : Nat} :
    allowed rs k a n = true ↔ ∀ j ∈ byteAddrs a n, allowedAt rs k j = true := by
  simp [allowed]

theorem mapped_of_allowedAt {rs : List Region} {k : Access} {a : Nat} (h : allowedAt rs k a = true) :
    mappedAt rs a = true := by
  simp only [allowedAt, mappedAt, List.any_eq_true, Bool.and_eq_true] at *
  obtain ⟨r, hr, h1, _⟩ := h
  exact ⟨r, hr, h1⟩

theorem Memory.reset_wf : Memory.wf State.reset.mem = true := rfl

end Sys2Proof.Machine
end

