-- ==== Sys2Proof/Laws/Effects.lean ====
section
/-! SUPPORT. What an instruction can do, said once: `Effects p s t` when `t` comes from `s` by register writes,
flag writes, draws and permitted stores that stay inside `p`; `Does p P s m` when the body `m`, run at `s`, has only
such effects and raises only exceptions that satisfy `P`; and one lemma per shared operation. -/

namespace Sys2Proof.Machine

open Sys2Proof

/-- What a body may write: registers, flags, byte addresses. -/
structure Perm where
  r : RegSel → Prop
  f : FlagSet
  st : Nat → Prop

/-- `t` comes from `s` by primitive effects inside `p`. -/
inductive Effects (p : Perm) (s : State) : State → Prop
  | refl : Effects p s s
  | setR {t : State} (h : Effects p s t) (r : RegSel) (v : Long) (hr : p.r r) : Effects p s (t.setR r v)
  | setCcr {t : State} (h : Effects p s t) (c : Ccr) (hc : Ccr.Keeps p.f t.ccr c) : Effects p s (t.setCcr c)
  | draw {t : State} (h : Effects p s t) : Effects p s { t with draws := t.draws + 1 }
  | store {t : State} (h : Effects p s t) (a : Addr) (n v : Nat) (ok : allowed t.regions .write a n = true)
      (hs : ∀ j ∈ byteAddrs a n, p.st j) : Effects p s (t.store a n v)

theorem Effects.trans {p : Perm} {s t u : State} (h : Effects p s t) (h' : Effects p t u) : Effects p s u := by
  induction h' with
  | refl => exact h
  | setR _ r v hr ih => exact .setR ih r v hr
  | setCcr _ c hc ih => exact .setCcr ih c hc
  | draw _ ih => exact .draw ih
  | store _ a n v ok hs ih => exact .store ih a n v ok hs

/-- Modes whose operand can be written. -/
def Alterable : EA → Prop
  | .imm _ => False
  | .dreg _ | .areg _ | .ind _ | .postinc _ | .predec _ | .disp _ _ | .index _ _ | .absW _ | .absL _ | .pcDisp _
  | .pcIndex _ => True

/-- Modes whose operand is in memory. -/
def InMemory : EA → Prop
  | .dreg _ | .areg _ | .imm _ => False
  | .ind _ | .postinc _ | .predec _ | .disp _ _ | .index _ _ | .absW _ | .absL _ | .pcDisp _ | .pcIndex _ => True

/-- The body, run at `s`, has only effects inside `p` and raises only what `P` admits. -/
def Does {α : Type} (p : Perm) (P : Raise → Prop) (s : State) (m : Exec α) : Prop :=
  match m s with
  | .ok _ t => Effects p s t
  | .error e t => P e ∧ Effects p s t

theorem Does.ok {α : Type} {p : Perm} {P : Raise → Prop} {m : Exec α} {s t : State} {a : α} (h : Does p P s m)
    (e : m s = .ok a t) : Effects p s t := by unfold Does at h; rwa [e] at h

theorem Does.error {α : Type} {p : Perm} {P : Raise → Prop} {m : Exec α} {s t : State} {e : Raise}
    (h : Does p P s m) (he : m s = .error e t) : P e ∧ Effects p s t := by unfold Does at h; rwa [he] at h

/-! ### Combinators and primitives -/

/-- How a sequence of two bodies runs. -/
theorem bind_eq {α β : Type} (m : Exec α) (f : α → Exec β) (s : State) :
    (m >>= f) s = match m s with
      | .ok a t => f a t
      | .error e t => .error e t := by
  show EStateM.bind m f s = _
  unfold EStateM.bind
  cases m s <;> rfl

theorem Does.bind {α β : Type} {p : Perm} {P : Raise → Prop} {m : Exec α} {f : α → Exec β} {s : State}
    (h : Does p P s m) (h' : ∀ a t, m s = .ok a t → Does p P t (f a)) : Does p P s (m >>= f) := by
  unfold Does
  rw [bind_eq]
  cases hm : m s with
  | ok a t =>
    have hs := h.ok hm
    have ht := h' a t hm
    simp only
    cases hf : f a t with
    | ok b u => exact hs.trans (ht.ok hf)
    | error e u => exact ⟨(ht.error hf).1, hs.trans (ht.error hf).2⟩
  | error e t => exact h.error hm

theorem does_pure {α : Type} {p : Perm} {P : Raise → Prop} {s : State} (a : α) : Does p P s (pure a : Exec α) := .refl

theorem does_get {p : Perm} {P : Raise → Prop} {s : State} : Does p P s (get : Exec State) := .refl

theorem does_raise {α : Type} {p : Perm} {P : Raise → Prop} {s : State} {e : Raise} (h : P e) :
    Does p P s (raise e : Exec α) := ⟨h, .refl⟩

theorem does_ite {α : Type} {p : Perm} {P : Raise → Prop} {s : State} {c : Prop} [Decidable c] {m m' : Exec α}
    (h : c → Does p P s m) (h' : ¬c → Does p P s m') : Does p P s (if c then m else m') := by
  split
  · exact h ‹_›
  · exact h' ‹_›

section

variable {p : Perm} {P : Raise → Prop} {s : State}

theorem does_readD (n : RegNo) : Does p P s (readD n) := .refl

theorem does_readA (n : RegNo) : Does p P s (readA n) := .refl

theorem does_readR (r : RegSel) : Does p P s (readR r) := .refl

theorem does_readDLow (n : RegNo) (sz : Size) : Does p P s (readDLow n sz) := .refl

theorem does_readCcr : Does p P s readCcr := .refl

theorem does_readPcOp : Does p P s readPcOp := .refl

theorem does_putD (n : RegNo) (v : Long) (h : p.r (.d n)) : Does p P s (putD n v) :=
  show Effects p s (s.setR (.d n) v) from .setR .refl (.d n) v h

theorem does_putA (n : RegNo) (v : Long) (h : p.r (.a n)) : Does p P s (putA n v) :=
  show Effects p s (s.setR (.a n) v) from .setR .refl (.a n) v h

theorem does_putR (r : RegSel) (v : Long) (h : p.r r) : Does p P s (putR r v) := .setR .refl r v h

theorem does_putDLow (n : RegNo) (sz : Size) (v : Long) (h : p.r (.d n)) : Does p P s (putDLow n sz v) :=
  show Effects p s (s.setR (.d n) _) from .setR .refl (.d n) _ h

theorem does_putASized (n : RegNo) (sz : Size) (v : Long) (h : p.r (.a n)) : Does p P s (putASized n sz v) :=
  show Effects p s (s.setR (.a n) _) from .setR .refl (.a n) _ h

theorem does_putCcr (c : Ccr) (h : Ccr.Keeps p.f s.ccr c) : Does p P s (putCcr c) := .setCcr .refl c h

theorem does_modifyCcr (f : Ccr → Ccr) (h : ∀ c, Ccr.Keeps p.f c (f c)) : Does p P s (modifyCcr f) :=
  .setCcr .refl _ (h _)

theorem does_drawBit : Does p P s drawBit := .draw .refl

theorem does_drawByte : Does p P s drawByte := .draw .refl

theorem does_drawLong : Does p P s drawLong := .draw .refl

theorem does_drawFrom (x y : Long) : Does p P s (drawFrom x y) := does_drawBit.bind fun _ _ _ => does_pure _

theorem does_drawIf (c : Bool) (x y z : Long) : Does p P s (drawIf c x y z) :=
  does_ite (fun _ => does_drawFrom _ _) fun _ => does_pure _

end

/-! ### Flags -/

theorem Ccr.keeps_all (old new : Ccr) : Ccr.Keeps .all old new := by simp [Ccr.Keeps, FlagSet.all]

theorem Ccr.keeps_refl (w : FlagSet) (c : Ccr) : Ccr.Keeps w c c := by simp [Ccr.Keeps]

/-- A new CCR whose X is the old one. -/
theorem Ccr.keeps_nzvc {old new : Ccr} (h : new.x = old.x) : Ccr.Keeps .nzvc old new := by
  simp [Ccr.Keeps, FlagSet.nzvc, h]

theorem keeps_logicCcr (sz : Size) (r : Long) (c : Ccr) : Ccr.Keeps .nzvc c (logicCcr sz r c) := Ccr.keeps_nzvc rfl

theorem keeps_compareCcr (r : AluResult) (c : Ccr) : Ccr.Keeps .nzvc c (compareCcr r c) := Ccr.keeps_nzvc rfl

/-! ### Accesses -/

section

variable {p : Perm} {P : Raise → Prop} (hP : ∀ e, AccessRaise e → P e) {s : State}

include hP

theorem does_checkAccess {k : Access} (hk : k ≠ .fetch) (a : Addr) (n : Nat) : Does p P s (checkAccess k a n) := by
  unfold Does checkAccess
  split
  · next h =>
    split at h
    · cases h; exact .refl
    · cases h
  · next h =>
    split at h
    · cases h
    · cases h; exact ⟨hP _ ⟨_, rfl, hk⟩, .refl⟩

theorem does_memRead (a : Addr) (n : Nat) : Does p P s (memRead a n) := by
  unfold Does memRead
  split
  · next h =>
    split at h
    · cases h; exact .refl
    · cases h
  · next h =>
    split at h
    · cases h
    · cases h; exact ⟨hP _ ⟨_, rfl, by simp⟩, .refl⟩

theorem does_memWrite (a : Addr) (n v : Nat) (hs : ∀ j ∈ byteAddrs a n, p.st j) : Does p P s (memWrite a n v) := by
  unfold Does memWrite
  split
  · next h =>
    split at h
    · next ok => cases h; exact .store .refl a n v ok hs
    · cases h
  · next h =>
    split at h
    · cases h
    · cases h; exact ⟨hP _ ⟨_, rfl, by simp⟩, .refl⟩

theorem does_memReadSized (sz : Size) (a : Addr) : Does p P s (memReadSized sz a) :=
  (does_memRead hP _ _).bind fun _ _ _ => does_pure _

theorem does_memWriteSized (sz : Size) (a : Addr) (v : Long) (hs : ∀ j ∈ byteAddrs a sz.bytes, p.st j) :
    Does p P s (memWriteSized sz a v) := does_memWrite hP _ _ _ hs

/-- A push stores to the four bytes below A7 and moves A7 (R20). -/
theorem does_push (v : Long) (hr : p.r (.a spReg)) (hs : ∀ j ∈ pushSpan s, p.st j) : Does p P s (push v) :=
  (does_readA _).bind fun _ _ h => by
    cases h
    exact (does_memWriteSized hP .l _ _ hs).bind fun _ _ _ => does_putA _ _ hr

/-- A pop moves A7 (R20). -/
theorem does_pop (sz : Size) (hr : p.r (.a spReg)) : Does p P s (pop sz) :=
  (does_readA _).bind fun _ _ _ => (does_memReadSized hP _ _).bind fun _ _ _ =>
    (does_putA _ _ hr).bind fun _ _ _ => does_pure _

/-! ### Operands -/

theorem does_indexedAddr (base : Long) (x : IndexExt) : Does p P s (indexedAddr base x) := by
  cases x with
  | brief i d => exact .refl
  | full i bs is bd ind =>
    refine does_get.bind fun s _ _ => ?_
    cases ind with
    | none => exact does_pure _
    | pre od => exact (does_memReadSized hP _ _).bind fun _ _ _ => does_pure _
    | post od => exact (does_memReadSized hP _ _).bind fun _ _ _ => does_pure _

/-- Resolving an operand writes only the address register a predecrement steps (R205). -/
theorem does_resolve (sz : Size) (ea : EA) (k : Nat) (hr : ∀ r ∈ EA.stepped ea, p.r r) :
    Does p P s (resolve sz ea k) := by
  cases ea with
  | dreg n | areg n | absW a | absL a | imm v => exact does_pure _
  | ind n | postinc n | disp n d => exact (does_readA _).bind fun _ _ _ => does_pure _
  | predec n =>
    exact (does_readA _).bind fun _ _ _ => (does_putA _ _ (hr _ (by simp [EA.stepped]))).bind fun _ _ _ => does_pure _
  | index n x => exact (does_readA _).bind fun _ _ _ => (does_indexedAddr hP _ _).bind fun _ _ _ => does_pure _
  | pcDisp d => exact does_readPcOp.bind fun _ _ _ => does_pure _
  | pcIndex x => exact does_readPcOp.bind fun _ _ _ => (does_indexedAddr hP _ _).bind fun _ _ _ => does_pure _

end

/-- The operand a resolved effective address can be. -/
def OperandOf (ea : EA) : Operand → Prop
  | .dreg n => ea = .dreg n
  | .areg n => ea = .areg n
  | .mem _ post => ∀ n, post = some n → ea = .postinc n
  | .imm v => ea = .imm v

/-- What the first of two bodies answered, and what the second then did. -/
theorem bind_ok {α β : Type} {m : Exec α} {f : α → Exec β} {s u : State} {b : β} (h : (m >>= f) s = .ok b u) :
    ∃ a t, m s = .ok a t ∧ f a t = .ok b u := by
  rw [bind_eq] at h
  split at h
  · exact ⟨_, _, ‹_›, h⟩
  · cases h

theorem pure_ok {α : Type} {a b : α} {s t : State} (h : (pure a : Exec α) s = .ok b t) : a = b ∧ s = t := by
  cases h; exact ⟨rfl, rfl⟩

/-- A resolved operand is the one its mode spells. -/
theorem resolve_operandOf {sz : Size} {ea : EA} {k : Nat} {s t : State} {op : Operand}
    (h : resolve sz ea k s = .ok op t) : OperandOf ea op := by
  cases ea with
  | dreg n | areg n | absW a | absL a | imm v => obtain ⟨rfl, _⟩ := pure_ok h; simp [OperandOf]
  | ind n | postinc n | disp n d | pcDisp d =>
    obtain ⟨_, _, _, h⟩ := bind_ok h
    obtain ⟨rfl, _⟩ := pure_ok h
    simp [OperandOf]
  | predec n | index n x | pcIndex x =>
    obtain ⟨_, _, _, h⟩ := bind_ok h
    obtain ⟨_, _, _, h⟩ := bind_ok h
    obtain ⟨rfl, _⟩ := pure_ok h
    simp [OperandOf]

section

variable {p : Perm} {P : Raise → Prop} (hP : ∀ e, AccessRaise e → P e) {s : State} {ea : EA} {op : Operand}

/-- The step of a postincrement writes its address register (R204). -/
theorem does_applyPost (sz : Size) (post : Option RegNo) (hr : ∀ n, post = some n → p.r (.a n)) :
    Does p P s (applyPost sz post) := by
  cases post with
  | none => exact does_pure _
  | some n => exact (does_readA _).bind fun _ _ _ => does_putA _ _ (hr n rfl)

theorem post_permitted {a : Addr} {post : Option RegNo} (ho : OperandOf ea (.mem a post))
    (hr : ∀ r ∈ EA.stepped ea, p.r r) : ∀ n, post = some n → p.r (.a n) := by
  intro n hn
  have := ho n hn
  subst this
  exact hr _ (by simp [EA.stepped])

include hP

/-- Reading an operand writes only the address register a postincrement steps (R204, R213). -/
theorem does_readOp (sz : Size) (ho : OperandOf ea op) (hr : ∀ r ∈ EA.stepped ea, p.r r) :
    Does p P s (readOp sz op) := by
  cases op with
  | dreg n => exact does_readDLow _ _
  | areg n => exact (does_readA _).bind fun _ _ _ => does_pure _
  | mem a post =>
    exact (does_memReadSized hP _ _).bind fun _ _ _ =>
      (does_applyPost _ _ (post_permitted ho hr)).bind fun _ _ _ => does_pure _
  | imm v => exact does_pure _

/-- Writing an operand back writes the register it is, or its bytes (R214, R215). -/
theorem does_writeBack (sz : Size) (v : Long) (ho : OperandOf ea op)
    (hI : Alterable ea ∨ P .illegalInstruction) (hr : ∀ r ∈ EA.regs ea, p.r r)
    (hs : ∀ j ∈ Operand.span sz op, p.st j) : Does p P s (writeBack sz op v) := by
  cases op with
  | dreg n => exact does_putDLow _ _ _ (hr _ (by simp [show ea = .dreg n from ho, EA.regs]))
  | areg n => exact does_putASized _ _ _ (hr _ (by simp [show ea = .areg n from ho, EA.regs]))
  | mem a post => exact does_memWriteSized hP _ _ _ hs
  | imm w =>
    exact hI.elim (fun h => absurd h (by simp [show ea = .imm w from ho, Alterable])) does_raise

theorem does_writeOnly (sz : Size) (v : Long) (ho : OperandOf ea op)
    (hI : Alterable ea ∨ P .illegalInstruction) (hr : ∀ r ∈ EA.dest ea, p.r r)
    (hs : ∀ j ∈ Operand.span sz op, p.st j) : Does p P s (writeOnly sz op v) := by
  cases op with
  | dreg n => exact does_putDLow _ _ _ (hr _ (by simp [show ea = .dreg n from ho, EA.dest, EA.regs]))
  | areg n => exact does_putASized _ _ _ (hr _ (by simp [show ea = .areg n from ho, EA.dest, EA.regs]))
  | mem a post =>
    exact (does_memWriteSized hP _ _ _ hs).bind fun _ _ _ =>
      does_applyPost _ _ (post_permitted ho fun r h => hr r (by simp [EA.dest, h]))
  | imm w =>
    exact hI.elim (fun h => absurd h (by simp [show ea = .imm w from ho, Alterable])) does_raise

/-- Reading a source operand writes only the register its mode steps (R216). -/
theorem does_readEa (sz : Size) (ea : EA) (k : Nat) (hr : ∀ r ∈ EA.stepped ea, p.r r) :
    Does p P s (readEa sz ea k) :=
  (does_resolve hP _ _ _ hr).bind fun _ _ h => does_readOp hP _ (resolve_operandOf h) hr

omit hP in
theorem opSpan_of_resolve {sz : Size} {ea : EA} {k : Nat} {s t : State} {op : Operand}
    (h : resolve sz ea k s = .ok op t) : opSpan sz ea k s = Operand.span sz op := by
  simp [opSpan, afterOk, h]

/-- Writing a destination writes its registers and its bytes (R214). -/
theorem does_writeEa (sz : Size) (ea : EA) (k : Nat) (v : Long) (hI : Alterable ea ∨ P .illegalInstruction)
    (hr : ∀ r ∈ EA.dest ea, p.r r)
    (hs : ∀ j ∈ opSpan sz ea k s, p.st j) : Does p P s (writeEa sz ea k v) :=
  (does_resolve hP _ _ _ fun r h => hr r (by simp [EA.dest, h])).bind fun _ _ h =>
    does_writeOnly hP _ _ (resolve_operandOf h) hI hr (opSpan_of_resolve h ▸ hs)

theorem does_addrOf (ea : EA) (k : Nat) (hI : InMemory ea ∨ P .illegalInstruction)
    (hr : ∀ r ∈ EA.stepped ea, p.r r) : Does p P s (addrOf ea k) := by
  refine (does_resolve hP _ _ _ hr).bind fun op _ h => ?_
  have ho := resolve_operandOf h
  cases op with
  | mem a post => exact does_pure _
  | dreg n => exact hI.elim (fun h => absurd h (by simp [show ea = .dreg n from ho, InMemory])) does_raise
  | areg n => exact hI.elim (fun h => absurd h (by simp [show ea = .areg n from ho, InMemory])) does_raise
  | imm v => exact hI.elim (fun h => absurd h (by simp [show ea = .imm v from ho, InMemory])) does_raise

/-! ### Shared shapes -/

omit hP in
theorem does_updateD (sz : Size) (dn : RegNo) (f : Step) (hr : p.r (.d dn)) (hf : ∀ d c, Ccr.Keeps p.f c (f d c).2) :
    Does p P s (updateD sz dn f) :=
  (does_readDLow _ _).bind fun _ _ _ => does_readCcr.bind fun _ _ _ =>
    (does_putDLow _ _ _ hr).bind fun _ _ _ => does_modifyCcr _ (hf _)

theorem does_rmwEa (sz : Size) (ea : EA) (k : Nat) (f : Step) (hI : Alterable ea ∨ P .illegalInstruction)
    (hr : ∀ r ∈ EA.dest ea, p.r r)
    (hf : ∀ d c, Ccr.Keeps p.f c (f d c).2) (hs : ∀ j ∈ opSpan sz ea k s, p.st j) : Does p P s (rmwEa sz ea k f) :=
  have hr1 : ∀ r ∈ EA.stepped ea, p.r r := fun r h => hr r (by simp [EA.dest, h])
  have hr2 : ∀ r ∈ EA.regs ea, p.r r := fun r h => hr r (by simp [EA.dest, h])
  (does_resolve hP _ _ _ hr1).bind fun _ _ h => (does_readOp hP _ (resolve_operandOf h) hr1).bind fun _ _ _ =>
    does_readCcr.bind fun _ _ _ =>
      (does_writeBack hP _ _ (resolve_operandOf h) hI hr2 (opSpan_of_resolve h ▸ hs)).bind fun _ _ _ =>
        does_modifyCcr _ (hf _)

theorem does_rmwEaFlagsFirst (sz : Size) (ea : EA) (k : Nat) (f : Step) (hI : Alterable ea ∨ P .illegalInstruction)
    (hr : ∀ r ∈ EA.dest ea, p.r r)
    (hf : ∀ d c, Ccr.Keeps p.f c (f d c).2) (hs : ∀ j ∈ opSpan sz ea k s, p.st j) :
    Does p P s (rmwEaFlagsFirst sz ea k f) :=
  have hr1 : ∀ r ∈ EA.stepped ea, p.r r := fun r h => hr r (by simp [EA.dest, h])
  have hr2 : ∀ r ∈ EA.regs ea, p.r r := fun r h => hr r (by simp [EA.dest, h])
  (does_resolve hP _ _ _ hr1).bind fun _ _ h => (does_readOp hP _ (resolve_operandOf h) hr1).bind fun _ _ _ =>
    does_readCcr.bind fun _ _ _ => (does_modifyCcr _ (hf _)).bind fun _ _ _ =>
      does_writeBack hP _ _ (resolve_operandOf h) hI hr2 (opSpan_of_resolve h ▸ hs)

theorem does_eaToReg (sz : Size) (src : EA) (dn : RegNo) (f : Long → Step) (hr : ∀ r ∈ EA.stepped src, p.r r)
    (hd : p.r (.d dn)) (hf : ∀ x d c, Ccr.Keeps p.f c (f x d c).2) : Does p P s (eaToReg sz src dn f) :=
  (does_readEa hP _ _ _ hr).bind fun _ _ _ => does_updateD _ _ _ hd (hf _)

theorem does_regToEa (sz : Size) (dn : RegNo) (dst : EA) (f : Long → Step)
    (hI : Alterable dst ∨ P .illegalInstruction) (hr : ∀ r ∈ EA.dest dst, p.r r)
    (hf : ∀ x d c, Ccr.Keeps p.f c (f x d c).2) (hs : ∀ j ∈ opSpan sz dst 1 s, p.st j) :
    Does p P s (regToEa sz dn dst f) :=
  (does_readDLow _ _).bind fun _ _ h => by cases h; exact does_rmwEa hP _ _ _ _ hI hr (hf _) hs

theorem does_extendedOp (sz : Size) (mem : Bool) (x y : RegNo) (f : Long → Step)
    (hr : ∀ r ∈ extendedRegs mem x y, p.r r) (hf : ∀ x d c, Ccr.Keeps p.f c (f x d c).2)
    (hs : ∀ j ∈ extendedSpan sz mem x y s, p.st j) : Does p P s (extendedOp sz mem x y f) := by
  refine does_ite (fun hm => ?_) fun hm => ?_
  · subst hm
    refine (does_readEa hP _ _ _ fun r h => hr r (by simp_all [EA.stepped, extendedRegs])).bind fun v t h => ?_
    refine does_rmwEa hP _ _ _ _ (.inl trivial) (fun r h => hr r ?_) (hf _) ?_
    · simp_all [EA.dest, EA.stepped, EA.regs, extendedRegs]
    · intro j hj
      exact hs j (by simpa [extendedSpan, h, afterOk] using hj)
  · refine (does_readDLow _ _).bind fun _ _ _ => does_updateD _ _ _ (hr _ ?_) (hf _)
    simp [extendedRegs, hm]

theorem does_boundsCheck (sz : Size) (rn : RegSel) (a : Addr) (hf : p.f = .nzvc) :
    Does p P s (boundsCheck sz rn a) := by
  refine (does_memReadSized hP _ _).bind fun _ _ _ => (does_memReadSized hP _ _).bind fun _ _ _ =>
    (does_readR _).bind fun _ _ _ => does_drawBit.bind fun _ _ _ => does_drawBit.bind fun _ _ _ => ?_
  cases rn <;> exact does_modifyCcr _ fun c => by rw [hf]; exact Ccr.keeps_nzvc rfl

end

/-! ### What the primitive effects keep -/

section

variable {p : Perm} {s t : State}

theorem Effects.regions (h : Effects p s t) : t.regions = s.regions := by
  induction h with
  | refl => rfl
  | setR _ r _ _ ih => cases r <;> exact ih
  | setCcr _ _ _ ih | draw _ ih | store _ _ _ _ _ _ ih => exact ih

theorem Effects.status (h : Effects p s t) : t.status = s.status := by
  induction h with
  | refl => rfl
  | setR _ r _ _ ih => cases r <;> exact ih
  | setCcr _ _ _ ih | draw _ ih | store _ _ _ _ _ _ ih => exact ih

theorem Effects.pc (h : Effects p s t) : t.pc = s.pc := by
  induction h with
  | refl => rfl
  | setR _ r _ _ ih => cases r <;> exact ih
  | setCcr _ _ _ ih | draw _ ih | store _ _ _ _ _ _ ih => exact ih

theorem Effects.ifetched (h : Effects p s t) : t.ifetched = s.ifetched := by
  induction h with
  | refl => rfl
  | setR _ r _ _ ih => cases r <;> exact ih
  | setCcr _ _ _ ih | draw _ ih | store _ _ _ _ _ _ ih => exact ih

/-- A register the body may not write keeps its value. -/
theorem Effects.getR (h : Effects p s t) {r : RegSel} (hr : ¬p.r r) : t.getR r = s.getR r := by
  induction h with
  | refl => rfl
  | setR h q v hq ih =>
    have hne : q ≠ r := fun e => hr (e ▸ hq)
    rw [← ih]
    cases q <;> cases r <;> simp_all [State.setR, State.getR]
  | setCcr _ _ _ ih | draw _ ih | store _ _ _ _ _ _ ih =>
    rw [← ih]; cases r <;> rfl

/-- A flag the body may not write keeps its value. -/
theorem Effects.flags (h : Effects p s t) : Ccr.Keeps p.f s.ccr t.ccr := by
  induction h with
  | refl => exact Ccr.keeps_refl _ _
  | setR _ r _ _ ih => cases r <;> exact ih
  | setCcr _ c hc ih =>
    simp only [Ccr.Keeps, State.setCcr_ccr] at *
    exact ⟨fun hw => (hc.1 hw).trans (ih.1 hw), fun hw => (hc.2.1 hw).trans (ih.2.1 hw),
      fun hw => (hc.2.2.1 hw).trans (ih.2.2.1 hw), fun hw => (hc.2.2.2.1 hw).trans (ih.2.2.2.1 hw),
      fun hw => (hc.2.2.2.2 hw).trans (ih.2.2.2.2 hw)⟩
  | draw _ ih | store _ _ _ _ _ _ ih => exact ih

/-- A byte the body may not store to keeps its value. -/
theorem Effects.get (h : Effects p s t) {j : Nat} (hj : ¬p.st j) : Memory.get t.mem j = Memory.get s.mem j := by
  induction h with
  | refl => rfl
  | setR _ r _ _ ih => cases r <;> exact ih
  | setCcr _ _ _ ih | draw _ ih => exact ih
  | store _ a n v ok hs ih => rw [State.get_store_outside _ fun hm => hj (hs j hm)]; exact ih

/-- A byte that may not be written keeps its value (R86, R95). -/
theorem Effects.get_of_not_writable (h : Effects p s t) {j : Nat} (hj : allowedAt s.regions .write j = false) :
    Memory.get t.mem j = Memory.get s.mem j := by
  induction h with
  | refl => rfl
  | setR _ r _ _ ih => cases r <;> exact ih
  | setCcr _ _ _ ih | draw _ ih => exact ih
  | store h a n v ok hs ih =>
    rw [State.get_store_outside _ fun hm => ?_]
    · exact ih
    · have := allowed_iff.1 ok j hm
      rw [h.regions, hj] at this
      cases this

/-- Nothing stale is forgotten; what becomes stale was fetched and is stored to (R86, R660). -/
theorem Effects.stale (h : Effects p s t) {j : Nat} :
    (j ∈ s.stale → j ∈ t.stale) ∧ (j ∈ t.stale → j ∈ s.stale ∨ (j ∈ s.ifetched ∧ p.st j)) := by
  induction h with
  | refl => exact ⟨id, .inl⟩
  | setR _ r _ _ ih => cases r <;> exact ih
  | setCcr _ _ _ ih | draw _ ih => exact ih
  | store h a n v ok hs ih =>
    rw [State.store_stale, mem_markStale, h.ifetched]
    exact ⟨fun hk => .inr (ih.1 hk), fun hk => hk.elim (fun hk => .inr ⟨hk.2, hs j hk.1⟩) ih.2⟩

/-- The primitive effects keep the invariant. -/
theorem Effects.inv (h : Effects p s t) (hs : Inv s) : Inv t := by
  induction h with
  | refl => exact hs
  | setR _ r _ _ ih => cases r <;> exact ih
  | setCcr _ _ _ ih | draw _ ih => exact ih
  | store h a n v ok hst ih =>
    obtain ⟨h1, h2, h3, h4, h5, h6⟩ := ih
    refine ⟨Memory.wf_store h1 a n v, h2, h3, wf_markStale h4 _ _, ?_, ?_⟩
    · intro k hk
      rcases mem_markStale.1 hk with hk | hk
      · exact hk.2
      · exact h5 k hk
    · intro c hc
      rcases Memory.mem_setBytes hc with hc | hc
      · exact h6 c hc
      · exact mapped_of_allowedAt (allowed_iff.1 ok _ (by simpa using hc))

end

end Sys2Proof.Machine
end

