-- ==== Sys2Proof/Laws/Exec.lean ====
section
/-! SUPPORT. Every meaning stays inside what `writesRegs`, `writesFlags` and `storeSpan` name, and `answers_exec`:
an instruction either completes, with such effects and a new PC, or takes an exception it may raise, with the
effects made before it. -/

namespace Sys2Proof.Machine

open Sys2Proof

/-- What an outcome of instruction `i` at state `s` can be. -/
def Answers (p : Perm) (P : Raise → Prop) (i : Instr) (s : State) (o : Outcome) : Prop :=
  (∃ t target, Effects p s t ∧ o = .next { t with pc := target }) ∨
  ∃ e t, P e ∧ Effects p s t ∧ o = .next (takeException s.pc (pcNext i s.pc) (some (opcodeWord i)) e t)

section

variable {p : Perm} {P : Raise → Prop} {i : Instr} {s : State}

theorem answers_runTo {body : Exec Addr} (h : Does p P s body) : Answers p P i s (runTo i body s) := by
  unfold runTo
  cases hb : body s with
  | ok a t => exact .inl ⟨t, a, h.ok hb, rfl⟩
  | error e t => exact .inr ⟨e, t, (h.error hb).1, (h.error hb).2, rfl⟩

theorem answers_runSeq {body : Exec Unit} (h : Does p P s body) : Answers p P i s (runSeq i body s) := by
  unfold runSeq
  cases hb : body s with
  | ok a t => exact .inl ⟨t, _, h.ok hb, rfl⟩
  | error e t => exact .inr ⟨e, t, (h.error hb).1, (h.error hb).2, rfl⟩

end

/-! ### Flags of the steps -/

theorem keeps_shiftFlags (sz : Size) (r : ShiftResult) (c : Ccr) (h : r.x = none) :
    Ccr.Keeps .nzvc c (shiftFlags sz r c).2 := Ccr.keeps_nzvc (by simp [shiftFlags, h])

/-- ROL and ROR leave X unchanged (R336, R337). -/
theorem keeps_rotate (sz : Size) (f : Nat → Nat → Nat → ShiftResult) (hf : ∀ b d n, (f b d n).x = none) (n : Nat)
    (d : Long) (c : Ccr) : Ccr.Keeps .nzvc c (plainShift sz f n d c).2 := by
  unfold plainShift
  split
  · exact Ccr.keeps_nzvc rfl
  · exact keeps_shiftFlags _ _ _ (hf _ _ _)

theorem alterable_of_inMemory {ea : EA} (h : InMemory ea) : Alterable ea := by cases ea <;> trivial

/-! ### The bodies -/

section

variable {p : Perm} {P : Raise → Prop} (hP : ∀ e, AccessRaise e → P e) {s : State}

include hP

theorem does_eaToA (sz : Size) (src : EA) (an : RegNo) (f : Long → Long → Long)
    (hr : ∀ r ∈ .a an :: EA.stepped src, p.r r) : Does p P s (eaToA sz src an f) :=
  (does_readEa hP _ _ _ fun r h => hr r (List.mem_cons_of_mem _ h)).bind fun _ _ _ =>
    (does_readA _).bind fun _ _ _ => does_putA _ _ (hr _ List.mem_cons_self)

theorem does_compareA (sz : Size) (src : EA) (an : RegNo) (hr : ∀ r ∈ EA.stepped src, p.r r)
    (hf : ∀ r c, Ccr.Keeps p.f c (compareCcr r c)) : Does p P s (compareA sz src an) :=
  (does_readEa hP _ _ _ hr).bind fun _ _ _ => (does_readA _).bind fun _ _ _ => does_modifyCcr _ (hf _)

omit hP in
theorem does_quickToA (n : RegNo) (v : Long → Long) (hr : p.r (.a n)) : Does p P s (quickToA n v) :=
  (does_readA _).bind fun _ _ _ => does_putA _ _ hr

omit hP in
theorem does_readCount (c : ShiftCount) : Does p P s (readCount c) := by
  cases c with
  | imm n => exact does_pure _
  | reg n => exact (does_readD _).bind fun _ _ _ => does_pure _

omit hP in
theorem does_shiftReg (sz : Size) (c : ShiftCount) (dy : RegNo) (f : Nat → Step) (hr : p.r (.d dy))
    (hf : ∀ n d c, Ccr.Keeps p.f c (f n d c).2) : Does p P s (shiftReg sz c dy f) :=
  (does_readCount _).bind fun _ _ _ => does_updateD _ _ _ hr (hf _)

theorem does_shiftMem (dst : EA) (f : Nat → Step) (hI : Alterable dst ∨ P .illegalInstruction)
    (hr : ∀ r ∈ EA.dest dst, p.r r)
    (hf : ∀ n d c, Ccr.Keeps p.f c (f n d c).2) (hs : ∀ j ∈ opSpan .w dst 1 s, p.st j) :
    Does p P s (shiftMem dst f) := does_rmwEaFlagsFirst hP _ _ _ _ hI hr (hf _) hs

omit hP in
theorem keeps_bitCcr (b : Nat) (v : Long) (c : Ccr) : Ccr.Keeps .zOnly c (bitCcr b v c) := by
  simp [Ccr.Keeps, bitCcr, FlagSet.zOnly]

theorem does_bitTest (num : Nat) (ea : EA) (k : Nat) (hr : ∀ r ∈ EA.stepped ea, p.r r) (hf : p.f = .zOnly) :
    Does p P s (bitTest num ea k) :=
  (does_readEa hP _ _ _ hr).bind fun _ _ _ => does_modifyCcr _ fun c => by rw [hf]; exact keeps_bitCcr _ _ _

theorem does_bitChange (num : Nat) (ea : EA) (k : Nat) (f : Long → Long → Long)
    (hI : Alterable ea ∨ P .illegalInstruction) (hr : ∀ r ∈ EA.dest ea, p.r r) (hf : p.f = .zOnly) (hs : ∀ j ∈ opSpan (bitSize ea) ea k s, p.st j) : Does p P s (bitChange num ea k f) :=
  does_rmwEaFlagsFirst hP _ _ _ _ hI hr (fun _ c => by rw [hf]; exact keeps_bitCcr _ _ _) hs

omit hP in
/-- A bit field's operand: a data register or memory. -/
def FieldMode (ea : EA) : Prop := (∃ n, ea = .dreg n) ∨ InMemory ea

theorem does_bfLocate (bf : BfSpec) (ea : EA) (hI : FieldMode ea ∨ P .illegalInstruction)
    (hr : ∀ r ∈ EA.stepped ea, p.r r) : Does p P s (bfLocate bf ea) := by
  refine does_get.bind fun s _ _ => ?_
  cases ea with
  | dreg y => exact does_pure _
  | areg n | ind n | postinc n | predec n | disp n d | index n x | absW a | absL a | pcDisp d | pcIndex x
  | imm v => exact (does_addrOf hP _ _ (hI.imp_left fun h => h.resolve_left (by simp)) hr).bind fun _ _ _ => does_pure _

theorem does_bfRead (f : BitField) : Does p P s (bfRead f) := by
  rcases f with ⟨home, _, _, _, _⟩
  cases home with
  | reg y rot => exact (does_readD _).bind fun _ _ _ => does_pure _
  | mem base n => exact does_memRead hP _ _

omit hP in
/-- A field's home is the operand's data register, or bytes of memory. -/
theorem bfLocate_home {bf : BfSpec} {ea : EA} {s t : State} {f : BitField} (h : bfLocate bf ea s = .ok f t)
    {y : RegNo} {rot : Nat} (hf : f.home = .reg y rot) : ea = .dreg y := by
  cases ea with
  | dreg n =>
    obtain ⟨_, _, h1, h⟩ := bind_ok h
    obtain ⟨rfl, _⟩ := pure_ok h
    cases hf; rfl
  | areg n | ind n | postinc n | predec n | disp n d | index n x | absW a | absL a | pcDisp d | pcIndex x
  | imm v =>
    obtain ⟨_, _, h1, h⟩ := bind_ok h
    obtain ⟨_, _, h2, h⟩ := bind_ok h
    obtain ⟨rfl, _⟩ := pure_ok h
    cases hf

theorem does_bfWrite (f : BitField) (v : Nat) (hr : ∀ y rot, f.home = .reg y rot → p.r (.d y))
    (hs : ∀ j ∈ f.span, p.st j) : Does p P s (bfWrite f v) := by
  rcases f with ⟨home, _, _, _, _⟩
  cases home with
  | reg y rot => exact does_putD _ _ (hr _ _ rfl)
  | mem base n => exact does_memWrite hP _ _ _ hs

theorem does_bfToReg (bf : BfSpec) (ea : EA) (dn : RegNo) (g : BitField → Nat → Long)
    (hI : FieldMode ea ∨ P .illegalInstruction) (hr : ∀ r ∈ .d dn :: EA.stepped ea, p.r r) (hf : p.f = .nzvc) : Does p P s (bfToReg bf ea dn g) :=
  (does_bfLocate hP _ _ hI fun r h => hr r (List.mem_cons_of_mem _ h)).bind fun _ _ _ =>
    (does_bfRead hP _).bind fun _ _ _ => (does_putD _ _ (hr _ List.mem_cons_self)).bind fun _ _ _ =>
      does_modifyCcr _ fun _ => by rw [hf]; exact Ccr.keeps_nzvc rfl

omit hP in
theorem bfHome_permitted {bf : BfSpec} {ea : EA} {s t : State} {f : BitField} (h : bfLocate bf ea s = .ok f t)
    (hr : ∀ r ∈ EA.dest ea, p.r r) : ∀ y rot, f.home = .reg y rot → p.r (.d y) := fun y rot hy =>
  hr _ (by simp [bfLocate_home h hy, EA.dest, EA.regs])

theorem does_bfChange (bf : BfSpec) (ea : EA) (g : BitField → Nat → Nat)
    (hI : FieldMode ea ∨ P .illegalInstruction) (hr : ∀ r ∈ EA.dest ea, p.r r)
    (hf : p.f = .nzvc) (hs : ∀ j ∈ afterOk (bfLocate bf ea s) fun f _ => f.span, p.st j) :
    Does p P s (bfChange bf ea g) :=
  (does_bfLocate hP _ _ hI fun r h => hr r (by simp [EA.dest, h])).bind fun _ _ h =>
    (does_bfRead hP _).bind fun _ _ _ =>
      (does_modifyCcr _ fun _ => by rw [hf]; exact Ccr.keeps_nzvc rfl).bind fun _ _ _ =>
        does_bfWrite hP _ _ (bfHome_permitted h hr) (by simpa [h, afterOk] using hs)

theorem does_bfInsert (bf : BfSpec) (dn : RegNo) (ea : EA) (hI : FieldMode ea ∨ P .illegalInstruction)
    (hr : ∀ r ∈ EA.dest ea, p.r r) (hf : p.f = .nzvc)
    (hs : ∀ j ∈ afterOk (bfLocate bf ea s) fun f _ => f.span, p.st j) :
    Does p P s (do
      let x ← readD dn
      let f ← bfLocate bf ea
      let v ← bfRead f
      bfWrite f (f.replace v (x.toNat % 2 ^ f.width))
      modifyCcr (fieldCcr f.width (x.toNat % 2 ^ f.width))) :=
  (does_readD _).bind fun _ _ h0 => by
    cases h0
    exact (does_bfLocate hP _ _ hI fun r h => hr r (by simp [EA.dest, h])).bind fun _ _ h =>
      (does_bfRead hP _).bind fun _ _ _ =>
        (does_bfWrite hP _ _ (bfHome_permitted h hr) (by simpa [h, afterOk] using hs)).bind fun _ _ _ =>
          does_modifyCcr _ fun _ => by rw [hf]; exact Ccr.keeps_nzvc rfl

theorem does_moveData (sz : Size) (src dst : EA) (hI : Alterable dst ∨ P .illegalInstruction)
    (hr : ∀ r ∈ EA.stepped src ++ EA.dest dst, p.r r)
    (hf : p.f = .nzvc) (hs : ∀ j ∈ moveSpan sz src dst s, p.st j) : Does p P s (moveData sz src dst) :=
  (does_readEa hP _ _ _ fun r h => hr r (List.mem_append_left _ h)).bind fun _ _ h =>
    (does_writeEa hP _ _ _ _ hI (fun r h => hr r (List.mem_append_right _ h))
      (by simpa [moveSpan, h, afterOk] using hs)).bind fun _ _ _ =>
        does_modifyCcr _ fun _ => by rw [hf]; exact keeps_logicCcr _ _ _

theorem does_moveAddress (sz : Size) (src : EA) (an : RegNo) (hr : ∀ r ∈ .a an :: EA.stepped src, p.r r) :
    Does p P s (moveAddress sz src an) :=
  (does_readEa hP _ _ _ fun r h => hr r (List.mem_cons_of_mem _ h)).bind fun _ _ _ =>
    does_putASized _ _ _ (hr _ List.mem_cons_self)

omit hP in
theorem does_exchange (x y : RegSel) (hr : ∀ r ∈ [x, y], p.r r) : Does p P s (exchange x y) :=
  (does_readR _).bind fun _ _ _ => (does_readR _).bind fun _ _ _ =>
    (does_putR _ _ (hr _ (by simp))).bind fun _ _ _ => does_putR _ _ (hr _ (by simp))

theorem does_storeUp (sz : Size) (rs : List RegSel) (a : Addr) (hs : ∀ j ∈ upSpan sz rs.length a, p.st j) :
    Does p P s (storeUp sz rs a) := by
  induction rs generalizing a s with
  | nil => exact does_pure _
  | cons r rs ih =>
    simp only [List.length_cons, upSpan, List.mem_append] at hs
    exact (does_readR _).bind fun _ _ _ =>
      (does_memWriteSized hP _ _ _ fun j hj => hs j (.inl hj)).bind fun _ _ _ => ih _ fun j hj => hs j (.inr hj)

theorem does_storeDown (sz : Size) (n : RegNo) (rs : List RegSel) (a : Addr)
    (hs : ∀ j ∈ downSpan sz rs.length a, p.st j) : Does p P s (storeDown sz n rs a) := by
  induction rs generalizing a s with
  | nil => exact does_pure _
  | cons r rs ih =>
    simp only [List.length_cons, downSpan, List.mem_append] at hs
    exact (does_readR _).bind fun _ _ _ => (does_drawIf _ _ _ _).bind fun _ _ _ =>
      (does_memWriteSized hP _ _ _ fun j hj => hs j (.inl hj)).bind fun _ _ _ => ih _ fun j hj => hs j (.inr hj)

theorem does_loadUp (sz : Size) (rs : List RegSel) (a : Addr) (hr : ∀ r ∈ rs, p.r r) :
    Does p P s (loadUp sz rs a) := by
  induction rs generalizing a s with
  | nil => exact does_pure _
  | cons r rs ih =>
    exact (does_memReadSized hP _ _).bind fun _ _ _ =>
      (does_putR _ _ (hr _ List.mem_cons_self)).bind fun _ _ _ => ih _ fun r h => hr r (List.mem_cons_of_mem _ h)

theorem does_movemStore (sz : Size) (mask : BitVec 16) (dst : EA)
    (hI : InMemory dst ∨ P .illegalInstruction) (hr : ∀ r ∈ EA.stepped dst, p.r r)
    (hs : ∀ j ∈ movemSpan sz mask dst s, p.st j) : Does p P s (movemStore sz mask dst) := by
  cases dst with
  | predec n =>
    exact (does_readA _).bind fun _ _ h => by
      cases h
      exact (does_storeDown hP _ _ _ _ hs).bind fun _ _ _ => does_putA _ _ (hr _ (by simp [EA.stepped]))
  | dreg n | areg n | ind n | postinc n | disp n d | index n x | absW a | absL a | pcDisp d | pcIndex x
  | imm v =>
    exact (does_addrOf hP _ _ hI hr).bind fun _ _ h => does_storeUp hP _ _ _ (by simpa [movemSpan, h, afterOk] using hs)

theorem does_movemLoad (sz : Size) (mask : BitVec 16) (src : EA) (hI : InMemory src ∨ P .illegalInstruction)
    (hr : ∀ r ∈ EA.stepped src ++ maskRegs mask, p.r r) : Does p P s (movemLoad sz mask src) := by
  have h1 : ∀ r ∈ EA.stepped src, p.r r := fun r h => hr r (List.mem_append_left _ h)
  have h2 : ∀ r ∈ maskRegs mask, p.r r := fun r h => hr r (List.mem_append_right _ h)
  cases src with
  | postinc n =>
    exact (does_readA _).bind fun _ _ _ => (does_loadUp hP _ _ _ h2).bind fun _ _ _ =>
      does_putA _ _ (h1 _ (by simp [EA.stepped]))
  | dreg n | areg n | ind n | predec n | disp n d | index n x | absW a | absL a | pcDisp d | pcIndex x
  | imm v =>
    exact (does_addrOf hP _ _ hI h1).bind fun _ _ _ => (does_loadUp hP _ _ _ h2).bind fun _ _ _ => does_pure _

theorem does_readSpread (n : Nat) (a : Addr) : Does p P s (readSpread n a) := by
  induction n generalizing a s with
  | zero => exact does_pure _
  | succ n ih => exact (does_memRead hP _ _).bind fun _ _ _ => (ih _).bind fun _ _ _ => does_pure _

theorem does_writeSpread (n : Nat) (a : Addr) (v : Nat) (hs : ∀ j ∈ spreadSpan n a, p.st j) :
    Does p P s (writeSpread n a v) := by
  induction n generalizing a s with
  | zero => exact does_pure _
  | succ n ih =>
    simp only [spreadSpan, List.mem_append] at hs
    exact (does_memWrite hP _ _ _ fun j hj => hs j (.inl hj)).bind fun _ _ _ => ih _ fun j hj => hs j (.inr hj)

theorem does_mulWord (signed : Bool) (src : EA) (dn : RegNo) (hr : ∀ r ∈ .d dn :: EA.stepped src, p.r r)
    (hf : p.f = .nzvc) : Does p P s (mulWord signed src dn) :=
  (does_readEa hP _ _ _ fun r h => hr r (List.mem_cons_of_mem _ h)).bind fun _ _ _ => (does_readD _).bind fun _ _ _ =>
    (does_putD _ _ (hr _ List.mem_cons_self)).bind fun _ _ _ =>
      does_modifyCcr _ fun _ => by rw [hf]; exact keeps_logicCcr _ _ _

omit hP in
theorem does_putProduct (dh dl : RegNo) (v : Int) (h1 : p.r (.d dl)) (h2 : p.r (.d dh)) :
    Does p P s (putProduct dh dl v) :=
  does_ite (fun _ => does_drawLong.bind fun _ _ _ => does_putD _ _ h1)
    fun _ => (does_putD _ _ h2).bind fun _ _ _ => does_putD _ _ h1

theorem does_mulLong (signed : Bool) (dl : RegNo) (form : Product) (src : EA)
    (hr : ∀ r ∈ writesRegs (.muluL dl form src), p.r r) (hf : p.f = .nzvc) :
    Does p P s (mulLong signed dl form src) := by
  have h1 : ∀ r ∈ EA.stepped src, p.r r := fun r h => hr r (by cases form <;> simp [writesRegs, h])
  have h2 : p.r (.d dl) := hr _ (by cases form <;> simp [writesRegs])
  refine (does_readEa hP _ _ _ h1).bind fun _ _ _ => (does_readD _).bind fun _ _ _ => ?_
  cases form with
  | narrow =>
    exact (does_putD _ _ h2).bind fun _ _ _ => does_modifyCcr _ fun _ => by rw [hf]; exact Ccr.keeps_nzvc rfl
  | wide dh =>
    exact (does_putProduct _ _ _ h2 (hr _ (by simp [writesRegs]))).bind fun _ _ _ =>
      does_modifyCcr _ fun _ => by rw [hf]; exact Ccr.keeps_nzvc rfl

omit hP in
theorem does_divide (hD : P .divideByZero) (signed : Bool) (dvd dvs : Int) (qw : Nat) (hf : p.f = .nzvc) :
    Does p P s (divide signed dvd dvs qw) :=
  have hk : ∀ old new : Ccr, new.x = old.x → Ccr.Keeps p.f old new := fun _ _ h => by
    rw [hf]; exact Ccr.keeps_nzvc h
  does_ite
    (fun _ => does_drawBit.bind fun _ _ _ => does_drawBit.bind fun _ _ _ => does_drawBit.bind fun _ _ _ =>
      (does_modifyCcr _ fun _ => by exact hk _ _ rfl).bind fun _ _ _ => does_raise hD)
    fun _ => does_ite
      (fun _ => does_drawBit.bind fun _ _ _ => does_drawBit.bind fun _ _ _ =>
        (does_modifyCcr _ fun _ => by exact hk _ _ rfl).bind fun _ _ _ => does_pure _)
      fun _ => (does_modifyCcr _ fun _ => by exact hk _ _ rfl).bind fun _ _ _ => does_pure _

theorem does_divWord16 (hD : P .divideByZero) (signed : Bool) (src : EA) (dn : RegNo)
    (hr : ∀ r ∈ .d dn :: EA.stepped src, p.r r) (hf : p.f = .nzvc) : Does p P s (divWord16 signed src dn) := by
  refine (does_readEa hP _ _ _ fun r h => hr r (List.mem_cons_of_mem _ h)).bind fun _ _ _ =>
    (does_readD _).bind fun _ _ _ => (does_divide hD _ _ _ _ hf).bind fun res _ _ => ?_
  cases res with
  | none => exact does_pure _
  | some qr => exact does_putD _ _ (hr _ List.mem_cons_self)

theorem does_divLong (hD : P .divideByZero) (signed : Bool) (dq : RegNo) (wide : Bool) (dr : RegNo) (src : EA)
    (hr : ∀ r ∈ .d dq :: .d dr :: EA.stepped src, p.r r) (hf : p.f = .nzvc) :
    Does p P s (divLong signed dq wide dr src) := by
  have h1 : p.r (.d dq) := hr _ (by simp)
  have h2 : p.r (.d dr) := hr _ (by simp)
  refine (does_readEa hP _ _ _ fun r h => hr r (by simp [h])).bind fun _ _ _ => (does_readD _).bind fun _ _ _ =>
    (does_readD _).bind fun _ _ _ => (does_divide hD _ _ _ _ hf).bind fun res _ _ => ?_
  cases res with
  | none => exact does_pure _
  | some qr =>
    exact does_ite
      (fun _ => does_ite (fun _ => does_drawLong.bind fun _ _ _ => does_putD _ _ h1) fun _ => does_putD _ _ h1)
      fun _ => (does_putD _ _ h2).bind fun _ _ _ => does_putD _ _ h1

theorem does_link (an : RegNo) (disp : Long) (hr : ∀ r ∈ [.a spReg, .a an], p.r r)
    (hs : ∀ j ∈ pushSpan s, p.st j) : Does p P s (link an disp) := by
  have h1 : p.r (.a spReg) := hr _ (by simp)
  have h2 : p.r (.a an) := hr _ (by simp)
  refine (does_readA _).bind fun _ _ e1 => ?_
  cases e1
  refine (does_readA _).bind fun _ _ _ => (does_drawIf _ _ _ _).bind fun _ _ _ => ?_
  exact (does_memWriteSized hP .l _ _ hs).bind fun _ _ _ => (does_putA _ _ h1).bind fun _ _ _ =>
    (does_putA _ _ h2).bind fun _ _ _ => (does_readA _).bind fun _ _ _ => does_putA _ _ h1

omit hP in
theorem does_bcdCompute (f : Nat → Nat → Bool → Nat × Bool) (d x : Long) : Does p P s (bcdCompute f d x) :=
  does_readCcr.bind fun _ _ _ => does_ite (fun _ => does_pure _)
    fun _ => does_drawByte.bind fun _ _ _ => does_drawBit.bind fun _ _ _ => does_pure _

omit hP in
theorem does_bcdFlags (r : Long) (c : Bool) (hf : p.f = .all) : Does p P s (bcdFlags r c) :=
  does_drawBit.bind fun _ _ _ => does_drawBit.bind fun _ _ _ =>
    does_modifyCcr _ fun _ => by rw [hf]; exact Ccr.keeps_all _ _

theorem does_bcdOp (f : Nat → Nat → Bool → Nat × Bool) (mem : Bool) (x y : RegNo)
    (hr : ∀ r ∈ extendedRegs mem x y, p.r r) (hf : p.f = .all)
    (hs : ∀ j ∈ extendedSpan .b mem x y s, p.st j) : Does p P s (bcdOp f mem x y) := by
  refine does_ite (fun hm => ?_) fun hm => ?_
  · subst hm
    have hx : ∀ r ∈ EA.stepped (.predec x), p.r r := fun r h => hr r (by simp_all [EA.stepped, extendedRegs])
    refine (does_readEa hP _ _ _ fun r h => hr r (by simp_all [EA.stepped, extendedRegs])).bind fun _ _ h => ?_
    refine (does_resolve hP _ _ _ hx).bind fun _ _ h' => ?_
    refine (does_readOp hP _ (resolve_operandOf h') hx).bind fun _ _ _ => (does_bcdCompute _ _ _).bind fun _ _ _ => ?_
    refine (does_writeBack hP _ _ (ea := .predec x) (resolve_operandOf h') (.inl trivial) (by simp [EA.regs]) ?_).bind fun _ _ _ =>
      does_bcdFlags _ _ hf
    rw [← opSpan_of_resolve h']
    simpa [extendedSpan, h, afterOk] using hs
  · exact (does_readDLow _ _).bind fun _ _ _ => (does_readDLow _ _).bind fun _ _ _ =>
      (does_bcdCompute _ _ _).bind fun _ _ _ =>
        (does_putDLow _ _ _ (hr _ (by simp [extendedRegs, hm]))).bind fun _ _ _ => does_bcdFlags _ _ hf

theorem does_nbcd (dst : EA) (hI : Alterable dst ∨ P .illegalInstruction) (hr : ∀ r ∈ EA.dest dst, p.r r) (hf : p.f = .all)
    (hs : ∀ j ∈ opSpan .b dst 1 s, p.st j) : Does p P s (do
      let op ← resolve .b dst 1
      let d ← readOp .b op
      let r ← bcdCompute bcdSub 0 d
      writeBack .b op r.1
      bcdFlags r.1 r.2) :=
  have hr1 : ∀ r ∈ EA.stepped dst, p.r r := fun r h => hr r (by simp [EA.dest, h])
  have hr2 : ∀ r ∈ EA.regs dst, p.r r := fun r h => hr r (by simp [EA.dest, h])
  (does_resolve hP _ _ _ hr1).bind fun _ _ h => (does_readOp hP _ (resolve_operandOf h) hr1).bind fun _ _ _ =>
    (does_bcdCompute _ _ _).bind fun _ _ _ =>
      (does_writeBack hP _ _ (resolve_operandOf h) hI hr2 (opSpan_of_resolve h ▸ hs)).bind fun _ _ _ =>
        does_bcdFlags _ _ hf

theorem does_checkBound (hC : P .chk) (sz : Size) (src : EA) (dn : RegNo) (hr : ∀ r ∈ EA.stepped src, p.r r)
    (hf : p.f = .nzvc) : Does p P s (checkBound sz src dn) :=
  (does_readEa hP _ _ _ hr).bind fun _ _ _ => (does_readD _).bind fun _ _ _ => does_drawBit.bind fun _ _ _ =>
    does_drawBit.bind fun _ _ _ => does_drawBit.bind fun _ _ _ => does_drawBit.bind fun _ _ _ =>
      (does_modifyCcr _ fun _ => by rw [hf]; exact Ccr.keeps_nzvc rfl).bind fun _ _ _ =>
        does_ite (fun _ => does_raise hC) fun _ => does_pure _

theorem does_checkReadWrite (a : Addr) (n : Nat) : Does p P s (checkReadWrite a n) :=
  (does_checkAccess hP (by simp) _ _).bind fun _ _ _ => does_checkAccess hP (by simp) _ _

theorem does_checkTas (op : Operand) : Does p P s (checkTas op) := by
  cases op with
  | mem a post => exact does_checkReadWrite hP _ _
  | dreg n | areg n | imm v => exact does_pure _

theorem does_checkCas (sz : Size) {ea : EA} {op : Operand} (ho : OperandOf ea op)
    (hI : InMemory ea ∨ P .illegalInstruction) : Does p P s (checkCas sz op) := by
  cases op with
  | mem a post => exact does_checkReadWrite hP _ _
  | dreg n => exact hI.elim (fun h => absurd h (by simp [show ea = .dreg n from ho, InMemory])) does_raise
  | areg n => exact hI.elim (fun h => absurd h (by simp [show ea = .areg n from ho, InMemory])) does_raise
  | imm v => exact hI.elim (fun h => absurd h (by simp [show ea = .imm v from ho, InMemory])) does_raise

theorem does_testAndSet (dst : EA) (hI : Alterable dst ∨ P .illegalInstruction) (hr : ∀ r ∈ EA.dest dst, p.r r) (hf : p.f = .nzvc)
    (hs : ∀ j ∈ opSpan .b dst 1 s, p.st j) : Does p P s (testAndSet dst) :=
  have hr1 : ∀ r ∈ EA.stepped dst, p.r r := fun r h => hr r (by simp [EA.dest, h])
  have hr2 : ∀ r ∈ EA.regs dst, p.r r := fun r h => hr r (by simp [EA.dest, h])
  (does_resolve hP _ _ _ hr1).bind fun _ _ h => (does_checkTas hP _).bind fun _ _ _ =>
    (does_readOp hP _ (resolve_operandOf h) hr1).bind fun _ _ _ =>
      (does_modifyCcr _ fun _ => by rw [hf]; exact keeps_logicCcr _ _ _).bind fun _ _ _ =>
        does_writeBack hP _ _ (resolve_operandOf h) hI hr2 (opSpan_of_resolve h ▸ hs)

theorem does_compareAndSwap (sz : Size) (dc du : RegNo) (dst : EA) (hM : InMemory dst ∨ P .illegalInstruction)
    (hr : ∀ r ∈ .d dc :: EA.dest dst, p.r r)
    (hf : p.f = .nzvc) (hs : ∀ j ∈ opSpan sz dst 2 s, p.st j) : Does p P s (compareAndSwap sz dc du dst) :=
  have hI : Alterable dst ∨ P .illegalInstruction := hM.imp_left alterable_of_inMemory
  have hr1 : ∀ r ∈ EA.stepped dst, p.r r := fun r h => hr r (by simp [EA.dest, h])
  have hr2 : ∀ r ∈ EA.regs dst, p.r r := fun r h => hr r (by simp [EA.dest, h])
  (does_resolve hP _ _ _ hr1).bind fun _ _ h => (does_checkCas hP _ (resolve_operandOf h) hM).bind fun _ _ _ =>
    (does_readOp hP _ (resolve_operandOf h) hr1).bind fun _ _ _ => (does_readDLow _ _).bind fun _ _ _ =>
      (does_modifyCcr _ fun _ => by rw [hf]; exact keeps_compareCcr _ _).bind fun _ _ _ =>
        does_readCcr.bind fun _ _ _ => does_ite
          (fun _ => (does_readDLow _ _).bind fun _ _ _ =>
            does_writeBack hP _ _ (resolve_operandOf h) hI hr2 (opSpan_of_resolve h ▸ hs))
          fun _ => does_putDLow _ _ _ (hr _ List.mem_cons_self)

omit hP in
theorem does_compareSecond (sz : Size) (v c : Long) (hf : p.f = .nzvc) : Does p P s (compareSecond sz v c) :=
  does_readCcr.bind fun _ _ _ => does_ite
    (fun _ => does_modifyCcr _ fun _ => by rw [hf]; exact keeps_compareCcr _ _) fun _ => does_pure _

theorem does_cas2Store (sz : Size) (a1 a2 : Addr) (du1 du2 : RegNo) (h1 : ∀ j ∈ byteAddrs a1 sz.bytes, p.st j)
    (h2 : ∀ j ∈ byteAddrs a2 sz.bytes, p.st j) : Does p P s (cas2Store sz a1 a2 du1 du2) :=
  (does_readDLow _ _).bind fun _ _ _ => (does_readDLow _ _).bind fun _ _ _ =>
    (does_memWriteSized hP _ _ _ h1).bind fun _ _ _ => does_memWriteSized hP _ _ _ h2

omit hP in
theorem does_cas2Load (sz : Size) (dc1 dc2 : RegNo) (v1 v2 : Long) (h1 : p.r (.d dc1)) (h2 : p.r (.d dc2)) :
    Does p P s (cas2Load sz dc1 dc2 v1 v2) :=
  does_ite (fun _ => (does_drawFrom _ _).bind fun _ _ _ => does_putDLow _ _ _ h1)
    fun _ => (does_putDLow _ _ _ h1).bind fun _ _ _ => does_putDLow _ _ _ h2

theorem does_compareAndSwap2 (sz : Size) (o1 o2 : Cas2Operand) (hr : ∀ r ∈ [.d o1.dc, .d o2.dc], p.r r)
    (hf : p.f = .nzvc) (h1 : ∀ j ∈ byteAddrs (s.getR o1.rn) sz.bytes, p.st j)
    (h2 : ∀ j ∈ byteAddrs (s.getR o2.rn) sz.bytes, p.st j) : Does p P s (compareAndSwap2 sz o1 o2) := by
  refine (does_readR _).bind fun _ _ e1 => ?_
  cases e1
  refine (does_readR _).bind fun _ _ e2 => ?_
  cases e2
  exact (does_checkAccess hP (by simp) _ _).bind fun _ _ _ => (does_checkAccess hP (by simp) _ _).bind fun _ _ _ =>
    (does_checkAccess hP (by simp) _ _).bind fun _ _ _ => (does_checkAccess hP (by simp) _ _).bind fun _ _ _ =>
    (does_memReadSized hP _ _).bind fun _ _ _ => (does_memReadSized hP _ _).bind fun _ _ _ =>
    (does_readDLow _ _).bind fun _ _ _ => (does_readDLow _ _).bind fun _ _ _ =>
    (does_modifyCcr _ fun _ => by rw [hf]; exact keeps_compareCcr _ _).bind fun _ _ _ =>
    (does_compareSecond _ _ _ hf).bind fun _ _ _ => does_readCcr.bind fun _ _ _ =>
      does_ite (fun _ => does_cas2Store hP _ _ _ _ _ h1 h2)
        fun _ => does_cas2Load _ _ _ _ _ (hr _ (by simp)) (hr _ (by simp))

theorem does_pack (mem : Bool) (x y : RegNo) (adj : BitVec 16)
    (hr : ∀ r ∈ (if mem then [.a x, .a y] else [.d y] : List RegSel), p.r r)
    (hs : ∀ j ∈ packSpan mem x y s, p.st j) : Does p P s (
      if mem then do
        let lo ← readEa .b (.predec x) 2
        let hi ← readEa .b (.predec x) 2
        writeEa .b (.predec y) 2 (packByte (hi.extractLsb' 0 8 ++ lo.extractLsb' 0 8 + adj))
      else do
        let d ← readD x
        putDLow y .b (packByte (d.extractLsb' 0 16 + adj))) := by
  refine does_ite (fun hm => ?_) fun hm => ?_
  · subst hm
    have hx : ∀ r ∈ EA.stepped (.predec x), p.r r := fun r h => hr r (by simp_all [EA.stepped])
    refine (does_readEa hP _ _ _ hx).bind fun _ _ e1 => (does_readEa hP _ _ _ hx).bind fun _ _ e2 => ?_
    refine does_writeEa hP _ (.predec y) _ _ (.inl trivial) (fun r h => hr r ?_) (by simpa [packSpan, e1, e2, afterOk] using hs)
    simp_all [EA.dest, EA.stepped, EA.regs]
  · exact (does_readD _).bind fun _ _ _ => does_putDLow _ _ _ (hr _ (by simp [hm]))

theorem does_unpk (mem : Bool) (x y : RegNo) (adj : BitVec 16)
    (hr : ∀ r ∈ (if mem then [.a x, .a y] else [.d y] : List RegSel), p.r r)
    (hs : ∀ j ∈ unpkSpan mem x y adj s, p.st j) : Does p P s (
      if mem then do
        let b ← readEa .b (.predec x) 2
        writeEa .b (.predec y) 2 (((unpackWord b adj).extractLsb' 0 8).setWidth 32)
        writeEa .b (.predec y) 2 (((unpackWord b adj).extractLsb' 8 8).setWidth 32)
      else do
        let d ← readD x
        putDLow y .w ((unpackWord d adj).setWidth 32)) := by
  refine does_ite (fun hm => ?_) fun hm => ?_
  · subst hm
    have hx : ∀ r ∈ EA.stepped (.predec x), p.r r := fun r h => hr r (by simp_all [EA.stepped])
    have hy : ∀ r ∈ EA.dest (.predec y), p.r r := fun r h => hr r (by simp_all [EA.dest, EA.stepped, EA.regs])
    refine (does_readEa hP _ _ _ hx).bind fun _ _ e1 => ?_
    simp only [unpkSpan, e1, afterOk, if_true, List.mem_append] at hs
    refine (does_writeEa hP _ (.predec y) _ _ (.inl trivial) hy fun j hj => hs j (.inl hj)).bind fun _ _ e2 => ?_
    rw [e2] at hs
    exact does_writeEa hP _ (.predec y) _ _ (.inl trivial) hy fun j hj => hs j (.inr hj)
  · exact (does_readD _).bind fun _ _ _ => does_putDLow _ _ _ (hr _ (by simp [hm]))

end

/-! ### Every instruction -/

theorem mayRaise_access (i : Instr) : ∀ e, AccessRaise e → MayRaise i e := fun _ => .inl

/-- An instruction is well formed, or may raise IllegalInstruction. -/
theorem wf_or_illegal (i : Instr) : Instr.wf i = true ∨ MayRaise i .illegalInstruction := by
  cases h : Instr.wf i with
  | true => exact .inl rfl
  | false => exact .inr (.inr (.inr ⟨h, rfl⟩))

/-- A well-formed operand of a class without #imm can be written. -/
theorem alterable_of_wf {ea : EA} {sz : Size} {cls : EaClass} (h : EA.wf sz cls ea = true)
    (hc : cls.admits .imm = false) : Alterable ea := by
  cases ea <;> first | trivial | simp_all [EA.wf, EA.mode]

/-- A well-formed operand of a class of memory modes is in memory. -/
theorem inMemory_of_wf {ea : EA} {sz : Size} {cls : EaClass} (h : EA.wf sz cls ea = true)
    (hc : cls.admits .imm = false ∧ cls.admits .dn = false ∧ cls.admits .an = false) : InMemory ea := by
  cases ea <;> first | trivial | simp_all [EA.wf, EA.mode]

/-- A well-formed operand of a bit-field class is a data register or in memory. -/
theorem fieldMode_of_wf {ea : EA} {sz : Size} {cls : EaClass} (h : EA.wf sz cls ea = true)
    (hc : cls.admits .imm = false ∧ cls.admits .an = false) : FieldMode ea := by
  cases ea <;> first | exact .inr trivial | exact .inl ⟨_, rfl⟩ | simp_all [EA.wf, EA.mode]

/-- The right conjunct of a well-formedness check. -/
theorem wf_right {a b : Bool} (h : (a && b) = true) : b = true := by simp_all

/-- What instruction `i` may write at state `s`. -/
def permOf (i : Instr) (s : State) : Perm where
  r := fun r => r ∈ writesRegs i
  f := writesFlags i
  st := fun j => j ∈ storeSpan i s

/-- THE INVERSION OF `exec`: whatever the state, an instruction completes inside what it may write, or takes an
exception it may raise with the effects made before it. It is never refused and never faults. -/
theorem answers_exec (i : Instr) (s : State) : Answers (permOf i s) (MayRaise i) i s (exec i s) := by
  have hP := mayRaise_access i
  have hI := wf_or_illegal i
  cases i with
  | ori sz imm dst => exact answers_runSeq (does_rmwEa hP _ _ _ _ (hI.imp_left fun h => alterable_of_wf (wf_right h) rfl) (fun _ h => h) (fun _ _ => keeps_logicCcr _ _ _) (fun _ h => h))
  | oriToCcr imm =>
    show Answers _ _ _ _ (execOriToCcr imm s)
    unfold execOriToCcr
    exact answers_runSeq (does_modifyCcr _ fun _ => Ccr.keeps_all _ _)
  | oriToSr => exact answers_runSeq (does_raise (.inr (.inl rfl)))
  | andi sz imm dst => exact answers_runSeq (does_rmwEa hP _ _ _ _ (hI.imp_left fun h => alterable_of_wf (wf_right h) rfl) (fun _ h => h) (fun _ _ => keeps_logicCcr _ _ _) (fun _ h => h))
  | andiToCcr imm =>
    show Answers _ _ _ _ (execAndiToCcr imm s)
    unfold execAndiToCcr
    exact answers_runSeq (does_modifyCcr _ fun _ => Ccr.keeps_all _ _)
  | andiToSr => exact answers_runSeq (does_raise (.inr (.inl rfl)))
  | eori sz imm dst => exact answers_runSeq (does_rmwEa hP _ _ _ _ (hI.imp_left fun h => alterable_of_wf (wf_right h) rfl) (fun _ h => h) (fun _ _ => keeps_logicCcr _ _ _) (fun _ h => h))
  | eoriToCcr imm =>
    show Answers _ _ _ _ (execEoriToCcr imm s)
    unfold execEoriToCcr
    exact answers_runSeq (does_modifyCcr _ fun _ => Ccr.keeps_all _ _)
  | eoriToSr => exact answers_runSeq (does_raise (.inr (.inl rfl)))
  | subi sz imm dst => exact answers_runSeq (does_rmwEa hP _ _ _ _ (hI.imp_left fun h => alterable_of_wf (wf_right h) rfl) (fun _ h => h) (fun _ _ => Ccr.keeps_all _ _) (fun _ h => h))
  | addi sz imm dst => exact answers_runSeq (does_rmwEa hP _ _ _ _ (hI.imp_left fun h => alterable_of_wf (wf_right h) rfl) (fun _ h => h) (fun _ _ => Ccr.keeps_all _ _) (fun _ h => h))
  | cmpi sz imm dst =>
    show Answers _ _ _ _ (execCmpi sz imm dst s)
    unfold execCmpi
    exact answers_runSeq ((does_readEa hP _ _ _ (fun _ h => h)).bind fun _ _ _ => does_modifyCcr _ fun _ => keeps_compareCcr _ _)
  | cmp2 sz rn src => exact answers_runSeq ((does_addrOf hP _ _ (hI.imp_left fun h => inMemory_of_wf h (by decide)) (fun _ h => h)).bind fun _ _ _ => does_boundsCheck hP _ _ _ rfl)
  | chk2 sz rn src =>
    show Answers _ _ _ _ (execChk2 sz rn src s)
    unfold execChk2
    exact answers_runSeq ((does_addrOf hP _ _ (hI.imp_left fun h => inMemory_of_wf h (by decide)) (fun _ h => h)).bind fun _ _ _ => (does_boundsCheck hP _ _ _ rfl).bind fun _ _ _ =>
      does_readCcr.bind fun _ _ _ => does_ite (fun _ => does_raise (.inr (.inl rfl))) fun _ => does_pure _)
  | rtm rn => exact answers_runSeq (does_raise (.inr (.inl rfl)))
  | callm arg src => exact answers_runSeq (does_raise (.inr (.inl rfl)))
  | btstImm num ea => exact answers_runSeq (does_bitTest hP _ _ _ (fun _ h => h) rfl)
  | btstReg dn ea => exact answers_runSeq ((does_readD _).bind fun _ _ _ => does_bitTest hP _ _ _ (fun _ h => h) rfl)
  | bchgImm num ea => exact answers_runSeq (does_bitChange hP _ _ _ _ (hI.imp_left fun h => alterable_of_wf h rfl) (fun _ h => h) rfl (fun _ h => h))
  | bchgReg dn ea => exact answers_runSeq ((does_readD _).bind fun _ _ h => by cases h; exact does_bitChange hP _ _ _ _ (hI.imp_left fun h => alterable_of_wf h rfl) (fun _ h => h) rfl (fun _ h => h))
  | bclrImm num ea => exact answers_runSeq (does_bitChange hP _ _ _ _ (hI.imp_left fun h => alterable_of_wf h rfl) (fun _ h => h) rfl (fun _ h => h))
  | bclrReg dn ea => exact answers_runSeq ((does_readD _).bind fun _ _ h => by cases h; exact does_bitChange hP _ _ _ _ (hI.imp_left fun h => alterable_of_wf h rfl) (fun _ h => h) rfl (fun _ h => h))
  | bsetImm num ea => exact answers_runSeq (does_bitChange hP _ _ _ _ (hI.imp_left fun h => alterable_of_wf h rfl) (fun _ h => h) rfl (fun _ h => h))
  | bsetReg dn ea => exact answers_runSeq ((does_readD _).bind fun _ _ h => by cases h; exact does_bitChange hP _ _ _ _ (hI.imp_left fun h => alterable_of_wf h rfl) (fun _ h => h) rfl (fun _ h => h))
  | movep toMem sz dx ay disp =>
    refine answers_runSeq ((does_readA _).bind fun _ _ h => ?_)
    cases h
    refine does_ite (fun hm => ?_) fun hm => ?_
    · refine (does_readD _).bind fun _ _ _ => does_writeSpread hP _ _ _ fun j hj => ?_
      simpa [permOf, storeSpan, hm] using hj
    · refine (does_readSpread hP _ _).bind fun _ _ _ => does_putDLow _ _ _ ?_
      simp [permOf, writesRegs, hm]
  | moves sz ea => exact answers_runSeq (does_raise (.inr (.inl rfl)))
  | casB dc du dst => exact answers_runSeq (does_compareAndSwap hP _ _ _ _ (hI.imp_left fun h => inMemory_of_wf h (by decide)) (fun _ h => h) rfl (fun _ h => h))
  | casW dc du dst => exact answers_runSeq (does_compareAndSwap hP _ _ _ _ (hI.imp_left fun h => inMemory_of_wf h (by decide)) (fun _ h => h) rfl (fun _ h => h))
  | casL dc du dst => exact answers_runSeq (does_compareAndSwap hP _ _ _ _ (hI.imp_left fun h => inMemory_of_wf h (by decide)) (fun _ h => h) rfl (fun _ h => h))
  | cas2W op1 op2 => exact answers_runSeq (does_compareAndSwap2 hP _ _ _ (fun _ h => h) rfl
      (fun _ h => List.mem_append_left _ h) (fun _ h => List.mem_append_right _ h))
  | cas2L op1 op2 => exact answers_runSeq (does_compareAndSwap2 hP _ _ _ (fun _ h => h) rfl
      (fun _ h => List.mem_append_left _ h) (fun _ h => List.mem_append_right _ h))
  | moveB src dst => exact answers_runSeq (does_moveData hP _ _ _ (hI.imp_left fun h => alterable_of_wf (wf_right h) rfl) (fun _ h => h) rfl (fun _ h => h))
  | moveW src dst => exact answers_runSeq (does_moveData hP _ _ _ (hI.imp_left fun h => alterable_of_wf (wf_right h) rfl) (fun _ h => h) rfl (fun _ h => h))
  | moveL src dst => exact answers_runSeq (does_moveData hP _ _ _ (hI.imp_left fun h => alterable_of_wf (wf_right h) rfl) (fun _ h => h) rfl (fun _ h => h))
  | moveaW src an => exact answers_runSeq (does_moveAddress hP _ _ _ (fun _ h => h))
  | moveaL src an => exact answers_runSeq (does_moveAddress hP _ _ _ (fun _ h => h))
  | negx sz dst => exact answers_runSeq (does_rmwEa hP _ _ _ _ (hI.imp_left fun h => alterable_of_wf h rfl) (fun _ h => h) (fun _ _ => Ccr.keeps_all _ _) (fun _ h => h))
  | clr sz dst =>
    show Answers _ _ _ _ (execClr sz dst s)
    unfold execClr
    exact answers_runSeq ((does_writeEa hP _ _ _ _ (hI.imp_left fun h => alterable_of_wf h rfl) (fun _ h => h) (fun _ h => h)).bind fun _ _ _ => does_modifyCcr _ fun _ => keeps_logicCcr _ _ _)
  | neg sz dst => exact answers_runSeq (does_rmwEa hP _ _ _ _ (hI.imp_left fun h => alterable_of_wf h rfl) (fun _ h => h) (fun _ _ => Ccr.keeps_all _ _) (fun _ h => h))
  | notEa sz dst => exact answers_runSeq (does_rmwEa hP _ _ _ _ (hI.imp_left fun h => alterable_of_wf h rfl) (fun _ h => h) (fun _ _ => keeps_logicCcr _ _ _) (fun _ h => h))
  | moveFromSr ea => exact answers_runSeq (does_raise (.inr (.inl rfl)))
  | moveFromCcr dst =>
    show Answers _ _ _ _ (execMoveFromCcr dst s)
    unfold execMoveFromCcr
    exact answers_runSeq (does_readCcr.bind fun _ _ h => by cases h; exact does_writeEa hP _ _ _ _ (hI.imp_left fun h => alterable_of_wf h rfl) (fun _ h => h) (fun _ h => h))
  | moveToCcr src => exact answers_runSeq ((does_readEa hP _ _ _ (fun _ h => h)).bind fun _ _ _ => does_putCcr _ (Ccr.keeps_all _ _))
  | moveToSr ea => exact answers_runSeq (does_raise (.inr (.inl rfl)))
  | chkW src dn => exact answers_runSeq (does_checkBound hP (.inr (.inl rfl)) _ _ _ (fun _ h => h) rfl)
  | chkL src dn => exact answers_runSeq (does_checkBound hP (.inr (.inl rfl)) _ _ _ (fun _ h => h) rfl)
  | lea src an => exact answers_runSeq ((does_addrOf hP _ _ (hI.imp_left fun h => inMemory_of_wf h (by decide)) fun _ h => List.mem_cons_of_mem _ h).bind fun _ _ _ => does_putA _ _ List.mem_cons_self)
  | nbcd dst =>
    show Answers _ _ _ _ (execNbcd dst s)
    unfold execNbcd
    exact answers_runSeq (does_nbcd hP _ (hI.imp_left fun h => alterable_of_wf h rfl) (fun _ h => h) rfl (fun _ h => h))
  | linkL an disp => exact answers_runSeq (does_link hP _ _ (fun _ h => h) (fun _ h => h))
  | swap dn =>
    show Answers _ _ _ _ (execSwap dn s)
    unfold execSwap
    exact answers_runSeq (does_updateD _ _ _ List.mem_cons_self fun _ _ => keeps_logicCcr _ _ _)
  | bkpt num => exact answers_runSeq (does_raise (.inr (.inl rfl)))
  | pea src =>
    refine answers_runSeq ((does_addrOf hP _ _ (hI.imp_left fun h => inMemory_of_wf h (by decide)) fun _ h => List.mem_cons_of_mem _ h).bind fun _ _ h => ?_)
    refine does_push hP _ List.mem_cons_self fun j hj => ?_
    simpa [permOf, storeSpan, h, afterOk] using hj
  | extW dn =>
    show Answers _ _ _ _ (execExtW dn s)
    unfold execExtW
    exact answers_runSeq (does_updateD _ _ _ List.mem_cons_self fun _ _ => keeps_logicCcr _ _ _)
  | extL dn =>
    show Answers _ _ _ _ (execExtL dn s)
    unfold execExtL
    exact answers_runSeq (does_updateD _ _ _ List.mem_cons_self fun _ _ => keeps_logicCcr _ _ _)
  | extbL dn =>
    show Answers _ _ _ _ (execExtbL dn s)
    unfold execExtbL
    exact answers_runSeq (does_updateD _ _ _ List.mem_cons_self fun _ _ => keeps_logicCcr _ _ _)
  | movemToMem sz mask dst => exact answers_runSeq (does_movemStore hP _ _ _ (hI.imp_left fun h => inMemory_of_wf (wf_right h) (by decide)) (fun _ h => h) (fun _ h => h))
  | movemToReg sz mask src => exact answers_runSeq (does_movemLoad hP _ _ _ (hI.imp_left fun h => inMemory_of_wf (wf_right h) (by decide)) (fun _ h => h))
  | tst sz src =>
    show Answers _ _ _ _ (execTst sz src s)
    unfold execTst
    exact answers_runSeq ((does_readEa hP _ _ _ (fun _ h => h)).bind fun _ _ _ => does_modifyCcr _ fun _ => keeps_logicCcr _ _ _)
  | tas dst => exact answers_runSeq (does_testAndSet hP _ (hI.imp_left fun h => alterable_of_wf h rfl) (fun _ h => h) rfl (fun _ h => h))
  | illegal => exact answers_runSeq (does_raise (.inr (.inl rfl)))
  | muluL dl form src => exact answers_runSeq (does_mulLong hP _ _ _ _ (fun _ h => h) rfl)
  | mulsL dl form src => exact answers_runSeq (does_mulLong hP _ _ _ _ (fun _ h => h) rfl)
  | divuL dq wide dr src => exact answers_runSeq (does_divLong hP (.inr (.inl rfl)) _ _ _ _ _ (fun _ h => h) rfl)
  | divsL dq wide dr src => exact answers_runSeq (does_divLong hP (.inr (.inl rfl)) _ _ _ _ _ (fun _ h => h) rfl)
  | trap vector =>
    refine answers_runSeq (does_ite (fun h => ?_) fun h => ?_)
    · exact does_raise (.inr (.inl (if_pos h).symm))
    · exact does_raise (.inr (.inl (if_neg h).symm))
  | linkW an disp => exact answers_runSeq (does_link hP _ _ (fun _ h => h) (fun _ h => h))
  | unlk an =>
    show Answers _ _ _ _ (execUnlk an s)
    unfold execUnlk
    exact answers_runSeq ((does_readA _).bind fun _ _ _ => (does_putA _ _ List.mem_cons_self).bind fun _ _ _ =>
      (does_memReadSized hP _ _).bind fun _ _ _ => (does_putA _ _ List.mem_cons_self).bind fun _ _ _ =>
      (does_drawIf _ _ _ _).bind fun _ _ _ => does_putA _ _ (List.mem_cons_of_mem _ List.mem_cons_self))
  | moveToUsp an => exact answers_runSeq (does_raise (.inr (.inl rfl)))
  | moveFromUsp an => exact answers_runSeq (does_raise (.inr (.inl rfl)))
  | reset => exact answers_runSeq (does_pure ())
  | nop => exact answers_runSeq (does_pure ())
  | stop => exact answers_runSeq (does_raise (.inr (.inl rfl)))
  | rte => exact answers_runSeq (does_raise (.inr (.inl rfl)))
  | rtd disp => exact answers_runTo ((does_pop hP _ List.mem_cons_self).bind fun _ _ _ => (does_readA _).bind fun _ _ _ =>
      (does_putA _ _ List.mem_cons_self).bind fun _ _ _ => does_pure _)
  | rts => exact answers_runTo (does_pop hP _ List.mem_cons_self)
  | trapv => exact answers_runSeq (does_readCcr.bind fun _ _ _ => does_ite (fun _ => does_raise (.inr (.inl rfl))) fun _ => does_pure _)
  | rtr => exact answers_runTo ((does_pop hP _ List.mem_cons_self).bind fun _ _ _ => (does_putCcr _ (Ccr.keeps_all _ _)).bind fun _ _ _ =>
      does_pop hP _ List.mem_cons_self)
  | movec toControl => exact answers_runSeq (does_raise (.inr (.inl rfl)))
  | jsr src =>
    refine answers_runTo (does_readPcOp.bind fun _ _ h0 => ?_)
    cases h0
    refine (does_addrOf hP _ _ (hI.imp_left fun h => inMemory_of_wf h (by decide)) fun _ h => List.mem_cons_of_mem _ h).bind fun _ _ h => ?_
    refine (does_push hP _ List.mem_cons_self fun j hj => ?_).bind fun _ _ _ => does_pure _
    simpa [permOf, storeSpan, h, afterOk] using hj
  | jmp src => exact answers_runTo (does_addrOf hP _ _ (hI.imp_left fun h => inMemory_of_wf h (by decide)) (fun _ h => h))
  | addq sz data dst =>
    show Answers _ _ _ _ (execAddq sz data dst s)
    unfold execAddq
    cases dst with
    | areg n =>
      refine answers_runSeq ?_
      exact does_quickToA _ _ List.mem_cons_self
    | dreg n | ind n | postinc n | predec n | disp n d | index n x | absW a | absL a | pcDisp d | pcIndex x
    | imm v =>
      refine answers_runSeq ?_
      exact does_rmwEa hP _ _ _ _ (hI.imp_left fun h => alterable_of_wf (wf_right h) rfl) (fun _ h => h) (fun _ _ => Ccr.keeps_all _ _) (fun _ h => h)
  | subq sz data dst =>
    show Answers _ _ _ _ (execSubq sz data dst s)
    unfold execSubq
    cases dst with
    | areg n =>
      refine answers_runSeq ?_
      exact does_quickToA _ _ List.mem_cons_self
    | dreg n | ind n | postinc n | predec n | disp n d | index n x | absW a | absL a | pcDisp d | pcIndex x
    | imm v =>
      refine answers_runSeq ?_
      exact does_rmwEa hP _ _ _ _ (hI.imp_left fun h => alterable_of_wf (wf_right h) rfl) (fun _ h => h) (fun _ _ => Ccr.keeps_all _ _) (fun _ h => h)
  | scc c dst =>
    show Answers _ _ _ _ (execScc c dst s)
    unfold execScc
    exact answers_runSeq (does_readCcr.bind fun _ _ h => by cases h; exact does_writeEa hP _ _ _ _ (hI.imp_left fun h => alterable_of_wf h rfl) (fun _ h => h) (fun _ h => h))
  | dbcc c dn disp => exact answers_runTo (does_readPcOp.bind fun _ _ _ => does_readCcr.bind fun _ _ _ => does_ite (fun _ => does_pure _)
      fun _ => (does_readDLow _ _).bind fun _ _ _ => (does_putDLow _ _ _ List.mem_cons_self).bind fun _ _ _ => does_pure _)
  | trapcc c operand => exact answers_runSeq (does_readCcr.bind fun _ _ _ => does_ite (fun _ => does_raise (.inr (.inl rfl))) fun _ => does_pure _)
  | bra disp => exact answers_runTo (does_readPcOp.bind fun _ _ _ => does_pure _)
  | bsr disp => exact answers_runTo (does_readPcOp.bind fun _ _ h => by
      cases h; exact (does_push hP _ List.mem_cons_self (fun _ h => h)).bind fun _ _ _ => does_pure _)
  | bcc c disp => exact answers_runTo (does_readPcOp.bind fun _ _ _ => does_readCcr.bind fun _ _ _ => does_pure _)
  | moveq imm dn =>
    show Answers _ _ _ _ (execMoveq imm dn s)
    unfold execMoveq
    exact answers_runSeq ((does_putD _ _ List.mem_cons_self).bind fun _ _ _ => does_modifyCcr _ fun _ => keeps_logicCcr _ _ _)
  | orToReg sz src dn => exact answers_runSeq (does_eaToReg hP _ _ _ _ (fun _ h => List.mem_cons_of_mem _ h) List.mem_cons_self (fun _ _ _ => keeps_logicCcr _ _ _))
  | orToEa sz dn dst => exact answers_runSeq (does_regToEa hP _ _ _ _ (hI.imp_left fun h => alterable_of_wf h rfl) (fun _ h => h) (fun _ _ _ => keeps_logicCcr _ _ _) (fun _ h => h))
  | sbcd mem x y => exact answers_runSeq (does_bcdOp hP _ _ _ _ (fun _ h => h) rfl (fun _ h => h))
  | andToReg sz src dn => exact answers_runSeq (does_eaToReg hP _ _ _ _ (fun _ h => List.mem_cons_of_mem _ h) List.mem_cons_self (fun _ _ _ => keeps_logicCcr _ _ _))
  | andToEa sz dn dst => exact answers_runSeq (does_regToEa hP _ _ _ _ (hI.imp_left fun h => alterable_of_wf h rfl) (fun _ h => h) (fun _ _ _ => keeps_logicCcr _ _ _) (fun _ h => h))
  | abcd mem x y => exact answers_runSeq (does_bcdOp hP _ _ _ _ (fun _ h => h) rfl (fun _ h => h))
  | divuW src dn => exact answers_runSeq (does_divWord16 hP (.inr (.inl rfl)) _ _ _ (fun _ h => h) rfl)
  | divsW src dn => exact answers_runSeq (does_divWord16 hP (.inr (.inl rfl)) _ _ _ (fun _ h => h) rfl)
  | pack mem x y adj =>
    show Answers _ _ _ _ (execPack mem x y adj s)
    unfold execPack
    exact answers_runSeq (does_pack hP _ _ _ _ (fun _ h => h) (fun _ h => h))
  | unpk mem x y adj =>
    show Answers _ _ _ _ (execUnpk mem x y adj s)
    unfold execUnpk
    exact answers_runSeq (does_unpk hP _ _ _ _ (fun _ h => h) (fun _ h => h))
  | muluW src dn => exact answers_runSeq (does_mulWord hP _ _ _ (fun _ h => h) rfl)
  | mulsW src dn => exact answers_runSeq (does_mulWord hP _ _ _ (fun _ h => h) rfl)
  | exgDD x y => exact answers_runSeq (does_exchange _ _ (fun _ h => h))
  | exgAA x y => exact answers_runSeq (does_exchange _ _ (fun _ h => h))
  | exgDA x y => exact answers_runSeq (does_exchange _ _ (fun _ h => h))
  | subToReg sz src dn => exact answers_runSeq (does_eaToReg hP _ _ _ _ (fun _ h => List.mem_cons_of_mem _ h) List.mem_cons_self (fun _ _ _ => Ccr.keeps_all _ _))
  | subToEa sz dn dst => exact answers_runSeq (does_regToEa hP _ _ _ _ (hI.imp_left fun h => alterable_of_wf h rfl) (fun _ h => h) (fun _ _ _ => Ccr.keeps_all _ _) (fun _ h => h))
  | subaW src an => exact answers_runSeq (does_eaToA hP _ _ _ _ (fun _ h => h))
  | subaL src an => exact answers_runSeq (does_eaToA hP _ _ _ _ (fun _ h => h))
  | subx sz mem x y => exact answers_runSeq (does_extendedOp hP _ _ _ _ _ (fun _ h => h) (fun _ _ _ => Ccr.keeps_all _ _) (fun _ h => h))
  | addToReg sz src dn => exact answers_runSeq (does_eaToReg hP _ _ _ _ (fun _ h => List.mem_cons_of_mem _ h) List.mem_cons_self (fun _ _ _ => Ccr.keeps_all _ _))
  | addToEa sz dn dst => exact answers_runSeq (does_regToEa hP _ _ _ _ (hI.imp_left fun h => alterable_of_wf h rfl) (fun _ h => h) (fun _ _ _ => Ccr.keeps_all _ _) (fun _ h => h))
  | addaW src an => exact answers_runSeq (does_eaToA hP _ _ _ _ (fun _ h => h))
  | addaL src an => exact answers_runSeq (does_eaToA hP _ _ _ _ (fun _ h => h))
  | addx sz mem x y => exact answers_runSeq (does_extendedOp hP _ _ _ _ _ (fun _ h => h) (fun _ _ _ => Ccr.keeps_all _ _) (fun _ h => h))
  | cmp sz src dn =>
    show Answers _ _ _ _ (execCmp sz src dn s)
    unfold execCmp
    exact answers_runSeq ((does_readEa hP _ _ _ (fun _ h => h)).bind fun _ _ _ => (does_readDLow _ _).bind fun _ _ _ =>
      does_modifyCcr _ fun _ => keeps_compareCcr _ _)
  | cmpaW src an => exact answers_runSeq (does_compareA hP _ _ _ (fun _ h => h) (fun _ _ => keeps_compareCcr _ _))
  | cmpaL src an => exact answers_runSeq (does_compareA hP _ _ _ (fun _ h => h) (fun _ _ => keeps_compareCcr _ _))
  | eor sz dn dst => exact answers_runSeq (does_regToEa hP _ _ _ _ (hI.imp_left fun h => alterable_of_wf h rfl) (fun _ h => h) (fun _ _ _ => keeps_logicCcr _ _ _) (fun _ h => h))
  | cmpm sz x y =>
    show Answers _ _ _ _ (execCmpm sz x y s)
    unfold execCmpm
    exact answers_runSeq ((does_readEa hP _ _ _ fun _ h => by simp_all [EA.stepped, permOf, writesRegs]).bind fun _ _ _ =>
      (does_readEa hP _ _ _ fun _ h => by simp_all [EA.stepped, permOf, writesRegs]).bind fun _ _ _ =>
        does_modifyCcr _ fun _ => keeps_compareCcr _ _)
  | asrReg sz count dy => exact answers_runSeq (does_shiftReg _ _ _ _ List.mem_cons_self (fun _ _ _ => Ccr.keeps_all _ _))
  | asrMem dst => exact answers_runSeq (does_shiftMem hP _ _ (hI.imp_left fun h => alterable_of_wf h rfl) (fun _ h => h) (fun _ _ _ => Ccr.keeps_all _ _) (fun _ h => h))
  | aslReg sz count dy => exact answers_runSeq (does_shiftReg _ _ _ _ List.mem_cons_self (fun _ _ _ => Ccr.keeps_all _ _))
  | aslMem dst => exact answers_runSeq (does_shiftMem hP _ _ (hI.imp_left fun h => alterable_of_wf h rfl) (fun _ h => h) (fun _ _ _ => Ccr.keeps_all _ _) (fun _ h => h))
  | lsrReg sz count dy => exact answers_runSeq (does_shiftReg _ _ _ _ List.mem_cons_self (fun _ _ _ => Ccr.keeps_all _ _))
  | lsrMem dst => exact answers_runSeq (does_shiftMem hP _ _ (hI.imp_left fun h => alterable_of_wf h rfl) (fun _ h => h) (fun _ _ _ => Ccr.keeps_all _ _) (fun _ h => h))
  | lslReg sz count dy => exact answers_runSeq (does_shiftReg _ _ _ _ List.mem_cons_self (fun _ _ _ => Ccr.keeps_all _ _))
  | lslMem dst => exact answers_runSeq (does_shiftMem hP _ _ (hI.imp_left fun h => alterable_of_wf h rfl) (fun _ h => h) (fun _ _ _ => Ccr.keeps_all _ _) (fun _ h => h))
  | roxrReg sz count dy => exact answers_runSeq (does_shiftReg _ _ _ _ List.mem_cons_self (fun _ _ _ => Ccr.keeps_all _ _))
  | roxrMem dst => exact answers_runSeq (does_shiftMem hP _ _ (hI.imp_left fun h => alterable_of_wf h rfl) (fun _ h => h) (fun _ _ _ => Ccr.keeps_all _ _) (fun _ h => h))
  | roxlReg sz count dy => exact answers_runSeq (does_shiftReg _ _ _ _ List.mem_cons_self (fun _ _ _ => Ccr.keeps_all _ _))
  | roxlMem dst => exact answers_runSeq (does_shiftMem hP _ _ (hI.imp_left fun h => alterable_of_wf h rfl) (fun _ h => h) (fun _ _ _ => Ccr.keeps_all _ _) (fun _ h => h))
  | rorReg sz count dy => exact answers_runSeq (does_shiftReg _ _ _ _ List.mem_cons_self (keeps_rotate _ _ fun _ _ _ => rfl))
  | rorMem dst => exact answers_runSeq (does_shiftMem hP _ _ (hI.imp_left fun h => alterable_of_wf h rfl) (fun _ h => h) (keeps_rotate _ _ fun _ _ _ => rfl) (fun _ h => h))
  | rolReg sz count dy => exact answers_runSeq (does_shiftReg _ _ _ _ List.mem_cons_self (keeps_rotate _ _ fun _ _ _ => rfl))
  | rolMem dst => exact answers_runSeq (does_shiftMem hP _ _ (hI.imp_left fun h => alterable_of_wf h rfl) (fun _ h => h) (keeps_rotate _ _ fun _ _ _ => rfl) (fun _ h => h))
  | bftst bf ea => exact answers_runSeq ((does_bfLocate hP _ _ (hI.imp_left fun h => fieldMode_of_wf h (by decide)) (fun _ h => h)).bind fun _ _ _ => (does_bfRead hP _).bind fun _ _ _ =>
      does_modifyCcr _ fun _ => Ccr.keeps_nzvc rfl)
  | bfextu bf ea dn => exact answers_runSeq (does_bfToReg hP _ _ _ _ (hI.imp_left fun h => fieldMode_of_wf h (by decide)) (fun _ h => h) rfl)
  | bfchg bf ea => exact answers_runSeq (does_bfChange hP _ _ _ (hI.imp_left fun h => fieldMode_of_wf h (by decide)) (fun _ h => h) rfl (fun _ h => h))
  | bfexts bf ea dn => exact answers_runSeq (does_bfToReg hP _ _ _ _ (hI.imp_left fun h => fieldMode_of_wf h (by decide)) (fun _ h => h) rfl)
  | bfclr bf ea => exact answers_runSeq (does_bfChange hP _ _ _ (hI.imp_left fun h => fieldMode_of_wf h (by decide)) (fun _ h => h) rfl (fun _ h => h))
  | bfffo bf ea dn => exact answers_runSeq (does_bfToReg hP _ _ _ _ (hI.imp_left fun h => fieldMode_of_wf h (by decide)) (fun _ h => h) rfl)
  | bfset bf ea => exact answers_runSeq (does_bfChange hP _ _ _ (hI.imp_left fun h => fieldMode_of_wf h (by decide)) (fun _ h => h) rfl (fun _ h => h))
  | bfins bf dn ea =>
    show Answers _ _ _ _ (execBfins bf dn ea s)
    unfold execBfins
    exact answers_runSeq (does_bfInsert hP _ _ _ (hI.imp_left fun h => fieldMode_of_wf h (by decide)) (fun _ h => h) rfl (fun _ h => h))
  | lineA bits => exact answers_runSeq (does_raise (.inr (.inl rfl)))
  | lineF bits => exact answers_runSeq (does_raise (.inr (.inl rfl)))

end Sys2Proof.Machine
end

