-- ==== Sys2Proof/Laws/Step.lean ====
section
/-! SUPPORT. Fetching, taking an exception, the host's answer, and the inversion of `step`: what each of them can
do, said once. -/

namespace Sys2Proof.Machine

open Sys2Proof

/-! ### Taking an exception -/

/-- Every exception but `TRAP #0` only sets the status, to a halt with its record (R603, R604). -/
theorem takeException_halts (pcOp pcNext : Addr) (op : Option Word16) {e : Raise} (h : e ≠ .syscall) (s : State) :
    takeException pcOp pcNext op e s = { s with status := .halted (haltRecord pcOp pcNext op e s) } := by
  cases e <;> first | rfl | exact absurd rfl h

/-- `TRAP #0` moves the PC and waits for the host (R612). -/
theorem takeException_syscall (pcOp pcNext : Addr) (op : Option Word16) (s : State) :
    takeException pcOp pcNext op .syscall s = { s with pc := pcNext, status := .syscallPending } := rfl

section

variable (pcOp pcNext : Addr) (op : Option Word16) (e : Raise) (s : State)

@[simp] theorem takeException_d : (takeException pcOp pcNext op e s).d = s.d := by cases e <;> rfl

@[simp] theorem takeException_a : (takeException pcOp pcNext op e s).a = s.a := by cases e <;> rfl

@[simp] theorem takeException_ccr : (takeException pcOp pcNext op e s).ccr = s.ccr := by cases e <;> rfl

@[simp] theorem takeException_ifetched : (takeException pcOp pcNext op e s).ifetched = s.ifetched := by
  cases e <;> rfl

@[simp] theorem takeException_stale : (takeException pcOp pcNext op e s).stale = s.stale := by cases e <;> rfl

@[simp] theorem takeException_mem : (takeException pcOp pcNext op e s).mem = s.mem := by cases e <;> rfl

@[simp] theorem takeException_regions : (takeException pcOp pcNext op e s).regions = s.regions := by
  cases e <;> rfl

@[simp] theorem takeException_draws : (takeException pcOp pcNext op e s).draws = s.draws := by cases e <;> rfl

theorem takeException_inv (h : Inv s) : Inv (takeException pcOp pcNext op e s) := by cases e <;> exact h

end

/-! ### What `exec` keeps -/

/-- `exec` in one existential: effects, then at most the PC and the status change (R54, R603). -/
theorem exec_effects {i : Instr} {s t : State} (h : exec i s = .next t) :
    ∃ u, Effects (permOf i s) s u ∧ t.d = u.d ∧ t.a = u.a ∧ t.ccr = u.ccr ∧ t.ifetched = u.ifetched ∧
      t.stale = u.stale ∧ t.mem = u.mem ∧ t.regions = u.regions ∧ t.draws = u.draws := by
  rcases answers_exec i s with ⟨u, target, hu, ho⟩ | ⟨e, u, _, hu, ho⟩
  · rw [ho] at h; cases h; exact ⟨u, hu, rfl, rfl, rfl, rfl, rfl, rfl, rfl, rfl⟩
  · rw [ho] at h; cases h; exact ⟨u, hu, by simp⟩

/-! ### Fetch -/

theorem inv_markFetched {s : State} (h : Inv s) (n : Nat) : Inv (s.markFetched n) := by
  obtain ⟨h1, h2, h3, h4, h5, h6⟩ := h
  exact ⟨h1, h2, AddrSet.wf_insertAll h3 _, h4, fun k hk => AddrSet.mem_insertAll.2 (.inr (h5 k hk)), h6⟩

/-- `FetchWord` never raises `TRAP #0`. -/
theorem fetchCheck_ne_syscall {s : State} {a : Addr} {e : Raise} (h : fetchCheck s a = some e) : e ≠ .syscall := by
  unfold fetchCheck at h
  repeat' split at h
  all_goals first | (cases h; simp) | cases h

theorem fetchWindow_ne_syscall {s : State} {n : Nat} {a : Addr} {e : Raise} (h : (fetchWindow s n a).2 = some e) :
    e ≠ .syscall := by
  induction n generalizing a with
  | zero => cases h
  | succ n ih =>
    simp only [fetchWindow] at h
    split at h
    · next hc => cases h; exact fetchCheck_ne_syscall hc
    · exact ih h

/-- What fetch and decode answer: an instruction and the marked state, or a halt at the marked state. -/
theorem fetchInstr_cases (s : State) :
    (∃ i n, fetchInstr s = .run i (s.markFetched n)) ∨
    ∃ e ws n, e ≠ .syscall ∧ fetchInstr s = .raised (takeException s.pc s.pc ws e (s.markFetched n)) := by
  unfold fetchInstr
  simp only
  split
  · exact .inl ⟨_, _, rfl⟩
  · exact .inr ⟨_, _, _, by simp, rfl⟩
  · refine .inr ⟨_, _, _, ?_, rfl⟩
    cases h : (fetchWindow s maxWords s.pc).2 with
    | none => simp
    | some e => exact fetchWindow_ne_syscall h

/-! ### The host's answer -/

theorem hostWrite_inv {s : State} (h : Inv s) (a : Addr) (b : Byte) : Inv (s.hostWrite a b) := by
  unfold State.hostWrite
  split
  · next hm =>
    obtain ⟨h1, h2, h3, h4, h5, h6⟩ := h
    refine ⟨Memory.wf_set h1 b a.isLt, h2, h3, wf_markStale h4 _ _, ?_, ?_⟩
    · intro k hk
      rcases mem_markStale.1 hk with hk | hk
      · exact hk.2
      · exact h5 k hk
    · intro c hc
      rcases Memory.mem_set hc with hc | hc
      · exact h6 c hc
      · rw [hc]; exact hm
  · exact h

theorem hostWrites_inv {s : State} (h : Inv s) (ws : List (Addr × Byte)) :
    Inv (ws.foldl (fun t w => t.hostWrite w.1 w.2) s) := by
  induction ws generalizing s with
  | nil => exact h
  | cons w ws ih => exact ih (hostWrite_inv h _ _)

/-- What a host write keeps: everything but memory and `stale` (R101). -/
theorem hostWrite_keeps (s : State) (a : Addr) (b : Byte) :
    (s.hostWrite a b).d = s.d ∧ (s.hostWrite a b).a = s.a ∧ (s.hostWrite a b).pc = s.pc ∧
    (s.hostWrite a b).ccr = s.ccr ∧ (s.hostWrite a b).ifetched = s.ifetched ∧
    (s.hostWrite a b).regions = s.regions ∧ ∀ k ∈ s.stale, k ∈ (s.hostWrite a b).stale := by
  unfold State.hostWrite
  split
  · exact ⟨rfl, rfl, rfl, rfl, rfl, rfl, fun k hk => mem_markStale.2 (.inr hk)⟩
  · exact ⟨rfl, rfl, rfl, rfl, rfl, rfl, fun k hk => hk⟩

theorem hostWrites_keeps (s : State) (ws : List (Addr × Byte)) :
    let t := ws.foldl (fun t w => t.hostWrite w.1 w.2) s
    t.d = s.d ∧ t.a = s.a ∧ t.pc = s.pc ∧ t.ccr = s.ccr ∧ t.ifetched = s.ifetched ∧ t.regions = s.regions ∧
    ∀ k ∈ s.stale, k ∈ t.stale := by
  induction ws generalizing s with
  | nil => exact ⟨rfl, rfl, rfl, rfl, rfl, rfl, fun _ h => h⟩
  | cons w ws ih =>
    obtain ⟨a1, a2, a3, a4, a5, a6, a7⟩ := hostWrite_keeps s w.1 w.2
    obtain ⟨b1, b2, b3, b4, b5, b6, b7⟩ := ih (s.hostWrite w.1 w.2)
    exact ⟨b1.trans a1, b2.trans a2, b3.trans a3, b4.trans a4, b5.trans a5, b6.trans a6,
      fun k hk => b7 k (a7 k hk)⟩

@[simp] theorem hostWrite_regions (s : State) (a : Addr) (b : Byte) : (s.hostWrite a b).regions = s.regions :=
  (hostWrite_keeps s a b).2.2.2.2.2.1

@[simp] theorem hostWrite_ifetched (s : State) (a : Addr) (b : Byte) : (s.hostWrite a b).ifetched = s.ifetched :=
  (hostWrite_keeps s a b).2.2.2.2.1

/-- What a host write makes stale (R101). -/
theorem mem_stale_hostWrite {s : State} {a : Addr} {b : Byte} {k : Nat} : k ∈ (s.hostWrite a b).stale ↔
    k ∈ s.stale ∨ (k ∈ s.ifetched ∧ mappedAt s.regions k = true ∧ a.toNat = k) := by
  unfold State.hostWrite
  split
  · next h =>
    simp only [mem_markStale, List.mem_singleton]
    constructor
    · rintro (⟨h1, h2⟩ | h1)
      · exact .inr ⟨h2, h1 ▸ h, h1.symm⟩
      · exact .inl h1
    · rintro (h1 | ⟨h1, h2, h3⟩)
      · exact .inr h1
      · exact .inl ⟨h3.symm, h1⟩
  · next h =>
    constructor
    · exact .inl
    · rintro (h1 | ⟨h1, h2, h3⟩)
      · exact h1
      · rw [← h3] at h2; exact absurd h2 h

/-- What the host's writes make stale: the fetched bytes among those written. -/
theorem mem_stale_hostWrites {ws : List (Addr × Byte)} : ∀ {s : State} {k : Nat},
    k ∈ (ws.foldl (fun t w => t.hostWrite w.1 w.2) s).stale ↔
    k ∈ s.stale ∨ (k ∈ s.ifetched ∧ mappedAt s.regions k = true ∧ ∃ w ∈ ws, w.1.toNat = k) := by
  induction ws with
  | nil => intro s k; simp
  | cons w ws ih =>
    intro s k
    rw [List.foldl_cons, ih, hostWrite_regions, hostWrite_ifetched, mem_stale_hostWrite]
    simp only [List.mem_cons, exists_eq_or_imp]
    constructor
    · rintro ((h | ⟨h1, h2, h3⟩) | ⟨h1, h2, h3⟩)
      · exact .inl h
      · exact .inr ⟨h1, h2, .inl h3⟩
      · exact .inr ⟨h1, h2, .inr h3⟩
    · rintro (h | ⟨h1, h2, h3 | h3⟩)
      · exact .inl (.inl h)
      · exact .inl (.inr ⟨h1, h2, h3⟩)
      · exact .inr ⟨h1, h2, h3⟩

theorem get_hostWrites_ne {ws : List (Addr × Byte)} : ∀ {s : State} {k : Nat}, (∀ w ∈ ws, w.1.toNat ≠ k) →
    Memory.get (ws.foldl (fun t w => t.hostWrite w.1 w.2) s).mem k = Memory.get s.mem k := by
  induction ws with
  | nil => intro s k _; rfl
  | cons w ws ih =>
    intro s k h
    rw [List.foldl_cons, ih fun v hv => h v (List.mem_cons_of_mem _ hv)]
    unfold State.hostWrite
    split
    · exact Memory.get_set_ne _ _ (h w List.mem_cons_self)
    · rfl

theorem hostWrites_mapped {ws : List (Addr × Byte)} : ∀ {s : State}, (∀ c ∈ s.mem, mappedAt s.regions c.1 = true) →
    ∀ c ∈ (ws.foldl (fun t w => t.hostWrite w.1 w.2) s).mem, mappedAt s.regions c.1 = true := by
  induction ws with
  | nil => intro s h; exact h
  | cons w ws ih =>
    intro s h
    rw [List.foldl_cons]
    have := ih (s := s.hostWrite w.1 w.2)
    rw [hostWrite_regions] at this
    refine this ?_
    intro c hc
    unfold State.hostWrite at hc
    split at hc
    · next hm =>
      rcases Memory.mem_set hc with hc | hc
      · exact h c hc
      · rw [hc]; exact hm
    · exact h c hc

theorem hostWrites_wf {ws : List (Addr × Byte)} : ∀ {s : State}, Memory.wf s.mem = true →
    Memory.wf (ws.foldl (fun t w => t.hostWrite w.1 w.2) s).mem = true := by
  induction ws with
  | nil => intro s h; exact h
  | cons w ws ih =>
    intro s h
    rw [List.foldl_cons]
    refine ih ?_
    unfold State.hostWrite
    split
    · exact Memory.wf_set h _ w.1.isLt
    · exact h

/-- The last value written to a mapped byte is its value. -/
theorem get_hostWrites_last {s : State} (hm : Memory.wf s.mem = true) {a : Addr} (ha : mappedAt s.regions a.toNat = true)
    (before after : List (Addr × Byte)) (b : Byte) (h : ∀ w ∈ after, w.1 ≠ a) :
    Memory.get ((before ++ (a, b) :: after).foldl (fun t w => t.hostWrite w.1 w.2) s).mem a.toNat = b := by
  rw [List.foldl_append, List.foldl_cons, get_hostWrites_ne fun w hw he => h w hw (BitVec.eq_of_toNat_eq he)]
  have hw := hostWrites_wf (ws := before) hm
  have hr : (before.foldl (fun t w => t.hostWrite w.1 w.2) s).regions = s.regions :=
    (hostWrites_keeps s before).2.2.2.2.2.1
  generalize before.foldl (fun t w => t.hostWrite w.1 w.2) s = u at hw hr ⊢
  unfold State.hostWrite
  rw [if_pos (by rw [hr]; exact ha)]
  exact Memory.get_set_self hw _ _

/-- What a resumption does with memory, the regions and `stale` (R101, R613). -/
theorem resume_spec (s : State) (d0 : Long) (ws : List (Addr × Byte)) (rs : List Region) :
    let t := s.resume d0 ws rs
    t.status = .running ∧ t.regions = rs ∧ t.getD 0 = d0 ∧ (∀ c ∈ t.mem, mappedAt rs c.1 = true) ∧
    (∀ k, k ∈ t.stale ↔ k ∈ s.stale ∨ (k ∈ s.ifetched ∧ mappedAt rs k = true ∧ ∃ w ∈ ws, w.1.toNat = k)) ∧
    ∀ k, mappedAt rs k = true → (∀ w ∈ ws, w.1.toNat ≠ k) → Memory.get t.mem k = Memory.get s.mem k :=
  let u : State := { s with mem := Memory.restrict s.mem rs, regions := rs }
  ⟨rfl, (hostWrites_keeps u ws).2.2.2.2.2.1, (State.getD_setD _ _ _ _).trans (if_pos rfl),
    hostWrites_mapped (s := u) fun _ hc => Memory.mapped_restrict hc, fun _ => mem_stale_hostWrites (s := u),
    fun _ hk h => (get_hostWrites_ne (s := u) h).trans (Memory.get_restrict hk)⟩

theorem resume_inv {s : State} (h : Inv s) (d0 : Long) (ws : List (Addr × Byte)) {rs : List Region}
    (hrs : Region.mapWf rs = true) : Inv (s.resume d0 ws rs) := by
  obtain ⟨h1, _, h3, h4, h5, _⟩ := h
  have h0 : Inv { s with mem := Memory.restrict s.mem rs, regions := rs } :=
    ⟨Memory.wf_restrict h1 rs, hrs, h3, h4, h5, fun _ hc => Memory.mapped_restrict hc⟩
  exact hostWrites_inv h0 ws

theorem hostReturn_inv {s : State} (h : Inv s) : Inv (hostReturn s) := by
  unfold hostReturn
  split
  · split
    · next d0 ws rs hrs _ => exact resume_inv h d0 ws hrs
    · exact h
  · exact h

/-! ### The inversion of `step` -/

/-- A step runs an instruction, or raises at fetch or decode, or is the host's answer (R54, R613). -/
theorem step_cases {s t : State} (h : step s = .next t) :
    (s.status = .running ∧ ∃ i n, fetchInstr s = .run i (s.markFetched n) ∧ exec i (s.markFetched n) = .next t) ∨
    (s.status = .running ∧ ∃ e ws n, e ≠ .syscall ∧ t = takeException s.pc s.pc ws e (s.markFetched n)) ∨
    (s.status = .syscallPending ∧ t = hostReturn s) := by
  unfold step at h
  split at h
  · next hs =>
    rcases fetchInstr_cases s with ⟨i, n, hf⟩ | ⟨e, ws, n, he, hf⟩
    · rw [hf] at h; exact .inl ⟨hs, i, n, hf, h⟩
    · rw [hf] at h; cases h; exact .inr (.inl ⟨hs, e, ws, n, he, rfl⟩)
  · next hs => cases h; exact .inr (.inr ⟨hs, rfl⟩)
  · cases h
  · cases h

end Sys2Proof.Machine
end

