-- ==== Sys2Proof/Laws/Run.lean ====
section
/-! SUPPORT. How bodies run: one lemma per shared operation that says what it answers when its accesses are allowed,
and the three ways an instruction answers. Proofs of completion rewrite with these. -/

namespace Sys2Proof.Machine

open Sys2Proof

section

variable {s s0 s1 s2 t : State} {i : Instr} {sz : Size} {ea : EA} {k : Nat} {op : Operand} {v d : Long}

/-! ### Sequencing -/

theorem bind_run {α β : Type} {m : Exec α} {f : α → Exec β} {a : α} (h : m s = .ok a t) : (m >>= f) s = f a t := by
  rw [bind_eq, h]

theorem bind_raise {α β : Type} {m : Exec α} {f : α → Exec β} {e : Raise} (h : m s = .error e t) :
    (m >>= f) s = .error e t := by rw [bind_eq, h]

@[simp] theorem pure_run {α : Type} (a : α) (s : State) : (pure a : Exec α) s = .ok a s := rfl

@[simp] theorem get_run (s : State) : (get : Exec State) s = .ok s s := rfl

@[simp] theorem raise_run {α : Type} (e : Raise) (s : State) : (raise e : Exec α) s = .error e s := rfl

theorem runSeq_ok {body : Exec Unit} {u : Unit} (h : body s = .ok u t) :
    runSeq i body s = .next { t with pc := pcNext i s.pc } := by unfold runSeq; rw [h]

theorem runSeq_raise {body : Exec Unit} {e : Raise} (h : body s = .error e t) :
    runSeq i body s = .next (takeException s.pc (pcNext i s.pc) (some (opcodeWord i)) e t) := by
  unfold runSeq; rw [h]

theorem runTo_ok {body : Exec Addr} {a : Addr} (h : body s = .ok a t) :
    runTo i body s = .next { t with pc := a } := by unfold runTo; rw [h]

theorem runTo_raise {body : Exec Addr} {e : Raise} (h : body s = .error e t) :
    runTo i body s = .next (takeException s.pc (pcNext i s.pc) (some (opcodeWord i)) e t) := by
  unfold runTo; rw [h]

/-! ### Primitives -/

@[simp] theorem readD_run (n : RegNo) (s : State) : readD n s = .ok (s.getD n) s := rfl
@[simp] theorem readA_run (n : RegNo) (s : State) : readA n s = .ok (s.getA n) s := rfl
@[simp] theorem readR_run (r : RegSel) (s : State) : readR r s = .ok (s.getR r) s := rfl
@[simp] theorem readDLow_run (n : RegNo) (sz : Size) (s : State) : readDLow n sz s = .ok (sz.trunc (s.getD n)) s := rfl
@[simp] theorem readCcr_run (s : State) : readCcr s = .ok s.ccr s := rfl
@[simp] theorem readPcOp_run (s : State) : readPcOp s = .ok s.pc s := rfl
@[simp] theorem putD_run (n : RegNo) (v : Long) (s : State) : putD n v s = .ok () (s.setD n v) := rfl
@[simp] theorem putA_run (n : RegNo) (v : Long) (s : State) : putA n v s = .ok () (s.setA n v) := rfl
@[simp] theorem putR_run (r : RegSel) (v : Long) (s : State) : putR r v s = .ok () (s.setR r v) := rfl
@[simp] theorem putDLow_run (n : RegNo) (sz : Size) (v : Long) (s : State) :
    putDLow n sz v s = .ok () (s.writeD n sz v) := rfl
@[simp] theorem putASized_run (n : RegNo) (sz : Size) (v : Long) (s : State) :
    putASized n sz v s = .ok () (s.writeA n sz v) := rfl
@[simp] theorem putCcr_run (c : Ccr) (s : State) : putCcr c s = .ok () (s.setCcr c) := rfl
@[simp] theorem modifyCcr_run (f : Ccr → Ccr) (s : State) : modifyCcr f s = .ok () (s.setCcr (f s.ccr)) := rfl
@[simp] theorem drawBit_run (s : State) :
    drawBit s = .ok (Config.drawBit s.draws) { s with draws := s.draws + 1 } := rfl
@[simp] theorem drawByte_run (s : State) :
    drawByte s = .ok (Config.drawByte s.draws) { s with draws := s.draws + 1 } := rfl
@[simp] theorem drawLong_run (s : State) :
    drawLong s = .ok (Config.drawLong s.draws) { s with draws := s.draws + 1 } := rfl

theorem checkAccess_run {a : Access} {b : Addr} {n : Nat} (h : allowed s.regions a b n = true) :
    checkAccess a b n s = .ok () s := by simp [checkAccess, h]
theorem checkAccess_raise {k : Access} {a : Addr} {n : Nat} (h : allowed s.regions k a n = false) :
    checkAccess k a n s = .error (.busError { addr := a, kind := k, size := n }) s := by simp [checkAccess, h]
theorem checkReadWrite_noWrite {a : Addr} {n : Nat} (h : allowed s.regions .write a n = false) :
    checkReadWrite a n s = .error (.busError { addr := a, kind := .write, size := n }) s :=
  bind_raise (checkAccess_raise h)
theorem checkReadWrite_noRead {a : Addr} {n : Nat} (hw : allowed s.regions .write a n = true)
    (hr : allowed s.regions .read a n = false) :
    checkReadWrite a n s = .error (.busError { addr := a, kind := .read, size := n }) s :=
  (bind_run (checkAccess_run hw)).trans (checkAccess_raise hr)

theorem memRead_run {a : Addr} {n : Nat} (h : allowed s.regions .read a n = true) :
    memRead a n s = .ok (s.load a n) s := by simp [memRead, h]

theorem memRead_raise {a : Addr} {n : Nat} (h : allowed s.regions .read a n = false) :
    memRead a n s = .error (.busError { addr := a, kind := .read, size := n }) s := by simp [memRead, h]

theorem memWrite_run {a : Addr} {n w : Nat} (h : allowed s.regions .write a n = true) :
    memWrite a n w s = .ok () (s.store a n w) := by simp [memWrite, h]

theorem memWrite_raise {a : Addr} {n w : Nat} (h : allowed s.regions .write a n = false) :
    memWrite a n w s = .error (.busError { addr := a, kind := .write, size := n }) s := by simp [memWrite, h]

theorem memReadSized_run {a : Addr} (h : allowed s.regions .read a sz.bytes = true) :
    memReadSized sz a s = .ok (BitVec.ofNat 32 (s.load a sz.bytes)) s := bind_run (memRead_run h)

theorem memReadSized_raise {a : Addr} (h : allowed s.regions .read a sz.bytes = false) :
    memReadSized sz a s = .error (.busError { addr := a, kind := .read, size := sz.bytes }) s :=
  bind_raise (memRead_raise h)

theorem memWriteSized_run {a : Addr} (h : allowed s.regions .write a sz.bytes = true) :
    memWriteSized sz a v s = .ok () (s.store a sz.bytes v.toNat) := memWrite_run h

theorem push_run (h : CanPush s) : push v s = .ok () (s.pushed v) := by
  unfold push
  rw [bind_run (readA_run _ _), bind_run (memWriteSized_run (sz := .l) h)]
  rfl

theorem pop_run (h : CanPop sz s) : pop sz s = .ok (s.top sz) (s.popped sz) := by
  unfold pop
  rw [bind_run (readA_run _ _), bind_run (memReadSized_run h)]
  rfl

/-! ### Operands -/

theorem readEa_run (h : resolve sz ea k s = .ok op s0) (h' : readOp sz op s0 = .ok d s1) :
    readEa sz ea k s = .ok d s1 := (bind_run h).trans h'

theorem memReadSized_ok {a : Addr} (h : memReadSized sz a s = .ok v t) :
    allowed s.regions .read a sz.bytes = true ∧ v = BitVec.ofNat 32 (s.load a sz.bytes) ∧ t = s := by
  cases hc : allowed s.regions .read a sz.bytes with
  | true => rw [memReadSized_run hc] at h; cases h; exact ⟨rfl, rfl, rfl⟩
  | false => rw [memReadSized_raise hc] at h; cases h

/-- Only address registers change when an operand is resolved (R202 to R212). -/
def OnlyA (s t : State) : Prop := t = { s with a := t.a }

theorem OnlyA.trans {u : State} (h : OnlyA s t) (h' : OnlyA t u) : OnlyA s u := by
  unfold OnlyA at *; rw [h', h]

theorem indexedAddr_keeps {base : Long} {x : IndexExt} {a : Addr} (h : indexedAddr base x s = .ok a t) : t = s := by
  cases x with
  | brief i d => cases h; rfl
  | full i bs is bd ind =>
    obtain ⟨u, s', h1, h2⟩ := bind_ok h
    cases h1
    cases ind with
    | none => cases h2; rfl
    | pre od | post od =>
      obtain ⟨p, s'', h3, h4⟩ := bind_ok h2
      rw [← (pure_ok h4).2]; exact (memReadSized_ok h3).2.2

theorem resolve_keeps (h : resolve sz ea k s = .ok op t) : OnlyA s t := by
  cases ea with
  | dreg n | areg n | absW a | absL a | imm w | ind n | postinc n | predec n | disp n d | pcDisp d => cases h; rfl
  | index n x | pcIndex x =>
    obtain ⟨b, s', h1, h2⟩ := bind_ok h
    cases h1
    obtain ⟨p, s'', h3, h4⟩ := bind_ok h2
    rw [← (pure_ok h4).2, indexedAddr_keeps h3]; rfl

theorem readOp_keeps (h : readOp sz op s = .ok d t) : OnlyA s t := by
  cases op with
  | dreg n | areg n | imm v => cases h; rfl
  | mem a post =>
    obtain ⟨v, u, h1, h2⟩ := bind_ok h
    obtain ⟨_, _, rfl⟩ := memReadSized_ok h1
    cases post <;> (cases h2; rfl)

theorem readEa_keeps (h : readEa sz ea k s = .ok d t) : OnlyA s t := by
  obtain ⟨op, u, h1, h2⟩ := bind_ok h
  exact (resolve_keeps h1).trans (readOp_keeps h2)

theorem addrOf_keeps {a : Addr} (h : addrOf ea k s = .ok a t) : OnlyA s t := by
  obtain ⟨op, u, h1, h2⟩ := bind_ok h
  cases op with
  | mem b post => rw [← (pure_ok h2).2]; exact resolve_keeps h1
  | dreg n | areg n | imm v => cases h2

theorem canChange_keeps (h : CanChange sz ea k s op d t) : OnlyA s t := by
  obtain ⟨u, h1, h2, -⟩ := h
  exact (resolve_keeps h1).trans (readOp_keeps h2)

theorem canWrite_keeps (h : CanWrite sz ea k s op t) : OnlyA s t := resolve_keeps h.1

theorem OnlyA.regions (h : OnlyA s t) : t.regions = s.regions := by rw [h]

theorem OnlyA.mem (h : OnlyA s t) : t.mem = s.mem := by rw [h]

theorem OnlyA.ccr (h : OnlyA s t) : t.ccr = s.ccr := by rw [h]

theorem OnlyA.pc (h : OnlyA s t) : t.pc = s.pc := by rw [h]

theorem OnlyA.getD (h : OnlyA s t) (n : RegNo) : t.getD n = s.getD n := by rw [h]; rfl

theorem OnlyA.load (h : OnlyA s t) (a : Addr) (n : Nat) : t.load a n = s.load a n := by
  unfold State.load; rw [h.mem]

theorem writeBack_run (h : Operand.accepts sz s.regions op) : writeBack sz op v s = .ok () (s.putOp sz op v) := by
  cases op with
  | dreg n | areg n => rfl
  | mem a post => exact memWriteSized_run h
  | imm w => exact h.elim

theorem writeOnly_run (h : Operand.accepts sz s.regions op) :
    writeOnly sz op v s = .ok () ((s.putOp sz op v).stepPost sz op) := by
  cases op with
  | dreg n | areg n => rfl
  | mem a post =>
    refine (bind_run (memWriteSized_run h)).trans ?_
    cases post <;> rfl
  | imm w => exact h.elim

theorem writeEa_run (h : CanWrite sz ea k s op s1) : writeEa sz ea k v s = .ok () ((s1.putOp sz op v).stepPost sz op) := by
  unfold writeEa
  rw [bind_run h.1]
  exact writeOnly_run (by rw [(resolve_keeps h.1).regions]; exact h.2)

theorem putOp_ccr (s : State) (sz : Size) (op : Operand) (v : Long) : (s.putOp sz op v).ccr = s.ccr := by
  cases op <;> rfl

theorem putOp_setCcr (s : State) (sz : Size) (op : Operand) (v : Long) (c : Ccr) :
    (s.setCcr c).putOp sz op v = (s.putOp sz op v).setCcr c := by cases op <;> rfl

/-! ### Shared shapes -/

theorem updateD_run (sz : Size) (dn : RegNo) (f : Step) (s : State) :
    updateD sz dn f s = .ok () ((s.writeD dn sz (f (sz.trunc (s.getD dn)) s.ccr).1).setCcr
      (f (sz.trunc (s.getD dn)) s.ccr).2) := rfl

theorem rmwEa_run {f : Step} (h : CanChange sz ea k s op d s1) :
    rmwEa sz ea k f s = .ok () ((s1.putOp sz op (f d s1.ccr).1).setCcr (f d s1.ccr).2) := by
  obtain ⟨s0, h1, h2, h3⟩ := h
  unfold rmwEa
  have hr : s1.regions = s.regions := ((resolve_keeps h1).trans (readOp_keeps h2)).regions
  rw [bind_run h1, bind_run h2, bind_run (readCcr_run _), bind_run (writeBack_run (by rw [hr]; exact h3))]
  simp only [modifyCcr_run, putOp_ccr]

theorem rmwEaFlagsFirst_run {f : Step} (h : CanChange sz ea k s op d s1) :
    rmwEaFlagsFirst sz ea k f s = .ok () ((s1.putOp sz op (f d s1.ccr).1).setCcr (f d s1.ccr).2) := by
  obtain ⟨s0, h1, h2, h3⟩ := h
  unfold rmwEaFlagsFirst
  have hr : s1.regions = s.regions := ((resolve_keeps h1).trans (readOp_keeps h2)).regions
  rw [bind_run h1, bind_run h2, bind_run (readCcr_run _), bind_run (modifyCcr_run _ _), ← putOp_setCcr]
  exact writeBack_run (show Operand.accepts sz s1.regions op from hr ▸ h3)

theorem eaToReg_run {f : Long → Step} {src : EA} {dn : RegNo} {x : Long} (h : readEa sz src 1 s = .ok x s1) :
    eaToReg sz src dn f s = .ok () ((s1.writeD dn sz (f x (sz.trunc (s1.getD dn)) s1.ccr).1).setCcr
      (f x (sz.trunc (s1.getD dn)) s1.ccr).2) := by
  unfold eaToReg; rw [bind_run h]; rfl

end

end Sys2Proof.Machine
end

