-- ==== Sys2Proof/Laws/Bodies.lean ====
section
/-! SUPPORT. What the shared operations of the bodies answer when their accesses are allowed, one lemma each: MOVEM,
MOVEP, the bounds check, shifts, bit fields, draws, the fetch window. Proofs cite these and do not unfold them. -/

namespace Sys2Proof.Machine

open Sys2Proof

/-! ### How an instruction answers, from how its body answers -/

theorem completes_of {i : Instr} {body : Exec Unit} {s t t' : State} (he : exec i s = runSeq i body s)
    (h : body s = .ok () t)
    (ht : t = t') : Completes i s t' := he.trans ((runSeq_ok h).trans (by rw [ht]))

theorem raises_of {i : Instr} {body : Exec Unit} {s t t' : State} {e} (he : exec i s = runSeq i body s)
    (h : body s = .error e t) (ht : t = t') :
    Raises i s e t' := he.trans ((runSeq_raise h).trans (by rw [ht]))

theorem goesTo_of {i : Instr} {body : Exec Addr} {s t : State} {a : Addr} (he : exec i s = runTo i body s)
    (h : body s = .ok a t) :
    GoesTo i s t a := he.trans (runTo_ok h)

/-! ### Draws and operands -/

theorem drawIf_run {c : Bool} {x y z : Long} {s : State} : ∃ (w : Long) (g : Nat), (c = false → w = z) ∧
    (c = true → w = x ∨ w = y) ∧ drawIf c x y z s = .ok w { s with draws := g } := by
  cases c with
  | false => exact ⟨z, s.draws, fun _ => rfl, by simp, rfl⟩
  | true =>
    refine ⟨if Config.drawBit s.draws then x else y, s.draws + 1, by simp, fun _ => ?_, rfl⟩
    split <;> simp

theorem memWriteSized_raise {s : State} {sz : Size} {a : Addr} {v : Long}
    (h : allowed s.regions .write a sz.bytes = false) :
    memWriteSized sz a v s = .error (.busError { addr := a, kind := .write, size := sz.bytes }) s := memWrite_raise h

theorem readOp_mem_run {s : State} {sz : Size} {a : Addr} {p : Option RegNo}
    (h : allowed s.regions .read a sz.bytes = true) :
   readOp sz (.mem a p) s = .ok (BitVec.ofNat 32 (s.load a sz.bytes)) (s.stepPost sz (.mem a p)) := by
  show (memReadSized sz a >>= fun v => applyPost sz p >>= fun _ => pure v) s = _
  rw [bind_run (memReadSized_run h)]
  cases p <;> rfl

theorem readOp_mem_raise {s : State} {sz : Size} {a : Addr} {p : Option RegNo}
    (h : allowed s.regions .read a sz.bytes = false) :
   readOp sz (.mem a p) s = .error (.busError { addr := a, kind := .read, size := sz.bytes }) s := by
  show (memReadSized sz a >>= fun v => applyPost sz p >>= fun _ => pure v) s = _
  rw [bind_raise (memReadSized_raise h)]

theorem writeOnly_mem_raise {s : State} {sz : Size} {a : Addr} {p : Option RegNo} {v}
    (h : allowed s.regions .write a sz.bytes = false) :
   writeOnly sz (.mem a p) v s = .error (.busError { addr := a, kind := .write, size := sz.bytes }) s := by
  show (memWriteSized sz a v >>= fun _ => applyPost sz p) s = _
  rw [bind_raise (memWriteSized_raise h)]

theorem mergeLow_congr (sz : Size) (o a b : Long) (h : a.toNat % 2 ^ sz.bits = b.toNat % 2 ^ sz.bits) :
    mergeLow sz o a = mergeLow sz o b := by
  cases sz
  · simp only [mergeLow]; congr 1; apply BitVec.eq_of_toNat_eq; simpa [Size.bits, Size.bytes] using h
  · simp only [mergeLow]; congr 1; apply BitVec.eq_of_toNat_eq; simpa [Size.bits, Size.bytes] using h
  · simp only [mergeLow]; apply BitVec.eq_of_toNat_eq; have := a.isLt; have :=
      b.isLt; simp [Size.bits, Size.bytes] at h; omega

theorem writeD_congr (sz : Size) (s : State) (n : RegNo) (a b : Long)
    (h : a.toNat % 2 ^ sz.bits = b.toNat % 2 ^ sz.bits) : s.writeD n sz a = s.writeD n sz b := by
  unfold State.writeD; rw [mergeLow_congr sz _ a b h]

theorem addCore_toNat (sz : Size) (d x : Long) (b : Bool) : ((addCore sz d x b).value).toNat =
    (d.toNat + x.toNat + b.toNat) % 2 ^ sz.bits := by
  simp only [addCore, BitVec.toNat_ofNat]
  cases sz <;> cases b <;> simp [Size.bits, Size.bytes, Size.trunc] <;> omega

theorem putOp_stepPost_ccr (s : State) (sz : Size) (op : Operand) (v : Long) : ((s.putOp sz op v).stepPost sz op).ccr =
    s.ccr := by
  cases op with
  | mem a p => cases p <;> rfl
  | _ => rfl

/-! ### Bounds -/

theorem boundsCheck_run {sz : Size} {rn : RegSel} {a : Addr} {s : State} 
   (h1 : allowed s.regions .read a sz.bytes = true)
       (h2 : allowed s.regions .read (a + BitVec.ofNat 32 sz.bytes) sz.bytes = true) :
   boundsCheck sz rn a s = .ok () 
     { s.setCcr {
        x := s.ccr.x, n := Config.drawBit s.draws,
        z := match rn with
          | .a n => boundsZ (sz.sext (BitVec.ofNat 32 (s.load a sz.bytes)))
              (sz.sext (BitVec.ofNat 32 (s.load (a + BitVec.ofNat 32 sz.bytes) sz.bytes))) (s.getA n)
          | .d n => boundsZ (BitVec.ofNat 32 (s.load a sz.bytes))
              (BitVec.ofNat 32 (s.load (a + BitVec.ofNat 32 sz.bytes) sz.bytes)) (sz.trunc (s.getD n)),
        v := Config.drawBit (s.draws + 1), 
        c := match rn with
          | .a n => boundsC (sz.sext (BitVec.ofNat 32 (s.load a sz.bytes)))
              (sz.sext (BitVec.ofNat 32 (s.load (a + BitVec.ofNat 32 sz.bytes) sz.bytes))) (s.getA n)
          | .d n => boundsC (BitVec.ofNat 32 (s.load a sz.bytes))
              (BitVec.ofNat 32 (s.load (a + BitVec.ofNat 32 sz.bytes) sz.bytes)) (sz.trunc (s.getD n)) } with draws :=
                  s.draws + 2 } := by
  refine (bind_run (memReadSized_run h1)).trans ((bind_run (memReadSized_run h2)).trans ?_)
  cases rn <;> rfl

theorem boundsZ_eq (lo hi v : Long) : boundsZ lo hi v = decide (v.toNat = lo.toNat ∨ v.toNat = hi.toNat) := by
  rw [Bool.eq_iff_iff]; simp [boundsZ, ← BitVec.toNat_inj]

theorem boundsC_iff (lo hi v : Long) : boundsC lo hi v = true ↔
    (if lo.toNat ≤ hi.toNat then v.toNat < lo.toNat ∨ hi.toNat < v.toNat else hi.toNat < v.toNat ∧
        v.toNat < lo.toNat) := by
  simp [boundsC, BitVec.le_def, BitVec.lt_def]

/-! ### MOVEM and MOVEP -/

theorem storeUp_run {sz : Size} : ∀ {rs : List RegSel} {a : Addr} {s : State}, 
    (∀ j ∈ upSpan sz rs.length a, allowedAt s.regions .write j = true) → storeUp sz rs a s = .ok ()
        (s.saveUp sz rs a) := by
  intro rs
  induction rs with
  | nil => intro a s _; rfl
  | cons r rs ih =>
    intro a s h
    simp only [List.length, upSpan, List.mem_append] at h
    refine (bind_run (readR_run r s)).trans
        ((bind_run (memWriteSized_run (allowed_iff.2 fun j hj => h j (.inl hj)))).trans ?_)
    exact ih fun j hj => h j (.inr hj)

theorem loadUp_run {sz : Size} : ∀ {rs : List RegSel} {a : Addr} {s : State}, 
    (∀ j ∈ upSpan sz rs.length a, allowedAt s.regions .read j = true) → loadUp sz rs a s = .ok (upBy a sz rs.length)
        (s.restore sz rs a) := by
  intro rs
  induction rs with
  | nil => intro a s _; simp [loadUp, upBy]; rfl
  | cons r rs ih =>
    intro a s h
    simp only [List.length, upSpan, List.mem_append] at h
    refine (bind_run (memReadSized_run (allowed_iff.2 fun j hj => h j (.inl hj)))).trans
        ((bind_run (putR_run _ _ _)).trans ?_)
    refine (ih fun j hj => ?_).trans ?_
    · rw [show (State.setR s r _).regions = s.regions from by cases r <;> rfl]; exact h j (.inr hj)
    · have : upBy (a + BitVec.ofNat 32 sz.bytes) sz rs.length = upBy a sz (rs.length + 1) := by
        simp only [upBy]; rw [BitVec.add_assoc]; congr 1
        apply BitVec.eq_of_toNat_eq; simp only [BitVec.toNat_add,
            BitVec.toNat_ofNat]; cases sz <;> simp only [Size.bytes] <;> omega
      rw [this]; rfl

theorem downBy_succ (a : Addr) (sz : Size) (m : Nat) : downBy (a - BitVec.ofNat 32 sz.bytes) sz m =
    downBy a sz (m + 1) := by
  simp only [downBy]
  rw [BitVec.sub_sub]; congr 1
  apply BitVec.eq_of_toNat_eq; simp only [BitVec.toNat_add,
      BitVec.toNat_ofNat]; cases sz <;> simp only [Size.bytes] <;> omega

theorem saveDown_draws {sz : Size} {n : RegNo} {w : Long} : ∀ {rs : List RegSel} {a : Addr} {s : State} (g : Nat),
   State.saveDown { s with draws := g } sz n w rs a = { s.saveDown sz n w rs a with draws := g } := by
  intro rs
  induction rs with
  | nil => intro a s g; rfl
  | cons r rs ih =>
    intro a s g
    simp only [State.saveDown]
    rw [← ih]; cases r <;> rfl

theorem saveDown_absent {sz : Size} {n : RegNo} {w w' : Long} : ∀ {rs : List RegSel} {a : Addr} {s : State}, .a n ∉ rs →
   State.saveDown s sz n w rs a = s.saveDown sz n w' rs a := by
  intro rs
  induction rs with
  | nil => intro a s g; rfl
  | cons r rs ih =>
    intro a s g
    simp only [List.mem_cons, not_or] at g
    simp only [State.saveDown, if_neg (Ne.symm g.1)]
    exact ih g.2

theorem storeDown_run {sz : Size} {n : RegNo} : ∀ {rs : List RegSel} {a : Addr} {s : State}, List.Nodup rs →
    (∀ j ∈ downSpan sz rs.length a, allowedAt s.regions .write j = true) → 
    ∃ (w : Long) (g : Nat), (w = s.getA n ∨ w = s.getA n - BitVec.ofNat 32 sz.bytes) ∧ 
      storeDown sz n rs a s = .ok (downBy a sz rs.length) { s.saveDown sz n w rs a with draws := g } := by
  intro rs
  induction rs with
  | nil => intro a s _ _; exact ⟨s.getA n, s.draws, .inl rfl, by simp [storeDown, downBy, State.saveDown]⟩
  | cons r rs ih =>
    intro a s hn h
    simp only [List.length, downSpan, List.mem_append] at h
    have hn' := List.nodup_cons.1 hn
    by_cases hr : r = .a n
    · subst hr
      let w := if Config.drawBit s.draws then s.getA n else s.getA n - BitVec.ofNat 32 sz.bytes
      obtain ⟨w', g, hw, he⟩ := ih (a := a - BitVec.ofNat 32 sz.bytes)
          (s := ({ s with draws := s.draws + 1 } :
              State).store (a - BitVec.ofNat 32 sz.bytes) sz.bytes w.toNat) hn'.2 (fun j hj => h j (.inr hj))
      refine ⟨w, g, by simp only [w]; split <;> simp, ?_⟩
      have hd : drawIf ((RegSel.a n) == .a n) (s.getR (.a n)) (s.getR (.a n) - BitVec.ofNat 32 sz.bytes)
          (s.getR (.a n)) s = .ok w { s with draws := s.draws + 1 } := by
        unfold drawIf; rw [if_pos (by simp)]; rfl
      refine (bind_run (readR_run _ s)).trans
          ((bind_run hd).trans
              ((bind_run (memWriteSized_run (s := { s with draws := s.draws + 1 })
                  (show allowed s.regions _ _ _ = true from allowed_iff.2 fun j hj => h j (.inl hj)))).trans ?_))
      rw [he, downBy_succ]
      congr 1
      rw [saveDown_absent (w' := w) hn'.1]
      have : ({ s with draws := s.draws + 1 } : State).store (a - BitVec.ofNat 32 sz.bytes) sz.bytes w.toNat =
          { s.store (a - BitVec.ofNat 32 sz.bytes) sz.bytes w.toNat with draws := s.draws + 1 } := rfl
      rw [this, saveDown_draws]
      simp only [State.saveDown]; simp
    · obtain ⟨w, g, hw, he⟩ := ih (a := a - BitVec.ofNat 32 sz.bytes)
        (s := s.store (a - BitVec.ofNat 32 sz.bytes) sz.bytes (s.getR r).toNat) hn'.2 (fun j hj => h j (.inr hj))
      refine ⟨w, g, hw, ?_⟩
      have hd : drawIf (r == .a n) (s.getR r) (s.getR r - BitVec.ofNat 32 sz.bytes) (s.getR r) s = .ok (s.getR r) s :=
          by
        unfold drawIf; rw [if_neg (by simpa using hr)]; rfl
      refine (bind_run (readR_run _ s)).trans
          ((bind_run hd).trans
              ((bind_run (memWriteSized_run (show allowed s.regions _ _ _ =
                  true from allowed_iff.2 fun j hj => h j (.inl hj)))).trans ?_))
      rw [he, downBy_succ]
      simp only [State.saveDown, if_neg hr]; rfl

theorem regOfIndex_injective : ∀ i < 16, ∀ j < 16, regOfIndex i = regOfIndex j → i = j := by decide

theorem maskRegs_nodup (mask : BitVec 16) : (maskRegs mask).Nodup := by
  unfold maskRegs
  refine List.pairwise_map.2 ?_
  refine List.Pairwise.imp_of_mem (R := (· ≠ ·)) ?_ (List.Pairwise.filter _ List.nodup_range)
  intro a b ha hb h he
  exact h (regOfIndex_injective a (List.mem_range.1 (List.mem_filter.1 ha).1) b (List.mem_range.1 (List.mem_filter.1 hb).1) he)

theorem maskRegsDown_nodup (mask : BitVec 16) : (maskRegsDown mask).Nodup := by
  unfold maskRegsDown
  refine List.pairwise_map.2 ?_
  refine List.Pairwise.imp_of_mem (R := (· ≠ ·)) ?_ (List.Pairwise.filter _ List.nodup_range)
  intro a b ha hb h he
  have h1 := (List.mem_range.1 (List.mem_filter.1 ha).1)
  have h2 := (List.mem_range.1 (List.mem_filter.1 hb).1)
  have := (regOfIndex_injective (15-a) (by omega) (15-b) (by omega) he)
  omega

theorem readSpread_run : ∀ {n : Nat} {a : Addr} {s : State},
    (∀ j ∈ spreadSpan n a, allowedAt s.regions .read j = true) →
    readSpread n a s = .ok (s.spread n a) s := by
  intro n
  induction n with
  | zero => intro a s _; rfl
  | succ n ih =>
    intro a s h
    simp only [spreadSpan, List.mem_append] at h
    refine (bind_run (memRead_run (allowed_iff.2 fun j hj => h j (.inl hj)))).trans
        ((bind_run (ih fun j hj => h j (.inr hj))).trans ?_)
    simp [State.spread, State.load, byteAddrs, beValue]

theorem writeSpread_run : ∀ {n : Nat} {a : Addr} {s : State} {v : Nat},
    (∀ j ∈ spreadSpan n a, allowedAt s.regions .write j = true) →
    writeSpread n a v s = .ok () (s.storeSpread n a v) := by
  intro n
  induction n with
  | zero => intro a s _ _; rfl
  | succ n ih =>
    intro a s v h
    simp only [spreadSpan, List.mem_append] at h
    refine (bind_run (memWrite_run (allowed_iff.2 fun j hj => h j (.inl hj)))).trans ?_
    exact ih fun j hj => h j (.inr hj)

/-! ### Shifts and bit fields -/

theorem shiftReg_run {sz c dy f} (s : State) : shiftReg sz c dy f s = .ok ()
    ((s.writeD dy sz (f (s.countOf c) (sz.trunc (s.getD dy)) s.ccr).1).setCcr (f (s.countOf c)
        (sz.trunc (s.getD dy)) s.ccr).2) := by
  cases c <;> rfl

theorem BitField.testBit_extract (f : BitField) (v j : Nat) :
    (f.extract v).testBit j = (decide (j < f.width) && v.testBit (f.bits - f.skip - f.width + j)) := by
  unfold BitField.extract
  rw [Nat.testBit_mod_two_pow, Nat.testBit_div_two_pow, Nat.add_comm]

/-- A width is 1 to 32 (R370). -/
theorem bfWidth_range (s : State) (w : BfWidth) : 0 < bfWidth s w ∧ bfWidth s w ≤ 32 := by
  cases w <;> simp only [bfWidth, bfWidthOf] <;> omega

/-- Bit i from the top of a value rotated left by o (R371). -/
theorem rotateLeft_bit (d : BitVec 32) (o i : Nat) (hi : i < 32) :
    (d.rotateLeft o).getLsbD (31 - i) = d.getLsbD (31 - (o + i) % 32) := by
  rw [BitVec.getLsbD_rotateLeft, Bool.cond_decide]
  split
  · congr 1; omega
  · next h =>
    have : decide (31 - i < 32) = true := by simp; omega
    rw [this, Bool.true_and]; congr 1; omega

theorem rotateRight_bit (d : BitVec 32) (o i : Nat) (hi : i < 32) :
    (d.rotateRight o).getLsbD (31 - (o + i) % 32) = d.getLsbD (31 - i) := by
  rw [BitVec.getLsbD_rotateRight, Bool.cond_decide]
  split
  · next h => congr 1; omega
  · next h =>
    have : decide (31 - (o + i) % 32 < 32) = true := by simp; omega
    rw [this, Bool.true_and]; congr 1; omega

theorem bfLocate_keeps {bf ea f} {s t : State} (h : bfLocate bf ea s = .ok f t) : OnlyA s t := by
  obtain ⟨u, s', h1, h2⟩ := bind_ok h
  cases h1
  cases ea with
  | dreg y => cases h2; rfl
  | _ =>
    obtain ⟨a, s'', h3, h4⟩ := bind_ok h2
    rw [← (pure_ok h4).2]; exact addrOf_keeps h3

theorem bfRead_run {f : BitField} {s : State} (h : f.allows s.regions .read) : bfRead f s = .ok (s.homeOf f) s := by
  rcases f with ⟨home, b, sk, w, o⟩
  cases home with
  | reg y rot => rfl
  | mem base n => exact memRead_run h

theorem bfWrite_run {f : BitField} {s : State} {v} (h : f.allows s.regions .write) : bfWrite f v s = .ok ()
    (s.setHome f v) := by
  rcases f with ⟨home, b, sk, w, o⟩
  cases home with
  | reg y rot => rfl
  | mem base n => exact memWrite_run h

theorem setHome_setCcr (s : State) (f : BitField) (v : Nat) (c : Ccr) : (s.setCcr c).setHome f v =
    (s.setHome f v).setCcr c := by
  rcases f with ⟨home, b, sk, w, o⟩; cases home <;> rfl

theorem setHome_ccr (s : State) (f : BitField) (v : Nat) : (s.setHome f v).ccr = s.ccr := by
  rcases f with ⟨home, b, sk, w, o⟩; cases home <;> rfl

theorem setHome_regions (s : State) (f : BitField) (v : Nat) : (s.setHome f v).regions = s.regions := by
  rcases f with ⟨home, b, sk, w, o⟩; cases home <;> rfl

theorem firstOne_spec (x : Nat) : ∀ w, firstOne w x ≤ w ∧ (∀ q < firstOne w x, x.testBit (w - 1 - q) = false) ∧
    (firstOne w x < w → x.testBit (w - 1 - firstOne w x) = true) := by
  intro w
  induction w with
  | zero => simp [firstOne]
  | succ w ih =>
    simp only [firstOne]
    split
    · next h => refine ⟨by omega, by simp, fun _ => by simpa using h⟩
    · next h =>
      refine ⟨by omega, ?_, ?_⟩
      · intro q hq
        by_cases h0 : q = 0
        · subst h0; simpa using h
        · have := ih.2.1 (q-1) (by omega)
          rw [show w + 1 - 1 - q = w - 1 - (q-1) by omega]; exact this
      · intro hq
        have := ih.2.2 (by omega)
        rw [show w + 1 - 1 - (firstOne w x + 1) = w - 1 - firstOne w x by omega]; exact this

/-! ### The bytes of an access -/

theorem byteAddrs_getElem {a : Addr} {n i : Nat} (h : i < n) : (byteAddrs a n)[i]'(by simpa using h) =
    (a + BitVec.ofNat 32 i).toNat := by
  induction n generalizing a i with
  | zero => omega
  | succ n ih =>
    cases i with
    | zero => simp [byteAddrs]
    | succ i =>
      simp only [byteAddrs, List.getElem_cons_succ]
      rw [ih (by omega)]
      congr 1
      apply BitVec.eq_of_toNat_eq
      simp only [BitVec.toNat_add, BitVec.toNat_ofNat, show (1 : Addr).toNat = 1 from rfl]; omega

theorem beBytes_getElem {n v i : Nat} (h : i < n) : (beBytes n v)[i]'(by simpa using h) =
    BitVec.ofNat 8 (v / 256 ^ (n - 1 - i)) := by
  induction n generalizing i with
  | zero => omega
  | succ n ih =>
    cases i with
    | zero => simp [beBytes]
    | succ i =>
      simp only [beBytes, List.getElem_cons_succ]
      rw [ih (by omega)]; congr 3; omega

theorem byteAddrs_mono {a : Addr} {n m j : Nat} (h : n ≤ m) (hj : j ∈ byteAddrs a n) : j ∈ byteAddrs a m := by
  obtain ⟨i, hi, rfl⟩ := mem_byteAddrs.1 hj
  exact mem_byteAddrs.2 ⟨i, by omega, rfl⟩

/-! ### Fetching -/

theorem fetchCheck_odd {s : State} {a : Addr} (h : a.getLsbD 0 = true) : fetchCheck s a = some (.addressError a) := by
  simp [fetchCheck, h]

theorem fetchWindow_none {s : State} {n : Nat} {a : Addr} {e : Raise} (h : fetchCheck s a = some e) :
    fetchWindow s (n+1) a = ([], some e) := by simp [fetchWindow, h]

theorem step_opcode_fault {s : State} {e : Raise} (hs : s.status = .running) (h : fetchCheck s s.pc = some e) :
    step s = .next (takeException s.pc s.pc none e (s.markFetched 0)) := by
  have hw : fetchWindow s maxWords s.pc = ([], some e) := fetchWindow_none h
  have : decode [] = .error .short [] := rfl
  simp only [step, hs, fetchInstr, hw, this, raiseAtFetch]
  rfl

theorem fetchWindow_length (s : State) : ∀ n a, (fetchWindow s n a).1.length ≤ n := by
  intro n
  induction n with
  | zero => intro a; simp [fetchWindow]
  | succ n ih =>
    intro a; simp only [fetchWindow]; split
    · simp
    · simp; exact ih _

theorem even_add {a : Addr} {n : Nat} (h : a.getLsbD 0 = false) : (a + BitVec.ofNat 32 (2 * n)).getLsbD 0 = false := by
  simp [BitVec.getLsbD, BitVec.toNat_add, Nat.testBit_zero] at *
  omega

theorem fetchWindow_not_addressError {s : State} : ∀ {n : Nat} {a x : Addr}, a.getLsbD 0 = false →
    (fetchWindow s n a).2 ≠ some (.addressError x) := by
  intro n
  induction n with
  | zero => intro a x _; simp [fetchWindow]
  | succ n ih =>
    intro a x ha
    simp only [fetchWindow]
    split
    · next e he =>
      intro h; cases h
      unfold fetchCheck at he
      rw [if_neg (by simp only [ha]; simp)] at he
      repeat' split at he
      all_goals cases he
    · exact ih (by
        have := even_add (n := 1) ha
        exact this)

theorem fetchCheck_bus {s : State} {a : Addr} (he : a.getLsbD 0 = false) (h : allowed s.regions .fetch a 2 = false) :
    fetchCheck s a = some (.busError { addr := a, kind := .fetch, size := 2 }) := by
  unfold fetchCheck; rw [he]; simp [h]

theorem fetchCheck_stale {s : State} {a : Addr} (he : a.getLsbD 0 = false) (h : allowed s.regions .fetch a 2 = true)
    (h' : a.toNat ∈ s.stale ∨ (a + 1).toNat ∈ s.stale) : fetchCheck s a = some (.staleFetch a) := by
  have hs : ((byteAddrs a 2).any fun k => s.stale.contains k) = true := by
    rw [show byteAddrs a 2 = [a.toNat, (a + 1).toNat] from rfl]
    simpa only [List.any_cons, List.any_nil, Bool.or_false, Bool.or_eq_true, List.contains_iff_mem] using h'
  unfold fetchCheck; rw [he, h, hs]; rfl

/-- The window ends at the first word that cannot be fetched. -/
theorem fetchWindow_stop {s : State} {e : Raise} : ∀ {n m : Nat} {a : Addr},
    (∀ j < n, fetchCheck s (a + BitVec.ofNat 32 (2 * j)) = none) → n < m →
    fetchCheck s (a + BitVec.ofNat 32 (2 * n)) = some e →
    fetchWindow s m a = ((List.range n).map fun j => s.wordAt (a + BitVec.ofNat 32 (2 * j)), some e) := by
  intro n
  induction n with
  | zero =>
    intro m a _ hm he
    obtain ⟨m, rfl⟩ : ∃ k, m = k + 1 := ⟨m - 1, by omega⟩
    simp at he
    simp [fetchWindow, he]
  | succ n ih =>
    intro m a h hm he
    obtain ⟨m, rfl⟩ : ∃ k, m = k + 1 := ⟨m - 1, by omega⟩
    have h0 := h 0 (by omega)
    simp at h0
    have hsum : ∀ j, a + 2 + BitVec.ofNat 32 (2 * j) = a + BitVec.ofNat 32 (2 * (j + 1)) := by
      intro j
      apply BitVec.eq_of_toNat_eq; simp [BitVec.toNat_add]; omega
    have := ih (m := m) (a := a + 2) (fun j hj => by rw [hsum]; exact h (j + 1) (by omega)) (by omega)
      (by rw [hsum]; exact he)
    simp only [fetchWindow, h0, this]
    rw [List.range_succ_eq_map]
    simp
    intro j hj
    rw [show a + 2#32 = a + 2 from rfl, hsum]

theorem fetchInstr_marks (s : State) :
    (∃ i n, n ≤ maxWords ∧ fetchInstr s = .run i (s.markFetched n)) ∨
    ∃ e ws n, n ≤ maxWords ∧ e ≠ .syscall ∧ fetchInstr s = .raised (takeException s.pc s.pc ws e (s.markFetched n)) :=
        by
  have hl := fetchWindow_length s maxWords s.pc
  unfold fetchInstr
  simp only
  split
  · exact .inl ⟨_, _, by omega, rfl⟩
  · exact .inr ⟨_, _, _, by omega, by simp, rfl⟩
  · refine .inr ⟨_, _, _, hl, ?_, rfl⟩
    cases h : (fetchWindow s maxWords s.pc).2 with
    | none => simp
    | some e => exact fetchWindow_ne_syscall h

/-! ### What becomes stale -/

theorem Effects.stale_writable {p : Perm} {s t : State} (h : Effects p s t) {j : Nat} (hj : j ∈ t.stale) :
    j ∈ s.stale ∨ allowedAt s.regions .write j = true := by
  induction h with
  | refl => exact .inl hj
  | setR _ r _ _ ih => cases r <;> exact ih hj
  | setCcr _ _ _ ih | draw _ ih => exact ih hj
  | store h a n v ok hst ih =>
    rw [State.store_stale, mem_markStale] at hj
    rcases hj with ⟨hj, _⟩ | hj
    · right; rw [← h.regions]; exact allowed_iff.1 ok j hj
    · exact ih hj

end Sys2Proof.Machine
end

