-- ==== Sys2Proof/Laws/PerInstr.lean ====
section
/-! SUPPORT. A law of every instruction as syntax, one lemma per constructor: an instruction is an even number of bytes,
2 to 22 of them (R121). -/

namespace Sys2Proof.Laws.Length

open Sys2Proof

/-- R121: `bytes_consumed` is even, at least 2 and at most 22. -/
def Statement (i : Instr) : Prop := 2 ≤ byteLength i ∧ byteLength i ≤ 22 ∧ byteLength i % 2 = 0

theorem of_ext {i : Instr} (h : (extWords i).length ≤ 10) : Statement i := by
  simp only [Statement, byteLength, encode, List.length_cons]
  omega

theorem le_of {m n : Nat} (h : Nat.ble m n = true) : m ≤ n := Nat.le_of_ble_eq_true h

theorem longWords_length (v : Long) : (longWords v).length = 2 := rfl

theorem immWords_length (sz : Size) (v : Long) : (immWords sz v).length ≤ 2 := by cases sz <;> simp [immWords, longWords]

theorem disp_length (d : Disp) : d.words.length ≤ 2 := by cases d <;> simp [Disp.words, longWords]

theorem indirection_length (x : Indirection) : x.words.length ≤ 2 := by
  cases x <;> simp [Indirection.words, disp_length]

theorem index_length (x : IndexExt) : x.words.length ≤ 5 := by
  cases x with
  | brief x d => simp [IndexExt.words]
  | full x bs is bd ind =>
    have := disp_length bd
    have := indirection_length ind
    simp only [IndexExt.words, List.length_cons, List.length_append]
    omega

theorem ea_length (sz : Size) (ea : EA) : (ea.words sz).length ≤ 5 := by
  cases ea with
  | index n x | pcIndex x => exact index_length x
  | imm v => exact Nat.le_trans (immWords_length sz v) (by omega)
  | _ => simp [EA.words, longWords]

theorem branch_length (d : BranchDisp) : d.words.length ≤ 2 := by cases d <;> simp [BranchDisp.words, longWords]

theorem trapcc_length (o : TrapccOperand) : o.words.length ≤ 2 := by cases o <;> simp [TrapccOperand.words, longWords]

theorem ori (sz : Size) (imm : Long) (dst : EA) : Statement (.ori sz imm dst) :=
  of_ext (List.length_append ▸ Nat.le_trans (Nat.add_le_add (immWords_length sz imm) (ea_length _ dst)) (le_of rfl))

theorem oriToCcr (imm : BitVec 8) : Statement (.oriToCcr imm) :=
  of_ext (le_of rfl)

theorem oriToSr : Statement .oriToSr :=
  of_ext (le_of rfl)

theorem andi (sz : Size) (imm : Long) (dst : EA) : Statement (.andi sz imm dst) :=
  of_ext (List.length_append ▸ Nat.le_trans (Nat.add_le_add (immWords_length sz imm) (ea_length _ dst)) (le_of rfl))

theorem andiToCcr (imm : BitVec 8) : Statement (.andiToCcr imm) :=
  of_ext (le_of rfl)

theorem andiToSr : Statement .andiToSr :=
  of_ext (le_of rfl)

theorem eori (sz : Size) (imm : Long) (dst : EA) : Statement (.eori sz imm dst) :=
  of_ext (List.length_append ▸ Nat.le_trans (Nat.add_le_add (immWords_length sz imm) (ea_length _ dst)) (le_of rfl))

theorem eoriToCcr (imm : BitVec 8) : Statement (.eoriToCcr imm) :=
  of_ext (le_of rfl)

theorem eoriToSr : Statement .eoriToSr :=
  of_ext (le_of rfl)

theorem subi (sz : Size) (imm : Long) (dst : EA) : Statement (.subi sz imm dst) :=
  of_ext (List.length_append ▸ Nat.le_trans (Nat.add_le_add (immWords_length sz imm) (ea_length _ dst)) (le_of rfl))

theorem addi (sz : Size) (imm : Long) (dst : EA) : Statement (.addi sz imm dst) :=
  of_ext (List.length_append ▸ Nat.le_trans (Nat.add_le_add (immWords_length sz imm) (ea_length _ dst)) (le_of rfl))

theorem cmpi (sz : Size) (imm : Long) (dst : EA) : Statement (.cmpi sz imm dst) :=
  of_ext (List.length_append ▸ Nat.le_trans (Nat.add_le_add (immWords_length sz imm) (ea_length _ dst)) (le_of rfl))

theorem cmp2 (sz : Size) (rn : RegSel) (src : EA) : Statement (.cmp2 sz rn src) :=
  of_ext (Nat.succ_le_succ (Nat.le_trans (ea_length _ src) (le_of rfl)))

theorem chk2 (sz : Size) (rn : RegSel) (src : EA) : Statement (.chk2 sz rn src) :=
  of_ext (Nat.succ_le_succ (Nat.le_trans (ea_length _ src) (le_of rfl)))

theorem rtm (rn : RegSel) : Statement (.rtm rn) :=
  of_ext (le_of rfl)

theorem callm (arg : BitVec 16) (src : EA) : Statement (.callm arg src) :=
  of_ext (Nat.succ_le_succ (Nat.le_trans (ea_length _ src) (le_of rfl)))

theorem btstImm (num : BitVec 8) (ea : EA) : Statement (.btstImm num ea) :=
  of_ext (Nat.succ_le_succ (Nat.le_trans (ea_length _ ea) (le_of rfl)))

theorem btstReg (dn : RegNo) (ea : EA) : Statement (.btstReg dn ea) :=
  of_ext (Nat.le_trans (ea_length _ ea) (le_of rfl))

theorem bchgImm (num : BitVec 8) (ea : EA) : Statement (.bchgImm num ea) :=
  of_ext (Nat.succ_le_succ (Nat.le_trans (ea_length _ ea) (le_of rfl)))

theorem bchgReg (dn : RegNo) (ea : EA) : Statement (.bchgReg dn ea) :=
  of_ext (Nat.le_trans (ea_length _ ea) (le_of rfl))

theorem bclrImm (num : BitVec 8) (ea : EA) : Statement (.bclrImm num ea) :=
  of_ext (Nat.succ_le_succ (Nat.le_trans (ea_length _ ea) (le_of rfl)))

theorem bclrReg (dn : RegNo) (ea : EA) : Statement (.bclrReg dn ea) :=
  of_ext (Nat.le_trans (ea_length _ ea) (le_of rfl))

theorem bsetImm (num : BitVec 8) (ea : EA) : Statement (.bsetImm num ea) :=
  of_ext (Nat.succ_le_succ (Nat.le_trans (ea_length _ ea) (le_of rfl)))

theorem bsetReg (dn : RegNo) (ea : EA) : Statement (.bsetReg dn ea) :=
  of_ext (Nat.le_trans (ea_length _ ea) (le_of rfl))

theorem movep (toMem : Bool) (sz : Size) (dx : RegNo) (ay : RegNo) (disp : BitVec 16) : Statement (.movep toMem sz dx ay disp) :=
  of_ext (le_of rfl)

theorem moves (sz : Size) (ea : EaField) : Statement (.moves sz ea) :=
  of_ext (le_of rfl)

theorem casB (dc : RegNo) (du : RegNo) (dst : EA) : Statement (.casB dc du dst) :=
  of_ext (Nat.succ_le_succ (Nat.le_trans (ea_length _ dst) (le_of rfl)))

theorem casW (dc : RegNo) (du : RegNo) (dst : EA) : Statement (.casW dc du dst) :=
  of_ext (Nat.succ_le_succ (Nat.le_trans (ea_length _ dst) (le_of rfl)))

theorem casL (dc : RegNo) (du : RegNo) (dst : EA) : Statement (.casL dc du dst) :=
  of_ext (Nat.succ_le_succ (Nat.le_trans (ea_length _ dst) (le_of rfl)))

theorem cas2W (op1 : Cas2Operand) (op2 : Cas2Operand) : Statement (.cas2W op1 op2) :=
  of_ext (le_of rfl)

theorem cas2L (op1 : Cas2Operand) (op2 : Cas2Operand) : Statement (.cas2L op1 op2) :=
  of_ext (le_of rfl)

theorem moveB (src : EA) (dst : EA) : Statement (.moveB src dst) :=
  of_ext (List.length_append ▸ Nat.add_le_add (ea_length _ src) (ea_length _ dst))

theorem moveW (src : EA) (dst : EA) : Statement (.moveW src dst) :=
  of_ext (List.length_append ▸ Nat.add_le_add (ea_length _ src) (ea_length _ dst))

theorem moveL (src : EA) (dst : EA) : Statement (.moveL src dst) :=
  of_ext (List.length_append ▸ Nat.add_le_add (ea_length _ src) (ea_length _ dst))

theorem moveaW (src : EA) (an : RegNo) : Statement (.moveaW src an) :=
  of_ext (Nat.le_trans (ea_length _ src) (le_of rfl))

theorem moveaL (src : EA) (an : RegNo) : Statement (.moveaL src an) :=
  of_ext (Nat.le_trans (ea_length _ src) (le_of rfl))

theorem negx (sz : Size) (dst : EA) : Statement (.negx sz dst) :=
  of_ext (Nat.le_trans (ea_length _ dst) (le_of rfl))

theorem clr (sz : Size) (dst : EA) : Statement (.clr sz dst) :=
  of_ext (Nat.le_trans (ea_length _ dst) (le_of rfl))

theorem neg (sz : Size) (dst : EA) : Statement (.neg sz dst) :=
  of_ext (Nat.le_trans (ea_length _ dst) (le_of rfl))

theorem notEa (sz : Size) (dst : EA) : Statement (.notEa sz dst) :=
  of_ext (Nat.le_trans (ea_length _ dst) (le_of rfl))

theorem moveFromSr (ea : EaField) : Statement (.moveFromSr ea) :=
  of_ext (le_of rfl)

theorem moveFromCcr (dst : EA) : Statement (.moveFromCcr dst) :=
  of_ext (Nat.le_trans (ea_length _ dst) (le_of rfl))

theorem moveToCcr (src : EA) : Statement (.moveToCcr src) :=
  of_ext (Nat.le_trans (ea_length _ src) (le_of rfl))

theorem moveToSr (ea : EaField) : Statement (.moveToSr ea) :=
  of_ext (le_of rfl)

theorem chkW (src : EA) (dn : RegNo) : Statement (.chkW src dn) :=
  of_ext (Nat.le_trans (ea_length _ src) (le_of rfl))

theorem chkL (src : EA) (dn : RegNo) : Statement (.chkL src dn) :=
  of_ext (Nat.le_trans (ea_length _ src) (le_of rfl))

theorem lea (src : EA) (an : RegNo) : Statement (.lea src an) :=
  of_ext (Nat.le_trans (ea_length _ src) (le_of rfl))

theorem nbcd (dst : EA) : Statement (.nbcd dst) :=
  of_ext (Nat.le_trans (ea_length _ dst) (le_of rfl))

theorem linkL (an : RegNo) (disp : BitVec 32) : Statement (.linkL an disp) :=
  of_ext (le_of rfl)

theorem swap (dn : RegNo) : Statement (.swap dn) :=
  of_ext (le_of rfl)

theorem bkpt (num : BitVec 3) : Statement (.bkpt num) :=
  of_ext (le_of rfl)

theorem pea (src : EA) : Statement (.pea src) :=
  of_ext (Nat.le_trans (ea_length _ src) (le_of rfl))

theorem extW (dn : RegNo) : Statement (.extW dn) :=
  of_ext (le_of rfl)

theorem extL (dn : RegNo) : Statement (.extL dn) :=
  of_ext (le_of rfl)

theorem extbL (dn : RegNo) : Statement (.extbL dn) :=
  of_ext (le_of rfl)

theorem movemToMem (sz : Size) (mask : BitVec 16) (dst : EA) : Statement (.movemToMem sz mask dst) :=
  of_ext (Nat.succ_le_succ (Nat.le_trans (ea_length _ dst) (le_of rfl)))

theorem movemToReg (sz : Size) (mask : BitVec 16) (src : EA) : Statement (.movemToReg sz mask src) :=
  of_ext (Nat.succ_le_succ (Nat.le_trans (ea_length _ src) (le_of rfl)))

theorem tst (sz : Size) (src : EA) : Statement (.tst sz src) :=
  of_ext (Nat.le_trans (ea_length _ src) (le_of rfl))

theorem tas (dst : EA) : Statement (.tas dst) :=
  of_ext (Nat.le_trans (ea_length _ dst) (le_of rfl))

theorem illegal : Statement .illegal :=
  of_ext (le_of rfl)

theorem muluL (dl : RegNo) (form : Product) (src : EA) : Statement (.muluL dl form src) :=
  of_ext (Nat.succ_le_succ (Nat.le_trans (ea_length _ src) (le_of rfl)))

theorem mulsL (dl : RegNo) (form : Product) (src : EA) : Statement (.mulsL dl form src) :=
  of_ext (Nat.succ_le_succ (Nat.le_trans (ea_length _ src) (le_of rfl)))

theorem divuL (dq : RegNo) (wide : Bool) (dr : RegNo) (src : EA) : Statement (.divuL dq wide dr src) :=
  of_ext (Nat.succ_le_succ (Nat.le_trans (ea_length _ src) (le_of rfl)))

theorem divsL (dq : RegNo) (wide : Bool) (dr : RegNo) (src : EA) : Statement (.divsL dq wide dr src) :=
  of_ext (Nat.succ_le_succ (Nat.le_trans (ea_length _ src) (le_of rfl)))

theorem trap (vector : BitVec 4) : Statement (.trap vector) :=
  of_ext (le_of rfl)

theorem linkW (an : RegNo) (disp : BitVec 16) : Statement (.linkW an disp) :=
  of_ext (le_of rfl)

theorem unlk (an : RegNo) : Statement (.unlk an) :=
  of_ext (le_of rfl)

theorem moveToUsp (an : RegNo) : Statement (.moveToUsp an) :=
  of_ext (le_of rfl)

theorem moveFromUsp (an : RegNo) : Statement (.moveFromUsp an) :=
  of_ext (le_of rfl)

theorem reset : Statement .reset :=
  of_ext (le_of rfl)

theorem nop : Statement .nop :=
  of_ext (le_of rfl)

theorem stop : Statement .stop :=
  of_ext (le_of rfl)

theorem rte : Statement .rte :=
  of_ext (le_of rfl)

theorem rtd (disp : BitVec 16) : Statement (.rtd disp) :=
  of_ext (le_of rfl)

theorem rts : Statement .rts :=
  of_ext (le_of rfl)

theorem trapv : Statement .trapv :=
  of_ext (le_of rfl)

theorem rtr : Statement .rtr :=
  of_ext (le_of rfl)

theorem movec (toControl : Bool) : Statement (.movec toControl) :=
  of_ext (le_of rfl)

theorem jsr (src : EA) : Statement (.jsr src) :=
  of_ext (Nat.le_trans (ea_length _ src) (le_of rfl))

theorem jmp (src : EA) : Statement (.jmp src) :=
  of_ext (Nat.le_trans (ea_length _ src) (le_of rfl))

theorem addq (sz : Size) (data : BitVec 4) (dst : EA) : Statement (.addq sz data dst) :=
  of_ext (Nat.le_trans (ea_length _ dst) (le_of rfl))

theorem subq (sz : Size) (data : BitVec 4) (dst : EA) : Statement (.subq sz data dst) :=
  of_ext (Nat.le_trans (ea_length _ dst) (le_of rfl))

theorem scc (c : Cond) (dst : EA) : Statement (.scc c dst) :=
  of_ext (Nat.le_trans (ea_length _ dst) (le_of rfl))

theorem dbcc (c : Cond) (dn : RegNo) (disp : BitVec 16) : Statement (.dbcc c dn disp) :=
  of_ext (le_of rfl)

theorem trapcc (c : Cond) (operand : TrapccOperand) : Statement (.trapcc c operand) :=
  of_ext (Nat.le_trans (trapcc_length operand) (le_of rfl))

theorem bra (disp : BranchDisp) : Statement (.bra disp) :=
  of_ext (Nat.le_trans (branch_length disp) (le_of rfl))

theorem bsr (disp : BranchDisp) : Statement (.bsr disp) :=
  of_ext (Nat.le_trans (branch_length disp) (le_of rfl))

theorem bcc (c : Cond) (disp : BranchDisp) : Statement (.bcc c disp) :=
  of_ext (Nat.le_trans (branch_length disp) (le_of rfl))

theorem moveq (imm : Long) (dn : RegNo) : Statement (.moveq imm dn) :=
  of_ext (le_of rfl)

theorem orToReg (sz : Size) (src : EA) (dn : RegNo) : Statement (.orToReg sz src dn) :=
  of_ext (Nat.le_trans (ea_length _ src) (le_of rfl))

theorem orToEa (sz : Size) (dn : RegNo) (dst : EA) : Statement (.orToEa sz dn dst) :=
  of_ext (Nat.le_trans (ea_length _ dst) (le_of rfl))

theorem sbcd (mem : Bool) (x : RegNo) (y : RegNo) : Statement (.sbcd mem x y) :=
  of_ext (le_of rfl)

theorem andToReg (sz : Size) (src : EA) (dn : RegNo) : Statement (.andToReg sz src dn) :=
  of_ext (Nat.le_trans (ea_length _ src) (le_of rfl))

theorem andToEa (sz : Size) (dn : RegNo) (dst : EA) : Statement (.andToEa sz dn dst) :=
  of_ext (Nat.le_trans (ea_length _ dst) (le_of rfl))

theorem abcd (mem : Bool) (x : RegNo) (y : RegNo) : Statement (.abcd mem x y) :=
  of_ext (le_of rfl)

theorem divuW (src : EA) (dn : RegNo) : Statement (.divuW src dn) :=
  of_ext (Nat.le_trans (ea_length _ src) (le_of rfl))

theorem divsW (src : EA) (dn : RegNo) : Statement (.divsW src dn) :=
  of_ext (Nat.le_trans (ea_length _ src) (le_of rfl))

theorem pack (mem : Bool) (x : RegNo) (y : RegNo) (adj : BitVec 16) : Statement (.pack mem x y adj) :=
  of_ext (le_of rfl)

theorem unpk (mem : Bool) (x : RegNo) (y : RegNo) (adj : BitVec 16) : Statement (.unpk mem x y adj) :=
  of_ext (le_of rfl)

theorem muluW (src : EA) (dn : RegNo) : Statement (.muluW src dn) :=
  of_ext (Nat.le_trans (ea_length _ src) (le_of rfl))

theorem mulsW (src : EA) (dn : RegNo) : Statement (.mulsW src dn) :=
  of_ext (Nat.le_trans (ea_length _ src) (le_of rfl))

theorem exgDD (x : RegNo) (y : RegNo) : Statement (.exgDD x y) :=
  of_ext (le_of rfl)

theorem exgAA (x : RegNo) (y : RegNo) : Statement (.exgAA x y) :=
  of_ext (le_of rfl)

theorem exgDA (x : RegNo) (y : RegNo) : Statement (.exgDA x y) :=
  of_ext (le_of rfl)

theorem subToReg (sz : Size) (src : EA) (dn : RegNo) : Statement (.subToReg sz src dn) :=
  of_ext (Nat.le_trans (ea_length _ src) (le_of rfl))

theorem subToEa (sz : Size) (dn : RegNo) (dst : EA) : Statement (.subToEa sz dn dst) :=
  of_ext (Nat.le_trans (ea_length _ dst) (le_of rfl))

theorem subaW (src : EA) (an : RegNo) : Statement (.subaW src an) :=
  of_ext (Nat.le_trans (ea_length _ src) (le_of rfl))

theorem subaL (src : EA) (an : RegNo) : Statement (.subaL src an) :=
  of_ext (Nat.le_trans (ea_length _ src) (le_of rfl))

theorem subx (sz : Size) (mem : Bool) (x : RegNo) (y : RegNo) : Statement (.subx sz mem x y) :=
  of_ext (le_of rfl)

theorem addToReg (sz : Size) (src : EA) (dn : RegNo) : Statement (.addToReg sz src dn) :=
  of_ext (Nat.le_trans (ea_length _ src) (le_of rfl))

theorem addToEa (sz : Size) (dn : RegNo) (dst : EA) : Statement (.addToEa sz dn dst) :=
  of_ext (Nat.le_trans (ea_length _ dst) (le_of rfl))

theorem addaW (src : EA) (an : RegNo) : Statement (.addaW src an) :=
  of_ext (Nat.le_trans (ea_length _ src) (le_of rfl))

theorem addaL (src : EA) (an : RegNo) : Statement (.addaL src an) :=
  of_ext (Nat.le_trans (ea_length _ src) (le_of rfl))

theorem addx (sz : Size) (mem : Bool) (x : RegNo) (y : RegNo) : Statement (.addx sz mem x y) :=
  of_ext (le_of rfl)

theorem cmp (sz : Size) (src : EA) (dn : RegNo) : Statement (.cmp sz src dn) :=
  of_ext (Nat.le_trans (ea_length _ src) (le_of rfl))

theorem cmpaW (src : EA) (an : RegNo) : Statement (.cmpaW src an) :=
  of_ext (Nat.le_trans (ea_length _ src) (le_of rfl))

theorem cmpaL (src : EA) (an : RegNo) : Statement (.cmpaL src an) :=
  of_ext (Nat.le_trans (ea_length _ src) (le_of rfl))

theorem eor (sz : Size) (dn : RegNo) (dst : EA) : Statement (.eor sz dn dst) :=
  of_ext (Nat.le_trans (ea_length _ dst) (le_of rfl))

theorem cmpm (sz : Size) (x : RegNo) (y : RegNo) : Statement (.cmpm sz x y) :=
  of_ext (le_of rfl)

theorem asrReg (sz : Size) (count : ShiftCount) (dy : RegNo) : Statement (.asrReg sz count dy) :=
  of_ext (le_of rfl)

theorem asrMem (dst : EA) : Statement (.asrMem dst) :=
  of_ext (Nat.le_trans (ea_length _ dst) (le_of rfl))

theorem aslReg (sz : Size) (count : ShiftCount) (dy : RegNo) : Statement (.aslReg sz count dy) :=
  of_ext (le_of rfl)

theorem aslMem (dst : EA) : Statement (.aslMem dst) :=
  of_ext (Nat.le_trans (ea_length _ dst) (le_of rfl))

theorem lsrReg (sz : Size) (count : ShiftCount) (dy : RegNo) : Statement (.lsrReg sz count dy) :=
  of_ext (le_of rfl)

theorem lsrMem (dst : EA) : Statement (.lsrMem dst) :=
  of_ext (Nat.le_trans (ea_length _ dst) (le_of rfl))

theorem lslReg (sz : Size) (count : ShiftCount) (dy : RegNo) : Statement (.lslReg sz count dy) :=
  of_ext (le_of rfl)

theorem lslMem (dst : EA) : Statement (.lslMem dst) :=
  of_ext (Nat.le_trans (ea_length _ dst) (le_of rfl))

theorem roxrReg (sz : Size) (count : ShiftCount) (dy : RegNo) : Statement (.roxrReg sz count dy) :=
  of_ext (le_of rfl)

theorem roxrMem (dst : EA) : Statement (.roxrMem dst) :=
  of_ext (Nat.le_trans (ea_length _ dst) (le_of rfl))

theorem roxlReg (sz : Size) (count : ShiftCount) (dy : RegNo) : Statement (.roxlReg sz count dy) :=
  of_ext (le_of rfl)

theorem roxlMem (dst : EA) : Statement (.roxlMem dst) :=
  of_ext (Nat.le_trans (ea_length _ dst) (le_of rfl))

theorem rorReg (sz : Size) (count : ShiftCount) (dy : RegNo) : Statement (.rorReg sz count dy) :=
  of_ext (le_of rfl)

theorem rorMem (dst : EA) : Statement (.rorMem dst) :=
  of_ext (Nat.le_trans (ea_length _ dst) (le_of rfl))

theorem rolReg (sz : Size) (count : ShiftCount) (dy : RegNo) : Statement (.rolReg sz count dy) :=
  of_ext (le_of rfl)

theorem rolMem (dst : EA) : Statement (.rolMem dst) :=
  of_ext (Nat.le_trans (ea_length _ dst) (le_of rfl))

theorem bftst (bf : BfSpec) (ea : EA) : Statement (.bftst bf ea) :=
  of_ext (Nat.succ_le_succ (Nat.le_trans (ea_length _ ea) (le_of rfl)))

theorem bfextu (bf : BfSpec) (ea : EA) (dn : RegNo) : Statement (.bfextu bf ea dn) :=
  of_ext (Nat.succ_le_succ (Nat.le_trans (ea_length _ ea) (le_of rfl)))

theorem bfchg (bf : BfSpec) (ea : EA) : Statement (.bfchg bf ea) :=
  of_ext (Nat.succ_le_succ (Nat.le_trans (ea_length _ ea) (le_of rfl)))

theorem bfexts (bf : BfSpec) (ea : EA) (dn : RegNo) : Statement (.bfexts bf ea dn) :=
  of_ext (Nat.succ_le_succ (Nat.le_trans (ea_length _ ea) (le_of rfl)))

theorem bfclr (bf : BfSpec) (ea : EA) : Statement (.bfclr bf ea) :=
  of_ext (Nat.succ_le_succ (Nat.le_trans (ea_length _ ea) (le_of rfl)))

theorem bfffo (bf : BfSpec) (ea : EA) (dn : RegNo) : Statement (.bfffo bf ea dn) :=
  of_ext (Nat.succ_le_succ (Nat.le_trans (ea_length _ ea) (le_of rfl)))

theorem bfset (bf : BfSpec) (ea : EA) : Statement (.bfset bf ea) :=
  of_ext (Nat.succ_le_succ (Nat.le_trans (ea_length _ ea) (le_of rfl)))

theorem bfins (bf : BfSpec) (dn : RegNo) (ea : EA) : Statement (.bfins bf dn ea) :=
  of_ext (Nat.succ_le_succ (Nat.le_trans (ea_length _ ea) (le_of rfl)))

theorem lineA (bits : BitVec 12) : Statement (.lineA bits) :=
  of_ext (le_of rfl)

theorem lineF (bits : BitVec 12) : Statement (.lineF bits) :=
  of_ext (le_of rfl)

end Sys2Proof.Laws.Length
end

