-- ==== Sys2Proof/Tests/Slice0.lean ====
section
/-! SUPPORT. The model's own tests: ill-formed terms that the checks of WellFormed refuse, words written out from the
encodings of 30_encoding.md and the instruction rules, and one step of each instruction with the result the spec's
examples and 95_test_vectors.md give. The witnesses of the obligations are in Sys2Proof/Tests/Witness.lean. -/

namespace Sys2Proof.Tests

open Sys2Proof Sys2Proof.Machine

-- One theorem after another: each of these waits for the kernel, and waiting theorems hold threads.
set_option Elab.async false

/-! ### Helpers -/

/-- The regions the vectors of 95_test_vectors.md assume. -/
def vectorMap : List Region :=
  [{ base := 0x1000, length := 0x1000, r := true, w := false, x := true },
    { base := 0x2000, length := 0x1000, r := true, w := true, x := false },
    { base := 0x7000, length := 0x1000, r := true, w := true, x := false }]

/-- The state the vectors assume, with words at 0x1000. -/
def cpu (ws : List Word16) : State :=
  State.launch {
    initD := Vector.replicate 8 0, initA := Vector.replicate 7 0, initSp := 0x8000, initCcr := Ccr.ofBits 0,
    entryPc := 0x1000, initMem := Memory.setBytes [] 0x1000 (bytesOfWords ws), initRegions := vectorMap }

/-- The same with words and PC at `a`. -/
def cpuAt (a : Addr) (ws : List Word16) : State :=
  { cpu [] with pc := a, mem := Memory.setBytes [] a (bytesOfWords ws) }

/-- The CCR reads X N Z V C. -/
def flagsAre (t : State) (b : BitVec 5) : Bool := Ccr.toBits t.ccr == b

/-- One step from `s` leads to a state with `p`. -/
def check (s : State) (p : State → Bool) : Bool :=
  match step s with
  | .next t => p t
  | .fault _ | .refused _ => false

/-- The core stopped with this record's cause, vector, PC, opcode word and fault. -/
def haltedWith (t : State) (c : Cause) (v : Option (BitVec 8)) (pc : Addr) (op : Option Word16)
    (f : Option FaultDetail) : Bool :=
  match t.status with
  | .halted r => r.cause == c && r.vector == v && r.pc == pc && r.opcode == op && r.fault == f
  | .running | .syscallPending | .exited _ => false

/-- The words decode to this instruction, all of them taken. -/
def spells (ws : List Word16) (i : Instr) : Bool :=
  match decode ws with
  | .ok j [] => decide (i = j)
  | .ok _ (_ :: _) | .error _ _ => false

/-- The words spell no instruction. -/
def rejected (ws : List Word16) : Bool :=
  match decode ws with
  | .error .illegal _ => true
  | .ok _ _ | .error .short _ => false

/-! ### Ill-formed terms -/

theorem test_wf_immediate_wider_than_size : Instr.wf (.addi .b 0x100 (.dreg 0)) = false := by decide
theorem test_wf_no_byte_access_of_address_register : Instr.wf (.tst .b (.areg 0)) = false := by decide
theorem test_wf_destination_class : Instr.wf (.moveW (.dreg 0) (.pcDisp 4)) = false := by decide
theorem test_wf_memory_destination : Instr.wf (.addToEa .l 0 (.dreg 1)) = false := by decide
theorem test_wf_control_class : Instr.wf (.lea (.postinc 0) 1) = false := by decide
theorem test_wf_movem_class : Instr.wf (.movemToReg .l 1 (.predec 0)) = false := by decide
theorem test_wf_postindexed_without_index :
    Instr.wf (.lea (.index 0 (.full ⟨.d 1, true, 0⟩ false true (.word 0) (.post .null))) 1) = false := by decide
theorem test_wf_ea_field : Instr.wf (.moveFromSr ⟨1, 0⟩) = false := by decide
theorem test_wf_branch_displacement : Instr.wf (.bra (.byte 0)) = false := by decide
theorem test_wf_branch_long_marker : Instr.wf (.bsr (.byte 0xFF)) = false := by decide
theorem test_wf_bcc_condition : Instr.wf (.bcc .f (.byte 2)) = false := by decide
theorem test_wf_quick_data : Instr.wf (.addq .l 0 (.dreg 0)) = false := by decide
theorem test_wf_shift_count : Instr.wf (.aslReg .l (.imm 9) 0) = false := by decide
theorem test_wf_moveq_data : Instr.wf (.moveq 0x80 0) = false := by decide
theorem test_wf_movep_size : Instr.wf (.movep true .b 0 0 0) = false := by decide
theorem test_wf_movem_size : Instr.wf (.movemToMem .b 1 (.ind 0)) = false := by decide

/-! ### Decoding: words written out from the encodings -/

theorem test_decode_immediate :
    (spells [0x0003, 0x0081] (.ori .b 0x81 (.dreg 3)) && spells [0x003C, 0x0004] (.oriToCcr 4) &&
    spells [0x007C] .oriToSr && spells [0x0240, 0x00F0] (.andi .w 0xF0 (.dreg 0)) &&
    spells [0x023C, 0x00FE] (.andiToCcr 0xFE) && spells [0x027C] .andiToSr &&
    spells [0x0A00, 0x00FF] (.eori .b 0xFF (.dreg 0)) && spells [0x0A3C, 0x0010] (.eoriToCcr 0x10) &&
    spells [0x0A7C] .eoriToSr && spells [0x0441, 0x0001] (.subi .w 1 (.dreg 1)) &&
    spells [0x0680, 0x1234, 0x5678] (.addi .l 0x12345678 (.dreg 0)) &&
    spells [0x0C00, 0x0080] (.cmpi .b 0x80 (.dreg 0)) && spells [0x103C, 0xAB12] (.moveB (.imm 0x12) (.dreg 0))) =
    true := by decide +kernel

theorem test_decode_line0 :
    (spells [0x02D0, 0x9000] (.cmp2 .w (.a 1) (.ind 0)) && spells [0x02D0, 0x3800] (.chk2 .w (.d 3) (.ind 0)) &&
    spells [0x06C8] (.rtm (.a 0)) && spells [0x06D0, 0x0000] (.callm 0 (.ind 0)) &&
    spells [0x0800, 0x001F] (.btstImm 31 (.dreg 0)) && spells [0x0300] (.btstReg 1 (.dreg 0)) &&
    spells [0x0841, 0x0000] (.bchgImm 0 (.dreg 1)) && spells [0x0350] (.bchgReg 1 (.ind 0)) &&
    spells [0x0880, 0x001F] (.bclrImm 31 (.dreg 0)) && spells [0x0581] (.bclrReg 2 (.dreg 1)) &&
    spells [0x08C0, 0xAB03] (.bsetImm 3 (.dreg 0)) && spells [0x07C2] (.bsetReg 3 (.dreg 2)) &&
    spells [0x0108, 0x0000] (.movep false .w 0 0 0) && spells [0x01C8, 0x0002] (.movep true .l 0 0 2) &&
    spells [0x0E50] (.moves .w ⟨2, 0⟩)) = true := by decide +kernel

theorem test_decode_synchronising :
    (spells [0x0AD0, 0x0040] (.casB 0 1 (.ind 0)) && spells [0x0CD0, 0x0040] (.casW 0 1 (.ind 0)) &&
    spells [0x0ED0, 0x0040] (.casL 0 1 (.ind 0)) && spells [0x0CFC, 0x8080, 0x90C1] (.cas2W ⟨.a 0, 2, 0⟩ ⟨.a 1, 3, 1⟩) &&
    spells [0x0EFC, 0x8080, 0x90C1] (.cas2L ⟨.a 0, 2, 0⟩ ⟨.a 1, 3, 1⟩) && spells [0x4AD0] (.tas (.ind 0))) = true := by
  decide +kernel

theorem test_decode_moves :
    (spells [0x1280] (.moveB (.dreg 0) (.ind 1)) && spells [0x3300] (.moveW (.dreg 0) (.predec 1)) &&
    spells [0x2210] (.moveL (.ind 0) (.dreg 1)) && spells [0x307C, 0x8000] (.moveaW (.imm 0x8000) 0) &&
    spells [0x2058] (.moveaL (.postinc 0) 0) && spells [0x76FF] (.moveq 0xFFFFFFFF 3) &&
    spells [0x23E8, 0x0008, 0x0001, 0x2345] (.moveL (.disp 0 8) (.absL 0x12345)) &&
    spells [0x48E7, 0x8002] (.movemToMem .l 0x8002 (.predec 7)) &&
    spells [0x4C98, 0x0201] (.movemToReg .w 0x0201 (.postinc 0)) && spells [0x4850] (.pea (.ind 0)) &&
    spells [0x43E8, 0x0008] (.lea (.disp 0 8) 1) && spells [0x4840] (.swap 0) && spells [0xC141] (.exgDD 0 1) &&
    spells [0xC149] (.exgAA 0 1) && spells [0xC189] (.exgDA 0 1)) = true := by decide +kernel

theorem test_decode_longest :
    spells [0x23B0, 0x0D33, 0x0001, 0x0002, 0x0003, 0x0004, 0x0D33, 0x0005, 0x0006, 0x0007, 0x0008]
      (.moveL (.index 0 (.full ⟨.d 0, true, 2⟩ false false (.long 0x00010002) (.pre (.long 0x00030004))))
        (.index 1 (.full ⟨.d 0, true, 2⟩ false false (.long 0x00050006) (.pre (.long 0x00070008))))) = true := by
  decide +kernel

theorem test_decode_line4 :
    (spells [0x4080] (.negx .l (.dreg 0)) && spells [0x4200] (.clr .b (.dreg 0)) && spells [0x4480] (.neg .l (.dreg 0)) &&
    spells [0x4640] (.notEa .w (.dreg 0)) && spells [0x40C0] (.moveFromSr ⟨0, 0⟩) &&
    spells [0x42C0] (.moveFromCcr (.dreg 0)) && spells [0x44FC, 0x001F] (.moveToCcr (.imm 0x1F)) &&
    spells [0x46FC] (.moveToSr ⟨7, 4⟩) && spells [0x43BC, 0x000A] (.chkW (.imm 10) 1) &&
    spells [0x433C, 0x0000, 0x000A] (.chkL (.imm 10) 1) && spells [0x4800] (.nbcd (.dreg 0)) &&
    spells [0x480E, 0xFFFF, 0x0000] (.linkL 6 0xFFFF0000) && spells [0x4848] (.bkpt 0) && spells [0x4880] (.extW 0) &&
    spells [0x48C0] (.extL 0) && spells [0x49C1] (.extbL 1) && spells [0x4A40] (.tst .w (.dreg 0)) &&
    spells [0x4AFC] .illegal) = true := by decide +kernel

theorem test_decode_multiply_divide :
    (spells [0x4C3C, 0x0402, 0x0000, 0x0002] (.muluL 0 (.wide 2) (.imm 2)) &&
    spells [0x4C3C, 0x0800, 0x0000, 0x0002] (.mulsL 0 .narrow (.imm 2)) &&
    spells [0x4C7C, 0x0401, 0x0000, 0x0002] (.divuL 0 true 1 (.imm 2)) &&
    spells [0x4C7C, 0x0801, 0x0000, 0x0002] (.divsL 0 false 1 (.imm 2)) && spells [0x80FC, 0x0003] (.divuW (.imm 3) 0) &&
    spells [0x81FC, 0xFFFD] (.divsW (.imm 0xFFFD) 0) && spells [0xC0C0] (.muluW (.dreg 0) 0) &&
    spells [0xC1FC, 0xFFFF] (.mulsW (.imm 0xFFFF) 0)) = true := by decide +kernel

theorem test_decode_control :
    (spells [0x4E4F] (.trap 15) && spells [0x4E56, 0xFFF8] (.linkW 6 0xFFF8) && spells [0x4E5E] (.unlk 6) &&
    spells [0x4E60] (.moveToUsp 0) && spells [0x4E68] (.moveFromUsp 0) && spells [0x4E70] .reset && spells [0x4E71] .nop &&
    spells [0x4E72] .stop && spells [0x4E73] .rte && spells [0x4E74, 0x0008] (.rtd 8) && spells [0x4E75] .rts &&
    spells [0x4E76] .trapv && spells [0x4E77] .rtr && spells [0x4E7A] (.movec false) && spells [0x4E7B] (.movec true) &&
    spells [0x4EB9, 0x0000, 0x2000] (.jsr (.absL 0x2000)) && spells [0x4ED0] (.jmp (.ind 0))) = true := by decide +kernel

theorem test_decode_quick_and_branch :
    (spells [0x5080] (.addq .l 8 (.dreg 0)) && spells [0x5380] (.subq .l 1 (.dreg 0)) &&
    spells [0x57C0] (.scc .eq (.dreg 0)) && spells [0x51C8, 0xFFFE] (.dbcc .f 0 0xFFFE) &&
    spells [0x57FC] (.trapcc .eq .none) && spells [0x57FB, 0x0000, 0x0005] (.trapcc .eq (.long 5)) &&
    spells [0x6000, 0x00FE] (.bra (.word 0xFE)) && spells [0x6120] (.bsr (.byte 0x20)) &&
    spells [0x6704] (.bcc .eq (.byte 4)) && spells [0x60FF, 0x0000, 0xFFFE] (.bra (.long 0xFFFE))) = true := by
  decide +kernel

theorem test_decode_arithmetic :
    (spells [0x9081] (.subToReg .l (.dreg 1) 0) && spells [0x9350] (.subToEa .w 1 (.ind 0)) &&
    spells [0x90C1] (.subaW (.dreg 1) 0) && spells [0x9FFC, 0x0000, 0x0010] (.subaL (.imm 16) 7) &&
    spells [0x9181] (.subx .l false 0 1) && spells [0xD081] (.addToReg .l (.dreg 1) 0) &&
    spells [0xD390] (.addToEa .l 1 (.ind 0)) && spells [0xD0FC, 0xFFFE] (.addaW (.imm 0xFFFE) 0) &&
    spells [0xD1D8] (.addaL (.postinc 0) 0) && spells [0xD109] (.addx .b true 0 1) && spells [0xB081] (.cmp .l (.dreg 1) 0) &&
    spells [0xB0FC, 0xFFFF] (.cmpaW (.imm 0xFFFF) 0) && spells [0xB1C1] (.cmpaL (.dreg 1) 0) &&
    spells [0xB308] (.cmpm .b 1 0)) = true := by decide +kernel

theorem test_decode_logical_and_decimal :
    (spells [0x8081] (.orToReg .l (.dreg 1) 0) && spells [0x8310] (.orToEa .b 1 (.ind 0)) &&
    spells [0xC001] (.andToReg .b (.dreg 1) 0) && spells [0xC310] (.andToEa .b 1 (.ind 0)) &&
    spells [0xB340] (.eor .w 1 (.dreg 0)) && spells [0x8101] (.sbcd false 0 1) && spells [0xC109] (.abcd true 0 1) &&
    spells [0x8340, 0x0000] (.pack false 0 1 0) && spells [0x8388, 0x3030] (.unpk true 0 1 0x3030)) = true := by
  decide +kernel

theorem test_decode_shifts :
    (spells [0xE201] (.asrReg .b (.imm 1) 1) && spells [0xE0D0] (.asrMem (.ind 0)) && spells [0xE300] (.aslReg .b (.imm 1) 0) &&
    spells [0xE1D0] (.aslMem (.ind 0)) && spells [0xE208] (.lsrReg .b (.imm 1) 0) && spells [0xE2D0] (.lsrMem (.ind 0)) &&
    spells [0xE108] (.lslReg .b (.imm 8) 0) && spells [0xE3D0] (.lslMem (.ind 0)) &&
    spells [0xE2B0] (.roxrReg .l (.reg 1) 0) && spells [0xE4D0] (.roxrMem (.ind 0)) &&
    spells [0xE330] (.roxlReg .b (.reg 1) 0) && spells [0xE5D0] (.roxlMem (.ind 0)) &&
    spells [0xE278] (.rorReg .w (.reg 1) 0) && spells [0xE6D0] (.rorMem (.ind 0)) &&
    spells [0xE3B8] (.rolReg .l (.reg 1) 0) && spells [0xE7D0] (.rolMem (.ind 0))) = true := by decide +kernel

theorem test_decode_bit_fields :
    (spells [0xE8C0, 0x0104] (.bftst ⟨.imm 4, .imm 4⟩ (.dreg 0)) &&
    spells [0xE9D0, 0x1884] (.bfextu ⟨.reg 2, .imm 4⟩ (.ind 0) 1) &&
    spells [0xEAC0, 0x0704] (.bfchg ⟨.imm 28, .imm 4⟩ (.dreg 0)) &&
    spells [0xEBC0, 0x1708] (.bfexts ⟨.imm 28, .imm 8⟩ (.dreg 0) 1) &&
    spells [0xECC0, 0x0784] (.bfclr ⟨.imm 30, .imm 4⟩ (.dreg 0)) &&
    spells [0xEDC0, 0x1000] (.bfffo ⟨.imm 0, .imm 0⟩ (.dreg 0) 1) &&
    spells [0xEED0, 0x0108] (.bfset ⟨.imm 4, .imm 8⟩ (.ind 0)) &&
    spells [0xEFC0, 0x1008] (.bfins ⟨.imm 0, .imm 8⟩ 1 (.dreg 0))) = true := by decide +kernel

/-- R139: line A and line F words are no instruction of this core, and each raises its own exception. -/
theorem test_decode_lines : (spells [0xA123] (.lineA 0x123) && spells [0xF200] (.lineF 0x200)) = true := by decide +kernel

/-- E6, E9, X1 to X4, X11: reserved encodings are refused and fall through to no neighbour. -/
theorem test_decode_rejects :
    (rejected [0x2030, 0x0100] && rejected [0x35C0] && rejected [0x1040] && rejected [0x7100] && rejected [0x4A08] &&
    rejected [0x4E7F] && rejected [0x4AFB] && rejected [0x4C3C, 0x040A, 0x0000, 0x0002] && rejected [0x0CFC, 0x8080, 0x9CC1] &&
    rejected [0x4E78]) = true := by decide +kernel

/-- The two functions the host calls. -/
theorem test_decodeTableWord : decodeTableWord 32 0x00010602 = some (.addi .b 1 (.dreg 2)) := by decide +kernel
theorem test_withFetchWord : check (State.reset.withFetchWord 32 0x00010602) (fun t => t.getD 2 == 1 && t.pc == 4) = true := by
  decide +kernel

/-! ### Operands (E1 to E11 of 95_test_vectors.md) -/

theorem test_step_ea_byte_postincrement_of_a7 :
    check (((cpu [0x101F]).store 0x7F00 1 0x5A).setA 7 0x7F00)
      (fun t => t.getD 0 == 0x5A && t.getA 7 == 0x7F02) = true := by decide +kernel
theorem test_step_ea_byte_predecrement_of_a7 :
    check ((cpu [0x1F00]).setD 0 0x77)
      (fun t => t.load 0x7FFE 1 == 0x77 && t.getA 7 == 0x7FFE) = true := by decide +kernel
theorem test_step_ea_brief_index :
    check ((((cpu [0x2030, 0x1404]).setA 0 0x2000).setD 1 0x0001FFFF).store 0x2000 4 0xCAFEBABE)
      (fun t => t.getD 0 == 0xCAFEBABE) = true := by decide +kernel
/-- E4 with the index word its operand spells: its 0x1B22 has scale 2, `D1.L*4` is 0x1D22 (log entry 17). -/
theorem test_step_ea_preindexed :
    check (((((cpu [0x2030, 0x1D22, 0x0010, 0x0008]).setA 0 0x2000).setD 1 2).store 0x2018 4 0x2100).store
        0x2108 4 0x11223344)
      (fun t => t.getD 0 == 0x11223344 && t.pc == 0x1008) = true := by decide +kernel
theorem test_step_ea_suppressed_base_and_index :
    check (((cpu [0x2030, 0x01F1, 0x0000, 0x2F00]).store 0x2F00 4 0x2004).store 0x2004 4 0x55)
      (fun t => t.getD 0 == 0x55) = true := by decide +kernel
/-- R221: the post-indexed row, moved to 0x2000. -/
theorem test_step_ea_postindexed :
    check (((((cpu [0x2030, 0x1926, 0x0020, 0x0008]).setA 0 0x2000).setD 1 0xFFFFFFFE).store 0x2020 4
        0x2500).store 0x2506 4 7)
      (fun t => t.getD 0 == 7) = true := by decide +kernel
theorem test_step_ea_absolute_word_is_sign_extended :
    check (cpu [0x3038, 0x8000])
      (fun t => haltedWith t .busError (some 2) 0x1000 (some 0x3038) (some
        { addr := 0xFFFF8000, kind := .read, size := 2 })) = true := by decide +kernel
theorem test_step_ea_pc_relative :
    check (cpu [0x303A, 0x0006, 0, 0, 0xBEEF])
      (fun t => t.getD 0 == 0xBEEF && flagsAre t 0b01000) = true := by decide +kernel

/-! ### Memory and faults (M1 to M6, Q1 to Q6) -/

theorem test_step_memory_misaligned_long :
    check (((cpu [0x2080]).setA 0 0x2001).setD 0 0x12345678)
      (fun t => t.load 0x2001 4 == 0x12345678 && t.load 0x2002 1 == 0x34) = true := by decide +kernel
theorem test_step_memory_access_checked_whole :
    check (((cpu [0x2080]).setA 0 0x2FFE).setD 0 1)
      (fun t => t.load 0x2FFE 2 == 0 &&
        haltedWith t .busError (some 2) 0x1000 (some 0x2080) (some
        { addr := 0x2FFE, kind := .write, size := 4 })) = true := by decide +kernel
theorem test_step_memory_postincrement_kept_by_later_fault :
    check ((cpu [0x2298]).setA 0 0x2000)
      (fun t => t.getA 0 == 0x2004 &&
        haltedWith t .busError (some 2) 0x1000 (some 0x2298) (some { addr := 0, kind := .write, size := 4 })) =
        true := by decide +kernel
theorem test_step_memory_predecrement_kept_by_fault :
    check ((cpu [0x2300]).setA 1 0x3004)
      (fun t => t.getA 1 == 0x3000) = true := by decide +kernel
theorem test_step_memory_postincrement_undone_by_fault :
    check ((cpu [0x2019]).setA 1 0x4000)
      (fun t => t.getA 1 == 0x4000 &&
        haltedWith t .busError (some 2) 0x1000 (some 0x2019) (some
        { addr := 0x4000, kind := .read, size := 4 })) = true := by decide +kernel

/-! ### Integer arithmetic (section 2.4 and the examples of 41_integer_arithmetic.md) -/

theorem test_step_add_byte :
    check (((cpu [0xD001]).setD 0 0x80).setD 1 0x80)
      (fun t => t.getD 0 == 0 && flagsAre t 0b10111) = true := by decide +kernel
theorem test_step_add_word_overflow :
    check (((cpu [0xD041]).setD 0 0x7FFF).setD 1 1)
      (fun t => t.getD 0 == 0x8000 && flagsAre t 0b01010) = true := by decide +kernel
theorem test_step_add_to_memory :
    check ((((cpu [0xD390]).setA 0 0x2000).setD 1 1).store 0x2000 4 0xFFFFFFFF)
      (fun t => t.load 0x2000 4 == 0 && flagsAre t 0b10101) = true := by decide +kernel
theorem test_step_adda_word :
    check ((((cpu [0xD0C1]).setA 0 0x1000).setD 1 0x8000).setCcr (Ccr.ofBits 0b00101))
      (fun t => t.getA 0 == 0xFFFF9000 && flagsAre t 0b00101) = true := by decide +kernel
theorem test_step_adda_long_source_steps_first :
    check (((cpu [0xD1D8]).setA 0 0x2000).store 0x2000 4 0x10)
      (fun t => t.getA 0 == 0x2014) = true := by decide +kernel
theorem test_step_addi :
    check ((cpu [0x0602, 0x0001]).setD 2 0xFF)
      (fun t => t.getD 2 == 0 && flagsAre t 0b10101) = true := by decide +kernel
theorem test_step_addq_of_zero_adds_eight :
    check ((cpu [0x5080]).setD 0 7)
      (fun t => t.getD 0 == 15 && flagsAre t 0b00000) = true := by decide +kernel
theorem test_step_addq_word_to_address_register :
    check (((cpu [0x5248]).setA 0 0xFFFF).setCcr (Ccr.ofBits 0b11111))
      (fun t => t.getA 0 == 0x10000 && flagsAre t 0b11111) = true := by decide +kernel
theorem test_step_addx_keeps_z :
    check (((cpu [0xD101]).setD 0 0xFF).setCcr (Ccr.ofBits 0b10100))
      (fun t => t.getD 0 == 0 && flagsAre t 0b10101) = true := by decide +kernel
theorem test_step_addx_clears_z :
    check ((((cpu [0xD181]).setD 0 1).setD 1 1).setCcr (Ccr.ofBits 0b10100))
      (fun t => t.getD 0 == 3 && flagsAre t 0b00000) = true := by decide +kernel
theorem test_step_sub_long_borrow :
    check ((cpu [0x9081]).setD 1 1)
      (fun t => t.getD 0 == 0xFFFFFFFF && flagsAre t 0b11001) = true := by decide +kernel
theorem test_step_sub_to_memory :
    check ((((cpu [0x9350]).setA 0 0x2000).setD 1 0xFFFF).store 0x2000 2 0x7FFF)
      (fun t => t.load 0x2000 2 == 0x8000 && flagsAre t 0b11011) = true := by decide +kernel
theorem test_step_suba_long :
    check ((cpu [0x9FFC, 0x0000, 0x0010]).setA 7 0x10000)
      (fun t => t.getA 7 == 0xFFF0) = true := by decide +kernel
theorem test_step_suba_word :
    check (((cpu [0x90C1]).setA 0 0x1000).setD 1 0x8000)
      (fun t => t.getA 0 == 0x9000) = true := by decide +kernel
theorem test_step_subi_keeps_upper_bits :
    check ((cpu [0x0441, 0x0001]).setD 1 0xABCD0000)
      (fun t => t.getD 1 == 0xABCDFFFF && flagsAre t 0b11001) = true := by decide +kernel
theorem test_step_subq_byte :
    check (cpu [0x5300])
      (fun t => t.getD 0 == 0xFF && flagsAre t 0b11001) = true := by decide +kernel
theorem test_step_subx_byte :
    check ((cpu [0x9101]).setCcr (Ccr.ofBits 0b10000))
      (fun t => t.getD 0 == 0xFF && flagsAre t 0b11001) = true := by decide +kernel
theorem test_step_cmp_byte_keeps_x :
    check ((((cpu [0xB001]).setD 0 1).setD 1 0xFF).setCcr (Ccr.ofBits 0b10000))
      (fun t => t.getD 0 == 1 && flagsAre t 0b10001) = true := by decide +kernel
theorem test_step_cmpa_word_sign_extends :
    check (cpu [0xB0FC, 0xFFFF])
      (fun t => flagsAre t 0b00001) = true := by decide +kernel
theorem test_step_cmpa_long_equal :
    check (((cpu [0xB1C1]).setA 0 5).setD 1 5)
      (fun t => flagsAre t 0b00100) = true := by decide +kernel
theorem test_step_cmpi :
    check ((cpu [0x0C00, 0x0080]).setD 0 0x80)
      (fun t => flagsAre t 0b00100) = true := by decide +kernel
theorem test_step_cmpm :
    check (((((cpu [0xB308]).setA 0 0x2000).setA 1 0x2100).store 0x2000 1 0x41).store 0x2100 1 0x41)
      (fun t => t.getA 0 == 0x2001 && t.getA 1 == 0x2101 && flagsAre t 0b00100) = true := by decide +kernel
theorem test_step_cmp2_wrapped_interval :
    check ((((cpu [0x00D0, 0x0000]).setA 0 0x2000).store 0x2000 2 0xFB05).setD 0 3)
      (fun t => !t.ccr.z && !t.ccr.c) = true := by decide +kernel
theorem test_step_cmp2_address_register :
    check ((((cpu [0x02D0, 0x9000]).setA 0 0x2000).store 0x2000 4 0xFFF00010).setA 1 0xFFFFFFF8)
      (fun t => !t.ccr.z && !t.ccr.c) = true := by decide +kernel
theorem test_step_tst : check ((cpu [0x4A40]).setD 0 0x8000) (fun t => flagsAre t 0b01000) = true := by decide +kernel
theorem test_step_clr_keeps_x :
    check (((cpu [0x4200]).setD 0 0x12345678).setCcr (Ccr.ofBits 0b11011))
      (fun t => t.getD 0 == 0x12345600 && flagsAre t 0b10100) = true := by decide +kernel
theorem test_step_neg_of_most_negative :
    check ((cpu [0x4480]).setD 0 0x80000000)
      (fun t => t.getD 0 == 0x80000000 && flagsAre t 0b11011) = true := by decide +kernel
theorem test_step_negx :
    check ((cpu [0x4080]).setCcr (Ccr.ofBits 0b10100))
      (fun t => t.getD 0 == 0xFFFFFFFF && flagsAre t 0b11001) = true := by decide +kernel
theorem test_step_ext_word :
    check ((cpu [0x4880]).setD 0 0x12345680)
      (fun t => t.getD 0 == 0x1234FF80 && flagsAre t 0b01000) = true := by decide +kernel
theorem test_step_ext_long :
    check ((cpu [0x48C0]).setD 0 0x1234FF80)
      (fun t => t.getD 0 == 0xFFFFFF80 && flagsAre t 0b01000) = true := by decide +kernel
theorem test_step_extb_long :
    check ((cpu [0x49C0]).setD 0 0x80)
      (fun t => t.getD 0 == 0xFFFFFF80 && flagsAre t 0b01000) = true := by decide +kernel

/-! ### Logical (section 2.5 and the examples of 42_logical.md) -/

theorem test_step_and :
    check ((((cpu [0xC081]).setD 0 0xF0F0F0F0).setD 1 0x0F0F0F0F).setCcr (Ccr.ofBits 0b10011))
      (fun t => t.getD 0 == 0 && flagsAre t 0b10100) = true := by decide +kernel
theorem test_step_and_to_memory :
    check ((((cpu [0xC310]).setA 0 0x2000).setD 1 0x0F).store 0x2000 1 0xF8)
      (fun t => t.load 0x2000 1 == 8 && flagsAre t 0b00000) = true := by decide +kernel
theorem test_step_andi :
    check ((cpu [0x0240, 0x00F0]).setD 0 0xFFFFFFFF)
      (fun t => t.getD 0 == 0xFFFF00F0 && flagsAre t 0b00000) = true := by decide +kernel
theorem test_step_or :
    check ((cpu [0x8001]).setD 1 0x80)
      (fun t => t.getD 0 == 0x80 && flagsAre t 0b01000) = true := by decide +kernel
theorem test_step_or_to_memory :
    check ((((cpu [0x8310]).setA 0 0x2000).setD 1 0x80).store 0x2000 1 1)
      (fun t => t.load 0x2000 1 == 0x81 && flagsAre t 0b01000) = true := by decide +kernel
theorem test_step_ori :
    check (cpu [0x0003, 0x0081])
      (fun t => t.getD 3 == 0x81 && flagsAre t 0b01000) = true := by decide +kernel
theorem test_step_eor :
    check (((cpu [0xB340]).setD 0 0xFFFF).setD 1 0x0F0F)
      (fun t => t.getD 0 == 0xF0F0 && flagsAre t 0b01000) = true := by decide +kernel
theorem test_step_eori :
    check ((cpu [0x0A00, 0x00FF]).setD 0 0xFF)
      (fun t => t.getD 0 == 0 && flagsAre t 0b00100) = true := by decide +kernel
theorem test_step_not :
    check ((cpu [0x4640]).setD 0 0xFFFF)
      (fun t => t.getD 0 == 0 && flagsAre t 0b00100) = true := by decide +kernel
theorem test_step_andi_to_ccr :
    check ((cpu [0x023C, 0x00FE]).setCcr (Ccr.ofBits 0b11111))
      (fun t => flagsAre t 0b11110) = true := by decide +kernel
theorem test_step_ori_to_ccr_upper_bits :
    check (cpu [0x003C, 0x00E0])
      (fun t => t.sr == 0) = true := by decide +kernel
theorem test_step_eori_to_ccr :
    check ((cpu [0x0A3C, 0x001F]).setCcr (Ccr.ofBits 0b01010))
      (fun t => flagsAre t 0b10101) = true := by decide +kernel

/-! ### Shifts and rotates (section 2.6 and the examples of 43_shift_rotate.md) -/

theorem test_step_asl_sign_changes :
    check ((cpu [0xE580]).setD 0 0x40000000)
      (fun t => t.getD 0 == 0 && flagsAre t 0b10111) = true := by decide +kernel
theorem test_step_asl_past_the_width :
    check (((cpu [0xE320]).setD 0 1).setD 1 9)
      (fun t => t.getD 0 == 0 && flagsAre t 0b00110) = true := by decide +kernel
theorem test_step_asr_past_the_width :
    check (((cpu [0xE220]).setD 0 0x80).setD 1 9)
      (fun t => t.getD 0 == 0xFF && flagsAre t 0b11001) = true := by decide +kernel
theorem test_step_asr :
    check ((cpu [0xE201]).setD 1 0x81)
      (fun t => t.getD 1 == 0xC0 && flagsAre t 0b11001) = true := by decide +kernel
theorem test_step_lsl_count_eight :
    check ((cpu [0xE108]).setD 0 1)
      (fun t => t.getD 0 == 0 && flagsAre t 0b10101) = true := by decide +kernel
theorem test_step_lsl_count_zero :
    check ((((cpu [0xE328]).setD 0 0xFF).setD 1 64).setCcr (Ccr.ofBits 0b10011))
      (fun t => t.getD 0 == 0xFF && flagsAre t 0b11000) = true := by decide +kernel
theorem test_step_lsr_by_32 :
    check (((cpu [0xE2A8]).setD 0 0x80000001).setD 1 32)
      (fun t => t.getD 0 == 0 && flagsAre t 0b10101) = true := by decide +kernel
theorem test_step_lsr_by_33 :
    check (((cpu [0xE2A8]).setD 0 0x80000001).setD 1 33)
      (fun t => t.getD 0 == 0 && flagsAre t 0b00100) = true := by decide +kernel
theorem test_step_rol_by_width :
    check ((((cpu [0xE3B8]).setD 0 0x80000001).setD 1 32).setCcr (Ccr.ofBits 0b10000))
      (fun t => t.getD 0 == 0x80000001 && flagsAre t 0b11001) = true := by decide +kernel
theorem test_step_ror :
    check ((cpu [0xE218]).setD 0 1)
      (fun t => t.getD 0 == 0x80 && flagsAre t 0b01001) = true := by decide +kernel
theorem test_step_roxl_count_zero :
    check (((cpu [0xE330]).setD 0 0x80).setCcr (Ccr.ofBits 0b10000))
      (fun t => t.getD 0 == 0x80 && flagsAre t 0b11001) = true := by decide +kernel
theorem test_step_roxl :
    check (((cpu [0xE310]).setD 0 0x80).setCcr (Ccr.ofBits 0b10000))
      (fun t => t.getD 0 == 1 && flagsAre t 0b10001) = true := by decide +kernel
theorem test_step_roxr_ring :
    check (((cpu [0xE2B0]).setD 0 1).setD 1 33)
      (fun t => t.getD 0 == 1 && flagsAre t 0b00000) = true := by decide +kernel
theorem test_step_roxr :
    check ((cpu [0xE210]).setD 0 1)
      (fun t => t.getD 0 == 0 && flagsAre t 0b10101) = true := by decide +kernel
theorem test_step_asl_memory :
    check ((((cpu [0xE1D0]).setA 0 0x2000).store 0x2000 2 0x8000).setCcr (Ccr.ofBits 0b00000))
      (fun t => t.load 0x2000 2 == 0 && flagsAre t 0b10111) = true := by decide +kernel
theorem test_step_asr_memory :
    check ((((cpu [0xE0D0]).setA 0 0x2000).store 0x2000 2 0x8001).setCcr (Ccr.ofBits 0b00000))
      (fun t => t.load 0x2000 2 == 0xC000 && flagsAre t 0b11001) = true := by decide +kernel
theorem test_step_lsl_memory :
    check ((((cpu [0xE3D0]).setA 0 0x2000).store 0x2000 2 0x8001).setCcr (Ccr.ofBits 0b00000))
      (fun t => t.load 0x2000 2 == 2 && flagsAre t 0b10001) = true := by decide +kernel
theorem test_step_lsr_memory :
    check ((((cpu [0xE2D0]).setA 0 0x2000).store 0x2000 2 0x8001).setCcr (Ccr.ofBits 0b00000))
      (fun t => t.load 0x2000 2 == 0x4000 && flagsAre t 0b10001) = true := by decide +kernel
theorem test_step_rol_memory :
    check ((((cpu [0xE7D0]).setA 0 0x2000).store 0x2000 2 0x8001).setCcr (Ccr.ofBits 0b10000))
      (fun t => t.load 0x2000 2 == 3 && flagsAre t 0b10001) = true := by decide +kernel
theorem test_step_ror_memory :
    check ((((cpu [0xE6D0]).setA 0 0x2000).store 0x2000 2 1).setCcr (Ccr.ofBits 0b00000))
      (fun t => t.load 0x2000 2 == 0x8000 && flagsAre t 0b01001) = true := by decide +kernel
theorem test_step_roxl_memory :
    check ((((cpu [0xE5D0]).setA 0 0x2000).store 0x2000 2 0x8000).setCcr (Ccr.ofBits 0b00000))
      (fun t => t.load 0x2000 2 == 0 && flagsAre t 0b10101) = true := by decide +kernel
theorem test_step_roxr_memory :
    check ((((cpu [0xE4D0]).setA 0 0x2000).store 0x2000 2 0).setCcr (Ccr.ofBits 0b10000))
      (fun t => t.load 0x2000 2 == 0x8000 && flagsAre t 0b01000) = true := by decide +kernel

/-! ### Bits and bit fields (section 2.7 and the examples of 44_bit_and_bitfield.md) -/

theorem test_step_btst_register_modulo_32 :
    check ((((cpu [0x0300]).setD 0 2).setD 1 33).setCcr (Ccr.ofBits 0b11111))
      (fun t => flagsAre t 0b11011) = true := by decide +kernel
theorem test_step_btst_memory_modulo_8 :
    check ((((cpu [0x0810, 0x0009]).setA 0 0x2000).store 0x2000 1 2).setCcr (Ccr.ofBits 0b00100))
      (fun t => flagsAre t 0b00000) = true := by decide +kernel
theorem test_step_bchg_register_number :
    check ((((cpu [0x0350]).setA 0 0x2000).setD 1 7).store 0x2000 1 0x80)
      (fun t => t.load 0x2000 1 == 0 && flagsAre t 0b00000) = true := by decide +kernel
theorem test_step_bchg_immediate :
    check (cpu [0x0841, 0x0000])
      (fun t => t.getD 1 == 1 && flagsAre t 0b00100) = true := by decide +kernel
theorem test_step_bclr_immediate :
    check ((cpu [0x0880, 0x001F]).setD 0 0x80000001)
      (fun t => t.getD 0 == 1 && flagsAre t 0b00000) = true := by decide +kernel
theorem test_step_bclr_register_number :
    check (((cpu [0x0581]).setD 1 0xFF).setD 2 35)
      (fun t => t.getD 1 == 0xF7 && flagsAre t 0b00000) = true := by decide +kernel
theorem test_step_bset_immediate_upper_byte_ignored :
    check (cpu [0x08C0, 0xAB03])
      (fun t => t.getD 0 == 8 && flagsAre t 0b00100) = true := by decide +kernel
theorem test_step_bset_register_number :
    check ((cpu [0x07C2]).setD 3 33)
      (fun t => t.getD 2 == 2 && flagsAre t 0b00100) = true := by decide +kernel
theorem test_step_bftst :
    check ((cpu [0xE8C0, 0x0104]).setD 0 0x0F000000)
      (fun t => flagsAre t 0b01000) = true := by decide +kernel
theorem test_step_bfextu_negative_offset :
    check ((((cpu [0xE9D0, 0x1884]).setA 0 0x2001).store 0x2000 1 0x5C).setD 2 0xFFFFFFFC)
      (fun t => t.getD 1 == 12) = true := by decide +kernel
theorem test_step_bfextu_two_bytes :
    check (((cpu [0xE9D0, 0x110C]).setA 0 0x2000).store 0x2000 2 0x1234)
      (fun t => t.getD 1 == 0x234) = true := by decide +kernel
theorem test_step_bfexts_wraps_in_a_register :
    check ((cpu [0xEBC0, 0x1708]).setD 0 0x1000000A)
      (fun t => t.getD 1 == 0xFFFFFFA1 && flagsAre t 0b01000) = true := by decide +kernel
theorem test_step_bfffo_no_bit :
    check (cpu [0xEDC0, 0x1008])
      (fun t => t.getD 1 == 8 && flagsAre t 0b00100) = true := by decide +kernel
theorem test_step_bfffo :
    check ((cpu [0xEDC0, 0x1000]).setD 0 0x00100000)
      (fun t => t.getD 1 == 11 && flagsAre t 0b00000) = true := by decide +kernel
theorem test_step_bfchg :
    check (cpu [0xEAC0, 0x0704])
      (fun t => t.getD 0 == 15 && flagsAre t 0b00100) = true := by decide +kernel
/-- R378's example: bits 30, 31, 0 and 1 from the top; its 0x3FFFFFFFC has one digit too many (log entry 17). -/
theorem test_step_bfclr_wraps :
    check ((cpu [0xECC0, 0x0784]).setD 0 0xFFFFFFFF)
      (fun t => t.getD 0 == 0x3FFFFFFC && flagsAre t 0b01000) = true := by decide +kernel
theorem test_step_bfset_five_bytes :
    check ((cpu [0xEED0, 0x0100]).setA 0 0x2000)
      (fun t => t.load 0x2000 5 == 0x0FFFFFFFF0 && flagsAre t 0b00100) = true := by decide +kernel
theorem test_step_bfset_checked_whole :
    check ((cpu [0xEED0, 0x0100]).setA 0 0x2FFC)
      (fun t => t.load 0x2FFC 4 == 0 &&
        haltedWith t .busError (some 2) 0x1000 (some 0xEED0) (some
        { addr := 0x2FFC, kind := .read, size := 5 })) = true := by decide +kernel
theorem test_step_bfins_width_32 :
    check ((cpu [0xEFC0, 0x1000]).setD 1 0x12345678)
      (fun t => t.getD 0 == 0x12345678 && flagsAre t 0b00000) = true := by decide +kernel
theorem test_step_bfins :
    check ((cpu [0xEFC0, 0x1008]).setD 1 0xAB)
      (fun t => t.getD 0 == 0xAB000000 && flagsAre t 0b01000) = true := by decide +kernel

/-! ### Data movement (section 2.8 and the examples of 45_data_movement.md) -/

theorem test_step_move_byte :
    check (((cpu [0x1280]).setD 0 0xFF).setA 1 0x2000)
      (fun t => t.load 0x2000 1 == 0xFF && flagsAre t 0b01000) = true := by decide +kernel
theorem test_step_move_word_keeps_x :
    check ((cpu [0x303C, 0x0000]).setCcr (Ccr.ofBits 0b11011))
      (fun t => t.getD 0 == 0 && flagsAre t 0b10100) = true := by decide +kernel
theorem test_step_move_long_same_register_twice :
    check ((((cpu [0x20D8]).setA 0 0x2000).store 0x2000 4 1).store 0x2004 4 2)
      (fun t => t.load 0x2004 4 == 1 && t.getA 0 == 0x2008) = true := by decide +kernel
theorem test_step_movea_word :
    check ((cpu [0x307C, 0x8000]).setCcr (Ccr.ofBits 0b00101))
      (fun t => t.getA 0 == 0xFFFF8000 && flagsAre t 0b00101) = true := by decide +kernel
theorem test_step_movea_long_over_its_own_step :
    check (((cpu [0x2058]).setA 0 0x2000).store 0x2000 4 9)
      (fun t => t.getA 0 == 9) = true := by decide +kernel
theorem test_step_moveq :
    check (cpu [0x7080])
      (fun t => t.getD 0 == 0xFFFFFF80 && flagsAre t 0b01000) = true := by decide +kernel
theorem test_step_move_from_ccr :
    check (((cpu [0x42C0]).setD 0 0xFFFFFFFF).setCcr (Ccr.ofBits 0b10101))
      (fun t => t.getD 0 == 0xFFFF0015 && flagsAre t 0b10101) = true := by decide +kernel
theorem test_step_move_to_ccr : check (cpu [0x44FC, 0xFFFF]) (fun t => t.sr == 0x1F) = true := by decide +kernel
theorem test_step_exg_data :
    check (((cpu [0xC141]).setD 0 1).setD 1 2)
      (fun t => t.getD 0 == 2 && t.getD 1 == 1) = true := by decide +kernel
theorem test_step_exg_address :
    check (((cpu [0xC149]).setA 0 1).setA 1 2)
      (fun t => t.getA 0 == 2 && t.getA 1 == 1) = true := by decide +kernel
theorem test_step_exg_mixed :
    check (((cpu [0xC189]).setD 0 1).setA 1 2)
      (fun t => t.getD 0 == 2 && t.getA 1 == 1) = true := by decide +kernel
theorem test_step_swap :
    check ((cpu [0x4840]).setD 0 0x12345678)
      (fun t => t.getD 0 == 0x56781234 && flagsAre t 0b00000) = true := by decide +kernel
theorem test_step_lea_reads_nothing :
    check (((cpu [0x45F0, 0x1A04]).setA 0 0x9000).setD 1 3)
      (fun t => t.getA 2 == 0x900A && t.pc == 0x1004) = true := by decide +kernel
theorem test_step_pea :
    check ((cpu [0x4850]).setA 0 0x1234)
      (fun t => t.load 0x7FFC 4 == 0x1234 && t.getA 7 == 0x7FFC) = true := by decide +kernel
theorem test_step_movem_down :
    check (((cpu [0x48E7, 0x8002]).setD 0 5).setA 6 6)
      (fun t => t.load 0x7FFC 4 == 6 && t.load 0x7FF8 4 == 5 && t.getA 7 == 0x7FF8) = true := by decide +kernel
theorem test_step_movem_own_register_is_a_draw :
    check (((cpu [0x48E0, 0x8080]).setA 0 0x2010).setD 0 5)
      (fun t => t.getA 0 == 0x2008 && t.pc == 0x1004) = true := by decide +kernel
theorem test_step_movem_word_up :
    check (((cpu [0x4C98, 0x0201]).setA 0 0x2000).store 0x2000 4 0x80000001)
      (fun t => t.getD 0 == 0xFFFF8000 && t.getA 1 == 1 && t.getA 0 == 0x2004) = true := by decide +kernel
theorem test_step_movem_empty :
    check ((cpu [0x4CD0, 0x0000]).setA 0 0x9000)
      (fun t => t.getA 0 == 0x9000 && t.pc == 0x1004) = true := by decide +kernel
theorem test_step_movep_from_memory :
    check ((((cpu [0x0108, 0x0000]).setA 0 0x2000).store 0x2000 1 0xAA).store 0x2002 1 0xBB)
      (fun t => t.getD 0 == 0xAABB) = true := by decide +kernel
theorem test_step_movep_to_memory :
    check (((cpu [0x01C8, 0x0000]).setA 0 0x2000).setD 0 0x11223344)
      (fun t => t.load 0x2000 1 == 0x11 && t.load 0x2002 1 == 0x22 && t.load 0x2004 1 == 0x33 &&
        t.load 0x2006 1 == 0x44 && t.load 0x2001 1 == 0) = true := by decide +kernel

/-! ### Multiply and divide (section 2.9 and the examples of 46_multiply_divide.md) -/

theorem test_step_mulu_word :
    check (((cpu [0xC0C0]).setD 0 0xFFFF).setCcr (Ccr.ofBits 0b10011))
      (fun t => t.getD 0 == 0xFFFE0001 && flagsAre t 0b11000) = true := by decide +kernel
theorem test_step_muls_word :
    check ((cpu [0xC1FC, 0xFFFF]).setD 0 0xFFFF)
      (fun t => t.getD 0 == 1 && flagsAre t 0b00000) = true := by decide +kernel
theorem test_step_mulu_long_wide :
    check ((cpu [0x4C3C, 0x0401, 0x0000, 0x0002]).setD 0 0x80000000)
      (fun t => t.getD 1 == 1 && t.getD 0 == 0 && flagsAre t 0b00000) = true := by decide +kernel
theorem test_step_mulu_long_overflow :
    check ((cpu [0x4C3C, 0x0000, 0x0001, 0x0000]).setD 0 0x10000)
      (fun t => t.getD 0 == 0 && flagsAre t 0b00110) = true := by decide +kernel
theorem test_step_muls_long_wide :
    check ((cpu [0x4C3C, 0x0C01, 0x0000, 0x0002]).setD 0 0x80000000)
      (fun t => t.getD 1 == 0xFFFFFFFF && t.getD 0 == 0 && flagsAre t 0b01000) = true := by decide +kernel
theorem test_step_muls_long_overflow :
    check ((cpu [0x4C3C, 0x0800, 0xFFFF, 0xFFFF]).setD 0 0x80000000)
      (fun t => t.getD 0 == 0x80000000 && flagsAre t 0b01010) = true := by decide +kernel
theorem test_step_divu_word :
    check ((cpu [0x80FC, 0x0003]).setD 0 10)
      (fun t => t.getD 0 == 0x00010003 && flagsAre t 0b00000) = true := by decide +kernel
theorem test_step_divu_word_overflow :
    check ((cpu [0x80FC, 0x0001]).setD 0 0x10000)
      (fun t => t.getD 0 == 0x10000 && t.ccr.v && !t.ccr.c) = true := by decide +kernel
theorem test_step_divs_word :
    check ((cpu [0x81FC, 0xFFFE]).setD 0 7)
      (fun t => t.getD 0 == 0x0001FFFD && flagsAre t 0b01000) = true := by decide +kernel
theorem test_step_div_by_zero :
    check ((cpu [0x80FC, 0x0000]).setD 0 5)
      (fun t => t.getD 0 == 5 && !t.ccr.c &&
        haltedWith t .divideByZero (some 5) 0x1004 (some 0x80FC) none) = true := by decide +kernel
theorem test_step_divu_long_wide :
    check ((cpu [0x4C7C, 0x0401, 0x0000, 0x0002]).setD 1 1)
      (fun t => t.getD 0 == 0x80000000 && t.getD 1 == 0) = true := by decide +kernel
theorem test_step_divu_long_drops_remainder :
    check ((cpu [0x4C7C, 0x0000, 0x0000, 0x0003]).setD 0 10)
      (fun t => t.getD 0 == 3 && flagsAre t 0b00000) = true := by decide +kernel
theorem test_step_divs_long_wide :
    check (((cpu [0x4C7C, 0x0C01, 0x0000, 0x0002]).setD 1 0xFFFFFFFF).setD 0 0xFFFFFFF9)
      (fun t => t.getD 0 == 0xFFFFFFFD && t.getD 1 == 0xFFFFFFFF && flagsAre t 0b01000) = true := by decide +kernel
theorem test_step_divsl :
    check ((cpu [0x4C7C, 0x0801, 0x0000, 0x0002]).setD 0 0xFFFFFFF9)
      (fun t => t.getD 0 == 0xFFFFFFFD && t.getD 1 == 0xFFFFFFFF && flagsAre t 0b01000) = true := by decide +kernel

/-! ### Program control (section 2.10 and the examples of 47_program_control.md) -/

theorem test_step_bra_long :
    check (cpu [0x60FF, 0x0000, 0xFFFE])
      (fun t => t.pc == 0x11000) = true := by decide +kernel
theorem test_step_bcc_displacement_zero_is_the_extension_word :
    check (cpu [0x6600, 0x0000])
      (fun t => t.pc == 0x1002) = true := by decide +kernel
theorem test_step_bcc_not_taken : check (cpu [0x6704]) (fun t => t.pc == 0x1002) = true := by decide +kernel
theorem test_step_bsr :
    check (cpu [0x6120])
      (fun t => t.load 0x7FFC 4 == 0x1002 && t.getA 7 == 0x7FFC && t.pc == 0x1022) = true := by decide +kernel
theorem test_step_bsr_push_fault :
    check ((cpu [0x6120]).setA 7 0x7000)
      (fun t => t.getA 7 == 0x7000 &&
        haltedWith t .busError (some 2) 0x1000 (some 0x6120) (some
        { addr := 0x6FFC, kind := .write, size := 4 })) = true := by decide +kernel
theorem test_step_dbcc_ends :
    check ((cpu [0x51C8, 0xFFFE]).setD 0 0x10000)
      (fun t => t.getD 0 == 0x1FFFF && t.pc == 0x1004) = true := by decide +kernel
theorem test_step_dbcc_loops :
    check ((cpu [0x57C8, 0xFFFE]).setD 0 5)
      (fun t => t.getD 0 == 4 && t.pc == 0x1000) = true := by decide +kernel
theorem test_step_scc :
    check (((cpu [0x57C0]).setD 0 0x12345678).setCcr (Ccr.ofBits 0b00100))
      (fun t => t.getD 0 == 0x123456FF && flagsAre t 0b00100) = true := by decide +kernel
theorem test_step_jmp : check ((cpu [0x4ED0]).setA 0 0x4000) (fun t => t.pc == 0x4000) = true := by decide +kernel
theorem test_step_jsr :
    check (cpu [0x4EB9, 0x0000, 0x2001])
      (fun t => t.load 0x7FFC 4 == 0x1006 && t.getA 7 == 0x7FFC && t.pc == 0x2001) = true := by decide +kernel
theorem test_step_rts :
    check (((cpu [0x4E75]).setA 7 0x7FFC).store 0x7FFC 4 0x1006)
      (fun t => t.pc == 0x1006 && t.getA 7 == 0x8000) = true := by decide +kernel
theorem test_step_rtr :
    check ((((cpu [0x4E77]).setA 7 0x7FFA).store 0x7FFA 2 0x1F).store 0x7FFC 4 0x1000)
      (fun t => t.pc == 0x1000 && t.getA 7 == 0x8000 && flagsAre t 0b11111) = true := by decide +kernel
theorem test_step_rtd :
    check (((cpu [0x4E74, 0x0008]).setA 7 0x7FFC).store 0x7FFC 4 0x1000)
      (fun t => t.pc == 0x1000 && t.getA 7 == 0x8008) = true := by decide +kernel
theorem test_step_link_word :
    check ((cpu [0x4E56, 0xFFF8]).setA 6 0x11111111)
      (fun t => t.load 0x7FFC 4 == 0x11111111 && t.getA 6 == 0x7FFC && t.getA 7 == 0x7FF4) = true := by decide +kernel
theorem test_step_link_long :
    check (cpu [0x480E, 0xFFFF, 0x0000])
      (fun t => t.getA 6 == 0x7FFC && t.getA 7 == 0xFFFF7FFC) = true := by decide +kernel
theorem test_step_unlk :
    check ((((cpu [0x4E5E]).setA 6 0x7FFC).setA 7 0x7FF4).store 0x7FFC 4 0x11111111)
      (fun t => t.getA 6 == 0x11111111 && t.getA 7 == 0x8000) = true := by decide +kernel

/-! ### Decimal (section 2.11 and the examples of 48_bcd.md) -/

theorem test_step_abcd_carry :
    check ((((cpu [0xC101]).setD 0 0x99).setD 1 1).setCcr (Ccr.ofBits 0b00100))
      (fun t => t.getD 0 == 0 && t.ccr.x && t.ccr.c && t.ccr.z) = true := by decide +kernel
theorem test_step_abcd_memory :
    check ((((((cpu [0xC109]).setA 0 0x2002).setA 1 0x2102).store 0x2000 2 0x1299).store 0x2101 1 1).setCcr
        (Ccr.ofBits 0b00100))
      (fun t => t.load 0x2000 2 == 0x1200 && t.getA 0 == 0x2001 && t.getA 1 == 0x2101 &&
        t.ccr.x) = true := by decide +kernel
theorem test_step_sbcd_borrow :
    check (((cpu [0x8101]).setD 1 1).setCcr (Ccr.ofBits 0b00100))
      (fun t => t.getD 0 == 0x99 && t.ccr.x && t.ccr.c && !t.ccr.z) = true := by decide +kernel
theorem test_step_sbcd :
    check (((cpu [0x8101]).setD 0 0x45).setD 1 0x38)
      (fun t => t.getD 0 == 7 && !t.ccr.x && !t.ccr.c) = true := by decide +kernel
theorem test_step_nbcd :
    check ((cpu [0x4800]).setD 0 1)
      (fun t => t.getD 0 == 0x99 && t.ccr.x && t.ccr.c && !t.ccr.z) = true := by decide +kernel
theorem test_step_pack :
    check ((cpu [0x8340, 0x0000]).setD 0 0x3132)
      (fun t => t.getD 1 == 0x12) = true := by decide +kernel
theorem test_step_unpk :
    check ((cpu [0x8380, 0x3030]).setD 0 0x12)
      (fun t => t.getD 1 == 0x3132) = true := by decide +kernel
theorem test_step_unpk_memory :
    check ((((cpu [0x8388, 0x3030]).setA 0 0x2001).setA 1 0x2102).store 0x2000 1 0x12)
      (fun t => t.load 0x2100 2 == 0x3132 && t.getA 0 == 0x2000 && t.getA 1 == 0x2100) = true := by decide +kernel

/-! ### System and traps (section 2.12 and the examples of 49_system_and_trap.md) -/

theorem test_step_trap :
    check (cpu [0x4E4F])
      (fun t => haltedWith t .trap (some 47) 0x1002 (some 0x4E4F) none) = true := by decide +kernel
theorem test_step_system_call :
    check ((cpu [0x4E40]).setD 0 20)
      (fun t => t.status == .syscallPending && t.pc == 0x1002 && t.getA 7 == 0x8000) = true := by decide +kernel
theorem test_step_trapv_quiet : check (cpu [0x4E76]) (fun t => t.pc == 0x1002) = true := by decide +kernel
theorem test_step_trapv :
    check ((cpu [0x4E76]).setCcr (Ccr.ofBits 0b00010))
      (fun t => haltedWith t .trapcc (some 7) 0x1002 (some 0x4E76) none) = true := by decide +kernel
theorem test_step_trapcc_quiet : check (cpu [0x57FA, 0x0005]) (fun t => t.pc == 0x1004) = true := by decide +kernel
theorem test_step_trapcc :
    check ((cpu [0x57FB, 0x0000, 0x0005]).setCcr (Ccr.ofBits 0b00100))
      (fun t => haltedWith t .trapcc (some 7) 0x1006 (some 0x57FB) none) = true := by decide +kernel
theorem test_step_chk_negative :
    check ((cpu [0x43BC, 0x000A]).setD 1 0xFFFF)
      (fun t => t.ccr.n && haltedWith t .chk (some 6) 0x1004 (some 0x43BC) none) = true := by decide +kernel
theorem test_step_chk_in_bounds :
    check ((cpu [0x43BC, 0x000A]).setD 1 10)
      (fun t => t.pc == 0x1004 && t.status == .running) = true := by decide +kernel
theorem test_step_chk_long :
    check ((cpu [0x433C, 0x0000, 0x000A]).setD 1 11)
      (fun t => !t.ccr.n && haltedWith t .chk (some 6) 0x1006 (some 0x433C) none) = true := by decide +kernel
theorem test_step_chk2 :
    check ((((cpu [0x02D0, 0x3800]).setA 0 0x2000).store 0x2000 4 0x00100020).setD 3 0x21)
      (fun t => haltedWith t .chk (some 6) 0x1004 (some 0x02D0) none) = true := by decide +kernel
theorem test_step_tas :
    check ((cpu [0x4AD0]).setA 0 0x2000)
      (fun t => t.load 0x2000 1 == 0x80 && flagsAre t 0b00100) = true := by decide +kernel
theorem test_step_tas_checked_before_read :
    check (((cpu [0x4AD0]).setA 0 0x1800).setCcr (Ccr.ofBits 0b11111))
      (fun t => flagsAre t 0b11111 &&
        haltedWith t .busError (some 2) 0x1000 (some 0x4AD0) (some
        { addr := 0x1800, kind := .write, size := 1 })) = true := by decide +kernel
theorem test_step_cas_byte :
    check (((((cpu [0x0AD0, 0x0040]).setA 0 0x2000).store 0x2000 1 5).setD 0 0x105).setD 1 9)
      (fun t => t.load 0x2000 1 == 9 && flagsAre t 0b00100) = true := by decide +kernel
theorem test_step_cas_word :
    check ((((cpu [0x0CD0, 0x0040]).setA 0 0x2000).store 0x2000 2 3).setD 0 0x12340005)
      (fun t => t.getD 0 == 0x12340003 && flagsAre t 0b01001) = true := by decide +kernel
theorem test_step_cas_long :
    check (((((cpu [0x0ED0, 0x0040]).setA 0 0x2000).store 0x2000 4 7).setD 0 5).setD 1 9)
      (fun t => t.getD 0 == 7 && t.load 0x2000 4 == 7 && flagsAre t 0b00000) = true := by decide +kernel
theorem test_step_cas2_word :
    check (((((((((cpu [0x0CFC, 0x8080, 0x90C1]).setA 0 0x2000).setA 1 0x2100).store 0x2000 2 1).store 0x2100 2
        2).setD 0 1).setD 1 2).setD 2 10).setD 3 20)
      (fun t => t.load 0x2000 2 == 10 && t.load 0x2100 2 == 20 && flagsAre t 0b00100) = true := by decide +kernel
theorem test_step_cas2_long :
    check (((((((((cpu [0x0EFC, 0x8080, 0x90C1]).setA 0 0x2000).setA 1 0x2100).store 0x2000 4 1).store 0x2100 4
        2).setD 0 1).setD 1 2).setD 2 10).setD 3 20)
      (fun t => t.load 0x2000 4 == 10 && t.load 0x2100 4 == 20 && flagsAre t 0b00100) = true := by decide +kernel
theorem test_step_cas2_second_fails :
    check (((((((cpu [0x0EFC, 0x8080, 0x90C1]).setA 0 0x2000).setA 1 0x2100).store 0x2000 4 1).store 0x2100 4
        2).setD 0 1).setD 1 3)
      (fun t => t.getD 0 == 1 && t.getD 1 == 2 && t.load 0x2000 4 == 1 &&
        flagsAre t 0b01001) = true := by decide +kernel
theorem test_step_reset_is_ignored :
    check ((cpu [0x4E70]).setD 0 5)
      (fun t => t.getD 0 == 5 && t.pc == 0x1002) = true := by decide +kernel
theorem test_step_nop : check (cpu [0x4E71]) (fun t => t.pc == 0x1002) = true := by decide +kernel
theorem test_step_illegal :
    check ((cpu [0x4AFC]).setCcr (Ccr.ofBits 0b00100))
      (fun t => t.status == .halted { cause := .illegalInstruction, vector := some 4, format := some .format0, pc := 0x1000, instrAddr := 0x1000, sr := 4, opcode := some 0x4AFC, fault := none } && haltedWith t .illegalInstruction (some 4) 0x1000 (some 0x4AFC) none) = true := by decide +kernel
theorem test_step_bkpt :
    check (cpu [0x4848])
      (fun t => haltedWith t .illegalInstruction (some 4) 0x1000 (some 0x4848) none) = true := by decide +kernel
theorem test_step_callm :
    check (cpu [0x06D0, 0x0000])
      (fun t => haltedWith t .illegalInstruction (some 4) 0x1000 (some 0x06D0) none) = true := by decide +kernel
theorem test_step_rtm :
    check (cpu [0x06C8])
      (fun t => haltedWith t .illegalInstruction (some 4) 0x1000 (some 0x06C8) none) = true := by decide +kernel
theorem test_step_line_a :
    check (cpu [0xA000])
      (fun t => haltedWith t .lineA (some 10) 0x1000 (some 0xA000) none) = true := by decide +kernel
theorem test_step_line_f :
    check (cpu [0xF200])
      (fun t => haltedWith t .lineF (some 11) 0x1000 (some 0xF200) none) = true := by decide +kernel

/-! ### Privileged instructions (X8, T13, T14): one word at the end of the code region, so that no extension word can be fetched -/

theorem test_step_move_from_sr :
    check (cpuAt 0x1FFE [0x40C0])
      (fun t => haltedWith t .privilegeViolation (some 8) 0x1FFE (some 0x40C0) none) = true := by decide +kernel
theorem test_step_move_to_sr :
    check (cpuAt 0x1FFE [0x46FC])
      (fun t => haltedWith t .privilegeViolation (some 8) 0x1FFE (some 0x46FC) none) = true := by decide +kernel
theorem test_step_andi_to_sr :
    check (cpuAt 0x1FFE [0x027C])
      (fun t => haltedWith t .privilegeViolation (some 8) 0x1FFE (some 0x027C) none) = true := by decide +kernel
theorem test_step_ori_to_sr :
    check (cpuAt 0x1FFE [0x007C])
      (fun t => haltedWith t .privilegeViolation (some 8) 0x1FFE (some 0x007C) none) = true := by decide +kernel
theorem test_step_eori_to_sr :
    check (cpuAt 0x1FFE [0x0A7C])
      (fun t => haltedWith t .privilegeViolation (some 8) 0x1FFE (some 0x0A7C) none) = true := by decide +kernel
theorem test_step_move_to_usp :
    check (cpuAt 0x1FFE [0x4E60])
      (fun t => haltedWith t .privilegeViolation (some 8) 0x1FFE (some 0x4E60) none) = true := by decide +kernel
theorem test_step_move_from_usp :
    check (cpuAt 0x1FFE [0x4E68])
      (fun t => haltedWith t .privilegeViolation (some 8) 0x1FFE (some 0x4E68) none) = true := by decide +kernel
theorem test_step_movec_from :
    check (cpuAt 0x1FFE [0x4E7A])
      (fun t => haltedWith t .privilegeViolation (some 8) 0x1FFE (some 0x4E7A) none) = true := by decide +kernel
theorem test_step_movec_to :
    check (cpuAt 0x1FFE [0x4E7B])
      (fun t => haltedWith t .privilegeViolation (some 8) 0x1FFE (some 0x4E7B) none) = true := by decide +kernel
theorem test_step_moves :
    check (cpuAt 0x1FFE [0x0E50])
      (fun t => haltedWith t .privilegeViolation (some 8) 0x1FFE (some 0x0E50) none) = true := by decide +kernel
theorem test_step_stop :
    check (cpuAt 0x1FFE [0x4E72])
      (fun t => haltedWith t .privilegeViolation (some 8) 0x1FFE (some 0x4E72) none) = true := by decide +kernel
theorem test_step_rte :
    check (cpuAt 0x1FFE [0x4E73])
      (fun t => haltedWith t .privilegeViolation (some 8) 0x1FFE (some 0x4E73) none) = true := by decide +kernel

end Sys2Proof.Tests
end

