-- ==== Sys2Proof/Tests/Witness.lean ====
section
/-! SUPPORT. For every obligation with hypotheses, a concrete state and operands that meet them together, one witness
for each clause, at a boundary of its range where it has one. -/

namespace Sys2Proof.Tests

open Sys2Proof Sys2Proof.Machine

set_option Elab.async false

/-! ### Helpers -/

/-- A body answers `a` in `t`. -/
def answers {α : Type} [DecidableEq α] (r : EStateM.Result Raise State α) (a : α) (t : State) : Bool :=
  match r with
  | .ok b u => decide (b = a) && decide (u = t)
  | .error _ _ => false

theorem of_answers {α : Type} [DecidableEq α] {r : EStateM.Result Raise State α} {a : α} {t : State}
    (h : answers r a t = true) : r = .ok a t := by
  cases r with
  | ok b u => simp [answers] at h; rw [h.1, h.2]
  | error e u => cases h

/-- The decoder answers `i`, with `rest` left. -/
def reads (ws : List Word16) (i : Instr) (rest : List Word16) : Bool :=
  match decode ws with
  | .ok j r => decide (j = i) && decide (r = rest)
  | .error _ _ => false

theorem of_reads {ws : List Word16} {i : Instr} {rest : List Word16} (h : reads ws i rest = true) :
    decode ws = .ok i rest := by
  unfold reads at h
  cases hd : decode ws with
  | ok j r => rw [hd] at h; simp at h; rw [h.1, h.2]
  | error e u => rw [hd] at h; cases h

/-- The decoder asks for a word after those of `ws`. -/
def asks (ws : List Word16) : Bool :=
  match decode ws with
  | .error .short _ => true
  | .ok _ _ | .error .illegal _ => false

theorem of_asks {ws : List Word16} (h : asks ws = true) : ∃ rest, decode ws = .error .short rest := by
  unfold asks at h
  cases hd : decode ws with
  | ok i r => rw [hd] at h; cases h
  | error e r =>
    cases e with
    | short => exact ⟨r, rfl⟩
    | illegal => rw [hd] at h; cases h

/-- A step or an instruction leads to a state with `p`. -/
def leads (o : Machine.Outcome) (p : State → Bool) : Bool :=
  match o with
  | .next t => p t
  | .fault _ | .refused _ => false

theorem of_leads {o : Machine.Outcome} {p : State → Bool} (h : leads o p = true) : ∃ t, o = .next t ∧ p t = true := by
  cases o with
  | next t => exact ⟨t, rfl, h⟩
  | fault _ | refused _ => cases h

/-- A halt's record, apart. -/
theorem of_halted {o : Machine.Outcome} {r : HaltRecord} (h : leads o (fun t => decide (t.status = .halted r)) = true) :
    ∃ t, o = .next t ∧ t.status = .halted r := by
  obtain ⟨t, h1, h2⟩ := of_leads h
  exact ⟨t, h1, of_decide_eq_true h2⟩

/-- The vectors' state with data at 0x2000, the stack pointer inside its region, and D0 to D2, A0 and A1 set. -/
def lab : State :=
  let s := (((((cpu []).setD 0 5).setD 1 0x80000003).setD 2 0xFFFFFFFC).setA 0 0x2000).setA 1 0x2010
  (s.setA 7 0x7FF0).store 0x2000 8 0x0010002080007FFF

/-! ### Encoding and one step -/

theorem witness_DecodeEncode :
    Instr.wf (.moveL (.index 0 (.full ⟨.d 0, true, 2⟩ false false (.long 1) (.post (.long 2))))
      (.index 1 (.full ⟨.d 0, true, 2⟩ false false (.long 3) (.post (.long 4))))) = true := by decide

theorem witness_DecodeSound : decode [0x0602, 0x0001, 0x4E71] = .ok (.addi .b 1 (.dreg 2)) [0x4E71] :=
  of_reads (by decide +kernel)

theorem witness_StepRunsDecoded :
    (cpu [0x0602, 0x0001]).status = .running ∧
    decode (fetchWindow (cpu [0x0602, 0x0001]) maxWords (cpu [0x0602, 0x0001]).pc).1 =
      .ok (.addi .b 1 (.dreg 2)) (List.replicate 9 0) :=
  ⟨rfl, of_reads (by decide +kernel)⟩

theorem witness_StepRunsEncoded :
    (cpu [0x0602, 0x0001]).status = .running ∧ Instr.wf (.addi .b 1 (.dreg 2)) = true ∧
    ∀ j < (encode (.addi .b 1 (.dreg 2))).length,
      fetchCheck (cpu [0x0602, 0x0001]) ((cpu [0x0602, 0x0001]).pc + BitVec.ofNat 32 (2 * j)) = none ∧
      (encode (.addi .b 1 (.dreg 2)))[j]? =
        some ((cpu [0x0602, 0x0001]).wordAt ((cpu [0x0602, 0x0001]).pc + BitVec.ofNat 32 (2 * j))) := by decide +kernel

theorem witness_OddPc_odd : (cpuAt 0x1001 []).status = .running ∧ (cpuAt 0x1001 []).pc.getLsbD 0 = true := by decide

theorem witness_OddPc_only :
    ∃ t r, step (cpuAt 0x1001 []) = .next t ∧ t.status = .halted r ∧ r.cause = .addressError := by
  obtain ⟨t, h1, h2⟩ := of_halted (o := step (cpuAt 0x1001 []))
    (r := ⟨.addressError, some 3, none, 0x1001, 0x1001, 0, none, some ⟨0x1001, .fetch, 2⟩⟩) (by decide +kernel)
  exact ⟨t, _, h1, h2, rfl⟩

theorem witness_OddPc_instructions : ∃ t r, exec .illegal (cpu []) = .next t ∧ t.status = .halted r :=
  ⟨_, _, rfl, rfl⟩

/-- M6: a region without X. -/
theorem witness_FetchAndDecodeFaults_bus :
    (cpuAt 0x2000 []).pc.getLsbD 0 = false ∧ allowed (cpuAt 0x2000 []).regions .fetch 0x2000 2 = false := by
  decide +kernel

/-- The last byte of the word is the stale one, and the first. -/
theorem witness_FetchAndDecodeFaults_stale :
    let s : State := { cpu [] with ifetched := [0x1000, 0x1001], stale := [0x1001] }
    let t : State := { cpu [] with ifetched := [0x1000, 0x1001], stale := [0x1000] }
    (allowed s.regions .fetch s.pc 2 = true ∧ (s.pc + 1).toNat ∈ s.stale) ∧
    allowed t.regions .fetch t.pc 2 = true ∧ t.pc.toNat ∈ t.stale := by decide +kernel

theorem witness_FetchAndDecodeFaults_illegal :
    ∃ rest, decode (fetchWindow (cpu [0x4AFB]) maxWords (cpu [0x4AFB]).pc).1 = .error .illegal rest := by
  have h : (match decode (fetchWindow (cpu [0x4AFB]) maxWords (cpu [0x4AFB]).pc).1 with
      | .error .illegal _ => true | .ok _ _ | .error .short _ => false) = true := by decide +kernel
  revert h
  cases decode (fetchWindow (cpu [0x4AFB]) maxWords (cpu [0x4AFB]).pc).1 with
  | ok i r => intro h; cases h
  | error e r => cases e with
    | illegal => exact fun _ => ⟨r, rfl⟩
    | short => intro h; cases h

/-- An immediate's word outside the region with X: 0x1FFE holds the last word that can be fetched. -/
theorem witness_FetchAndDecodeFaults_extension_bus :
    let s := cpuAt 0x1FFE [0x0602]
    s.status = .running ∧ s.pc.getLsbD 0 = false ∧ 0 < 1 ∧ 1 < maxWords ∧
    (∀ j < 1, fetchCheck s (s.pc + BitVec.ofNat 32 (2 * j)) = none) ∧
    (∃ rest, decode ((List.range 1).map fun j => s.wordAt (s.pc + BitVec.ofNat 32 (2 * j))) = .error .short rest) ∧
    allowed s.regions .fetch (s.pc + BitVec.ofNat 32 (2 * 1)) 2 = false :=
  ⟨rfl, by decide +kernel, by decide, by decide, by decide +kernel, of_asks (by decide +kernel), by decide +kernel⟩

/-- The second word of a long immediate holds a stale byte. -/
theorem witness_FetchAndDecodeFaults_extension_stale :
    let s : State := { cpu [0x0682, 0, 1] with ifetched := [0x1005], stale := [0x1005] }
    let a := s.pc + BitVec.ofNat 32 (2 * 2)
    s.status = .running ∧ s.pc.getLsbD 0 = false ∧ 0 < 2 ∧ 2 < maxWords ∧
    (∀ j < 2, fetchCheck s (s.pc + BitVec.ofNat 32 (2 * j)) = none) ∧
    (∃ rest, decode ((List.range 2).map fun j => s.wordAt (s.pc + BitVec.ofNat 32 (2 * j))) = .error .short rest) ∧
    allowed s.regions .fetch a 2 = true ∧ (a + 1).toNat ∈ s.stale :=
  ⟨rfl, by decide +kernel, by decide, by decide, by decide +kernel, of_asks (by decide +kernel), by decide +kernel,
    by decide +kernel⟩

theorem witness_EndIsFinal_signal :
    (haltRecord 0 0 none .illegalInstruction lab).cause = .illegalInstruction ∧
    (haltRecord 0 0 none .lineF lab).cause = .lineF ∧
    (haltRecord 0 0 none (.busError default) lab).cause = .busError ∧
    (haltRecord 0 0 none (.addressError 1) lab).cause = .addressError ∧
    (haltRecord 0 0 none .chk lab).cause = .chk ∧
    (haltRecord 0 0 none (.trap 15) lab).cause = .trap ∧ (haltRecord 0 0 none (.trap 15) lab).vector = some 47 ∧
    (haltRecord 0 0 none (.staleFetch 0) lab).cause = .staleFetch := ⟨rfl, rfl, rfl, rfl, rfl, rfl, rfl, rfl⟩

theorem witness_EndIsFinal :
    (∃ r, (lab.halt default).status = .halted r) ∧ ∃ c, ({ lab with status := .exited 3 } : State).status = .exited c :=
  ⟨⟨_, rfl⟩, ⟨_, rfl⟩⟩

theorem witness_HostAnswers : ({ lab with status := .syscallPending } : State).status = .syscallPending := rfl

/-- The last byte of a region the host keeps, and the first beyond the map it leaves; a fetched byte is written, twice. -/
theorem witness_HostAnswers_resume :
    let s : State := { lab with status := .syscallPending, ifetched := [0x2FFF] }
    let rs : List Region := [{ base := 0x2000, length := 0x1000, r := true, w := true, x := true }]
    let ws : List (Addr × Byte) := [(0x2FFF, 1), (0x3000, 2), (0x2FFF, 3)]
    Region.mapWf rs = true ∧ Memory.wf s.mem = true ∧ mappedAt rs 0x2FFF = true ∧ mappedAt rs 0x3000 = false ∧
    0x2FFF ∈ s.ifetched ∧ (∃ w ∈ ws, w.1.toNat = 0x2FFF) ∧ (∀ w ∈ ws, w.1.toNat ≠ 0x2000) ∧
    mappedAt rs 0x2000 = true ∧ ws = [(0x2FFF, 1), (0x3000, 2)] ++ (0x2FFF, 3) :: [] := by
  refine ⟨by decide +kernel, by decide +kernel, by decide +kernel, by decide +kernel, by decide,
    ⟨(0x2FFF, 1), List.mem_cons_self, rfl⟩, ?_, by decide +kernel, rfl⟩
  intro w hw
  simp only [List.mem_cons, List.not_mem_nil, or_false] at hw
  rcases hw with rfl | rfl | rfl <;> decide

/-! ### Over all states and instructions -/

/-- A NOP that reads itself, a byte of data and one of BSS, and a stack of one argument and no environment whose
structures end where its region ends. -/
def goodImage : Image where
  segments := [{ vaddr := 0x1000, bytes := [0x4E, 0x71], memSize := 2, use := .code true },
    { vaddr := 0x2000, bytes := [1], memSize := 2, use := .data }]
  stackBytes := 0xF84
  stack := {
    argv := [0x7FEC], envp := [], nullValue := 0, stringBytes := 20,
    auxv := [(.pagesz, 4096), (.phdr, 0x1034), (.phent, 32), (.phnum, 2), (.entry, 0x1000), (.uid, 1000), (.gid, 1000),
      (.euid, 1000), (.egid, 1000), (.random, 0x7FF0)] }

def goodLaunch : Launch where
  entryPc := 0x1000
  initSp := 0x7F84
  initD := Vector.replicate 8 0
  initA := Vector.replicate 7 0
  initCcr := Ccr.ofBits 0
  initMem := Memory.setBytes (Memory.setBytes (Memory.setBytes [] 0x1000 [0x4E, 0x71]) 0x2000 [1]) 0x7F84
    (((InitialStack.longs goodImage.stack).flatMap fun v => beBytes 4 v.toNat) ++ [0x61, 0, 0, 0] ++ List.replicate 16 9)
  initRegions := vectorMap

theorem goodLaunch_writes : ∀ g ∈ goodImage.segments, Segment.WrittenIn g goodLaunch := by
  unfold Segment.WrittenIn; decide +kernel

theorem goodLaunch_stack : InitialStack.BuiltIn goodImage.stack goodLaunch := by
  refine ⟨by decide +kernel, ?_, by decide +kernel, by decide +kernel⟩
  intro p hp
  obtain rfl : p = 0x7FEC := by simpa [goodImage] using hp
  exact ⟨by decide +kernel, 0x7FED, by decide, by decide +kernel, by decide +kernel⟩

theorem witness_LaunchInv : LaunchOK goodImage goodLaunch :=
  ⟨by decide +kernel, by decide +kernel, by decide +kernel, goodLaunch_writes, by decide, by decide +kernel,
    goodLaunch_stack, { base := 0x7000, length := 0x1000, r := true, w := true, x := false }, by decide, rfl, rfl,
    by decide, by decide +kernel⟩

theorem lab_inv : Machine.Inv lab := by unfold Machine.Inv; decide +kernel

theorem witness_InvStep : Machine.Inv (cpu [0x4E71]) ∧ ∃ t, step (cpu [0x4E71]) = .next t := by
  obtain ⟨t, h, -⟩ := of_leads (o := step (cpu [0x4E71])) (p := fun _ => true) (by decide +kernel)
  exact ⟨by unfold Machine.Inv; decide +kernel, t, h⟩

theorem witness_RaisesOnly :
    Instr.wf (.trap 15) = true ∧ lab.status = .running ∧ ∃ t r, exec (.trap 15) lab = .next t ∧ t.status = .halted r :=
  ⟨by decide, rfl, _, _, rfl, rfl⟩

/-- The source of ADD is outside what it writes. -/
theorem witness_FrameRegisters :
    (∃ t, exec (.addToReg .l (.dreg 1) 0) lab = .next t) ∧ RegSel.d 1 ∉ writesRegs (.addToReg .l (.dreg 1) 0) :=
  ⟨⟨_, rfl⟩, by decide⟩

/-- The bytes just below and just above a stored long. -/
theorem witness_FrameMemory :
    (∃ t, exec (.moveL (.dreg 0) (.ind 0)) lab = .next t) ∧ 0x1FFF ∉ storeSpan (.moveL (.dreg 0) (.ind 0)) lab ∧
    0x2004 ∉ storeSpan (.moveL (.dreg 0) (.ind 0)) lab ∧ 0x2003 ∈ storeSpan (.moveL (.dreg 0) (.ind 0)) lab := by
  refine ⟨?_, by decide +kernel, by decide +kernel, by decide +kernel⟩
  obtain ⟨t, h, -⟩ := of_leads (o := exec (.moveL (.dreg 0) (.ind 0)) lab) (p := fun _ => true) (by decide +kernel)
  exact ⟨t, h⟩

/-- The last byte without W before the data, and the first after it. -/
theorem witness_CoreSteps :
    (cpu [0x2080]).status = .running ∧ (∃ t, step (cpu [0x2080]) = .next t) ∧
    allowedAt (cpu [0x2080]).regions .write 0x1FFF = false ∧ allowedAt (cpu [0x2080]).regions .write 0x3000 = false := by
  obtain ⟨t, h, -⟩ := of_leads (o := step (cpu [0x2080])) (p := fun _ => true) (by decide +kernel)
  exact ⟨rfl, ⟨t, h⟩, by decide +kernel, by decide +kernel⟩

/-- M7: a store into bytes already fetched. -/
theorem witness_FetchSetsGrow :
    ∃ t, step { cpu [0x2080] with
        a := (cpu []).a.set 0 0x2000, ifetched := [0x2000], stale := [0x2001] } = .next t ∧
      decide (0x2000 ∈ t.stale) && decide (0x1001 ∈ t.ifetched) = true := of_leads (by decide +kernel)

/-! ### Shared operations -/

theorem witness_RegisterWrites : (6 : RegNo) ≠ 7 ∧ 7 < 8 := by decide

theorem witness_BigEndian : Memory.wf lab.mem = true ∧ 8 ≤ 2 ^ 32 ∧ 7 < 8 := by decide +kernel

/-- Up to the last byte of the region, and one byte past it; across the top of the address space. -/
theorem witness_AccessChecked :
    ((∀ i < 4, allowedAt lab.regions .read ((0x2FFC : Addr) + BitVec.ofNat 32 i).toNat = true) ∧
    (∃ i < 4, allowedAt lab.regions .read ((0x2FFD : Addr) + BitVec.ofNat 32 i).toNat = false)) ∧
    (∀ i < 4, allowedAt lab.regions .write ((0x2FFC : Addr) + BitVec.ofNat 32 i).toNat = true) ∧
    (∃ i < 4, allowedAt lab.regions .write ((0x1FFD : Addr) + BitVec.ofNat 32 i).toNat = false) ∧
    ∃ i < 4, allowedAt lab.regions .write ((0xFFFFFFFE : Addr) + BitVec.ofNat 32 i).toNat = false := by decide +kernel

theorem witness_OperandModes :
    allowed lab.regions .read (lab.getA 0) 4 = true ∧ allowed lab.regions .write (lab.getA 0) 4 = true ∧
    allowed lab.regions .read (lab.getA 7 - 0x1000) 4 = false ∧
    allowed lab.regions .write (lab.getA 7 - 0x1000) 4 = false := by decide +kernel

theorem witness_IndexedAddress :
    allowed lab.regions .read (lab.getA 0 + Disp.value (.word 4) + 0) 4 = true ∧
    allowed lab.regions .read (lab.getA 0 + Disp.value (.word 0x0FFC)) 4 = true ∧
    allowed lab.regions .read (lab.getA 0 + Disp.value (.word 0x0FFD) + 0) 4 = false ∧
    allowed lab.regions .read (lab.getA 0 + Disp.value (.word 0x0FFD)) 4 = false ∧
    allowed lab.regions .write (lab.getA 0 + (0x7F : BitVec 8).signExtend 32) 4 = true ∧
    allowed lab.regions .write (lab.pc + BitVec.ofNat 32 (2 * 1) + (0xFE : BitVec 8).signExtend 32) 1 = false := by
  decide +kernel

theorem witness_Stack :
    (CanPush lab ∧ ¬CanPush (lab.setA 7 0x7003)) ∧ (CanPop .l (lab.setA 7 0x7FFC) ∧ ¬CanPop .l (lab.setA 7 0x7FFD)) ∧
    Memory.wf lab.mem = true ∧ CanPop .l (lab.pushed 0x12345678) := by
  unfold CanPush CanPop; decide +kernel

/-! ### Arithmetic, logic, compare -/

theorem witness_AluToRegister : readEa .w (.postinc 0) 1 lab = .ok 0x0010 (lab.setA 0 0x2002) :=
  of_answers (by decide +kernel)

theorem lab_long : CanChange .l (.ind 0) 1 lab (.mem 0x2000 none) 0x00100020 lab :=
  ⟨lab, of_answers (by decide +kernel), of_answers (by decide +kernel), by unfold Operand.accepts; decide +kernel⟩

theorem lab_byte : CanChange .b (.ind 0) 1 lab (.mem 0x2000 none) 0 lab :=
  ⟨lab, of_answers (by decide +kernel), of_answers (by decide +kernel), by unfold Operand.accepts; decide +kernel⟩

theorem witness_AluToOperand_one :
    CanChange .l (.ind 0) 1 lab (.mem 0x2000 none) 0x00100020 lab ∧ ∀ n, EA.ind 0 ≠ .areg n :=
  ⟨lab_long, fun _ => by simp⟩

/-- A predecremented operand after a long immediate. -/
theorem witness_AluToOperand_immediate :
    CanChange .l (.predec 1) (1 + immWordCount .l) lab (.mem 0x200C none) 0 (lab.setA 1 0x200C) :=
  ⟨lab.setA 1 0x200C, of_answers (by decide +kernel), of_answers (by decide +kernel),
    by unfold Operand.accepts; decide +kernel⟩

/-- Both operands from the same register. -/
theorem witness_ExtendedArithmetic_memory :
    readEa .w (.predec 0) 1 (lab.setA 0 0x2006) = .ok 0x8000 (lab.setA 0 0x2004) ∧
    CanChange .w (.predec 0) 1 (lab.setA 0 0x2004) (.mem 0x2002 none) 0x20 (lab.setA 0 0x2002) :=
  ⟨of_answers (by decide +kernel), lab.setA 0 0x2002, of_answers (by decide +kernel), of_answers (by decide +kernel),
    by unfold Operand.accepts; decide +kernel⟩

theorem witness_ExtendedArithmetic_negx : CanChange .l (.dreg 0) 1 lab (.dreg 0) 5 lab :=
  ⟨lab, rfl, rfl, trivial⟩

theorem witness_AddressArithmetic_word : readEa .w (.disp 0 4) 1 lab = .ok 0x8000 lab := of_answers (by decide +kernel)

theorem witness_AddressArithmetic_long : readEa .l (.postinc 0) 1 lab = .ok 0x00100020 (lab.setA 0 0x2004) :=
  of_answers (by decide +kernel)

theorem witness_Compares : readEa .w (.imm 0xFFFF) 1 lab = .ok 0xFFFF lab ∧ readEa .l (.dreg 1) 1 lab = .ok 0x80000003 lab :=
  ⟨rfl, rfl⟩

theorem witness_Compares_immediate : readEa .l (.ind 0) (1 + immWordCount .l) lab = .ok 0x00100020 lab :=
  of_answers (by decide +kernel)

theorem witness_Compares_memory :
    readEa .b (.postinc 0) 1 lab = .ok 0 (lab.setA 0 0x2001) ∧
    readEa .b (.postinc 0) 1 (lab.setA 0 0x2001) = .ok 0x10 (lab.setA 0 0x2002) :=
  ⟨of_answers (by decide +kernel), of_answers (by decide +kernel)⟩

/-- The bounds 0x10 and 0x20: at the upper bound in, just past it out. -/
theorem witness_BoundsChecks :
    addrOf (.ind 0) 2 lab = .ok 0x2000 lab ∧ allowed lab.regions .read 0x2000 2 = true ∧
    allowed lab.regions .read (0x2000 + 2) 2 = true ∧
    (let lo := (BitVec.ofNat 32 (lab.load 0x2000 2)).toNat
      let hi := (BitVec.ofNat 32 (lab.load (0x2000 + 2) 2)).toNat
      let v := (Size.w.trunc ((lab.setD 3 0x20).getD 3)).toNat
      let w := (Size.w.trunc ((lab.setD 3 0x21).getD 3)).toNat;
      lo ≤ hi ∧ ¬(v < lo ∨ hi < v) ∧ (w < lo ∨ hi < w)) :=
  ⟨of_answers (by decide +kernel), by decide +kernel, by decide +kernel, by decide +kernel⟩

/-- The wrapped bounds 0x80 and 0: 0x7F is outside, 0x80 is not. -/
theorem witness_BoundsChecks_wrapped :
    addrOf (.disp 0 4) 2 lab = .ok 0x2004 lab ∧ allowed lab.regions .read 0x2004 1 = true ∧
    allowed lab.regions .read (0x2004 + 1) 1 = true ∧
    (let lo := (BitVec.ofNat 32 (lab.load 0x2004 1)).toNat
      let hi := (BitVec.ofNat 32 (lab.load (0x2004 + 1) 1)).toNat
      let v := (Size.b.trunc ((lab.setD 3 0x7F).getD 3)).toNat
      let w := (Size.b.trunc ((lab.setD 3 0x80).getD 3)).toNat;
      ¬lo ≤ hi ∧ (hi < v ∧ v < lo) ∧ ¬(hi < w ∧ w < lo)) :=
  ⟨of_answers (by decide +kernel), by decide +kernel, by decide +kernel, by decide +kernel⟩

/-- Below 0, at the bound, and one above it. -/
theorem witness_CheckBound :
    readEa .w (.imm 5) 1 lab = .ok 5 lab ∧ readEa .l (.imm 5) 1 lab = .ok 5 lab ∧
    Size.l.toInt (lab.getD 1) < 0 ∧ (¬Size.w.toInt (lab.getD 0) < 0 ∧ ¬Size.w.toInt 5 < Size.w.toInt (lab.getD 0)) ∧
    Size.w.toInt 5 < Size.w.toInt ((lab.setD 0 6).getD 0) := ⟨rfl, rfl, by decide +kernel⟩

/-! ### Data movement -/

/-- A source and a destination that step the same register. -/
theorem witness_Moves_move :
    readEa .b (.postinc 0) 1 lab = .ok 0 (lab.setA 0 0x2001) ∧
    CanWrite .b (.postinc 0) (1 + (EA.words .b (.postinc 0)).length) (lab.setA 0 0x2001) (.mem 0x2001 (some 0))
      (lab.setA 0 0x2001) :=
  ⟨of_answers (by decide +kernel), of_answers (by decide +kernel), by unfold Operand.accepts; decide +kernel⟩

theorem witness_Moves_word_long :
    (readEa .w (.dreg 1) 1 lab = .ok 3 lab ∧ CanWrite .w (.predec 1) 1 lab (.mem 0x200E none) (lab.setA 1 0x200E)) ∧
    readEa .l (.dreg 1) 1 lab = .ok 0x80000003 lab ∧ CanWrite .l (.dreg 3) 1 lab (.dreg 3) lab :=
  ⟨⟨rfl, of_answers (by decide +kernel), by unfold Operand.accepts; decide +kernel⟩, rfl, rfl, trivial⟩

/-- The last byte of the region. -/
theorem witness_Moves_clr : CanWrite .b (.absL 0x2FFF) 1 lab (.mem 0x2FFF none) lab :=
  ⟨rfl, by unfold Operand.accepts; decide +kernel⟩

theorem witness_Moves_from_ccr : CanWrite .w (.absL 0x2FFE) 1 lab (.mem 0x2FFE none) lab :=
  ⟨rfl, by unfold Operand.accepts; decide +kernel⟩

theorem witness_Moves_scc :
    CanWrite .b (.dreg 0) 1 lab (.dreg 0) lab ∧ condHolds .ne lab.ccr = true ∧ condHolds .eq lab.ccr = false :=
  ⟨⟨rfl, trivial⟩, by decide +kernel⟩

theorem witness_CcrWrites : readEa .w (.imm 0xFFFF) 1 lab = .ok 0xFFFF lab := rfl

theorem witness_RegisterOnly : RegSel.d 3 ≠ .d 0 ∧ RegSel.d 3 ≠ .a 3 := by decide

/-- An address that is not mapped is an address all the same. -/
theorem witness_AddressUses :
    addrOf (.disp 0 0x7FFF) 1 lab = .ok 0x9FFF lab ∧ CanPush lab :=
  ⟨of_answers (by decide +kernel), by unfold CanPush; decide +kernel⟩

/-- All sixteen registers; the register itself in the list. -/
theorem witness_Movem_down :
    ∀ j ∈ downSpan .l (maskRegsDown 0xFFFF).length (lab.getA 7), allowedAt lab.regions .write j = true := by
  decide +kernel

theorem witness_Movem_up :
    addrOf (.disp 0 0x0FC0) 2 lab = .ok 0x2FC0 lab ∧
    ∀ j ∈ upSpan .l (maskRegs 0xFFFF).length 0x2FC0, allowedAt lab.regions .write j = true :=
  ⟨of_answers (by decide +kernel), by decide +kernel⟩

theorem witness_Movem_load :
    (∀ j ∈ upSpan .w (maskRegs 0xFFFF).length (lab.getA 0), allowedAt lab.regions .read j = true) ∧
    addrOf (.pcDisp 0) 2 lab = .ok 0x1004 lab ∧
    (∀ j ∈ upSpan .l (maskRegs 0x0001).length 0x1004, allowedAt lab.regions .read j = true) ∧
    ∀ n, EA.pcDisp 0 ≠ .postinc n :=
  ⟨by decide +kernel, of_answers (by decide +kernel), by decide +kernel, fun _ => by simp⟩

/-- A MOVEP long whose last byte is the last of the region. -/
theorem witness_Movep :
    (∀ j ∈ spreadSpan 4 (lab.getA 0 + (0x0FF9 : BitVec 16).signExtend 32), allowedAt lab.regions .read j = true) ∧
    ∀ j ∈ spreadSpan 4 (lab.getA 0 + (0x0FF9 : BitVec 16).signExtend 32), allowedAt lab.regions .write j = true := by
  decide +kernel

/-! ### Shifts, bits and bit fields -/

theorem witness_Shifts : CanChange .w (.postinc 0) 1 lab (.mem 0x2000 (some 0)) 0x10 (lab.setA 0 0x2002) :=
  ⟨lab, of_answers (by decide +kernel), of_answers (by decide +kernel), by unfold Operand.accepts; decide +kernel⟩

/-- A count past the width. -/
theorem witness_ShiftBits : 0 < 8 ∧ 0xFF < 2 ^ 8 ∧ 0 < 9 ∧ 7 < 8 := by decide

theorem witness_RotateBits : 0 < 32 ∧ 0xFFFFFFFF < 2 ^ 32 ∧ 31 < 32 ∧ 32 < 32 + 1 := by decide

/-- Bit number 33 of a data register, and 9 of a byte in memory. -/
theorem witness_SingleBits_test :
    Size.l = (if (EA.dreg 1).mode = .dn then .l else .b) ∧ readEa .l (.dreg 1) 1 lab = .ok 0x80000003 lab ∧
    33 = ((lab.setD 3 33).getD 3).toNat ∧ Size.b = (if (EA.ind 0).mode = .dn then .l else .b) ∧
    readEa .b (.ind 0) 2 lab = .ok 0 lab ∧ 9 = (9 : BitVec 8).toNat :=
  ⟨rfl, rfl, by decide +kernel, rfl, of_answers (by decide +kernel), rfl⟩

theorem witness_SingleBits_change :
    CanChange .b (.ind 0) 2 lab (.mem 0x2000 none) 0 lab ∧ 255 = (255 : BitVec 8).toNat ∧
    CanChange .l (.dreg 1) 1 lab (.dreg 1) 0x80000003 lab ∧ 5 = (lab.getD 0).toNat :=
  ⟨lab_byte, rfl, ⟨lab, rfl, rfl, trivial⟩, by decide +kernel⟩

/-- The widest field at the last bit of a byte: five bytes. -/
theorem witness_FieldBits :
    (0 < 32 ∧ 32 ≤ 32) ∧ (bfInMemory 0x2000 (-1) 32).skip + 32 ≤ (bfInMemory 0x2000 (-1) 32).bits ∧
    0xFFFFFFFFFF < 2 ^ (bfInMemory 0x2000 (-1) 32).bits := by decide +kernel

/-- The register form, and the memory form's address. -/
theorem witness_FieldBits_located :
    (0 < bfWidth lab (.reg 3) ∧ 31 < 32) ∧ (∀ y, EA.ind 0 ≠ .dreg y) ∧ addrOf (.ind 0) 2 lab = .ok 0x2000 lab :=
  ⟨by decide +kernel, fun _ => EA.noConfusion, of_answers (by decide +kernel)⟩

/-- A field across bytes of memory, and one that wraps in a register. -/
theorem witness_FieldOperations :
    (bfLocate ⟨.imm 4, .imm 12⟩ (.ind 0) lab = .ok (bfInMemory 0x2000 4 12) lab ∧
      BitField.allows (bfInMemory 0x2000 4 12) lab.regions .read ∧
      BitField.allows (bfInMemory 0x2000 4 12) lab.regions .write) ∧
    bfLocate ⟨.imm 28, .imm 8⟩ (.dreg 1) lab = .ok (bfInRegister 1 28 8) lab ∧
    BitField.allows (bfInRegister 1 28 8) lab.regions .read ∧ BitField.allows (bfInRegister 1 28 8) lab.regions .write :=
  ⟨⟨of_answers (by decide +kernel), show allowed lab.regions .read 0x2000 2 = true by decide +kernel,
      show allowed lab.regions .write 0x2000 2 = true by decide +kernel⟩,
    of_answers (by decide +kernel), trivial, trivial⟩

/-! ### Multiply and divide -/

theorem witness_Products :
    readEa .w (.imm 0xFFFF) 1 lab = .ok 0xFFFF lab ∧ readEa .l (.imm 0x80000000) 2 lab = .ok 0x80000000 lab ∧
    (1 : RegNo) ≠ 0 := ⟨rfl, rfl, by decide⟩

/-- A divisor of 0. -/
theorem witness_divide_by_zero :
    readEa .w (.imm 0) 1 lab = .ok 0 lab ∧ ((Size.w.trunc 0).toNat : Int) = 0 ∧ Size.w.toInt 0 = 0 ∧
    readEa .l (.imm 0) 2 lab = .ok 0 lab ∧ ((0 : Long).toNat : Int) = 0 ∧ (0 : Long).toInt = 0 :=
  ⟨rfl, by decide, by decide, rfl, by decide, by decide⟩

/-- 10 by 3, and 0x20000 by 2, whose quotient is one too large for 16 bits. -/
theorem witness_WordDivides_unsigned :
    (readEa .w (.imm 3) 1 (lab.setD 0 10) = .ok 3 (lab.setD 0 10) ∧ ((Size.w.trunc 3).toNat : Int) ≠ 0 ∧
      (((lab.setD 0 10).getD 0).toNat : Int) = 3 * (Size.w.trunc 3).toNat + 1 ∧
      Int.natAbs 1 < Int.natAbs (Size.w.trunc 3).toNat ∧ Int.sign 1 = Int.sign ((lab.setD 0 10).getD 0).toNat ∧
      (0 : Int) ≤ 3 ∧ (3 : Int) ≤ 2 ^ 16 - 1) ∧
    readEa .w (.imm 2) 1 (lab.setD 0 0x20000) = .ok 2 (lab.setD 0 0x20000) ∧
    (((lab.setD 0 0x20000).getD 0).toNat : Int) = 0x10000 * (Size.w.trunc 2).toNat + 0 ∧
    Int.natAbs 0 < Int.natAbs (Size.w.trunc 2).toNat ∧ ¬((0 : Int) ≤ 0x10000 ∧ (0x10000 : Int) ≤ 2 ^ 16 - 1) :=
  ⟨⟨rfl, by decide +kernel⟩, rfl, by decide +kernel⟩

/-- -0x8000 by 1, the lowest quotient, and 0x8000 by 1, one too large. -/
theorem witness_WordDivides_signed :
    (readEa .w (.imm 1) 1 (lab.setD 0 0xFFFF8000) = .ok 1 (lab.setD 0 0xFFFF8000) ∧ Size.w.toInt 1 ≠ 0 ∧
      ((lab.setD 0 0xFFFF8000).getD 0).toInt = -0x8000 * Size.w.toInt 1 + 0 ∧ Int.natAbs 0 < Int.natAbs (Size.w.toInt 1) ∧
      (-2 ^ 15 : Int) ≤ -0x8000 ∧ (-0x8000 : Int) ≤ 2 ^ 15 - 1) ∧
    readEa .w (.imm 1) 1 (lab.setD 0 0x8000) = .ok 1 (lab.setD 0 0x8000) ∧
    ((lab.setD 0 0x8000).getD 0).toInt = 0x8000 * Size.w.toInt 1 + 0 ∧ ¬((0x8000 : Int) ≤ 2 ^ 15 - 1) :=
  ⟨⟨rfl, by decide +kernel⟩, rfl, by decide +kernel⟩

/-- The 32-bit dividend -7 by 2, Dr apart from Dq and equal to it. -/
theorem witness_LongDivides_narrow :
    readEa .l (.imm 2) 2 (lab.setD 0 0xFFFFFFF9) = .ok 2 (lab.setD 0 0xFFFFFFF9) ∧ (2 : Long).toInt ≠ 0 ∧
    ((lab.setD 0 0xFFFFFFF9).getD 0).toInt = -3 * (2 : Long).toInt + -1 ∧ Int.natAbs (-1) < Int.natAbs (2 : Long).toInt ∧
    Int.sign (-1) = Int.sign ((lab.setD 0 0xFFFFFFF9).getD 0).toInt ∧ (-2 ^ 31 : Int) ≤ -3 ∧ (-3 : Int) ≤ 2 ^ 31 - 1 ∧
    (1 : RegNo) ≠ 0 := ⟨rfl, by decide +kernel⟩

/-- The 64-bit dividends 2^32, whose quotient by 2 fits, and 2^33, whose quotient does not (MD8). -/
theorem witness_LongDivides_wide :
    (let t := (lab.setD 1 1).setD 0 0;
      readEa .l (.imm 2) 2 t = .ok 2 t ∧
      (((t.getD 1).toNat * 2 ^ 32 + (t.getD 0).toNat : Nat) : Int) = 2 ^ 31 * (2 : Long).toNat + 0 ∧
      Int.natAbs 0 < Int.natAbs (2 : Long).toNat ∧ (0 : Int) ≤ 2 ^ 31 ∧ (2 ^ 31 : Int) ≤ 2 ^ 32 - 1) ∧
    let u := (lab.setD 1 2).setD 0 0
    readEa .l (.imm 2) 2 u = .ok 2 u ∧
    (((u.getD 1).toNat * 2 ^ 32 + (u.getD 0).toNat : Nat) : Int) = 2 ^ 32 * (2 : Long).toNat + 0 ∧
    ¬((2 ^ 32 : Int) ≤ 2 ^ 32 - 1) := ⟨⟨rfl, by decide +kernel⟩, rfl, by decide +kernel⟩

/-! ### Program control and decimal -/

/-- The condition holds and does not; the counter is 0 in its low word alone, and is not. -/
theorem witness_Branches :
    CanPush lab ∧ condHolds .ne lab.ccr = true ∧ condHolds .eq lab.ccr = false ∧
    (lab.getD 0).setWidth 16 ≠ (0 : BitVec 16) ∧ ((lab.setD 0 0x10000).getD 0).setWidth 16 = (0 : BitVec 16) := by
  unfold CanPush; decide +kernel

theorem witness_Returns :
    CanPop .l (lab.setA 7 0x7FFC) ∧ CanPop .w (lab.setA 7 0x7FFA) ∧ CanPop .l ((lab.setA 7 0x7FFA).popped .w) := by
  unfold CanPop; decide +kernel

theorem witness_Frames :
    CanPush lab ∧ allowed lab.regions .read (lab.getA 7) 4 = true ∧ allowed lab.regions .read (lab.getA 0) 4 = true := by
  unfold CanPush; decide +kernel

/-- 0x99 and 0x01. -/
theorem witness_DecimalValid_registers :
    (9 ≤ 9 ∧ 0 ≤ 9 ∧ 1 ≤ 9) ∧ Size.b.trunc ((lab.setD 0 0xFFFFFF99).getD 0) = BitVec.ofNat 32 (bcdByte 9 9) ∧
    Size.b.trunc ((lab.setD 1 1).getD 1) = BitVec.ofNat 32 (bcdByte 0 1) := by decide +kernel

theorem witness_DecimalValid_memory :
    readEa .b (.predec 0) 1 (lab.setA 0 0x2004) = .ok (BitVec.ofNat 32 (bcdByte 2 0)) (lab.setA 0 0x2003) ∧
    CanChange .b (.predec 0) 1 (lab.setA 0 0x2002) (.mem 0x2001 none) (BitVec.ofNat 32 (bcdByte 1 0))
      (lab.setA 0 0x2001) :=
  ⟨of_answers (by decide +kernel), lab.setA 0 0x2001, of_answers (by decide +kernel), of_answers (by decide +kernel),
    by unfold Operand.accepts; decide +kernel⟩

theorem witness_DecimalValid_nbcd :
    CanChange .b (.ind 0) 1 lab (.mem 0x2000 none) (BitVec.ofNat 32 (bcdByte 0 0)) lab := lab_byte

/-- A digit of 10 in either place. -/
theorem witness_DecimalInvalid :
    (9 < (Size.b.trunc ((lab.setD 0 0xA0).getD 0)).toNat / 16 ∧ 9 < (Size.b.trunc ((lab.setD 0 0x0A).getD 0)).toNat % 16) ∧
    (readEa .b (.predec 0) 1 (lab.setA 0 0x2008) = .ok 0xFF (lab.setA 0 0x2007) ∧ 9 < (0xFF : Long).toNat / 16 ∧
      CanChange .b (.predec 0) 1 (lab.setA 0 0x2007) (.mem 0x2006 none) 0x7F (lab.setA 0 0x2006) ∧
      9 < (0x7F : Long).toNat % 16) :=
  ⟨by decide +kernel, of_answers (by decide +kernel), by decide,
    ⟨lab.setA 0 0x2006, of_answers (by decide +kernel), of_answers (by decide +kernel),
      by unfold Operand.accepts; decide +kernel⟩, by decide⟩

theorem witness_Packing_pack :
    readEa .b (.predec 0) 2 (lab.setA 0 0x2004) = .ok 0x20 (lab.setA 0 0x2003) ∧
    readEa .b (.predec 0) 2 (lab.setA 0 0x2003) = .ok 0 (lab.setA 0 0x2002) ∧
    CanWrite .b (.predec 0) 2 (lab.setA 0 0x2002) (.mem 0x2001 none) (lab.setA 0 0x2001) :=
  ⟨of_answers (by decide +kernel), of_answers (by decide +kernel), of_answers (by decide +kernel),
    by unfold Operand.accepts; decide +kernel⟩

theorem witness_Packing_unpk :
    readEa .b (.predec 0) 2 (lab.setA 0 0x2004) = .ok 0x20 (lab.setA 0 0x2003) ∧
    CanWrite .b (.predec 1) 2 (lab.setA 0 0x2003) (.mem 0x200F none) ((lab.setA 0 0x2003).setA 1 0x200F) ∧
    CanWrite .b (.predec 1) 2 (((lab.setA 0 0x2003).setA 1 0x200F).putOp .b (.mem 0x200F none) 0x30) (.mem 0x200E none)
      ((((lab.setA 0 0x2003).setA 1 0x200F).putOp .b (.mem 0x200F none) 0x30).setA 1 0x200E) :=
  ⟨of_answers (by decide +kernel), ⟨of_answers (by decide +kernel), by unfold Operand.accepts; decide +kernel⟩,
    of_answers (by decide +kernel), by unfold Operand.accepts; decide +kernel⟩

/-! ### Synchronising instructions and traps -/

theorem witness_Synchronising_tas :
    CanChange .b (.ind 0) 1 lab (.mem 0x2000 none) 0 lab ∧
    resolve .b (.absL 0x1FFF) 1 lab = .ok (.mem 0x1FFF none) lab ∧ allowed lab.regions .write 0x1FFF 1 = false :=
  ⟨lab_byte, of_answers (by decide +kernel), by decide +kernel⟩

/-- `lab` with its data region written only. -/
def writeOnlyLab : State :=
  { lab with regions := [{ base := 0x2000, length := 0x1000, r := false, w := true, x := false }] }

/-- An operand with W and without R, and one whose last byte lacks W. -/
theorem witness_Synchronising_refused :
    (resolve .b (.ind 0) 1 writeOnlyLab = .ok (.mem 0x2000 none) writeOnlyLab ∧
      allowed writeOnlyLab.regions .write 0x2000 1 = true ∧ allowed writeOnlyLab.regions .read 0x2000 1 = false) ∧
    (resolve .b (.ind 0) 2 writeOnlyLab = .ok (.mem 0x2000 none) writeOnlyLab ∧
      resolve .w (.ind 0) 2 writeOnlyLab = .ok (.mem 0x2000 none) writeOnlyLab ∧
      allowed writeOnlyLab.regions .write 0x2000 2 = true ∧ allowed writeOnlyLab.regions .read 0x2000 2 = false) ∧
    resolve .l (.absL 0x2FFD) 2 lab = .ok (.mem 0x2FFD none) lab ∧ allowed lab.regions .write 0x2FFD 4 = false :=
  ⟨⟨of_answers (by decide +kernel), by decide +kernel, by decide +kernel⟩,
    ⟨of_answers (by decide +kernel), of_answers (by decide +kernel), by decide +kernel, by decide +kernel⟩,
    of_answers (by decide +kernel), by decide +kernel⟩

/-- CAS2's second operand without W; both with W and without R. -/
theorem witness_Synchronising_cas2_refused :
    (allowed lab.regions .write (lab.getR (.a 0)) 4 = true ∧
      allowed lab.regions .write ((lab.setA 1 0x2FFD).getR (.a 1)) 4 = false) ∧
    allowed writeOnlyLab.regions .write (writeOnlyLab.getR (.a 0)) 2 = true ∧
    allowed writeOnlyLab.regions .write (writeOnlyLab.getR (.a 1)) 2 = true ∧
    allowed writeOnlyLab.regions .read (writeOnlyLab.getR (.a 0)) 2 = false := by decide +kernel

/-- Equal to Dc and not. -/
theorem witness_Synchronising_cas :
    CanChange .l (.ind 0) 2 lab (.mem 0x2000 none) 0x00100020 lab ∧
    (0x00100020 : Long) ≠ Size.l.trunc (lab.getD 0) ∧
    (0x00100020 : Long) = Size.l.trunc ((lab.setD 0 0x00100020).getD 0) := ⟨lab_long, by decide +kernel⟩

/-- The two operands overlap; both equal, the first not, the second not; one register for both. -/
theorem witness_Synchronising_cas2 :
    (allowed lab.regions .read (lab.getR (.a 0)) 4 = true ∧ allowed lab.regions .write (lab.getR (.a 0)) 4 = true ∧
      allowed lab.regions .read ((lab.setA 1 0x2002).getR (.a 1)) 4 = true ∧
      allowed lab.regions .write ((lab.setA 1 0x2002).getR (.a 1)) 4 = true) ∧
    BitVec.ofNat 32 (lab.load 0x2000 4) = Size.l.trunc ((lab.setD 0 0x00100020).getD 0) ∧
    BitVec.ofNat 32 (lab.load 0x2004 4) = Size.l.trunc ((lab.setD 1 0x80007FFF).getD 1) ∧
    BitVec.ofNat 32 (lab.load 0x2000 4) ≠ Size.l.trunc (lab.getD 0) ∧ (0 : RegNo) ≠ 1 := by decide +kernel

theorem witness_Traps :
    (15 : BitVec 4) ≠ 0 ∧ (lab.setCcr (Ccr.ofBits 0b00010)).ccr.v = true ∧ lab.ccr.v = false ∧
    condHolds .ne lab.ccr = true ∧ condHolds .eq lab.ccr = false := by decide +kernel

theorem witness_Privileged :
    Instr.wf (.moves .l ⟨7, 1⟩) = true ∧ Instr.wf (.moveFromSr ⟨7, 1⟩) = true ∧ Instr.wf (.moveToSr ⟨7, 4⟩) = true ∧
    Instr.wf (.movec true) = true ∧ Instr.wf (.moveToUsp 7) = true := by decide

end Sys2Proof.Tests
end

section
/-! PROOFS. The statements of the scope family: the frame of every instruction (O15), register access (O19), push and
pop (O24), the sum and the difference with their flags (O25). -/

namespace Sys2Proof.Machine

open Sys2Proof

/-! ### The frame of an instruction -/

theorem State.getR_congr {s t : State} (hd : t.d = s.d) (ha : t.a = s.a) (r : RegSel) : t.getR r = s.getR r := by
  cases r with
  | d n => simp only [State.getR, State.getD, hd]
  | a n => simp only [State.getR, State.getA, ha]

/-- Settles O15: the effects of an instruction stay inside `writesRegs` and `writesFlags`, and what ends it, the PC or
the status, is no register and no flag. -/
theorem frameRegisters : Obligations.FrameRegisters := by
  intro i s t h
  obtain ⟨u, hu, hd, ha, hc, -⟩ := exec_effects h
  refine ⟨fun r hr => ?_, ?_⟩
  · rw [State.getR_congr hd ha]; exact hu.getR hr
  · rw [hc]; exact hu.flags

/-! ### Register access -/

/-- Bit by bit, a register written at a size (R16). -/
theorem getLsbD_mergeLow (sz : Size) (old v : Long) {i : Nat} (hi : i < 32) :
    (mergeLow sz old v).getLsbD i = if i < sz.bits then v.getLsbD i else old.getLsbD i := by
  cases sz with
  | b =>
    refine BitVec.getLsbD_append.trans ?_
    by_cases h : i < 8
    · simp [Size.bits, Size.bytes, h]
    · simp [Size.bits, Size.bytes, h, show i - 8 < 24 by omega, show 8 + (i - 8) = i by omega]
  | w =>
    refine BitVec.getLsbD_append.trans ?_
    by_cases h : i < 16
    · simp [Size.bits, Size.bytes, h]
    · simp [Size.bits, Size.bytes, h, show i - 16 < 16 by omega, show 16 + (i - 16) = i by omega]
  | l => simp [mergeLow, Size.bits, Size.bytes, hi]

/-- `mask_s` has exactly the bits of the size (R15, R16). -/
theorem getLsbD_sizeMask (sz : Size) {i : Nat} (hi : i < 32) :
    (BitVec.ofNat 32 (2 ^ sz.bits - 1)).getLsbD i = decide (i < sz.bits) := by
  rw [BitVec.getLsbD_ofNat, Nat.testBit_two_pow_sub_one, decide_eq_true hi, Bool.true_and]

/-- The formula of R16's `WriteD`: upper bits kept by the mask, low bits replaced. -/
theorem mergeLow_eq_mask (sz : Size) (old v : Long) :
    mergeLow sz old v = (old &&& ~~~(BitVec.ofNat 32 (2 ^ sz.bits - 1))) |||
      (v &&& BitVec.ofNat 32 (2 ^ sz.bits - 1)) := by
  refine BitVec.eq_of_getLsbD_eq fun i hi => ?_
  rw [getLsbD_mergeLow sz old v hi, BitVec.getLsbD_or, BitVec.getLsbD_and, BitVec.getLsbD_and, BitVec.getLsbD_not,
    getLsbD_sizeMask sz hi]
  by_cases h : i < sz.bits <;> simp [h, hi]

theorem getR_regOfIndex_d (s : State) {k : Nat} (h : k < 8) : s.getR (regOfIndex k) = s.d[k] := by
  simp only [regOfIndex, if_pos h, State.getR, State.getD, BitVec.toNat_ofNat, Nat.mod_eq_of_lt h]

theorem getR_regOfIndex_a (s : State) {k : Nat} (h : k < 8) : s.getR (regOfIndex (k + 8)) = s.a[k] := by
  simp only [regOfIndex, if_neg (show ¬k + 8 < 8 by omega), Nat.add_sub_cancel, State.getR, State.getA,
    BitVec.toNat_ofNat, Nat.mod_eq_of_lt h]

/-- Settles O19: `WriteD` is the masked merge, `WriteA` the sign-extended value, both of their own register alone. -/
theorem registerWrites : Obligations.RegisterWrites := by
  refine ⟨fun s n m sz v => ⟨?_, fun hm => ?_, State.getA_writeD .., ?_, fun hm => ?_, State.getD_writeA ..⟩,
    fun s k h => ⟨getR_regOfIndex_d s h, getR_regOfIndex_a s h⟩⟩
  · rw [State.getD_writeD, if_pos rfl, mergeLow_eq_mask]
  · rw [State.getD_writeD, if_neg hm.symm]
  · rw [State.getA_writeA, if_pos rfl, Size.toInt, BitVec.ofInt_toInt]
  · rw [State.getA_writeA, if_neg hm.symm]

/-! ### Push and pop -/

/-- A push whose access is refused changes nothing (R20, R86). -/
theorem push_raise {s : State} (h : ¬CanPush s) (v : Long) :
    push v s = .error (.busError { addr := s.getA spReg - 4, kind := .write, size := 4 }) s := by
  unfold push
  rw [bind_run (readA_run _ _)]
  exact bind_raise (memWriteSized_raise (sz := .l) (Bool.eq_false_iff.2 h))

/-- A pop whose access is refused changes nothing (R20, R85). -/
theorem pop_raise {s : State} {sz : Size} (h : ¬CanPop sz s) :
    pop sz s = .error (.busError { addr := s.getA spReg, kind := .read, size := sz.bytes }) s := by
  unfold pop
  rw [bind_run (readA_run _ _)]
  exact bind_raise (memReadSized_raise (Bool.eq_false_iff.2 h))

/-- Of two writes to one address register the last counts. -/
theorem State.setA_setA (s : State) (n : RegNo) (v w : Long) : (s.setA n v).setA n w = s.setA n w := by
  simp [State.setA]

theorem State.setA_getA (s : State) (n : RegNo) : s.setA n (s.getA n) = s := by
  simp [State.setA, State.getA]

/-- After a push, A7 is 4 lower (R20). -/
theorem getA_pushed (s : State) (v : Long) : (s.pushed v).getA spReg = s.getA spReg - 4 := by
  simp [State.pushed]

/-- The long on top after a push is the long pushed (R20, R82). -/
theorem top_pushed {s : State} (hm : Memory.wf s.mem = true) (v : Long) : (s.pushed v).top .l = v := by
  have hload : (s.pushed v).load (s.getA spReg - 4) 4 = v.toNat % 256 ^ 4 :=
    State.load_store hm _ 4 _ (by decide)
  rw [State.top, getA_pushed, Size.bytes, hload, Nat.mod_eq_of_lt (by exact v.isLt), BitVec.ofNat_toNat,
    BitVec.setWidth_eq]

/-- A push and the pop after it leave A7 where it was (R20). -/
theorem popped_pushed_a (s : State) (v : Long) : ((s.pushed v).popped .l).a = s.a := by
  have hsp : s.getA spReg - 4 + BitVec.ofNat 32 Size.l.bytes = s.getA spReg := BitVec.sub_add_cancel _ _
  have hback := State.setA_getA (s.store (s.getA spReg - 4) 4 v.toNat) spReg
  rw [State.getA_store] at hback
  rw [State.popped, getA_pushed, hsp, State.pushed, State.setA_setA, hback, State.store_a]

/-- Settles O24: each access as it is allowed or refused, and the round trip through memory. -/
theorem stack : Obligations.Stack := by
  refine ⟨fun s v sz => ⟨push_run, fun h => ⟨_, push_raise h v⟩, pop_run, fun h => ⟨_, pop_raise h⟩⟩,
    fun s v hm _ hpop => ⟨_, ?_, popped_pushed_a s v⟩⟩
  rw [pop_run hpop, top_pushed hm]

/-! ### Sums, differences and their flags -/

/-- `2^(N-1)`, the weight of the sign bit at a size (R15). -/
def signWeight (sz : Size) : Nat := 2 ^ (sz.bits - 1)

theorem two_pow_bits (sz : Size) : 2 ^ sz.bits = 2 * signWeight sz := by cases sz <;> rfl

/-- The unsigned value at a size (R14). -/
theorem toNat_trunc (sz : Size) (v : Long) : (sz.trunc v).toNat = v.toNat % 2 ^ sz.bits := by
  cases sz with
  | b | w => simp [Size.trunc, Size.bits, Size.bytes]; omega
  | l => exact (Nat.mod_eq_of_lt v.isLt).symm

theorem toNat_trunc_lt (sz : Size) (v : Long) : (sz.trunc v).toNat < 2 * signWeight sz := by
  rw [toNat_trunc, two_pow_bits]
  exact Nat.mod_lt _ (by rw [← two_pow_bits]; exact Nat.two_pow_pos _)

/-- The sign bit is set from its weight on (R15). -/
theorem msb_eq_decide_trunc (sz : Size) (v : Long) : sz.msb v = decide (signWeight sz ≤ (sz.trunc v).toNat) := by
  rw [toNat_trunc]
  cases sz with
  | b => exact (BitVec.msb_setWidth ..).symm.trans (BitVec.msb_eq_decide (v.setWidth 8))
  | w => exact (BitVec.msb_setWidth ..).symm.trans (BitVec.msb_eq_decide (v.setWidth 16))
  | l => exact (BitVec.msb_eq_decide v).trans (by rw [Nat.mod_eq_of_lt (by exact v.isLt)]; rfl)

/-- The signed value of an unsigned one `D` whose sign bit weighs `H` (R14). -/
def signedOf (H D : Nat) : Int := D - if H ≤ D then 2 * (H : Int) else 0

theorem signedOf_cases (H D : Nat) :
    (D < H ∧ signedOf H D = D) ∨ (H ≤ D ∧ signedOf H D = D - 2 * (H : Int)) := by
  unfold signedOf
  split <;> omega

theorem toInt_eq_signedOf {n : Nat} (x : BitVec (n + 1)) : x.toInt = signedOf (2 ^ n) x.toNat := by
  have h := signedOf_cases (2 ^ n) x.toNat
  rw [BitVec.toInt_eq_toNat_cond, Nat.pow_succ]
  split <;> omega

theorem toInt_eq_signedOf_trunc (sz : Size) (v : Long) : sz.toInt v = signedOf (signWeight sz) (sz.trunc v).toNat := by
  rw [toNat_trunc]
  cases sz with
  | b => exact (BitVec.toInt_signExtend_of_le (by decide)).trans (toInt_eq_signedOf (v.setWidth 8))
  | w => exact (BitVec.toInt_signExtend_of_le (by decide)).trans (toInt_eq_signedOf (v.setWidth 16))
  | l => exact (toInt_eq_signedOf v).trans (by rw [Nat.mod_eq_of_lt (by exact v.isLt)]; rfl)

theorem outOfRange_iff (sz : Size) (x : Int) :
    outOfRange sz.bits x = true ↔ x < -(signWeight sz : Int) ∨ (signWeight sz : Int) ≤ x := by
  have hw : (2 ^ (sz.bits - 1) : Int) = (signWeight sz : Int) := by unfold signWeight; norm_cast
  rw [outOfRange, hw, Bool.or_eq_true, decide_eq_true_iff, decide_eq_true_iff]
  omega

/-! In what follows `D` and `X` are two values of a size whose sign bit weighs `H`, `c` is a carry or borrow in, and `R`
the result cut to the size. -/

section

variable {H D X c R : Nat} (hD : D < 2 * H) (hX : X < 2 * H) (hc : c ≤ 1)

include hD hX hc

/-- A sum is its low part, or that and `2^N`. -/
theorem sum_wraps (hR : R = (D + X + c) % (2 * H)) : R < 2 * H ∧ (D + X + c = R ∨ D + X + c = R + 2 * H) := by
  by_cases h : D + X + c < 2 * H
  · rw [hR, Nat.mod_eq_of_lt h]; omega
  · rw [hR, Nat.mod_eq_sub_mod (by omega), Nat.mod_eq_of_lt (by omega)]; omega

/-- A difference is its low part, or that less `2^N`. -/
theorem difference_wraps (hR : (R : Int) = ((D : Int) - X - c) % (2 * H : Nat)) :
    R < 2 * H ∧ (D = X + c + R ∨ D + 2 * H = X + c + R) := by
  by_cases h : X + c ≤ D
  · rw [Int.emod_eq_of_lt (by omega) (by omega)] at hR; omega
  · rw [← Int.add_emod_right, Int.emod_eq_of_lt (by omega) (by omega)] at hR; omega

/-- The carry out of the sign bit, from the three sign bits (R250). -/
theorem carry_iff (hR : R = (D + X + c) % (2 * H)) :
    2 * H ≤ D + X + c ↔ (H ≤ D ∧ H ≤ X) ∨ (¬H ≤ R ∧ (H ≤ D ∨ H ≤ X)) := by
  have := sum_wraps hD hX hc hR
  omega

/-- A sum overflows when the operands have one sign and the result the other (R250). -/
theorem sum_overflow_iff (hR : R = (D + X + c) % (2 * H)) :
    (signedOf H D + signedOf H X + c < -(H : Int) ∨ (H : Int) ≤ signedOf H D + signedOf H X + c) ↔
      (H ≤ D ↔ H ≤ X) ∧ ¬(H ≤ R ↔ H ≤ D) := by
  have := sum_wraps hD hX hc hR
  have := signedOf_cases H D
  have := signedOf_cases H X
  omega

/-- The borrow into the sign bit, from the three sign bits (R251). -/
theorem borrow_iff (hR : (R : Int) = ((D : Int) - X - c) % (2 * H : Nat)) :
    D < X + c ↔ (¬H ≤ D ∧ H ≤ X) ∨ (H ≤ R ∧ (¬H ≤ D ∨ H ≤ X)) := by
  have := difference_wraps hD hX hc hR
  omega

/-- A difference overflows when the operands differ in sign and the result has not the minuend's (R251). -/
theorem difference_overflow_iff (hR : (R : Int) = ((D : Int) - X - c) % (2 * H : Nat)) :
    (signedOf H D - signedOf H X - c < -(H : Int) ∨ (H : Int) ≤ signedOf H D - signedOf H X - c) ↔
      ¬(H ≤ D ↔ H ≤ X) ∧ ¬(H ≤ R ↔ H ≤ D) := by
  have := difference_wraps hD hX hc hR
  have := signedOf_cases H D
  have := signedOf_cases H X
  omega

end

/-! The laws of `addCore` and `subCore` (R250, R251). -/

theorem toNat_carryIn (b : Bool) : (if b then 1 else 0 : Long).toNat = b.toNat := by cases b <;> rfl

/-- A value already cut to the size is its own low part. -/
theorem trunc_eq_self {sz : Size} {v : Long} (h : v.toNat < 2 ^ sz.bits) : sz.trunc v = v :=
  BitVec.eq_of_toNat_eq ((toNat_trunc sz v).trans (Nat.mod_eq_of_lt h))

theorem two_pow_bits_dvd (sz : Size) : 2 ^ sz.bits ∣ 2 ^ 32 := by cases sz <;> decide

theorem addCore_toNat_trunc (sz : Size) (d x : Long) (b : Bool) : (addCore sz d x b).value.toNat =
    ((sz.trunc d).toNat + (sz.trunc x).toNat + b.toNat) % 2 ^ sz.bits := by
  rw [addCore_toNat, toNat_trunc, toNat_trunc]
  simp only [Nat.add_mod, Nat.mod_mod]

theorem addCore_value (sz : Size) (d x : Long) (b : Bool) :
    (addCore sz d x b).value = sz.trunc (d + x + if b then 1 else 0) := by
  refine BitVec.eq_of_toNat_eq ?_
  rw [addCore_toNat, toNat_trunc, BitVec.toNat_add, BitVec.toNat_add, toNat_carryIn, Nat.mod_add_mod,
    Nat.mod_mod_of_dvd _ (two_pow_bits_dvd sz)]

/-- An exact value cut to a size is its remainder modulo `2^N`, never negative (R14). -/
theorem toNat_truncInt (sz : Size) (x : Int) : ((truncInt sz x).toNat : Int) = x % (2 ^ sz.bits : Nat) := by
  have hpos : (0 : Int) < (2 ^ sz.bits : Nat) := by exact_mod_cast Nat.two_pow_pos _
  have hle : 2 ^ sz.bits ≤ 2 ^ 32 := Nat.le_of_dvd (by decide) (two_pow_bits_dvd sz)
  have hlt := Int.emod_lt_of_pos x hpos
  rw [truncInt, BitVec.toNat_ofInt, Int.toNat_of_nonneg (Int.emod_nonneg _ (by decide)),
    show (2 ^ sz.bits : Int) = (2 ^ sz.bits : Nat) by norm_cast]
  exact Int.emod_eq_of_lt (Int.emod_nonneg x (Int.ne_of_gt hpos)) (by omega)

theorem toNat_truncInt_lt (sz : Size) (x : Int) : (truncInt sz x).toNat < 2 ^ sz.bits := by
  have h := Int.emod_lt_of_pos x (b := (2 ^ sz.bits : Nat)) (by exact_mod_cast Nat.two_pow_pos _)
  rw [← toNat_truncInt] at h
  exact_mod_cast h

theorem subCore_toNat (sz : Size) (d x : Long) (b : Bool) : ((subCore sz d x b).value.toNat : Int) =
    (((sz.trunc d).toNat : Int) - (sz.trunc x).toNat - b.toNat) % (2 ^ sz.bits : Nat) := toNat_truncInt _ _

theorem subCore_value (sz : Size) (d x : Long) (b : Bool) :
    (subCore sz d x b).value = sz.trunc (d - x - if b then 1 else 0) := by
  refine BitVec.eq_of_toNat_eq (Int.ofNat_inj.1 ?_)
  rw [subCore_toNat, toNat_trunc, toNat_trunc, toNat_trunc, BitVec.toNat_sub, BitVec.toNat_sub, toNat_carryIn]
  have := b.toNat_le
  cases sz <;> simp only [Size.bits, Size.bytes] <;> omega

theorem addCore_trunc (sz : Size) (d x : Long) (b : Bool) :
    sz.trunc (addCore sz d x b).value = (addCore sz d x b).value :=
  trunc_eq_self (addCore_toNat sz d x b ▸ Nat.mod_lt _ (Nat.two_pow_pos _))

theorem subCore_trunc (sz : Size) (d x : Long) (b : Bool) :
    sz.trunc (subCore sz d x b).value = (subCore sz d x b).value := trunc_eq_self (toNat_truncInt_lt _ _)

theorem addCore_carry (sz : Size) (d x : Long) (b : Bool) : (addCore sz d x b).c =
    ((sz.msb d && sz.msb x) || (!sz.msb (addCore sz d x b).value && (sz.msb d || sz.msb x))) := by
  have hR := addCore_toNat_trunc sz d x b
  rw [two_pow_bits] at hR
  have h := carry_iff (toNat_trunc_lt sz d) (toNat_trunc_lt sz x) b.toNat_le hR
  show decide _ = _
  rw [two_pow_bits, Bool.eq_iff_iff, decide_eq_true_iff, h]
  simp [msb_eq_decide_trunc, addCore_trunc]

theorem addCore_overflow (sz : Size) (d x : Long) (b : Bool) : (addCore sz d x b).v =
    (sz.msb d == sz.msb x && sz.msb (addCore sz d x b).value != sz.msb d) := by
  have hR := addCore_toNat_trunc sz d x b
  rw [two_pow_bits] at hR
  have h := sum_overflow_iff (toNat_trunc_lt sz d) (toNat_trunc_lt sz x) b.toNat_le hR
  show outOfRange _ _ = _
  rw [Bool.eq_iff_iff, outOfRange_iff, toInt_eq_signedOf_trunc, toInt_eq_signedOf_trunc, h]
  simp [msb_eq_decide_trunc, addCore_trunc]

theorem subCore_borrow (sz : Size) (d x : Long) (b : Bool) : (subCore sz d x b).c =
    ((!sz.msb d && sz.msb x) || (sz.msb (subCore sz d x b).value && (!sz.msb d || sz.msb x))) := by
  have hR := subCore_toNat sz d x b
  rw [two_pow_bits] at hR
  have h := borrow_iff (toNat_trunc_lt sz d) (toNat_trunc_lt sz x) b.toNat_le hR
  show decide _ = _
  rw [Bool.eq_iff_iff, decide_eq_true_iff, h]
  simp [msb_eq_decide_trunc, subCore_trunc]

theorem subCore_overflow (sz : Size) (d x : Long) (b : Bool) : (subCore sz d x b).v =
    (sz.msb d != sz.msb x && sz.msb (subCore sz d x b).value != sz.msb d) := by
  have hR := subCore_toNat sz d x b
  rw [two_pow_bits] at hR
  have h := difference_overflow_iff (toNat_trunc_lt sz d) (toNat_trunc_lt sz x) b.toNat_le hR
  show outOfRange _ _ = _
  rw [Bool.eq_iff_iff, outOfRange_iff, toInt_eq_signedOf_trunc, toInt_eq_signedOf_trunc, h]
  simp [msb_eq_decide_trunc, subCore_trunc]

/-- Settles O25: the value by arithmetic modulo `2^N`, carry, borrow and overflow by the sign bits of the operands and the
result. -/
theorem addSubFlags : Obligations.AddSubFlags := fun sz d x b =>
  ⟨addCore_value sz d x b, rfl, rfl, addCore_carry sz d x b, addCore_overflow sz d x b,
    subCore_value sz d x b, rfl, rfl, subCore_borrow sz d x b, subCore_overflow sz d x b⟩

end Sys2Proof.Machine
end

section
/-! PROOFS. The statements of the memory family: what stops a step before its instruction (O7), the host's answer (O9),
big-endian memory (O20), accesses checked whole (O21), indexed operands (O23), TAS, CAS and CAS2 (O56). -/

namespace Sys2Proof.Machine

open Sys2Proof

/-! ### What stops a step before its instruction -/

theorem markFetched_zero (s : State) : s.markFetched 0 = s := rfl

theorem step_raised {s t : State} (hs : s.status = .running) (h : fetchInstr s = .raised t) : step s = .next t := by
  simp only [step, hs, h]

/-- A window that is not empty begins with the word at its address. -/
theorem fetchWindow_head? {s : State} {n : Nat} {a : Addr} (h : (fetchWindow s n a).1 ≠ []) :
    (fetchWindow s n a).1.head? = some (s.wordAt a) := by
  cases n with
  | zero => exact absurd rfl h
  | succ n =>
    cases hc : fetchCheck s a with
    | some e => exact absurd (congrArg Prod.fst (fetchWindow_none hc)) h
    | none => simp only [fetchWindow, hc, List.head?_cons]

/-- Words that spell no instruction: the opcode word was fetched, so the record has it (R137, R604). -/
theorem step_illegal {s : State} {rest : List Word16} (hs : s.status = .running)
    (h : decode (fetchWindow s maxWords s.pc).1 = .error .illegal rest) :
    step s = .next (takeException s.pc s.pc (some (s.wordAt s.pc)) .illegalInstruction
      (s.markFetched ((fetchWindow s maxWords s.pc).1.length - rest.length))) := by
  have hne : (fetchWindow s maxWords s.pc).1 ≠ [] := fun h0 => by rw [h0] at h; cases h
  refine step_raised hs ?_
  simp only [fetchInstr, h, raiseAtFetch, fetchWindow_head? hne]

/-- The decoder took `n` words, one at least, and asks for one that cannot be fetched (R84, R604). -/
theorem step_extension_fault {s : State} {n : Nat} {rest : List Word16} {e : Raise} (hs : s.status = .running)
    (hpos : 0 < n) (hmax : n < maxWords) (hfetched : ∀ j < n, fetchCheck s (s.pc + BitVec.ofNat 32 (2 * j)) = none)
    (hshort : decode ((List.range n).map fun j => s.wordAt (s.pc + BitVec.ofNat 32 (2 * j))) = .error .short rest)
    (he : fetchCheck s (s.pc + BitVec.ofNat 32 (2 * n)) = some e) :
    step s = .next (takeException s.pc s.pc (some (s.wordAt s.pc)) e (s.markFetched n)) := by
  have hw := fetchWindow_stop hfetched hmax he
  have hne : (fetchWindow s maxWords s.pc).1 ≠ [] := by
    rw [hw]; simpa using Nat.ne_of_gt hpos
  have hhead := fetchWindow_head? hne
  rw [hw] at hhead
  refine step_raised hs ?_
  simp only [fetchInstr, hw, hshort, raiseAtFetch, hhead, List.length_map, List.length_range, Option.getD_some]

/-- Settles O7: the fetch check of the word that cannot be fetched says which exception, and the words before it are the
ones the decoder took. -/
theorem fetchAndDecodeFaults : Obligations.FetchAndDecodeFaults := by
  intro s hs heven
  refine ⟨fun hx => ?_, fun hx hst => ?_, fun rest h => step_illegal hs h, fun n rest hpos hmax hf hd => ?_⟩
  · exact step_opcode_fault hs (fetchCheck_bus heven hx)
  · exact step_opcode_fault hs (fetchCheck_stale heven hx hst)
  · have hext {e : Raise} := step_extension_fault (e := e) hs hpos hmax hf hd
    exact ⟨fun hx => hext (fetchCheck_bus (even_add heven) hx),
      fun hx hst => hext (fetchCheck_stale (even_add heven) hx hst)⟩

/-! ### The host's answer -/

/-- What the host can answer (R613): -38 for a number outside its table, else a resumption or an exit. -/
theorem hostReturn_cases (s : State) :
    (Config.syscallSupported (s.getD 0) = false ∧ hostReturn s = { s.setD 0 enosys with status := .running }) ∨
    (Config.syscallSupported (s.getD 0) = true ∧ ∃ g : Nat,
      (∃ (d0 : Long) (writes : List (Addr × Byte)) (rs : List Region), Region.mapWf rs = true ∧
        hostReturn s = { s.resume d0 writes rs with draws := g }) ∨
      ∃ c : BitVec 8, hostReturn s = { s with status := .exited c, draws := g }) := by
  cases hsup : Config.syscallSupported (s.getD 0) with
  | false => exact .inl ⟨rfl, if_neg (Bool.eq_false_iff.1 hsup)⟩
  | true =>
    refine .inr ⟨rfl, s.draws + 1, ?_⟩
    cases hans : Config.syscall s.draws s.hostView with
    | resume d0 writes rs wf => exact .inl ⟨d0, writes, rs, wf, by simp only [hostReturn, hsup, hans, if_true]⟩
    | exit code => exact .inr ⟨code.setWidth 8, by simp only [hostReturn, hsup, hans, if_true]⟩

/-- What a resumption keeps: every register but D0, the flags, the PC, `ifetched`, and what was stale (R613, D37). -/
theorem resume_keeps (s : State) (d0 : Long) (writes : List (Addr × Byte)) (rs : List Region) :
    let t := s.resume d0 writes rs
    t.pc = s.pc ∧ t.ccr = s.ccr ∧ t.a = s.a ∧ t.ifetched = s.ifetched ∧ (∀ n : RegNo, n ≠ 0 → t.getD n = s.getD n) ∧
    ∀ j ∈ s.stale, j ∈ t.stale := by
  obtain ⟨hd, ha, hpc, hccr, hif, -, hst⟩ :=
    hostWrites_keeps { s with mem := Memory.restrict s.mem rs, regions := rs } writes
  refine ⟨hpc, hccr, ha, hif, fun n hn => ?_, hst⟩
  refine ((State.getD_setD _ 0 n d0).trans (if_neg hn.symm)).trans ?_
  simp only [State.getD, hd]

/-- A mapped byte holds the last value the host writes to it (R101). -/
theorem get_resume_last {s : State} (hm : Memory.wf s.mem = true) (d0 : Long) {rs : List Region} {a : Addr}
    (ha : mappedAt rs a.toNat = true) (before after : List (Addr × Byte)) (b : Byte) (h : ∀ w ∈ after, w.1 ≠ a) :
    Memory.get (s.resume d0 (before ++ (a, b) :: after) rs).mem a.toNat = b :=
  get_hostWrites_last (s := { s with mem := Memory.restrict s.mem rs, regions := rs }) (Memory.wf_restrict hm rs) ha
    before after b h

/-- Settles O9: the three answers of the host, what each of them keeps, and what a resumption does. -/
theorem hostAnswers : Obligations.HostAnswers := by
  refine ⟨fun s hs => ⟨hostReturn s, by simp only [step, hs], ?_⟩, fun s d0 writes rs => ?_⟩
  · have hcases := hostReturn_cases s
    refine ⟨hcases, ?_⟩
    obtain ⟨-, ht⟩ | ⟨-, g, ⟨d0, writes, rs, -, ht⟩ | ⟨c, ht⟩⟩ := hcases <;> rw [ht]
    · exact ⟨rfl, rfl, rfl, rfl, fun n hn => (State.getD_setD s 0 n enosys).trans (if_neg hn.symm), fun _ h => h, .inl rfl⟩
    · obtain ⟨hpc, hccr, ha, hif, hd, hst⟩ := resume_keeps s d0 writes rs
      exact ⟨hpc, hccr, ha, hif, hd, hst, .inl rfl⟩
    · exact ⟨rfl, rfl, rfl, rfl, fun _ _ => rfl, fun _ h => h, .inr ⟨c, rfl, rfl, rfl, rfl⟩⟩
  · obtain ⟨hrun, hrs, hd0, hmap, hst, hget⟩ := resume_spec s d0 writes rs
    refine ⟨hrun, hrs, hd0, hmap, hst, hget, fun hm before after a b hw ha h => ?_⟩
    rw [hw]
    exact get_resume_last hm d0 ha before after b h

/-! ### Big-endian memory -/

/-- A load, one byte at a time, the first byte on top (R82, R83). -/
theorem load_succ (s : State) (a : Addr) (n : Nat) :
    s.load a (n + 1) = (Memory.get s.mem a.toNat).toNat * 256 ^ n + s.load (a + 1) n := by
  simp only [State.load, byteAddrs, List.map_cons, beValue, List.length_map, length_byteAddrs]

/-- `n` bytes make a number below `256^n` (R82). -/
theorem load_lt (s : State) (a : Addr) (n : Nat) : s.load a n < 256 ^ n := by
  induction n generalizing a with
  | zero => exact Nat.one_pos
  | succ n ih =>
    have hrest := ih (a + 1)
    have htop : (Memory.get s.mem a.toNat).toNat * 256 ^ n ≤ 255 * 256 ^ n :=
      Nat.mul_le_mul_right _ (Nat.le_of_lt_succ (Memory.get s.mem a.toNat).isLt)
    rw [load_succ, Nat.pow_succ]
    omega

/-- The byte at the lower address is the high byte of a fetched word (R82). -/
theorem wordAt_eq_append (s : State) (a : Addr) :
    s.wordAt a = Memory.get s.mem a.toNat ++ Memory.get s.mem (a + 1).toNat := by
  refine BitVec.eq_of_toNat_eq ?_
  have h1 := (Memory.get s.mem a.toNat).isLt
  have h2 := (Memory.get s.mem (a + 1).toNat).isLt
  rw [State.wordAt, load_succ, load_succ, BitVec.toNat_append, ← Nat.shiftLeft_add_eq_or_of_lt h2, Nat.shiftLeft_eq,
    BitVec.toNat_ofNat, show s.load (a + 1 + 1) 0 = 0 from rfl]
  omega

/-- A write sets byte `i` of the access to its eight bits of the value (R82, R86). -/
theorem get_store {s : State} (hm : Memory.wf s.mem = true) (a : Addr) {n i : Nat} (v : Nat) (hn : n ≤ 2 ^ 32)
    (hi : i < n) :
    Memory.get (s.store a n v).mem (a + BitVec.ofNat 32 i).toNat = BitVec.ofNat 8 (v / 256 ^ (n - 1 - i)) := by
  have hback := Memory.map_get_setBytes hm a (beBytes n v) (by rwa [length_beBytes])
  rw [length_beBytes] at hback
  have hbyte := List.getElem_of_eq hback (i := i) (by simpa using hi)
  rwa [List.getElem_map, byteAddrs_getElem hi, beBytes_getElem hi] at hbyte

/-- Settles O20: the load by its recursion, the store by the bytes read back. -/
theorem bigEndian : Obligations.BigEndian :=
  ⟨fun s a n => ⟨rfl, load_succ s a n, wordAt_eq_append s a⟩,
    fun _ a n v hm hn => ⟨State.load_store hm a n v hn, fun _ hi => get_store hm a v hn hi⟩⟩

/-! ### Accesses checked whole -/

/-- An access is allowed when each of its bytes is (R87). -/
theorem allowed_of_forall {rs : List Region} {k : Access} {a : Addr} {n : Nat}
    (h : ∀ i < n, allowedAt rs k (a + BitVec.ofNat 32 i).toNat = true) : allowed rs k a n = true :=
  allowed_iff.2 fun j hj => by obtain ⟨i, hi, rfl⟩ := mem_byteAddrs.1 hj; exact h i hi

/-- One byte that is not allowed refuses the whole access (R87). -/
theorem not_allowed_of_exists {rs : List Region} {k : Access} {a : Addr} {n : Nat}
    (h : ∃ i < n, allowedAt rs k (a + BitVec.ofNat 32 i).toNat = false) : allowed rs k a n = false := by
  obtain ⟨i, hi, hbyte⟩ := h
  refine Bool.eq_false_iff.2 fun hall => ?_
  rw [allowed_iff.1 hall _ (mem_byteAddrs.2 ⟨i, hi, rfl⟩)] at hbyte
  cases hbyte

/-- A write makes stale exactly those of its bytes that were fetched (R86). -/
theorem mem_stale_store {s : State} {a : Addr} {n v j : Nat} :
    j ∈ (s.store a n v).stale ↔ j ∈ s.stale ∨ (j ∈ s.ifetched ∧ ∃ i < n, j = (a + BitVec.ofNat 32 i).toNat) := by
  rw [State.store_stale, mem_markStale, mem_byteAddrs, or_comm, and_comm]

/-- Settles O21: the check of the whole access, byte by byte, and what a write makes stale. -/
theorem accessChecked : Obligations.AccessChecked := fun _ _ _ _ =>
  ⟨fun h => memRead_run (allowed_of_forall h), fun h => memRead_raise (not_allowed_of_exists h),
    fun h => ⟨memWrite_run (allowed_of_forall h), fun _ => mem_stale_store⟩,
    fun h => memWrite_raise (not_allowed_of_exists h)⟩

/-! ### Indexed operands -/

/-- The scaled index is the register, or its low word sign-extended, times the factor (R207). -/
theorem indexValue_eq_mul (s : State) (x : Index) : s.indexValue x =
    (if x.long then s.getR x.reg else ((s.getR x.reg).setWidth 16).signExtend 32) *
      BitVec.ofNat 32 (2 ^ x.scale.toNat) := by
  have hpow : BitVec.twoPow 32 x.scale.toNat = BitVec.ofNat 32 (2 ^ x.scale.toNat) :=
    BitVec.eq_of_toNat_eq (by rw [BitVec.toNat_twoPow, BitVec.toNat_ofNat])
  rw [State.indexValue, BitVec.shiftLeft_eq_mul_twoPow, hpow]
  rfl

section

variable {s : State} {base p : Long} {x : Index} {bs is : Bool} {bd : Disp} (od : Disp)

/-- A pre-indexed form reads its pointer at the indexed address and adds the outer displacement to it (R209). -/
theorem indexedAddr_pre_run (hp : (if bs then 0 else base) + Disp.value bd + (if is then 0 else s.indexValue x) = p)
    (h : allowed s.regions .read p 4 = true) :
    indexedAddr base (.full x bs is bd (.pre od)) s = .ok (BitVec.ofNat 32 (s.load p 4) + Disp.value od) s := by
  subst hp
  exact (bind_run (get_run s)).trans (bind_run (memReadSized_run (sz := .l) h))

theorem indexedAddr_pre_raise (hp : (if bs then 0 else base) + Disp.value bd + (if is then 0 else s.indexValue x) = p)
    (h : allowed s.regions .read p 4 = false) :
    indexedAddr base (.full x bs is bd (.pre od)) s = .error (.busError { addr := p, kind := .read, size := 4 }) s := by
  subst hp
  exact (bind_run (get_run s)).trans (bind_raise (memReadSized_raise (sz := .l) h))

/-- A post-indexed form reads its pointer below the index, and adds the index and the outer displacement to it (R209). -/
theorem indexedAddr_post_run (hp : (if bs then 0 else base) + Disp.value bd = p)
    (h : allowed s.regions .read p 4 = true) : indexedAddr base (.full x bs is bd (.post od)) s =
      .ok (BitVec.ofNat 32 (s.load p 4) + ((if is then 0 else s.indexValue x) + Disp.value od)) s := by
  subst hp
  rw [← BitVec.add_assoc]
  exact (bind_run (get_run s)).trans (bind_run (memReadSized_run (sz := .l) h))

theorem indexedAddr_post_raise (hp : (if bs then 0 else base) + Disp.value bd = p)
    (h : allowed s.regions .read p 4 = false) :
    indexedAddr base (.full x bs is bd (.post od)) s = .error (.busError { addr := p, kind := .read, size := 4 }) s := by
  subst hp
  exact (bind_run (get_run s)).trans (bind_raise (memReadSized_raise (sz := .l) h))

end

/-- The operand `ea` is the memory at `a`: resolved, read, written and used as an address there, no register changed, with
the bus error of an access that is refused (R213, R214, R219). -/
def OperandAt (sz : Size) (k : Nat) (u : Long) (s : State) (ea : EA) (a : Addr) : Prop :=
  resolve sz ea k s = .ok (.mem a none) s ∧ addrOf ea k s = .ok a s ∧
  (allowed s.regions .read a sz.bytes = true → readEa sz ea k s = .ok (BitVec.ofNat 32 (s.load a sz.bytes)) s) ∧
  (allowed s.regions .read a sz.bytes = false →
    readEa sz ea k s = .error (.busError { addr := a, kind := .read, size := sz.bytes }) s) ∧
  (allowed s.regions .write a sz.bytes = true → writeEa sz ea k u s = .ok () (s.store a sz.bytes u.toNat)) ∧
  (allowed s.regions .write a sz.bytes = false →
    writeEa sz ea k u s = .error (.busError { addr := a, kind := .write, size := sz.bytes }) s)

/-- Whatever is done with the operand `ea`, finding its address raises `e` and nothing changes. -/
def OperandRaises (sz : Size) (k : Nat) (u : Long) (s : State) (ea : EA) (e : Raise) : Prop :=
  resolve sz ea k s = .error e s ∧ addrOf ea k s = .error e s ∧ readEa sz ea k s = .error e s ∧
  writeEa sz ea k u s = .error e s

theorem operandAt_of_resolve {k : Nat} {s : State} {ea : EA} {a : Addr}
    (h : ∀ sz, resolve sz ea k s = .ok (.mem a none) s) (sz : Size) (u : Long) : OperandAt sz k u s ea a :=
  ⟨h sz, bind_run (h .l), fun hr => (bind_run (h sz)).trans (readOp_mem_run hr),
    fun hr => (bind_run (h sz)).trans (readOp_mem_raise hr), fun hw => writeEa_run ⟨h sz, hw⟩,
    fun hw => (bind_run (h sz)).trans (writeOnly_mem_raise hw)⟩

theorem operandRaises_of_resolve {k : Nat} {s : State} {ea : EA} {e : Raise}
    (h : ∀ sz, resolve sz ea k s = .error e s) (sz : Size) (u : Long) : OperandRaises sz k u s ea e :=
  ⟨h sz, bind_raise (h .l), bind_raise (h sz), bind_raise (h sz)⟩

/-- `ea` makes indexed operands of base `base`: its operand is the memory at the indexed address (R207 to R209, R211). -/
def IndexedFrom (k : Nat) (s : State) (ea : IndexExt → EA) (base : Long) : Prop :=
  ∀ sz x, resolve sz (ea x) k s = (indexedAddr base x >>= fun a => pure (.mem a none)) s

theorem indexedFrom_index (k : Nat) (s : State) (n : RegNo) : IndexedFrom k s (.index n) (s.getA n) := fun _ _ => rfl

theorem indexedFrom_pcIndex (k : Nat) (s : State) : IndexedFrom k s .pcIndex (s.pc + BitVec.ofNat 32 (2 * k)) :=
  fun _ _ => rfl

section

variable {k : Nat} {s : State} {ea : IndexExt → EA} {base : Long} {x : IndexExt} (hea : IndexedFrom k s ea base)

include hea

theorem IndexedFrom.operandAt {a : Addr} (h : indexedAddr base x s = .ok a s) (sz : Size) (u : Long) :
    OperandAt sz k u s (ea x) a := operandAt_of_resolve (fun sz => (hea sz x).trans (bind_run h)) sz u

theorem IndexedFrom.operandRaises {e : Raise} (h : indexedAddr base x s = .error e s) (sz : Size) (u : Long) :
    OperandRaises sz k u s (ea x) e := operandRaises_of_resolve (fun sz => (hea sz x).trans (bind_raise h)) sz u

end

/-- Settles O23: the address of each format, then the operand at that address, over either base. -/
theorem indexedAddress : Obligations.IndexedAddress := by
  refine ⟨⟨rfl, fun _ => rfl, fun _ => rfl⟩, ?_⟩
  intro s sz k n u x d8 bs is bd od v refused at_ through indexed
  have hv : s.indexValue x = v := indexValue_eq_mul s x
  have hindexed {ea : IndexExt → EA} {base : Long} (hea : IndexedFrom k s ea base) : indexed ea base := by
    simp only [indexed, ← hv]
    exact ⟨hea.operandAt rfl sz u, hea.operandAt rfl sz u,
      ⟨fun h => hea.operandAt (indexedAddr_pre_run od rfl h) sz u,
        fun h => hea.operandRaises (indexedAddr_pre_raise od rfl h) sz u⟩,
      ⟨fun h => hea.operandAt (indexedAddr_post_run od rfl h) sz u,
        fun h => hea.operandRaises (indexedAddr_post_raise od rfl h) sz u⟩⟩
  exact ⟨hindexed (indexedFrom_index k s n), hindexed (indexedFrom_pcIndex k s)⟩

/-! ### Synchronising instructions -/

theorem trunc_trunc (sz : Size) (v : Long) : sz.trunc (sz.trunc v) = sz.trunc v :=
  trunc_eq_self (by rw [two_pow_bits]; exact toNat_trunc_lt sz v)

/-- The value of a memory operand fits its size (R85). -/
theorem trunc_load (s : State) (sz : Size) (a : Addr) :
    sz.trunc (BitVec.ofNat 32 (s.load a sz.bytes)) = BitVec.ofNat 32 (s.load a sz.bytes) := by
  refine trunc_eq_self (Nat.lt_of_le_of_lt (Nat.mod_le _ _) ?_)
  rw [Size.bits, Nat.pow_mul]
  exact load_lt s a sz.bytes

/-- The value read from an operand fits its size (R213). -/
theorem trunc_readOp {s t : State} {sz : Size} {op : Operand} {v : Long} (h : readOp sz op s = .ok v t) :
    sz.trunc v = v := by
  cases op with
  | dreg n | areg n | imm w => cases h; exact trunc_trunc sz _
  | mem a post =>
    obtain ⟨w, u, hread, hpost⟩ := bind_ok h
    obtain ⟨-, rfl, -⟩ := memReadSized_ok hread
    obtain ⟨-, u', -, hpure⟩ := bind_ok hpost
    rw [← (pure_ok hpure).1]
    exact trunc_load s sz a

theorem trunc_canChange {sz : Size} {ea : EA} {k : Nat} {s t : State} {op : Operand} {v : Long}
    (h : CanChange sz ea k s op v t) : sz.trunc v = v := by
  obtain ⟨_, -, hread, -⟩ := h
  exact trunc_readOp hread

/-- Only an operand whose bytes may be read is read (R85). -/
theorem allowed_of_readOp {s t : State} {sz : Size} {a : Addr} {post : Option RegNo} {v : Long}
    (h : readOp sz (.mem a post) s = .ok v t) : allowed s.regions .read a sz.bytes = true := by
  obtain ⟨w, u, hread, -⟩ := bind_ok h
  exact (memReadSized_ok hread).1

theorem checkReadWrite_run {s : State} {a : Addr} {n : Nat} (hw : allowed s.regions .write a n = true)
    (hr : allowed s.regions .read a n = true) : checkReadWrite a n s = .ok () s :=
  (bind_run (checkAccess_run hw)).trans (checkAccess_run hr)

/-- TAS's check passes for an operand that can be changed (R576). -/
theorem checkTas_run {s t : State} {op : Operand} {v : Long} (hread : readOp .b op s = .ok v t)
    (hacc : Operand.accepts .b s.regions op) : checkTas op s = .ok () s := by
  cases op with
  | mem a post => exact checkReadWrite_run hacc (allowed_of_readOp hread)
  | dreg n | areg n | imm w => rfl

/-- TAS on an operand that can be changed: the flags of the old byte, then bit 7 set (R576). -/
theorem testAndSet_run {dst : EA} {op : Operand} {v : Long} {s s1 : State} (h : CanChange .b dst 1 s op v s1) :
    testAndSet dst s = .ok () ((s1.putOp .b op (v ||| 0x80)).setCcr (logicCcr .b v s.ccr)) := by
  have hkeep := canChange_keeps h
  obtain ⟨s0, hres, hread, hacc⟩ := h
  have hcheck := checkTas_run hread ((resolve_keeps hres).regions ▸ hacc)
  unfold testAndSet
  rw [bind_run hres, bind_run hcheck, bind_run hread, bind_run (modifyCcr_run _ _), hkeep.ccr, ← putOp_setCcr]
  exact writeBack_run (show Operand.accepts .b s1.regions op from hkeep.regions ▸ hacc)

/-- TAS of an operand whose check fails (R88, R576). -/
theorem testAndSet_refused {dst : EA} {a : Addr} {post : Option RegNo} {s s0 : State} {e : Raise}
    (hres : resolve .b dst 1 s = .ok (.mem a post) s0) (he : checkReadWrite a 1 s0 = .error e s0) :
    testAndSet dst s = .error e s0 := (bind_run hres).trans (bind_raise he)

/-- Values of a size compare equal when they are equal at the size (R262). -/
theorem subCore_z (sz : Size) (d x : Long) : (subCore sz d x false).z = decide (sz.trunc d = sz.trunc x) := by
  have hd := toNat_trunc_lt sz d
  have hx := toNat_trunc_lt sz x
  have hw := difference_wraps hd hx (Nat.zero_le 1) (two_pow_bits sz ▸ subCore_toNat sz d x false)
  show ((subCore sz d x false).value == 0) = _
  rw [Bool.eq_iff_iff, beq_iff_eq, decide_eq_true_iff, ← BitVec.toNat_inj, ← BitVec.toNat_inj,
    show (0 : Long).toNat = 0 from rfl]
  omega

theorem compareValues_run (sz : Size) (v c : Long) (s : State) :
    compareValues sz v c s = .ok () (s.setCcr (compareCcr (subCore sz v c false) s.ccr)) := rfl

/-- CAS on an operand that can be changed: the flags of the comparison, and one write (R577). -/
theorem compareAndSwap_run {sz : Size} {dc du : RegNo} {dst : EA} {a : Addr} {post : Option RegNo} {v : Long}
    {s s1 : State} (h : CanChange sz dst 2 s (.mem a post) v s1) :
    compareAndSwap sz dc du dst s = .ok () ((if v = sz.trunc (s1.getD dc)
        then s1.store a sz.bytes (sz.trunc (s1.getD du)).toNat else s1.writeD dc sz v).setCcr
      (compareCcr (subCore sz v (sz.trunc (s1.getD dc)) false) s.ccr)) := by
  have hkeep := canChange_keeps h
  obtain ⟨s0, hres, hread, hacc⟩ := h
  have hwrite : allowed s0.regions .write a sz.bytes = true := (resolve_keeps hres).regions ▸ hacc
  have hcheck : checkCas sz (.mem a post) s0 = .ok () s0 := checkReadWrite_run hwrite (allowed_of_readOp hread)
  unfold compareAndSwap
  rw [bind_run hres, bind_run hcheck, bind_run hread, bind_run (readDLow_run ..), bind_run (compareValues_run ..),
    bind_run (readCcr_run _), hkeep.ccr, State.setCcr_ccr, compareCcr, subCore_z, trunc_readOp hread, trunc_trunc]
  by_cases heq : v = sz.trunc (s1.getD dc)
  · rw [if_pos (decide_eq_true heq), if_pos heq, bind_run (readDLow_run ..)]
    exact memWriteSized_run (show allowed s1.regions _ _ _ = true from hkeep.regions ▸ hacc)
  · rw [if_neg (by simpa using heq), if_neg heq]
    rfl

/-- CAS of an operand whose check fails (R88, R577). -/
theorem compareAndSwap_refused {sz : Size} {dc du : RegNo} {dst : EA} {a : Addr} {post : Option RegNo} {s s0 : State}
    {e : Raise} (hres : resolve sz dst 2 s = .ok (.mem a post) s0)
    (he : checkReadWrite a sz.bytes s0 = .error e s0) : compareAndSwap sz dc du dst s = .error e s0 :=
  (bind_run hres).trans (bind_raise he)

/-- An instruction whose body stops where the check of its operand fails: the operand without W is named as a write, the
one with W and without R as a read (R605, D23). -/
theorem raises_of_checkReadWrite {i : Instr} {body : Exec Unit} {s s0 : State} {a : Addr} {n : Nat}
    (hexec : exec i s = runSeq i body s) (hregions : s0.regions = s.regions)
    (hbody : ∀ {e}, checkReadWrite a n s0 = .error e s0 → body s = .error e s0) :
    (allowed s.regions .write a n = false → Raises i s (.busError { addr := a, kind := .write, size := n }) s0) ∧
    (allowed s.regions .write a n = true → allowed s.regions .read a n = false →
      Raises i s (.busError { addr := a, kind := .read, size := n }) s0) :=
  ⟨fun hw => raises_of hexec (hbody (checkReadWrite_noWrite (hregions ▸ hw))) rfl,
    fun hw hr => raises_of hexec (hbody (checkReadWrite_noRead (hregions ▸ hw) (hregions ▸ hr))) rfl⟩

/-! CAS2 (R578): `a` and `b` are the addresses of its operands. -/

section

variable {sz : Size} {o p : Cas2Operand} {s : State} {a b : Addr} (ha : s.getR o.rn = a) (hb : s.getR p.rn = b)

include ha hb

/-- An operand without W refuses CAS2 as a write (R605, D23). -/
theorem compareAndSwap2_noWrite
    (h : allowed s.regions .write a sz.bytes = false ∨ allowed s.regions .write b sz.bytes = false) :
    ∃ c, (c = a ∨ c = b) ∧ allowed s.regions .write c sz.bytes = false ∧
      compareAndSwap2 sz o p s = .error (.busError { addr := c, kind := .write, size := sz.bytes }) s := by
  unfold compareAndSwap2
  rw [bind_run (readR_run ..), bind_run (readR_run ..), ha, hb]
  cases hwa : allowed s.regions .write a sz.bytes with
  | false => exact ⟨a, .inl rfl, hwa, bind_raise (checkAccess_raise hwa)⟩
  | true =>
    have hwb := h.resolve_left (by simp [hwa])
    exact ⟨b, .inr rfl, hwb, (bind_run (checkAccess_run hwa)).trans (bind_raise (checkAccess_raise hwb))⟩

variable (hwa : allowed s.regions .write a sz.bytes = true) (hwb : allowed s.regions .write b sz.bytes = true)

include hwa hwb

/-- Operands that may both be written, one of which may not be read, refuse CAS2 as a read (R605, D23). -/
theorem compareAndSwap2_noRead
    (h : allowed s.regions .read a sz.bytes = false ∨ allowed s.regions .read b sz.bytes = false) :
    ∃ c, (c = a ∨ c = b) ∧ allowed s.regions .read c sz.bytes = false ∧
      compareAndSwap2 sz o p s = .error (.busError { addr := c, kind := .read, size := sz.bytes }) s := by
  unfold compareAndSwap2
  rw [bind_run (readR_run ..), bind_run (readR_run ..), ha, hb, bind_run (checkAccess_run hwa),
    bind_run (checkAccess_run hwb)]
  cases hra : allowed s.regions .read a sz.bytes with
  | false => exact ⟨a, .inl rfl, hra, bind_raise (checkAccess_raise hra)⟩
  | true =>
    have hrb := h.resolve_left (by simp [hra])
    exact ⟨b, .inr rfl, hrb, (bind_run (checkAccess_run hra)).trans (bind_raise (checkAccess_raise hrb))⟩

end

/-- The comparison CAS2's flags come from: the first that fails, or the second (R578). -/
def cas2Result (sz : Size) (v c w e : Long) : AluResult :=
  if v = c then subCore sz w e false else subCore sz v c false

/-- Z is set where both comparisons succeed. -/
theorem cas2Result_z {sz : Size} {v c w e : Long} (hv : sz.trunc v = v) (hc : sz.trunc c = c) (hw : sz.trunc w = w)
    (he : sz.trunc e = e) : (cas2Result sz v c w e).z = decide (v = c ∧ w = e) := by
  unfold cas2Result
  by_cases heq : v = c
  · rw [if_pos heq, subCore_z, hw, he]; simp [heq]
  · rw [if_neg heq, subCore_z, hv, hc]; simp [heq]

theorem compareSecond_run (sz : Size) (w e : Long) (t : State) : compareSecond sz w e t =
    .ok () (if t.ccr.z then t.setCcr (compareCcr (subCore sz w e false) t.ccr) else t) := by
  unfold compareSecond
  rw [bind_run (readCcr_run t)]
  cases t.ccr.z <;> rfl

/-- CAS2's two comparisons leave the flags of the first that fails, or of the second (R578). -/
theorem compareBoth_run {β : Type} {sz : Size} {v c w e : Long} (hv : sz.trunc v = v) (hc : sz.trunc c = c)
    (rest : Exec β) (s : State) :
    (do compareValues sz v c; compareSecond sz w e; rest) s =
      rest (s.setCcr (compareCcr (cas2Result sz v c w e) s.ccr)) := by
  rw [bind_run (compareValues_run ..), bind_run (compareSecond_run ..), State.setCcr_ccr, compareCcr, subCore_z, hv, hc,
    cas2Result]
  by_cases heq : v = c
  · rw [if_pos (decide_eq_true heq), if_pos heq]
    rfl
  · rw [if_neg (by simpa using heq), if_neg heq, compareCcr, subCore_z, hv, hc]

theorem cas2Store_run {sz : Size} {a b : Addr} {t : State} (hwa : allowed t.regions .write a sz.bytes = true)
    (hwb : allowed t.regions .write b sz.bytes = true) (du1 du2 : RegNo) : cas2Store sz a b du1 du2 t =
      .ok () ((t.store a sz.bytes (sz.trunc (t.getD du1)).toNat).store b sz.bytes (sz.trunc (t.getD du2)).toNat) :=
  (bind_run (readDLow_run ..)).trans ((bind_run (readDLow_run ..)).trans
    ((bind_run (memWriteSized_run hwa)).trans
      (memWriteSized_run (show allowed (t.store ..).regions _ _ _ = true from hwb))))

theorem cas2Load_two {dc1 dc2 : RegNo} (h : dc1 ≠ dc2) (sz : Size) (v w : Long) (t : State) :
    cas2Load sz dc1 dc2 v w t = .ok () ((t.writeD dc1 sz v).writeD dc2 sz w) := by
  unfold cas2Load
  rw [if_neg h, bind_run (putDLow_run ..), putDLow_run]

/-- One register for both comparisons takes one of the two values (D36). -/
theorem cas2Load_one (dc : RegNo) (sz : Size) (v w : Long) (t : State) : ∃ (u : Long) (g : Nat), (u = v ∨ u = w) ∧
    cas2Load sz dc dc v w t = .ok () { t.writeD dc sz u with draws := g } := by
  obtain ⟨u, g, -, hu, hdraw⟩ := drawIf_run (c := true) (x := v) (y := w) (z := v) (s := t)
  refine ⟨u, g, hu rfl, ?_⟩
  unfold cas2Load
  rw [if_pos rfl]
  exact bind_run hdraw

section

variable {sz : Size} {o p : Cas2Operand} {s : State} {a b : Addr} {v w c e : Long} (ha : s.getR o.rn = a)
  (hb : s.getR p.rn = b) (hv : BitVec.ofNat 32 (s.load a sz.bytes) = v) (hw : BitVec.ofNat 32 (s.load b sz.bytes) = w)
  (hc : sz.trunc (s.getD o.dc) = c) (he : sz.trunc (s.getD p.dc) = e)
  (hra : allowed s.regions .read a sz.bytes = true) (hwa : allowed s.regions .write a sz.bytes = true)
  (hrb : allowed s.regions .read b sz.bytes = true) (hwb : allowed s.regions .write b sz.bytes = true)

include ha hb hv hw hc he hra hwa hrb hwb

/-- CAS2 past its checks: both operands are read and compared, then it stores both or loads both (R578). -/
theorem compareAndSwap2_run : compareAndSwap2 sz o p s =
    (if v = c ∧ w = e then cas2Store sz a b o.du p.du else cas2Load sz o.dc p.dc v w)
      (s.setCcr (compareCcr (cas2Result sz v c w e) s.ccr)) := by
  have hv' : sz.trunc v = v := hv ▸ trunc_load s sz a
  have hw' : sz.trunc w = w := hw ▸ trunc_load s sz b
  have hc' : sz.trunc c = c := hc ▸ trunc_trunc sz _
  have he' : sz.trunc e = e := he ▸ trunc_trunc sz _
  unfold compareAndSwap2
  rw [bind_run (readR_run ..), bind_run (readR_run ..), ha, hb, bind_run (checkAccess_run hwa),
    bind_run (checkAccess_run hwb), bind_run (checkAccess_run hra), bind_run (checkAccess_run hrb),
    bind_run (memReadSized_run hra), bind_run (memReadSized_run hrb), hv, hw, bind_run (readDLow_run ..),
    bind_run (readDLow_run ..), hc, he, compareBoth_run hv' hc', bind_run (readCcr_run _), State.setCcr_ccr]
  simp only [compareCcr, cas2Result_z hv' hc' hw' he', decide_eq_true_eq]

theorem compareAndSwap2_match (h : v = c ∧ w = e) : compareAndSwap2 sz o p s =
    .ok () (((s.store a sz.bytes (sz.trunc (s.getD o.du)).toNat).store b sz.bytes
      (sz.trunc (s.getD p.du)).toNat).setCcr (compareCcr (cas2Result sz v c w e) s.ccr)) := by
  rw [compareAndSwap2_run ha hb hv hw hc he hra hwa hrb hwb, if_pos h]
  exact cas2Store_run (t := s.setCcr (compareCcr (cas2Result sz v c w e) s.ccr)) hwa hwb _ _

theorem compareAndSwap2_mismatch_two (h : ¬(v = c ∧ w = e)) (hdc : o.dc ≠ p.dc) : compareAndSwap2 sz o p s =
    .ok () (((s.writeD o.dc sz v).writeD p.dc sz w).setCcr (compareCcr (cas2Result sz v c w e) s.ccr)) := by
  rw [compareAndSwap2_run ha hb hv hw hc he hra hwa hrb hwb, if_neg h]
  exact cas2Load_two hdc ..

theorem compareAndSwap2_mismatch_one (h : ¬(v = c ∧ w = e)) (hdc : o.dc = p.dc) :
    ∃ (u : Long) (g : Nat), (u = v ∨ u = w) ∧ compareAndSwap2 sz o p s =
      .ok () { (s.writeD o.dc sz u).setCcr (compareCcr (cas2Result sz v c w e) s.ccr) with draws := g } := by
  rw [compareAndSwap2_run ha hb hv hw hc he hra hwa hrb hwb, if_neg h, ← hdc]
  exact cas2Load_one ..

end

/-- Settles O56: each body's answer, refused or allowed, under the instruction that runs it. -/
theorem synchronising : Obligations.Synchronising := by
  refine ⟨?_, ?_, ?_, ?_⟩
  · intro dst op v s s1 h
    refine completes_of rfl (testAndSet_run h) ?_
    rw [logicCcr, trunc_canChange h]
    rfl
  · intro sz dst k dc du a post s s0 hres refused
    have hregions := (resolve_keeps hres).regions
    refine ⟨?_, ?_, ?_, ?_⟩ <;> rintro rfl rfl
    · exact raises_of_checkReadWrite rfl hregions (testAndSet_refused hres)
    all_goals exact raises_of_checkReadWrite rfl hregions (compareAndSwap_refused hres)
  · intro sz dc du dst a post v s s1 h r t u
    have hz : r.z = decide (v = sz.trunc (s1.getD dc)) := by rw [subCore_z, trunc_canChange h, trunc_trunc]
    have hbody : compareAndSwap sz dc du dst s = .ok () u := by
      simp only [u, ← hz]
      exact compareAndSwap_run h
    exact ⟨by rintro rfl; exact completes_of rfl hbody rfl, by rintro rfl; exact completes_of rfl hbody rfl,
      by rintro rfl; exact completes_of rfl hbody rfl⟩
  · intro sz o p s a b refused checked
    have hchecked {i : Instr} (hexec : exec i s = runSeq i (compareAndSwap2 sz o p) s) : checked i := by
      refine ⟨fun h => ?_, fun hwa hwb h => ?_⟩
      · obtain ⟨c, hc, hno, hbody⟩ := compareAndSwap2_noWrite rfl rfl h
        exact ⟨c, hc, hno, raises_of hexec hbody rfl⟩
      · obtain ⟨c, hc, hno, hbody⟩ := compareAndSwap2_noRead rfl rfl hwa hwb h
        exact ⟨c, hc, hno, raises_of hexec hbody rfl⟩
    refine ⟨by rintro rfl; exact hchecked rfl, by rintro rfl; exact hchecked rfl, fun ⟨hra, hwa, hrb, hwb⟩ => ?_⟩
    intro v w c e r f holds
    have hholds {i : Instr} (hexec : exec i s = runSeq i (compareAndSwap2 sz o p) s) : holds i := by
      refine ⟨fun hv hw => ?_, fun h => ⟨fun hdc => ?_, fun hdc => ?_⟩⟩
      · exact completes_of hexec (compareAndSwap2_match rfl rfl rfl rfl rfl rfl hra hwa hrb hwb ⟨hv, hw⟩) rfl
      · exact completes_of hexec (compareAndSwap2_mismatch_two rfl rfl rfl rfl rfl rfl hra hwa hrb hwb h hdc) rfl
      · obtain ⟨u, g, hu, hbody⟩ :=
          compareAndSwap2_mismatch_one rfl rfl rfl rfl rfl rfl hra hwa hrb hwb h hdc
        exact ⟨u, g, hu, completes_of hexec hbody rfl⟩
    exact ⟨by rintro rfl; exact hholds rfl, by rintro rfl; exact hholds rfl⟩

end Sys2Proof.Machine
end

section
/-! PROOFS. The statements of the effective-address family: operands mode by mode (O22), the instructions that use an
address and not what stands there (O37). -/

namespace Sys2Proof.Machine

open Sys2Proof

/-! ### An operand in memory -/

/-- The operand `ea` is the memory at `a`: `t` is the state once its address is found, and an access that is allowed, the
operand's first, is followed by `u`; one that is refused leaves `t`, with its bus error (R204, R205, R213, R214). -/
def CellAt (sz : Size) (k : Nat) (v : Long) (s : State) (ea : EA) (a : Addr) (t : State) (u : State → State) : Prop :=
  (allowed s.regions .read a sz.bytes = true → readEa sz ea k s = .ok (BitVec.ofNat 32 (s.load a sz.bytes)) (u t)) ∧
  (allowed s.regions .read a sz.bytes = false →
    readEa sz ea k s = .error (.busError { addr := a, kind := .read, size := sz.bytes }) t) ∧
  (allowed s.regions .write a sz.bytes = true → writeEa sz ea k v s = .ok () (u (t.store a sz.bytes v.toNat))) ∧
  (allowed s.regions .write a sz.bytes = false →
    writeEa sz ea k v s = .error (.busError { addr := a, kind := .write, size := sz.bytes }) t)

section

variable {sz : Size} {ea : EA} {k : Nat} {s t : State} {a : Addr}

/-- What an operand in memory answers follows from its address and its step alone: finding it touches neither the map nor
the memory. -/
theorem cellAt_of_resolve {post : Option RegNo} (v : Long) (h : resolve sz ea k s = .ok (.mem a post) t) :
    CellAt sz k v s ea a t fun t => t.stepPost sz (.mem a post) := by
  have hkeep := resolve_keeps h
  refine ⟨fun hr => ?_, fun hr => ?_, fun hw => writeEa_run ⟨h, hw⟩, fun hw => ?_⟩
  · rw [← hkeep.load a]
    exact (bind_run h).trans (readOp_mem_run (hkeep.regions ▸ hr))
  · exact (bind_run h).trans (readOp_mem_raise (hkeep.regions ▸ hr))
  · exact (bind_run h).trans (writeOnly_mem_raise (hkeep.regions ▸ hw))

/-- An operand that is no postincrement leaves the registers as its access found them. -/
theorem cellAt_of_resolve_none (v : Long) (h : resolve sz ea k s = .ok (.mem a none) t) : CellAt sz k v s ea a t id :=
  cellAt_of_resolve v h

end

/-- A postincrement steps its register from the value that was the address, whatever the access stored (R204). -/
theorem cellAt_postinc (sz : Size) (k : Nat) (v : Long) (s : State) (n : RegNo) :
    CellAt sz k v s (.postinc n) (s.getA n) s fun t => t.setA n (s.getA n + stepOf n sz) :=
  cellAt_of_resolve (post := some n) v rfl

/-- A predecrement has stepped its register before the access, refused or not (R205). -/
theorem cellAt_predec (sz : Size) (k : Nat) (v : Long) (s : State) (n : RegNo) :
    CellAt sz k v s (.predec n) (s.getA n - stepOf n sz) (s.setA n (s.getA n - stepOf n sz)) id :=
  cellAt_of_resolve_none v rfl

/-- Settles O22: a register or an immediate answers at once; a memory mode answers as its address and its step say. -/
theorem operandModes : Obligations.OperandModes := by
  intro s sz k n v step refused cell
  refine ⟨rfl, rfl, rfl, rfl, rfl, ?ind, ?postinc, ?predec, fun d => ?disp, fun a => ?absW, fun a => ?absL,
    fun d => ?pcDisp⟩
  case postinc => exact cellAt_postinc sz k v s n
  case predec => exact cellAt_predec sz k v s n
  case ind | disp | absW | absL | pcDisp => exact cellAt_of_resolve_none v rfl

/-! ### Uses of an address -/

/-- Settles O37: each body finds the address first; what follows it is a write of An, a push, or nothing. -/
theorem addressUses : Obligations.AddressUses := by
  intro src a s s1 h
  refine ⟨fun an => ?lea, ?jmp, fun hpush => ⟨?pea, ?jsr⟩⟩
  case lea => exact completes_of rfl ((bind_run h).trans (putA_run an a s1)) rfl
  case jmp => exact goesTo_of rfl h
  case pea => exact completes_of rfl ((bind_run h).trans (push_run hpush)) rfl
  case jsr =>
    exact goesTo_of rfl ((bind_run (readPcOp_run s)).trans ((bind_run h).trans (bind_run (push_run hpush))))

end Sys2Proof.Machine
end

section
/-! PROOFS. The statements of the integer arithmetic family: the conditions after a comparison (O26), arithmetic and logic
to a register and to an operand (O27, O28), the extended forms (O29), address registers (O30), comparisons (O31), bounds
(O32), moves (O34), and the instructions over registers alone (O36). -/

namespace Sys2Proof.Machine

open Sys2Proof

/-! ### Values cut to a size -/

@[simp] theorem msb_trunc (sz : Size) (v : Long) : sz.msb (sz.trunc v) = sz.msb v := by
  simp only [msb_eq_decide_trunc, trunc_trunc]

@[simp] theorem toInt_trunc (sz : Size) (v : Long) : sz.toInt (sz.trunc v) = sz.toInt v := by
  simp only [toInt_eq_signedOf_trunc, trunc_trunc]

/-- The signed value at a size is the unsigned one, or that less `2^N` where the sign bit is set (R14). -/
theorem toInt_cases (sz : Size) (v : Long) :
    ((sz.trunc v).toNat < signWeight sz ∧ sz.toInt v = (sz.trunc v).toNat) ∨
    (signWeight sz ≤ (sz.trunc v).toNat ∧ (sz.trunc v).toNat < 2 * signWeight sz ∧
      sz.toInt v = (sz.trunc v).toNat - 2 * (signWeight sz : Int)) := by
  have hlt := toNat_trunc_lt sz v
  have hsigned := signedOf_cases (signWeight sz) (sz.trunc v).toNat
  rw [toInt_eq_signedOf_trunc]
  omega

/-- The sign bit is the sign of the signed value (R14, R15). -/
theorem msb_eq_decide_toInt (sz : Size) (v : Long) : sz.msb v = decide (sz.toInt v < 0) := by
  have hv := toInt_cases sz v
  rw [msb_eq_decide_trunc, decide_eq_decide]
  omega

/-- Two values of a size are one number, signed, when they are one number, unsigned (R14). -/
theorem toInt_inj {sz : Size} {v w : Long} : sz.toInt v = sz.toInt w ↔ sz.trunc v = sz.trunc w := by
  have hv := toInt_cases sz v
  have hw := toInt_cases sz w
  rw [← BitVec.toNat_inj]
  omega

/-- The flags of a logical result see its low part alone (R300). -/
theorem logicCcr_trunc (sz : Size) (r : Long) (c : Ccr) : logicCcr sz (sz.trunc r) c = logicCcr sz r c := by
  simp only [logicCcr, msb_trunc, trunc_trunc]

/-- A difference sees the low part of its minuend alone (R251). -/
theorem subCore_trunc_left (sz : Size) (d x : Long) (b : Bool) : subCore sz (sz.trunc d) x b = subCore sz d x b := by
  simp only [subCore, toInt_trunc, trunc_trunc]

/-- A write at a size takes the low part of the value alone (R16). -/
theorem writeD_trunc (s : State) (n : RegNo) (sz : Size) (v : Long) : s.writeD n sz (sz.trunc v) = s.writeD n sz v :=
  writeD_congr sz s n _ _ (by rw [toNat_trunc, Nat.mod_mod])

/-! ### The conditions after a comparison -/

/-- C after a comparison: the destination is the lower one, unsigned (R251, R262). -/
theorem subCore_c (sz : Size) (d x : Long) :
    (subCore sz d x false).c = decide ((sz.trunc d).toNat < (sz.trunc x).toNat) := rfl

/-- Without a borrow in, the difference (R251). -/
theorem subCore_value_of_noBorrow (sz : Size) (d x : Long) : (subCore sz d x false).value = sz.trunc (d - x) :=
  (subCore_value sz d x false).trans (congrArg sz.trunc (BitVec.sub_zero _))

/-- N after a comparison: the sign of the difference at the size (R251, R262). -/
theorem subCore_n (sz : Size) (d x : Long) : (subCore sz d x false).n = decide (sz.toInt (d - x) < 0) := by
  show sz.msb (subCore sz d x false).value = _
  rw [subCore_value_of_noBorrow, msb_trunc, msb_eq_decide_toInt]

/-- V after a comparison: the exact difference leaves the signed range (R251, R262). -/
theorem subCore_v_iff (sz : Size) (d x : Long) : (subCore sz d x false).v = true ↔
    ¬(-2 ^ (sz.bits - 1) ≤ sz.toInt d - sz.toInt x ∧ sz.toInt d - sz.toInt x < 2 ^ (sz.bits - 1)) := by
  show outOfRange sz.bits (sz.toInt d - sz.toInt x - (0 : Nat)) = true ↔ _
  rw [outOfRange, Bool.or_eq_true, decide_eq_true_iff, decide_eq_true_iff]
  omega

/-- N and V differ after a comparison when the destination is the lower one, signed: the sign of the exact difference is
N, or its complement where the difference leaves the range (R262, R480). -/
theorem subCore_n_bne_v (sz : Size) (d x : Long) :
    ((subCore sz d x false).n != (subCore sz d x false).v) = decide (sz.toInt d < sz.toInt x) := by
  have hd := toInt_cases sz d
  have hx := toInt_cases sz x
  have hr := difference_wraps (toNat_trunc_lt sz d) (toNat_trunc_lt sz x) (Nat.zero_le 1)
    (two_pow_bits sz ▸ subCore_toNat sz d x false)
  have hn : (subCore sz d x false).n = true ↔ signWeight sz ≤ (subCore sz d x false).value.toNat := by
    show sz.msb (subCore sz d x false).value = true ↔ _
    rw [msb_eq_decide_trunc, subCore_trunc, decide_eq_true_iff]
  have hv : (subCore sz d x false).v = true ↔ sz.toInt d - sz.toInt x - (0 : Nat) < -(signWeight sz : Int) ∨
      (signWeight sz : Int) ≤ sz.toInt d - sz.toInt x - (0 : Nat) := outOfRange_iff sz _
  rw [Bool.eq_iff_iff, bne_iff_ne, ne_eq, Bool.eq_iff_iff, hn, hv, decide_eq_true_iff]
  omega

/-- Settles O26: each condition is one of C, Z, N, V and N ≠ V, or a complement or union of two of them, and each of
these says how the operands compare. -/
theorem conditionsCompare : Obligations.ConditionsCompare := by
  refine ⟨fun c => ⟨rfl, rfl, rfl, rfl⟩, ?_⟩
  intro sz d x old f fits
  have hc : f.c = decide ((sz.trunc d).toNat < (sz.trunc x).toNat) := subCore_c sz d x
  have hz : f.z = decide (sz.trunc d = sz.trunc x) := subCore_z sz d x
  have hn : f.n = decide (sz.toInt (d - x) < 0) := subCore_n sz d x
  have hv : f.v = true ↔ ¬fits := subCore_v_iff sz d x
  have hlt : (f.n != f.v) = decide (sz.toInt d < sz.toInt x) := subCore_n_bne_v sz d x
  have hge : (f.n == f.v) = decide (sz.toInt x ≤ sz.toInt d) := by
    rw [← Bool.not_not (f.n == f.v), ← bne, hlt, ← decide_not, decide_eq_decide, Int.not_lt]
  have hunsigned : sz.trunc d = sz.trunc x ↔ (sz.trunc d).toNat = (sz.trunc x).toNat := BitVec.toNat_inj.symm
  have hsigned : sz.trunc d = sz.trunc x ↔ sz.toInt d = sz.toInt x := toInt_inj.symm
  refine ⟨?hi, ?ls, ?cc, hc, ?ne, hz, ?vc, hv, ?pl, hn, hge, hlt, ?gt, ?le, rfl, rfl⟩ <;> unfold condHolds
  case hi =>
    simp only [hc, hz, hunsigned, ← decide_not, ← Bool.decide_and, decide_eq_decide]
    omega
  case ls =>
    simp only [hc, hz, hunsigned, ← Bool.decide_or, decide_eq_decide]
    omega
  case cc => simp only [hc, ← decide_not, Nat.not_lt]
  case ne => simp only [hz, ← decide_not, ne_eq]
  case vc => simp only [Bool.not_eq_true', ← Bool.not_eq_true, hv, Classical.not_not]
  case pl => simp only [hn, ← decide_not, Int.not_lt]
  case gt =>
    simp only [hge, hz, hsigned, ← decide_not, ← Bool.decide_and, decide_eq_decide]
    omega
  case le =>
    simp only [hlt, hz, hsigned, ← Bool.decide_or, decide_eq_decide]
    omega

/-! ### Arithmetic and logic -/

/-- Without a carry in, the sum (R250). -/
theorem addCore_value_of_noCarry (sz : Size) (d x : Long) : (addCore sz d x false).value = sz.trunc (d + x) :=
  (addCore_value sz d x false).trans (congrArg sz.trunc (BitVec.add_zero _))

/-- Settles O27: each instruction is its step on the register, once the source is read. -/
theorem aluToRegister : Obligations.AluToRegister := by
  intro sz src dn x s s1 h d done a b logic
  refine ⟨?add, ?sub, completes_of rfl (eaToReg_run h) rfl, completes_of rfl (eaToReg_run h) rfl⟩
  case add =>
    have hvalue : a.value = sz.trunc (d + x) := addCore_value_of_noCarry sz d x
    exact completes_of rfl (eaToReg_run h) (by rw [← writeD_trunc _ _ _ (d + x), ← hvalue]; rfl)
  case sub =>
    have hvalue : b.value = sz.trunc (d - x) := subCore_value_of_noBorrow sz d x
    exact completes_of rfl (eaToReg_run h) (by rw [← writeD_trunc _ _ _ (d - x), ← hvalue]; rfl)

section

variable {sz : Size} {ea : EA} {op : Operand} {d : Long} {s s1 : State}

theorem regToEa_run {dn : RegNo} {f : Long → Step} (h : CanChange sz ea 1 s op d s1) :
    regToEa sz dn ea f s = .ok () ((s1.putOp sz op (f (sz.trunc (s.getD dn)) d s1.ccr).1).setCcr
      (f (sz.trunc (s.getD dn)) d s1.ccr).2) := (bind_run (readDLow_run ..)).trans (rmwEa_run h)

theorem immToEa_run {imm : Long} {f : Long → Step} (h : CanChange sz ea (1 + immWordCount sz) s op d s1) :
    immToEa sz imm ea f s = .ok () ((s1.putOp sz op (f imm d s1.ccr).1).setCcr (f imm d s1.ccr).2) := rmwEa_run h

end

theorem exec_addq_operand {dst : EA} (hdst : ∀ n, dst ≠ .areg n) (sz : Size) (q : BitVec 4) (s : State) :
    exec (.addq sz q dst) s = runSeq (.addq sz q dst) (rmwEa sz dst 1 (addStep sz (q.setWidth 32))) s := by
  cases dst with
  | areg n => exact absurd rfl (hdst n)
  | _ => rfl

theorem exec_subq_operand {dst : EA} (hdst : ∀ n, dst ≠ .areg n) (sz : Size) (q : BitVec 4) (s : State) :
    exec (.subq sz q dst) s = runSeq (.subq sz q dst) (rmwEa sz dst 1 (subStep sz (q.setWidth 32))) s := by
  cases dst with
  | areg n => exact absurd rfl (hdst n)
  | _ => rfl

/-- Settles O28: each instruction is its step on the operand; the source is an immediate, or a data register read before
the operand. -/
theorem aluToOperand : Obligations.AluToOperand := by
  intro sz dst k op d s s1 h arith logic sum dif
  refine ⟨?one, ?immediate⟩
  case one =>
    rintro rfl
    refine ⟨completes_of rfl (rmwEa_run h) rfl, completes_of rfl (rmwEa_run h) ?not, fun dn => ?register,
      fun hdst q => ?quick⟩
    case not =>
      have hflags := logicCcr_trunc sz (~~~d) s1.ccr
      exact congrArg _ hflags.symm
    case register =>
      refine ⟨?_, ?_, ?_, ?_, ?_⟩ <;> exact completes_of rfl (regToEa_run h) rfl
    case quick =>
      exact ⟨completes_of (exec_addq_operand hdst sz q s) (rmwEa_run h) rfl,
        completes_of (exec_subq_operand hdst sz q s) (rmwEa_run h) rfl⟩
  case immediate =>
    rintro rfl imm
    refine ⟨?_, ?_, ?_, ?_, ?_⟩ <;> exact completes_of rfl (immToEa_run h) rfl

theorem extendedOp_registers_run (sz : Size) (x y : RegNo) (f : Long → Step) (s : State) :
    extendedOp sz false x y f s = .ok () ((s.writeD x sz (f (sz.trunc (s.getD y)) (sz.trunc (s.getD x)) s.ccr).1).setCcr
      (f (sz.trunc (s.getD y)) (sz.trunc (s.getD x)) s.ccr).2) :=
  (bind_run (readDLow_run ..)).trans (updateD_run ..)

theorem extendedOp_memory_run {sz : Size} {x y : RegNo} {f : Long → Step} {op : Operand} {v d : Long}
    {s s1 s2 : State} (hy : readEa sz (.predec y) 1 s = .ok v s1)
    (hx : CanChange sz (.predec x) 1 s1 op d s2) :
    extendedOp sz true x y f s = .ok () ((s2.putOp sz op (f v d s2.ccr).1).setCcr (f v d s2.ccr).2) :=
  (bind_run hy).trans (rmwEa_run hx)

/-- Settles O29: the step takes X and Z from the flags the instruction found, which finding its operands keeps. -/
theorem extendedArithmetic : Obligations.ExtendedArithmetic := by
  refine ⟨fun sz x y s => ?registers, fun sz x y v d op s s1 s2 hy hx => ?memory, fun sz dst op d s s1 h => ?negx⟩
  case registers =>
    exact ⟨completes_of rfl (extendedOp_registers_run sz x y (addxStep sz) s) rfl,
      completes_of rfl (extendedOp_registers_run sz x y (subxStep sz) s) rfl⟩
  case memory =>
    have hccr : s2.ccr = s.ccr := ((readEa_keeps hy).trans (canChange_keeps hx)).ccr
    rw [← hccr]
    exact ⟨completes_of rfl (extendedOp_memory_run hy hx) rfl, completes_of rfl (extendedOp_memory_run hy hx) rfl⟩
  case negx =>
    rw [← (canChange_keeps h).ccr]
    exact completes_of rfl (rmwEa_run h) rfl

/-! ### Address registers -/

section

variable {sz : Size} {src : EA} {x : Long} {s s1 : State} (h : readEa sz src 1 s = .ok x s1)

include h

theorem eaToA_run (an : RegNo) (f : Long → Long → Long) :
    eaToA sz src an f s = .ok () (s1.setA an (f (s1.getA an) (sz.sext x))) := bind_run h

theorem moveAddress_run (an : RegNo) : moveAddress sz src an s = .ok () (s1.setA an (sz.sext x)) := bind_run h

theorem compareA_run (an : RegNo) : compareA sz src an s =
    .ok () (s1.setCcr (compareCcr (subCore .l (s1.getA an) (sz.sext x) false) s1.ccr)) := bind_run h

end

theorem quickToA_run (n : RegNo) (v : Long → Long) (s : State) :
    quickToA n v s = .ok () (s.setA n (v (s.getA n))) := rfl

/-- Settles O30: the source is read with its own step, then the whole register is written. -/
theorem addressArithmetic : Obligations.AddressArithmetic := by
  refine ⟨fun src an x s s1 h => ?word, fun src an x s s1 h => ?long, fun sz q n s => ?quick⟩
  case word | long =>
    exact ⟨completes_of rfl (eaToA_run h an _) rfl, completes_of rfl (eaToA_run h an _) rfl,
      completes_of rfl (moveAddress_run h an) rfl⟩
  case quick =>
    exact ⟨completes_of rfl (quickToA_run n (· + q.setWidth 32) s) rfl,
      completes_of rfl (quickToA_run n (· - q.setWidth 32) s) rfl⟩

/-! ### Comparisons -/

/-- Settles O31: the operands are read, then the flags of their difference are set. -/
theorem compares : Obligations.Compares := by
  unfold Obligations.Compares
  intro after
  refine ⟨fun sz src x s s1 h => ⟨fun dn => ?cmp, ?cmpaW, ?cmpaL, ?tst⟩, fun sz imm dst d s s1 h => ?cmpi,
    fun sz x y v d s s1 s2 hy hx => ?cmpm⟩
  case cmp =>
    rw [← subCore_trunc_left]
    exact completes_of rfl (bind_run h) rfl
  case cmpaW | cmpaL =>
    rintro rfl an
    exact completes_of rfl (compareA_run h an) rfl
  case tst | cmpi => exact completes_of rfl (bind_run h) rfl
  case cmpm => exact completes_of rfl ((bind_run hy).trans (bind_run hx)) rfl

/-! ### Bounds -/

/-- Settles O32: C of the bounds check is set exactly where the register is out of bounds; CHK2 reads that C. -/
theorem boundsChecks : Obligations.BoundsChecks := by
  intro sz rn src a s s1 h h1 h2 bound v lo hi out after
  have hkeep := addrOf_keeps h
  rw [← hkeep.regions] at h1 h2
  have hcheck : ∃ (n o : Bool) (g : Nat) (c : Bool), (c = true ↔ out) ∧
      boundsCheck sz rn a s1 = .ok () (after n o g c) := by
    cases rn with
    | d m | a m =>
      refine ⟨Config.drawBit s1.draws, Config.drawBit (s1.draws + 1), s1.draws + 2, _, boundsC_iff _ _ _,
        (boundsCheck_run h1 h2).trans ?_⟩
      simp only [after, boundsZ_eq, hkeep.load]
      rfl
  obtain ⟨n, o, g, c, hout, hrun⟩ := hcheck
  cases c with
  | true =>
    have hyes : out := hout.1 rfl
    exact ⟨⟨n, o, g, fun _ => completes_of rfl ((bind_run h).trans hrun) rfl, fun hn => absurd hyes hn⟩,
      n, o, g, fun _ => raises_of rfl ((bind_run h).trans (bind_run hrun)) rfl, fun hn => absurd hyes hn⟩
  | false =>
    have hnot : ¬out := fun ho => Bool.false_ne_true (hout.2 ho)
    exact ⟨⟨n, o, g, fun ho => absurd ho hnot, fun _ => completes_of rfl ((bind_run h).trans hrun) rfl⟩,
      n, o, g, fun ho => absurd ho hnot, fun _ => completes_of rfl ((bind_run h).trans (bind_run hrun)) rfl⟩

/-! ### Moves -/

theorem moveData_run {sz : Size} {src dst : EA} {v : Long} {op : Operand} {s s1 s2 : State}
    (hsrc : readEa sz src 1 s = .ok v s1) (hdst : CanWrite sz dst (1 + (EA.words sz src).length) s1 op s2) :
    moveData sz src dst s = .ok () (((s2.putOp sz op v).stepPost sz op).setCcr (logicCcr sz v s.ccr)) := by
  have hccr : s2.ccr = s.ccr := ((readEa_keeps hsrc).trans (canWrite_keeps hdst)).ccr
  unfold moveData
  rw [bind_run hsrc, bind_run (writeEa_run hdst), modifyCcr_run, putOp_stepPost_ccr, hccr]

/-- The SR as a register value: the CCR, zero-extended (R45, R403). -/
theorem setWidth_sr (s : State) : s.sr.setWidth 32 = (Ccr.toBits s.ccr).setWidth 32 := by
  refine BitVec.eq_of_toNat_eq ?_
  have := (Ccr.toBits s.ccr).isLt
  simp only [State.sr, BitVec.toNat_setWidth]
  omega

/-- Settles O34: the destination is resolved and written; MOVE has read its source before, and MOVE and CLR set the flags
after. -/
theorem moves : Obligations.Moves := by
  refine ⟨?move, fun sz dst op s s1 h => ?clr, fun dst op s s1 h => ?ccr,
    fun c dst op s s1 h => ?scc⟩
  case move =>
    intro sz src dst v op s s1 s2 hsrc hdst t
    refine ⟨?_, ?_, ?_⟩ <;> rintro rfl <;> exact completes_of rfl (moveData_run hsrc hdst) rfl
  case clr =>
    have hflags : logicCcr sz 0 s.ccr = { x := s.ccr.x, n := false, z := true, v := false, c := false } := by
      cases sz <;> rfl
    refine completes_of rfl (bind_run (writeEa_run h)) ?_
    rw [putOp_stepPost_ccr, (canWrite_keeps h).ccr, hflags]
  case ccr =>
    rw [setWidth_sr]
    exact completes_of rfl (writeEa_run h) rfl
  case scc =>
    have hrun := completes_of (i := .scc c dst) rfl ((bind_run (readCcr_run s)).trans (writeEa_run h)) rfl
    exact ⟨fun hc => by rwa [if_pos hc] at hrun, fun hc => by rwa [if_neg (by simp [hc])] at hrun⟩

/-! ### Registers alone -/

/-- To exchange the halves of a register is to rotate it by half its width (R406). -/
theorem swapHalves_eq_rotateLeft (v : Long) : swapHalves v = v.rotateLeft 16 := by
  refine BitVec.eq_of_getLsbD_eq fun i hi => ?_
  rw [BitVec.getLsbD_rotateLeft]
  refine BitVec.getLsbD_append.trans ?_
  by_cases h : i < 16
  · simp [h]
  · simp [h, hi, show i - 16 < 16 by omega]

/-- The low byte of a word's low part is the low byte of the word. -/
theorem sext_byte_trunc_word (v : Long) : Size.b.sext (Size.w.trunc v) = Size.b.sext v := by
  refine congrArg (BitVec.signExtend 32) ?_
  show ((v.setWidth 16).setWidth 32).setWidth 8 = v.setWidth 8
  rw [BitVec.setWidth_setWidth_of_le _ (by decide), BitVec.setWidth_setWidth_of_le _ (by decide)]

theorem ofInt_toInt (sz : Size) (v : Long) : BitVec.ofInt 32 (sz.toInt v) = sz.sext v := BitVec.ofInt_toInt

@[simp] theorem State.getR_setR (s : State) (p r : RegSel) (v : Long) :
    (s.setR p v).getR r = if p = r then v else s.getR r := by
  cases p <;> cases r <;> simp [State.getR, State.setR]

/-- Two registers written, with the register file put back: the state before. -/
theorem State.setR_setR_frame (s : State) (p q : RegSel) (v w : Long) :
    { (s.setR p v).setR q w with d := s.d, a := s.a } = s := by
  cases p <;> cases q <;> rfl

theorem exchange_run (p q : RegSel) (s : State) :
    exchange p q s = .ok () ((s.setR p (s.getR q)).setR q (s.getR p)) := rfl

/-- An instruction that exchanges two registers gives each the other's value and changes nothing else (R405). -/
theorem completes_exchange {i : Instr} {p q : RegSel} {s : State} (hexec : exec i s = runSeq i (exchange p q) s) :
    ∃ t, Completes i s t ∧ t.getR p = s.getR q ∧ t.getR q = s.getR p ∧
      (∀ r, r ≠ p → r ≠ q → t.getR r = s.getR r) ∧ { t with d := s.d, a := s.a } = s := by
  refine ⟨_, completes_of hexec (exchange_run p q s) rfl, ?_, ?_, fun r hp hq => ?_, State.setR_setR_frame ..⟩
  · by_cases h : q = p <;> simp [h]
  · simp
  · simp [hp.symm, hq.symm]

/-- An instruction that applies a function to a data register, with the flags of the result (R300). -/
theorem completes_unary {i : Instr} {s : State} (sz : Size) (n : RegNo) (r : Long → Long)
    (hexec : exec i s = runSeq i (updateD sz n fun d c => (r d, logicCcr sz (r d) c)) s) :
    Completes i s ((s.writeD n sz (r (sz.trunc (s.getD n)))).setCcr
      (logicCcr sz (r (sz.trunc (s.getD n))) s.ccr)) := completes_of hexec (updateD_run ..) rfl

/-- Settles O36: the widenings and SWAP apply a function to their register; EXG exchanges two. -/
theorem registerOnly : Obligations.RegisterOnly := by
  unfold Obligations.RegisterOnly
  intro logic
  refine ⟨fun imm n s => ⟨?moveq, ?swap, ?extW, ?extL, ?extbL⟩, ?exg⟩
  case moveq =>
    exact completes_of (body := do putD n imm; modifyCcr (logicCcr .l imm)) rfl (bind_run (putD_run ..)) rfl
  case swap =>
    rw [← swapHalves_eq_rotateLeft]
    exact completes_unary .l n swapHalves rfl
  case extW =>
    rw [ofInt_toInt, ← sext_byte_trunc_word]
    exact completes_unary .w n Size.b.sext rfl
  case extL =>
    rw [ofInt_toInt]
    exact completes_unary .l n Size.w.sext rfl
  case extbL =>
    rw [ofInt_toInt]
    exact completes_unary .l n Size.b.sext rfl
  case exg =>
    intro x y s swapped
    exact ⟨completes_exchange rfl, completes_exchange rfl, completes_exchange rfl⟩

end Sys2Proof.Machine
end

section
/-! PROOFS. The statements of the shift and rotate family: every form of them (O41), where the bits of a shift come from
(O42) and where those of a rotate go (O43). -/

namespace Sys2Proof.Machine

open Sys2Proof

/-! ### The forms: a register by a count, a memory word by one -/

/-- A register form applies its kind's step, at the count, to the register (R330). -/
theorem completes_shiftReg {i : Instr} {sz : Size} {count : ShiftCount} {dy : RegNo} {s : State} (f : Nat → Step)
    (hexec : exec i s = runSeq i (shiftReg sz count dy f) s) :
    Completes i s ((s.writeD dy sz (f (s.countOf count) (sz.trunc (s.getD dy)) s.ccr).1).setCcr
      (f (s.countOf count) (sz.trunc (s.getD dy)) s.ccr).2) := completes_of hexec (shiftReg_run s) rfl

/-- A memory form applies its kind's step, at count 1, to the operand (R340). -/
theorem completes_shiftMem {i : Instr} {dst : EA} {op : Operand} {d : Long} {s s1 : State}
    (h : CanChange .w dst 1 s op d s1) (f : Nat → Step) (hexec : exec i s = runSeq i (shiftMem dst f) s) :
    Completes i s ((s1.putOp .w op (f 1 d s1.ccr).1).setCcr (f 1 d s1.ccr).2) :=
  completes_of hexec (rmwEaFlagsFirst_run h) rfl

/-- Settles O41: each form is its kind's step on the operand; the step's two branches are those of the statement, and at
count 1 only the second is left. -/
theorem shifts : Obligations.Shifts := by
  unfold Obligations.Shifts
  intro result
  refine ⟨fun sz count dy s => ?register, fun dst op d s s1 h => ?memory⟩
  case register =>
    exact ⟨completes_shiftReg (plainShift sz shiftAsl) rfl, completes_shiftReg (plainShift sz shiftAsr) rfl,
      completes_shiftReg (plainShift sz shiftLsl) rfl, completes_shiftReg (plainShift sz shiftLsr) rfl,
      completes_shiftReg (plainShift sz shiftRol) rfl, completes_shiftReg (plainShift sz shiftRor) rfl,
      completes_shiftReg (extendShift sz shiftRoxl) rfl, completes_shiftReg (extendShift sz shiftRoxr) rfl⟩
  case memory =>
    exact ⟨completes_shiftMem h (plainShift .w shiftAsl) rfl, completes_shiftMem h (plainShift .w shiftAsr) rfl,
      completes_shiftMem h (plainShift .w shiftLsl) rfl, completes_shiftMem h (plainShift .w shiftLsr) rfl,
      completes_shiftMem h (plainShift .w shiftRol) rfl, completes_shiftMem h (plainShift .w shiftRor) rfl,
      completes_shiftMem h (extendShift .w shiftRoxl) rfl, completes_shiftMem h (extendShift .w shiftRoxr) rfl⟩

/-! ### The bits of a shift -/

/-- Bit by bit, a value shifted left and cut to a width (R332, R334). -/
theorem testBit_mul_two_pow_mod (bits d c i : Nat) :
    (d * 2 ^ c % 2 ^ bits).testBit i = (decide (i < bits) && (decide (c ≤ i) && d.testBit (i - c))) := by
  rw [Nat.testBit_mod_two_pow, Nat.testBit_mul_two_pow]

section

variable {bits d c i : Nat}

theorem shiftAsl_value_testBit (hi : i < bits) :
    (shiftAsl bits d c).value.testBit i = (decide (c ≤ i) && d.testBit (i - c)) := by
  refine (testBit_mul_two_pow_mod bits d c i).trans ?_
  rw [decide_eq_true hi, Bool.true_and]

variable (hd : d < 2 ^ bits)

include hd

theorem testBit_eq_false_of_width_le (hi : bits ≤ i) : d.testBit i = false :=
  Nat.testBit_lt_two_pow (Nat.lt_of_lt_of_le hd (Nat.pow_le_pow_right (by decide) hi))

theorem lt_width_of_testBit (h : d.testBit i = true) : i < bits :=
  Nat.lt_of_not_le fun hge => Bool.false_ne_true ((testBit_eq_false_of_width_le hd hge).symm.trans h)

/-- LSR by the width or more divides as by less: the quotient is 0 (R335). -/
theorem shiftLsr_value : (shiftLsr bits d c).value = d / 2 ^ c := by
  by_cases h : c < bits
  · exact if_pos h
  · have hle : 2 ^ bits ≤ 2 ^ c := Nat.pow_le_pow_right (by decide) (by omega)
    exact (if_neg h).trans (Nat.div_eq_of_lt (Nat.lt_of_lt_of_le hd hle)).symm

theorem shiftLsr_c (hc : 0 < c) : (shiftLsr bits d c).c = d.testBit (c - 1) := by
  show (decide (c ≤ bits) && d.testBit (c - 1)) = _
  by_cases h : c ≤ bits
  · rw [decide_eq_true h, Bool.true_and]
  · rw [testBit_eq_false_of_width_le hd (by omega), Bool.and_false]

/-- ASR is the arithmetic shift of the operand as a word of the width (R333). -/
theorem shiftAsr_value : (shiftAsr bits d c).value = ((BitVec.ofNat bits d).sshiftRight c).toNat := by
  have hd' : (BitVec.ofNat bits d).toNat = d := Nat.mod_eq_of_lt hd
  have hmsb : (BitVec.ofNat bits d).msb = d.testBit (bits - 1) := by
    rw [BitVec.msb_eq_getLsbD_last, ← BitVec.testBit_toNat, hd']
  rw [BitVec.sshiftRight_eq, BitVec.toNat_ofInt, Int.shiftRight_eq_div_pow, BitVec.toInt_eq_msb_cond, hmsb, hd']
  push_cast
  rfl

theorem shiftAsr_value_testBit (hi : i < bits) :
    (shiftAsr bits d c).value.testBit i = d.testBit (min (i + c) (bits - 1)) := by
  have hd' : (BitVec.ofNat bits d).toNat = d := Nat.mod_eq_of_lt hd
  rw [shiftAsr_value hd, BitVec.testBit_toNat, BitVec.getLsbD_sshiftRight, BitVec.msb_eq_getLsbD_last,
    decide_eq_false (by omega), Bool.not_false, Bool.true_and, Nat.add_comm c i]
  simp only [← BitVec.testBit_toNat, hd']
  split
  · rw [Nat.min_eq_left (by omega)]
  · rw [Nat.min_eq_right (by omega)]

theorem shiftAsr_value_lt : (shiftAsr bits d c).value < 2 ^ bits := by
  rw [shiftAsr_value hd]
  exact BitVec.isLt _

omit hd in
theorem shiftAsr_c : (shiftAsr bits d c).c = d.testBit (min (c - 1) (bits - 1)) := by
  show (if c ≤ bits then d.testBit (c - 1) else d.testBit (bits - 1)) = _
  split
  · rw [Nat.min_eq_left (by omega)]
  · rw [Nat.min_eq_right (by omega)]

end

/-- A number of `n + 1` bits is neither 0 nor all ones exactly when a bit of it differs from its top bit. -/
theorem ne_zero_and_ne_ones_iff {n q : Nat} (hq : q < 2 ^ (n + 1)) :
    (q ≠ 0 ∧ q ≠ 2 ^ (n + 1) - 1) ↔ ∃ j ≤ n, q.testBit j ≠ q.testBit n := by
  constructor
  · rintro ⟨hzero, hones⟩
    cases htop : q.testBit n with
    | false =>
      obtain ⟨j, hj⟩ := Nat.exists_testBit_of_ne_zero hzero
      exact ⟨j, Nat.lt_succ_iff.1 (lt_width_of_testBit hq hj), by simp [hj]⟩
    | true =>
      obtain ⟨j, hj⟩ := Nat.exists_testBit_ne_of_ne hones
      rw [Nat.testBit_two_pow_sub_one] at hj
      have hlt : j < n + 1 := Nat.lt_of_not_le fun hge =>
        hj ((testBit_eq_false_of_width_le hq hge).trans (decide_eq_false (Nat.not_lt.2 hge)).symm)
      exact ⟨j, by omega, by rwa [decide_eq_true hlt] at hj⟩
  · rintro ⟨j, hj, hne⟩
    constructor
    · rintro rfl
      simp at hne
    · rintro rfl
      rw [Nat.testBit_two_pow_sub_one, Nat.testBit_two_pow_sub_one, decide_eq_true (by omega),
        decide_eq_true (by omega)] at hne
      exact hne rfl

/-- ASL by less than the width sets V when the bits that pass the sign bit, with it, are not all equal (R332). -/
theorem shiftAsl_v_iff_of_lt {bits d c : Nat} (hd : d < 2 ^ bits) (hc : c < bits) :
    (shiftAsl bits d c).v = true ↔ ∃ k ≤ c, d.testBit (bits - 1 - k) ≠ d.testBit (bits - 1) := by
  have hq : d / 2 ^ (bits - 1 - c) < 2 ^ (c + 1) := by
    rw [Nat.div_lt_iff_lt_mul (Nat.two_pow_pos _), ← Nat.pow_add, show c + 1 + (bits - 1 - c) = bits by omega]
    exact hd
  have hv : (shiftAsl bits d c).v =
      (decide (d / 2 ^ (bits - 1 - c) ≠ 0) && decide (d / 2 ^ (bits - 1 - c) ≠ 2 ^ (c + 1) - 1)) := if_pos hc
  rw [hv, ← Bool.decide_and, decide_eq_true_iff, ne_zero_and_ne_ones_iff hq]
  simp only [Nat.testBit_div_two_pow]
  rw [show c + (bits - 1 - c) = bits - 1 by omega]
  constructor
  · rintro ⟨j, hj, hne⟩
    exact ⟨c - j, by omega, by rwa [show bits - 1 - (c - j) = j + (bits - 1 - c) by omega]⟩
  · rintro ⟨k, hk, hne⟩
    exact ⟨c - k, by omega, by rwa [show c - k + (bits - 1 - c) = bits - 1 - k by omega]⟩

/-- Some bit of a number below `2^bits` is set exactly when it is not 0. -/
theorem exists_testBit_from_top_iff {bits d : Nat} (hd : d < 2 ^ bits) :
    (∃ k < bits, d.testBit (bits - 1 - k) = true) ↔ d ≠ 0 := by
  constructor
  · rintro ⟨k, -, hk⟩ rfl
    simp at hk
  · intro hne
    obtain ⟨j, hj⟩ := Nat.exists_testBit_of_ne_zero hne
    have hlt := lt_width_of_testBit hd hj
    exact ⟨bits - 1 - j, by omega, by rwa [show bits - 1 - (bits - 1 - j) = j by omega]⟩

/-- ASL sets V when the sign bit after some of its steps is not the operand's; past the width that bit is 0 (R332). -/
theorem shiftAsl_v_iff {bits d c : Nat} (hd : d < 2 ^ bits) : (shiftAsl bits d c).v = true ↔
    ∃ k, k ≤ c ∧ (decide (k < bits) && d.testBit (bits - 1 - k)) ≠ d.testBit (bits - 1) := by
  by_cases hc : c < bits
  · rw [shiftAsl_v_iff_of_lt hd hc]
    refine exists_congr fun k => and_congr_right fun hk => ?_
    rw [decide_eq_true (by omega), Bool.true_and]
  · have hv : (shiftAsl bits d c).v = decide (d ≠ 0) := if_neg hc
    rw [hv, decide_eq_true_iff]
    constructor
    · intro hne
      cases htop : d.testBit (bits - 1) with
      | true => exact ⟨bits, by omega, by simp⟩
      | false =>
        obtain ⟨k, hk, hbit⟩ := (exists_testBit_from_top_iff hd).2 hne
        exact ⟨k, by omega, by simp [hk, hbit]⟩
    · rintro ⟨k, -, hne⟩ rfl
      simp at hne

/-- Settles O42: bit by bit from the products and quotients of the formulas; LSL's value and C are ASL's. -/
theorem shiftBits : Obligations.ShiftBits := by
  intro bits d c hbits hd hc
  refine ⟨fun i hi => ⟨shiftAsl_value_testBit hi, shiftAsl_value_testBit hi, ?lsrBits, shiftAsr_value_testBit hd hi⟩,
    ?aslWidth, shiftAsr_value_lt hd, ?lslWidth, ?lsrWidth, rfl, rfl, shiftLsr_c hd hc, shiftAsr_c, rfl, rfl, rfl, rfl,
    shiftAsl_v_iff hd, rfl, rfl, rfl⟩
  case lsrBits => rw [shiftLsr_value hd, Nat.testBit_div_two_pow]
  case aslWidth | lslWidth => exact Nat.mod_lt _ (Nat.two_pow_pos bits)
  case lsrWidth =>
    rw [shiftLsr_value hd]
    exact Nat.lt_of_le_of_lt (Nat.div_le_self d (2 ^ c)) hd

/-! ### The bits of a rotate -/

/-- A number of `n` bits rotated up by `k ≤ n`: the one formula behind the four rotates (R336 to R339). -/
def rotatedUp (n d k : Nat) : Nat := d * 2 ^ k % 2 ^ n ||| d / 2 ^ (n - k)

theorem shiftRol_value (bits d c : Nat) : (shiftRol bits d c).value = rotatedUp bits d (c % bits) := rfl

/-- Down by `k` is up by `n - k`. -/
theorem rotatedDown_eq {n k : Nat} (d : Nat) (hk : k ≤ n) :
    d / 2 ^ k ||| d * 2 ^ (n - k) % 2 ^ n = rotatedUp n d (n - k) := by
  rw [rotatedUp, Nat.or_comm, Nat.sub_sub_self hk]

theorem shiftRor_value {bits : Nat} (hbits : 0 < bits) (d c : Nat) :
    (shiftRor bits d c).value = rotatedUp bits d (bits - c % bits) :=
  rotatedDown_eq d (Nat.le_of_lt (Nat.mod_lt c hbits))

section

variable {n d k i : Nat} (hd : d < 2 ^ n)

include hd

theorem rotatedUp_lt : rotatedUp n d k < 2 ^ n :=
  Nat.or_lt_two_pow (Nat.mod_lt _ (Nat.two_pow_pos n)) (Nat.lt_of_le_of_lt (Nat.div_le_self ..) hd)

/-- Bit by bit, a rotate: below `k` stand the bits that left at the top. -/
theorem testBit_rotatedUp (hk : k ≤ n) (hi : i < n) :
    (rotatedUp n d k).testBit i = if k ≤ i then d.testBit (i - k) else d.testBit (i + (n - k)) := by
  rw [rotatedUp, Nat.testBit_or, testBit_mul_two_pow_mod, Nat.testBit_div_two_pow, decide_eq_true hi, Bool.true_and]
  by_cases h : k ≤ i
  · rw [testBit_eq_false_of_width_le (i := i + (n - k)) hd (by omega)]
    simp [h]
  · simp [h]

/-- A rotate up by `c` carries bit `i` to bit `i + c` modulo the length. -/
theorem testBit_rotatedUp_add (hi : i < n) (c : Nat) :
    (rotatedUp n d (c % n)).testBit ((i + c) % n) = d.testBit i := by
  have hc : c % n < n := Nat.mod_lt c (by omega)
  rw [testBit_rotatedUp hd (Nat.le_of_lt hc) (Nat.mod_lt _ (by omega)), Nat.add_mod_eq_ite, Nat.mod_eq_of_lt hi]
  by_cases h : n ≤ i + c % n
  · rw [if_pos h, if_neg (by omega)]
    congr 1
    omega
  · rw [if_neg h, if_pos (by omega), Nat.add_sub_cancel]

/-- A rotate down by `c` carries bit `i + c` modulo the length to bit `i`. -/
theorem testBit_rotatedUp_sub (hi : i < n) (c : Nat) :
    (rotatedUp n d (n - c % n)).testBit i = d.testBit ((i + c) % n) := by
  have hc : c % n < n := Nat.mod_lt c (by omega)
  rw [testBit_rotatedUp hd (Nat.sub_le ..) hi, Nat.add_mod_eq_ite, Nat.mod_eq_of_lt hi,
    Nat.sub_sub_self (Nat.le_of_lt hc)]
  by_cases h : n ≤ i + c % n
  · rw [if_pos h, if_pos (by omega)]
    congr 1
    omega
  · rw [if_neg h, if_neg (by omega)]

end

/-- The ring a rotate through X turns: the operand with X on top (R338). -/
def ringOf (bits d : Nat) (x : Bool) : Nat := d + x.toNat * 2 ^ bits

theorem ringOf_lt {bits d : Nat} (hd : d < 2 ^ bits) (x : Bool) : ringOf bits d x < 2 ^ (bits + 1) := by
  have hx : x.toNat * 2 ^ bits ≤ 1 * 2 ^ bits := Nat.mul_le_mul_right _ x.toNat_le
  rw [ringOf, Nat.pow_succ]
  omega

/-- A ring is its operand part with its top bit on top. -/
theorem ringOf_mod_testBit {bits r : Nat} (hr : r < 2 ^ (bits + 1)) :
    ringOf bits (r % 2 ^ bits) (r.testBit bits) = r := by
  rw [ringOf, Nat.toNat_testBit, Nat.mul_comm, ← Nat.mod_pow_succ, Nat.mod_eq_of_lt hr]

/-- ROXL's value and C are the ring rotated up (R338). -/
theorem ringOf_shiftRoxl {bits d : Nat} (hd : d < 2 ^ bits) (x : Bool) (c : Nat) :
    ringOf bits (shiftRoxl bits d x c).value (shiftRoxl bits d x c).c =
      rotatedUp (bits + 1) (ringOf bits d x) (c % (bits + 1)) := by
  rw [shiftRoxl, Nat.add_comm (_ * _) d]
  exact ringOf_mod_testBit (rotatedUp_lt (ringOf_lt hd x))

/-- ROXR's value and C are the ring rotated down (R339). -/
theorem ringOf_shiftRoxr {bits d : Nat} (hd : d < 2 ^ bits) (x : Bool) (c : Nat) :
    ringOf bits (shiftRoxr bits d x c).value (shiftRoxr bits d x c).c =
      rotatedUp (bits + 1) (ringOf bits d x) (bits + 1 - c % (bits + 1)) := by
  have hlt : rotatedUp (bits + 1) (ringOf bits d x) (bits + 1 - c % (bits + 1)) < 2 ^ (bits + 1) :=
    rotatedUp_lt (ringOf_lt hd x)
  rw [← rotatedDown_eq _ (Nat.le_of_lt (Nat.mod_lt c bits.succ_pos))] at hlt ⊢
  rw [shiftRoxr, Nat.add_comm (_ * _) d]
  exact ringOf_mod_testBit hlt

/-- Settles O43: the four rotates turn the operand, or its ring with X, up or down. -/
theorem rotateBits : Obligations.RotateBits := by
  intro bits d c x hbits hd ring
  refine ⟨fun i hi => ⟨?rol, ?ror⟩, fun i hi => ⟨?roxl, ?roxr⟩, rfl, rfl, rfl, rfl, rfl, rfl, ?widths⟩
  case rol => rw [shiftRol_value, testBit_rotatedUp_add hd hi]
  case ror => rw [shiftRor_value hbits, testBit_rotatedUp_sub hd hi]
  case roxl =>
    show (ringOf bits _ _).testBit _ = (ringOf bits d x).testBit i
    rw [ringOf_shiftRoxl hd, testBit_rotatedUp_add (ringOf_lt hd x) hi]
  case roxr =>
    show (ringOf bits _ _).testBit i = (ringOf bits d x).testBit _
    rw [ringOf_shiftRoxr hd, testBit_rotatedUp_sub (ringOf_lt hd x) hi]
  case widths =>
    have hrol : (shiftRol bits d c).value < 2 ^ bits := rotatedUp_lt hd
    have hror : (shiftRor bits d c).value < 2 ^ bits := shiftRor_value hbits d c ▸ rotatedUp_lt hd
    have hring (r : Nat) : r % 2 ^ bits < 2 ^ bits := Nat.mod_lt r (Nat.two_pow_pos bits)
    simp only [List.forall_mem_cons]
    exact ⟨⟨rfl, hrol⟩, ⟨rfl, hror⟩, ⟨rfl, hring _⟩, ⟨rfl, hring _⟩, List.forall_mem_nil _⟩

end Sys2Proof.Machine
end

section
/-! PROOFS. The statements of the bit and bit-field family: single bits (O44), where a bit field lies and what
replacing it does (O45), and the instructions over bit fields (O46). -/

namespace Sys2Proof.Machine

open Sys2Proof

/-! ### Single bits -/

section

variable {i : Instr} {ea : EA} {k num : Nat} {v : Long} {body : Exec Unit} {s s1 : State}

/-- A body that tests a bit reads the operand and sets Z from the bit (R361). -/
theorem completes_bitTest (h : readEa (bitSize ea) ea k s = .ok v s1) (hexec : exec i s = runSeq i body s)
    (hbody : body s = bitTest num ea k s) :
    Completes i s (s1.setCcr (bitCcr (bitIndex ea num) v s1.ccr)) := completes_of hexec (hbody.trans (bind_run h)) rfl

/-- A body that changes a bit sets Z from the old bit, then writes the operand (R360). -/
theorem completes_bitChange {op : Operand} (h : CanChange (bitSize ea) ea k s op v s1) (f : Long → Long → Long)
    (hexec : exec i s = runSeq i body s) (hbody : body s = bitChange num ea k f s) :
    Completes i s ((s1.putOp (bitSize ea) op (f v (bitMask (bitIndex ea num)))).setCcr
      (bitCcr (bitIndex ea num) v s1.ccr)) := completes_of hexec (hbody.trans (rmwEaFlagsFirst_run h)) rfl

end

/-- Settles O44: each form is the one test or the one change, at the number its immediate or its register holds. -/
theorem singleBits : Obligations.SingleBits := by
  intro ea k num sz s hsz b m flags
  change sz = bitSize ea at hsz
  subst hsz
  refine ⟨?test, ?change⟩
  case test =>
    intro v s1 h
    constructor
    · rintro n rfl rfl
      exact completes_bitTest h rfl rfl
    · rintro dn rfl rfl
      exact completes_bitTest h rfl (bind_run (readD_run dn s))
  case change =>
    intro op v s1 h done
    constructor
    · rintro n rfl rfl
      exact ⟨completes_bitChange h (fun v m => v ^^^ m) rfl rfl, completes_bitChange h (fun v m => v &&& ~~~m) rfl rfl,
        completes_bitChange h (fun v m => v ||| m) rfl rfl⟩
    · rintro dn rfl rfl
      have hread := readD_run dn s
      exact ⟨completes_bitChange h (fun v m => v ^^^ m) rfl (bind_run hread),
        completes_bitChange h (fun v m => v &&& ~~~m) rfl (bind_run hread),
        completes_bitChange h (fun v m => v ||| m) rfl (bind_run hread)⟩

/-! ### Reading and replacing a field -/

theorem BitField.extract_lt (f : BitField) (v : Nat) : f.extract v < 2 ^ f.width := Nat.mod_lt _ (Nat.two_pow_pos _)

/-- The home with a field replaced, as three parts side by side: what lies above the field, the new field, and what
lies below it. -/
theorem BitField.replace_eq {f : BitField} (hf : f.skip + f.width ≤ f.bits) (v x : Nat) :
    f.replace v x = 2 ^ (f.bits - f.skip - f.width) * (2 ^ f.width * (v / 2 ^ (f.bits - f.skip)) + x % 2 ^ f.width) +
      v % 2 ^ (f.bits - f.skip - f.width) := by
  have hhigh : 2 ^ (f.bits - f.skip) = 2 ^ (f.bits - f.skip - f.width) * 2 ^ f.width := by
    rw [← Nat.pow_add]
    congr 1
    omega
  rw [BitField.replace, Nat.mul_add, ← Nat.mul_assoc, ← hhigh, Nat.mul_comm (v / _), Nat.mul_comm (x % _)]

/-- Bit by bit, the home with a field replaced (R371, R372). -/
theorem BitField.testBit_replace {f : BitField} (hf : f.skip + f.width ≤ f.bits) (v x j : Nat) :
    (f.replace v x).testBit j =
      if f.bits - f.skip - f.width ≤ j ∧ j < f.bits - f.skip - f.width + f.width then
        x.testBit (j - (f.bits - f.skip - f.width))
      else v.testBit j := by
  have hbelow : v % 2 ^ (f.bits - f.skip - f.width) < 2 ^ (f.bits - f.skip - f.width) :=
    Nat.mod_lt _ (Nat.two_pow_pos _)
  have hfield : x % 2 ^ f.width < 2 ^ f.width := Nat.mod_lt _ (Nat.two_pow_pos _)
  rw [BitField.replace_eq hf, Nat.testBit_two_pow_mul_add _ hbelow, Nat.testBit_two_pow_mul_add _ hfield,
    Nat.testBit_mod_two_pow, Nat.testBit_mod_two_pow, Nat.testBit_div_two_pow]
  by_cases hlow : j < f.bits - f.skip - f.width
  · rw [if_pos hlow, if_neg (by omega), decide_eq_true hlow, Bool.true_and]
  · rw [if_neg hlow]
    by_cases hin : j - (f.bits - f.skip - f.width) < f.width
    · rw [if_pos hin, if_pos (by omega), decide_eq_true hin, Bool.true_and]
    · rw [if_neg hin, if_neg (by omega)]
      congr 1
      omega

/-- What is read back is what was written, cut to the field's width. -/
theorem BitField.extract_replace {f : BitField} (hf : f.skip + f.width ≤ f.bits) (v x : Nat) :
    f.extract (f.replace v x) = x % 2 ^ f.width := by
  refine Nat.eq_of_testBit_eq fun j => ?_
  rw [BitField.testBit_extract, BitField.testBit_replace hf, Nat.testBit_mod_two_pow]
  by_cases hj : j < f.width
  · rw [if_pos (by omega), Nat.add_sub_cancel_left]
  · simp [hj]

/-! ### Where a field lies -/

/-- A width field counts modulo 32, with 0 for 32 (R370). -/
theorem bfWidthOf_eq (n : Nat) : bfWidthOf n = if n % 32 = 0 then 32 else n % 32 := by
  unfold bfWidthOf
  split <;> omega

theorem bfWidth_imm (s : State) (w : BitVec 5) : bfWidth s (.imm w) = if w = 0 then 32 else w.toNat := by
  have hw : w.toNat % 32 = w.toNat := Nat.mod_eq_of_lt w.isLt
  have hzero : w = 0 ↔ w.toNat = 0 := BitVec.toNat_inj.symm
  rw [bfWidth, bfWidthOf_eq, hw]
  simp only [hzero]

/-- The register's bit where bit `i` of a field at offset `o` lies, counted from the field's most significant (R371). -/
def placeInRegister (o : Int) (i : Nat) : Nat := 31 - ((o % 32).toNat + i) % 32

section

variable (s : State) (y : RegNo) (o : Int) (w : Nat)

theorem homeOf_bfInRegister_lt : s.homeOf (bfInRegister y o w) < 2 ^ 32 := BitVec.isLt _

/-- The home of a register's field is the register rotated until the field is on top (R371). -/
theorem testBit_homeOf_bfInRegister {i : Nat} (hi : i < 32) :
    (s.homeOf (bfInRegister y o w)).testBit (31 - i) = (s.getD y).getLsbD (placeInRegister o i) :=
  (BitVec.testBit_toNat _).trans (rotateLeft_bit (s.getD y) (o % 32).toNat i hi)

/-- Setting the home rotates its value back into place (R371). -/
theorem getLsbD_setHome_bfInRegister (v : Nat) {i : Nat} (hi : i < 32) :
    ((s.setHome (bfInRegister y o w) v).getD y).getLsbD (placeInRegister o i) = v.testBit (31 - i) := by
  show ((s.setD y ((BitVec.ofNat 32 v).rotateRight (o % 32).toNat)).getD y).getLsbD _ = _
  rw [State.getD_setD, if_pos rfl, placeInRegister, rotateRight_bit _ _ _ hi, BitVec.getLsbD_ofNat,
    decide_eq_true (by omega), Bool.true_and]

variable {w} (hw : w ≤ 32)

include hw

omit s in
theorem bfInRegister_fits :
    (bfInRegister y o w).skip + (bfInRegister y o w).width ≤ (bfInRegister y o w).bits := by
  show 0 + w ≤ 32
  omega

theorem testBit_extract_bfInRegister {i : Nat} (hi : i < w) :
    ((bfInRegister y o w).extract (s.homeOf (bfInRegister y o w))).testBit (w - 1 - i) =
      (s.getD y).getLsbD (placeInRegister o i) := by
  rw [← testBit_homeOf_bfInRegister s y o w (by omega), BitField.testBit_extract]
  show (decide (w - 1 - i < w) && Nat.testBit _ (32 - 0 - w + (w - 1 - i))) = _
  rw [decide_eq_true (by omega), Bool.true_and, show 32 - 0 - w + (w - 1 - i) = 31 - i by omega]

/-- Replacing a register's field writes the bits where the field lies, and keeps the others (R371). -/
theorem getLsbD_replace_bfInRegister (x : Nat) {i : Nat} (hi : i < 32) :
    ((s.setHome (bfInRegister y o w) ((bfInRegister y o w).replace (s.homeOf (bfInRegister y o w)) x)).getD y).getLsbD
      (placeInRegister o i) = if i < w then x.testBit (w - 1 - i) else (s.getD y).getLsbD (placeInRegister o i) := by
  rw [getLsbD_setHome_bfInRegister s y o w _ hi, BitField.testBit_replace (bfInRegister_fits y o hw),
    testBit_homeOf_bfInRegister s y o w hi]
  show (if 32 - 0 - w ≤ 31 - i ∧ 31 - i < 32 - 0 - w + w then x.testBit (31 - i - (32 - 0 - w)) else _) = _
  by_cases h : i < w
  · rw [if_pos (by omega), if_pos h, show 31 - i - (32 - 0 - w) = w - 1 - i by omega]
  · rw [if_neg (by omega), if_neg h]

end

/-- Outside a data register the field is located from the operand's address (R372). -/
theorem bfLocate_memory_run {bf : BfSpec} {ea : EA} {a : Addr} {s s1 : State} (hea : ∀ y, ea ≠ .dreg y)
    (h : addrOf ea 2 s = .ok a s1) :
    bfLocate bf ea s = .ok (bfInMemory a (bfOffset s bf.offset) (bfWidth s bf.width)) s1 := by
  cases ea with
  | dreg y => exact absurd rfl (hea y)
  | _ => exact (bind_run (get_run s)).trans (bind_run h)

/-- Settles O45: the register form by the bits of the rotated register, the memory form by the division of the offset by
8, reading and replacing by the three parts of the home. -/
theorem fieldBits : Obligations.FieldBits := by
  refine ⟨?located, ?memory, ?bits⟩
  case located =>
    intro bf s off width
    obtain ⟨-, hwidth⟩ := bfWidth_range s bf.width
    refine ⟨fun _ => rfl, fun _ => rfl, bfWidth_imm s, fun _ => bfWidthOf_eq _, fun y => ?_,
      fun ea a s1 hea h => bfLocate_memory_run hea h⟩
    exact ⟨bfInRegister y off width, rfl, rfl, rfl, bfInRegister_fits y off hwidth,
      homeOf_bfInRegister_lt s y off width, fun i hi => testBit_extract_bfInRegister s y off hwidth hi,
      fun x i hi => getLsbD_replace_bfInRegister s y off hwidth x hi⟩
  case memory =>
    intro o w a hpos hle f
    refine ⟨bfBytes (o % 8).toNat w, rfl, rfl, ?_⟩
    have hskip : f.skip = (o % 8).toNat := rfl
    rw [hskip, bfBytes]
    refine ⟨?_, ?_, ?_, ?_, ?_, ?_, rfl, rfl⟩ <;> omega
  case bits =>
    intro f v x j hf _ low
    exact ⟨BitField.testBit_extract f v j, BitField.testBit_replace hf v x j, BitField.extract_replace hf v x⟩

/-! ### The instructions over bit fields -/

/-- BFCHG's field: the complement of a number of `w` bits (R377). -/
theorem xor_ones_eq_sub {w x : Nat} (hx : x < 2 ^ w) : x ^^^ (2 ^ w - 1) = 2 ^ w - 1 - x := by
  refine Nat.eq_of_testBit_eq fun j => ?_
  rw [Nat.testBit_xor, Nat.testBit_two_pow_sub_one, Nat.sub_sub, Nat.add_comm 1 x, Nat.testBit_two_pow_sub_succ hx]
  by_cases hj : j < w
  · simp [hj]
  · simp [hj, testBit_eq_false_of_width_le hx (Nat.not_lt.1 hj)]

section

variable {i : Instr} {bf : BfSpec} {ea : EA} {f : BitField} {s s1 : State} (h : bfLocate bf ea s = .ok f s1)
  (hr : f.allows s.regions .read)

include h hr

/-- Finding a field leaves the regions, so its home is read (R371, R372). -/
theorem bfRead_located : bfRead f s1 = .ok (s1.homeOf f) s1 := bfRead_run ((bfLocate_keeps h).regions ▸ hr)

/-- BFTST sets the flags from the field and writes nothing (R373). -/
theorem completes_bftst : Completes (.bftst bf ea) s
    (s1.setCcr (fieldCcr f.width (f.extract (s1.homeOf f)) s.ccr)) := by
  rw [← (bfLocate_keeps h).ccr]
  exact completes_of rfl ((bind_run h).trans (bind_run (bfRead_located h hr))) rfl

/-- A form that reads a field into a register (R374 to R376). -/
theorem completes_bfToReg (dn : RegNo) (g : BitField → Nat → Long)
    (hexec : exec i s = runSeq i (bfToReg bf ea dn g) s) :
    Completes i s ((s1.setD dn (g f (f.extract (s1.homeOf f)))).setCcr
      (fieldCcr f.width (f.extract (s1.homeOf f)) s.ccr)) := by
  rw [← (bfLocate_keeps h).ccr]
  exact completes_of hexec ((bind_run h).trans (bind_run (bfRead_located h hr))) rfl

variable (hw : f.allows s.regions .write)

include hw

/-- A form that replaces a field by a function of it, the flags set before the write (R377 to R379). -/
theorem completes_bfChange (g : BitField → Nat → Nat) (hexec : exec i s = runSeq i (bfChange bf ea g) s) :
    Completes i s ((s1.setHome f (f.replace (s1.homeOf f) (g f (f.extract (s1.homeOf f))))).setCcr
      (fieldCcr f.width (f.extract (s1.homeOf f)) s.ccr)) := by
  have hkeep := bfLocate_keeps h
  refine completes_of hexec ((bind_run h).trans ((bind_run (bfRead_located h hr)).trans
    ((bind_run (modifyCcr_run _ _)).trans (bfWrite_run ?_)))) ?_
  · exact hkeep.regions.symm ▸ hw
  · rw [setHome_setCcr, hkeep.ccr]

/-- BFINS inserts the low bits of its register, and the flags are those of what it inserts (R380). -/
theorem completes_bfins (dn : RegNo) : Completes (.bfins bf dn ea) s
    ((s1.setHome f (f.replace (s1.homeOf f) ((s.getD dn).toNat % 2 ^ f.width))).setCcr
      (fieldCcr f.width ((s.getD dn).toNat % 2 ^ f.width) s.ccr)) := by
  have hkeep := bfLocate_keeps h
  refine completes_of rfl ((bind_run (readD_run dn s)).trans ((bind_run h).trans
    ((bind_run (bfRead_located h hr)).trans (bind_run (bfWrite_run ?_))))) ?_
  · exact hkeep.regions.symm ▸ hw
  · rw [setHome_ccr, hkeep.ccr]

end

/-- Settles O46: the forms that test, that read into a register and that replace, each with its own function of the
field. -/
theorem fieldOperations : Obligations.FieldOperations := by
  intro bf ea f s s1 h hr v x flags replaced
  refine ⟨completes_bftst h hr, fun dn => ⟨?extu, ?exts, ?ffo⟩, fun hw => ⟨?chg, ?clr, ?set, ?ins⟩⟩
  case extu => exact completes_bfToReg h hr dn (fun _ x => BitVec.ofNat 32 x) rfl
  case exts =>
    have hsigned : BitVec.ofInt 32 (if x.testBit (f.width - 1) then (x : Int) - 2 ^ f.width else x) =
        if x.testBit (f.width - 1) then BitVec.ofInt 32 ((x : Int) - 2 ^ f.width) else BitVec.ofNat 32 x := by
      rw [apply_ite (BitVec.ofInt 32), BitVec.ofInt_natCast]
    rw [hsigned]
    exact completes_bfToReg h hr dn (fun f x => if x.testBit (f.width - 1) then
      BitVec.ofInt 32 ((x : Int) - 2 ^ f.width) else BitVec.ofNat 32 x) rfl
  case ffo =>
    obtain ⟨hle, hzeros, hone⟩ := firstOne_spec x f.width
    exact ⟨firstOne f.width x, hle, hzeros, hone,
      completes_bfToReg h hr dn (fun f x => BitVec.ofInt 32 (f.offset + firstOne f.width x)) rfl⟩
  case chg =>
    rw [← xor_ones_eq_sub (f.extract_lt v)]
    exact completes_bfChange h hr hw (fun f x => x ^^^ (2 ^ f.width - 1)) rfl
  case clr => exact completes_bfChange h hr hw (fun _ _ => 0) rfl
  case set => exact completes_bfChange h hr hw (fun f _ => 2 ^ f.width - 1) rfl
  case ins => exact fun dn => completes_bfins h hr hw dn

end Sys2Proof.Machine
end

section
/-! PROOFS. The statements of the data movement family: MOVEM (O38), the registers of its mask (O39), MOVEP (O40). -/

namespace Sys2Proof.Machine

open Sys2Proof

/-! ### The registers of a MOVEM mask -/

theorem RegSel.number_lt (r : RegSel) : RegSel.number r < 16 := by
  cases r with
  | d n | a n => simp only [RegSel.number]; omega

/-- `R[k]` is the register numbered k (R16). -/
theorem regOfIndex_number (r : RegSel) : regOfIndex (RegSel.number r) = r := by
  cases r with
  | d n => simp [regOfIndex, RegSel.number, n.isLt]
  | a n => simp [regOfIndex, RegSel.number]

theorem number_regOfIndex {k : Nat} (hk : k < 16) : RegSel.number (regOfIndex k) = k :=
  regOfIndex_injective _ (RegSel.number_lt _) k hk (regOfIndex_number _)

theorem mem_maskRegs {mask : BitVec 16} {r : RegSel} :
    r ∈ maskRegs mask ↔ mask.getLsbD (RegSel.number r) = true := by
  simp only [maskRegs, List.mem_map, List.mem_filter, List.mem_range]
  constructor
  · rintro ⟨k, ⟨hk, hbit⟩, rfl⟩
    rwa [number_regOfIndex hk]
  · exact fun hbit => ⟨RegSel.number r, ⟨RegSel.number_lt r, hbit⟩, regOfIndex_number r⟩

/-- The registers of a mask stand from D0 to A7 (R430). -/
theorem maskRegs_ascending (mask : BitVec 16) :
    (maskRegs mask).Pairwise fun p q => RegSel.number p < RegSel.number q := by
  have hlt {k : Nat} (hk : k ∈ (List.range 16).filter fun i => mask.getLsbD i) : k < 16 :=
    List.mem_range.1 (List.mem_filter.1 hk).1
  refine List.pairwise_map.2 ((List.pairwise_lt_range.filter _).imp_of_mem fun hi hj hij => ?_)
  rwa [number_regOfIndex (hlt hi), number_regOfIndex (hlt hj)]

theorem getLsbD_reverse_mask (mask : BitVec 16) {k : Nat} (hk : k < 16) :
    mask.reverse.getLsbD k = mask.getLsbD (15 - k) := by
  rw [BitVec.getLsbD_reverse, BitVec.getMsbD, decide_eq_true hk, Bool.true_and]

/-- A `-(An)` mask selects what the reversed mask does, in the reversed order (R430). -/
theorem maskRegsDown_eq_reverse (mask : BitVec 16) : maskRegsDown mask = (maskRegs mask.reverse).reverse := by
  have hrange : (List.range 16).reverse = (List.range 16).map (15 - ·) := by decide
  have hbit : (List.range 16).filter (fun i => mask.reverse.getLsbD (15 - i)) =
      (List.range 16).filter fun i => mask.getLsbD i := by
    refine List.filter_congr fun i hi => ?_
    have hi : i < 16 := List.mem_range.1 hi
    rw [getLsbD_reverse_mask mask (by omega), show 15 - (15 - i) = i by omega]
  rw [maskRegs, ← List.map_reverse, ← List.filter_reverse, hrange, List.filter_map, List.map_map]
  exact congrArg (List.map _) hbit.symm

/-- Settles O39: the mask's order is that of the numbers; a `-(An)` mask is the other one reversed. -/
theorem movemMask : Obligations.MovemMask := by
  intro mask
  have hdown := maskRegsDown_eq_reverse mask
  refine ⟨fun r => mem_maskRegs, fun r => ?_, maskRegs_ascending mask, ?_, maskRegs_nodup mask, hdown⟩
  · rw [hdown, List.mem_reverse, mem_maskRegs, getLsbD_reverse_mask mask (RegSel.number_lt r)]
  · rw [hdown]
    exact List.pairwise_reverse.2 (maskRegs_ascending mask.reverse)

/-! ### MOVEM -/

/-- Outside `-(An)` the registers are stored from the operand's address up (R431). -/
theorem movemStore_up_run {sz : Size} {mask : BitVec 16} {dst : EA} {a : Addr} {s s1 : State}
    (hdst : ∀ n, dst ≠ .predec n) (h : addrOf dst 2 s = .ok a s1)
    (hw : ∀ j ∈ upSpan sz (maskRegs mask).length a, allowedAt s.regions .write j = true) :
    movemStore sz mask dst s = .ok () (s1.saveUp sz (maskRegs mask) a) := by
  rw [← (addrOf_keeps h).regions] at hw
  cases dst with
  | predec n => exact absurd rfl (hdst n)
  | _ => exact (bind_run h).trans (storeUp_run hw)

/-- Outside `(An)+` the registers are loaded from the operand's address up, and An takes no step (R432). -/
theorem movemLoad_up_run {sz : Size} {mask : BitVec 16} {src : EA} {a : Addr} {s s1 : State}
    (hsrc : ∀ n, src ≠ .postinc n) (h : addrOf src 2 s = .ok a s1)
    (hr : ∀ j ∈ upSpan sz (maskRegs mask).length a, allowedAt s.regions .read j = true) :
    movemLoad sz mask src s = .ok () (s1.restore sz (maskRegs mask) a) := by
  rw [← (addrOf_keeps h).regions] at hr
  cases src with
  | postinc n => exact absurd rfl (hsrc n)
  | _ => exact (bind_run h).trans (bind_run (loadUp_run hr))

/-- Settles O38: the registers go down from An or up from the address; An is written last, after its own load. -/
theorem movem : Obligations.Movem := by
  refine ⟨?storeDown, ?storeUp, ?loadPostinc, ?loadUp⟩
  case storeDown =>
    intro sz mask n s regs hw
    obtain ⟨w, g, hown, hrun⟩ := storeDown_run (maskRegsDown_nodup mask) hw
    exact ⟨w, g, hown, completes_of rfl ((bind_run (readA_run n s)).trans (bind_run hrun)) rfl⟩
  case storeUp => exact fun sz mask dst a s s1 hdst h hw => completes_of rfl (movemStore_up_run hdst h hw) rfl
  case loadPostinc =>
    exact fun sz mask n s hr => completes_of rfl ((bind_run (readA_run n s)).trans (bind_run (loadUp_run hr))) rfl
  case loadUp => exact fun sz mask src a s s1 hsrc h hr => completes_of rfl (movemLoad_up_run hsrc h hr) rfl

/-! ### MOVEP -/

/-- Settles O40: to Dx the bytes are read and joined first; to memory Dx is read first, its bytes stored one by one. -/
theorem movep : Obligations.Movep := by
  intro sz dx ay disp s a
  refine ⟨fun hr => ?toReg, fun hw => ?toMem⟩
  case toReg =>
    exact completes_of rfl ((bind_run (readA_run ay s)).trans (bind_run (readSpread_run hr))) rfl
  case toMem =>
    exact completes_of rfl
      ((bind_run (readA_run ay s)).trans ((bind_run (readD_run dx s)).trans (writeSpread_run hw))) rfl

end Sys2Proof.Machine
end

section
/-! PROOFS. The statements of the multiply and divide family: the products (O47), the word divides (O48), the long
divides (O49). -/

namespace Sys2Proof.Machine

open Sys2Proof

/-- The flags a multiplication or a division leaves: X kept, C cleared (R450 to R459). -/
def mulDivCcr (old : Ccr) (n z v : Bool) : Ccr := { x := old.x, n := n, z := z, v := v, c := false }

/-! ### Exact operands -/

/-- `p` is the exact value of an `n`-bit number, signed or unsigned (R14). -/
def Fits (signed : Bool) (n : Nat) (p : Int) : Prop :=
  if signed then -(2 ^ (n - 1) : Int) ≤ p ∧ p ≤ 2 ^ (n - 1) - 1 else 0 ≤ p ∧ p ≤ 2 ^ n - 1

theorem fits_unsigned_iff {n : Nat} {p : Int} : Fits false n p ↔ 0 ≤ p ∧ p ≤ 2 ^ n - 1 := Iff.rfl

theorem fits_signed_iff {n : Nat} {p : Int} :
    Fits true n p ↔ -(2 ^ (n - 1) : Int) ≤ p ∧ p ≤ 2 ^ (n - 1) - 1 := Iff.rfl

theorem exactOf_unsigned (sz : Size) (v : Long) : exactOf false sz v = (sz.trunc v).toNat := rfl

theorem exactOf_signed (sz : Size) (v : Long) : exactOf true sz v = sz.toInt v := rfl

theorem exactOf_nonneg {signed : Bool} (h : signed = false) (sz : Size) (v : Long) : 0 ≤ exactOf signed sz v := by
  subst h
  exact Int.natCast_nonneg _

/-- The dividend of DIVU.L, Dq or Dr:Dq (R456). -/
theorem dividend_nonneg {signed : Bool} (h : signed = false) (wide : Bool) (hi lo : Long) :
    0 ≤ if wide then wideDividend signed hi lo else exactOf signed .l lo := by
  have hhi := exactOf_nonneg h .l hi
  have hlo := exactOf_nonneg h .l lo
  unfold wideDividend
  split <;> omega

/-- The overflow of a quotient is that it does not fit its width (R458). -/
theorem divOverflow_iff {signed : Bool} {qw : Nat} {q : Int} (hq : signed = false → 0 ≤ q) :
    divOverflow signed qw q = true ↔ ¬Fits signed qw q := by
  cases signed with
  | false =>
    have hpos := hq rfl
    rw [fits_unsigned_iff, divOverflow, if_neg Bool.false_ne_true, decide_eq_true_iff]
    omega
  | true =>
    rw [fits_signed_iff, divOverflow, if_pos rfl, outOfRange, Bool.or_eq_true, decide_eq_true_iff, decide_eq_true_iff]
    omega

/-! ### The halves of an exact integer -/

theorem toNat_low32 (p : Int) : ((low32 p).toNat : Int) = p % 2 ^ 32 := by
  rw [low32, BitVec.toNat_ofInt]
  omega

theorem toNat_high32 (p : Int) : ((high32 p).toNat : Int) = p / 2 ^ 32 % 2 ^ 32 := toNat_low32 _

/-- The low half, read back, is the integer itself exactly where it fits 32 bits. -/
theorem exactOf_low32_iff (signed : Bool) (p : Int) : exactOf signed .l (low32 p) = p ↔ Fits signed 32 p := by
  cases signed with
  | false =>
    rw [exactOf_unsigned, Size.trunc, toNat_low32, fits_unsigned_iff]
    omega
  | true =>
    show (BitVec.ofInt 32 p).toInt = p ↔ _
    rw [BitVec.toInt_ofInt, Int.bmod_def, fits_signed_iff]
    split <;> omega

theorem low32_exactOf (signed : Bool) (v : Long) : low32 (exactOf signed .l v) = v := by
  cases signed with
  | false => exact (BitVec.ofInt_natCast ..).trans ((BitVec.ofNat_toNat ..).trans (BitVec.setWidth_eq v))
  | true => exact BitVec.ofInt_toInt

/-- A 64-bit integer is put together again from its halves, the high one signed as the integer is (R452, R453). -/
theorem wideDividend_halves {signed : Bool} {p : Int} (hp : Fits signed 64 p) :
    wideDividend signed (high32 p) (low32 p) = p := by
  have hhigh : Fits signed 32 (p / 2 ^ 32) := by
    cases signed with
    | false => rw [fits_unsigned_iff] at hp ⊢; omega
    | true => rw [fits_signed_iff] at hp ⊢; omega
  have hexact : exactOf signed .l (high32 p) = p / 2 ^ 32 := (exactOf_low32_iff signed _).2 hhigh
  rw [wideDividend, hexact, toNat_low32]
  omega

theorem halves_eq_zero {signed : Bool} {p : Int} (hp : Fits signed 64 p) :
    (high32 p == 0 && low32 p == 0) = (p == 0) := by
  have hlow := toNat_low32 p
  have hhigh := toNat_high32 p
  have hzero : (0 : Long).toNat = 0 := rfl
  rw [Bool.eq_iff_iff, Bool.and_eq_true, beq_iff_eq, beq_iff_eq, beq_iff_eq, ← BitVec.toNat_inj, ← BitVec.toNat_inj,
    hzero]
  cases signed with
  | false => rw [fits_unsigned_iff] at hp; omega
  | true => rw [fits_signed_iff] at hp; omega

/-! ### Products -/

theorem natAbs_toInt_le (sz : Size) (v : Long) : (sz.toInt v).natAbs ≤ signWeight sz := by
  have hv := toInt_cases sz v
  omega

/-- A product of two values of a size has twice its bits (R450 to R453). -/
theorem fits_product (signed : Bool) (sz : Size) (d x : Long) :
    Fits signed (2 * sz.bits) (exactOf signed sz d * exactOf signed sz x) := by
  cases signed with
  | false =>
    have hlt := Nat.mul_lt_mul'' (toNat_trunc_lt sz d) (toNat_trunc_lt sz x)
    have hpow : 2 ^ (2 * sz.bits) = 2 * signWeight sz * (2 * signWeight sz) := by cases sz <;> rfl
    rw [← hpow] at hlt
    rw [fits_unsigned_iff, exactOf_unsigned, exactOf_unsigned, Int.le_sub_one_iff]
    exact ⟨Int.mul_nonneg (Int.natCast_nonneg _) (Int.natCast_nonneg _), by exact_mod_cast hlt⟩
  | true =>
    have habs : (sz.toInt d * sz.toInt x).natAbs ≤ signWeight sz * signWeight sz := by
      rw [Int.natAbs_mul]
      exact Nat.mul_le_mul (natAbs_toInt_le sz d) (natAbs_toInt_le sz x)
    have hweight : ((signWeight sz * signWeight sz : Nat) : Int) < 2 ^ (2 * sz.bits - 1) := by cases sz <;> decide
    rw [fits_signed_iff, exactOf_signed, exactOf_signed]
    omega

/-- Signed or unsigned, the low halves of the two products are one (R452, R453). -/
theorem low32_product (signed : Bool) (d x : Long) : low32 (exactOf signed .l d * exactOf signed .l x) = d * x := by
  have hd : BitVec.ofInt 32 (exactOf signed .l d) = d := low32_exactOf signed d
  have hx : BitVec.ofInt 32 (exactOf signed .l x) = x := low32_exactOf signed x
  rw [low32, BitVec.ofInt_mul, hd, hx]

/-- V of the 32-bit form: the low half is not the product (R452, R453). -/
theorem mulOverflow_product (signed : Bool) (d x : Long) :
    mulOverflow signed (exactOf signed .l d * exactOf signed .l x) =
      decide (exactOf signed .l d * exactOf signed .l x ≠ exactOf signed .l (d * x)) := by
  rw [Bool.eq_iff_iff, decide_eq_true_iff, ← low32_product signed, ne_comm, ne_eq, exactOf_low32_iff]
  exact divOverflow_iff fun hs => Int.mul_nonneg (exactOf_nonneg hs ..) (exactOf_nonneg hs ..)

theorem putProduct_run_of_ne {dh dl : RegNo} (h : dh ≠ dl) (p : Int) (s : State) :
    putProduct dh dl p s = .ok () ((s.setD dh (high32 p)).setD dl (low32 p)) := by
  rw [putProduct, if_neg h]
  rfl

theorem putProduct_run_of_eq {dh dl : RegNo} (h : dh = dl) (p : Int) (s : State) : putProduct dh dl p s =
    .ok () { s.setD dl (Config.drawLong s.draws) with draws := s.draws + 1 } := by
  rw [putProduct, if_pos h]
  rfl

section

variable {signed : Bool} {i : Instr} {src : EA} {x : Long} {s s1 : State}

/-- The word products are exact; N and Z are those of the 32 bits (R450, R451). -/
theorem completes_mulWord (h : readEa .w src 1 s = .ok x s1) (dn : RegNo)
    (hexec : exec i s = runSeq i (mulWord signed src dn) s) :
    ∃ p : Long, exactOf signed .l p = exactOf signed .w (s1.getD dn) * exactOf signed .w x ∧
      Completes i s ((s1.setD dn p).setCcr (mulDivCcr s1.ccr p.msb (p == 0) false)) :=
  ⟨_, (exactOf_low32_iff signed _).2 (fits_product signed .w _ _), completes_of hexec (bind_run h) rfl⟩

variable (h : readEa .l src 2 s = .ok x s1) (dl : RegNo)

include h

/-- The product cut to 32 bits; V tells that this is not the whole product (R452, R453). -/
theorem completes_mulLong_narrow (hexec : exec i s = runSeq i (mulLong signed dl .narrow src) s) :
    Completes i s ((s1.setD dl (s1.getD dl * x)).setCcr
      (mulDivCcr s1.ccr (s1.getD dl * x).msb (s1.getD dl * x == 0)
        (decide (exactOf signed .l (s1.getD dl) * exactOf signed .l x ≠ exactOf signed .l (s1.getD dl * x))))) := by
  rw [← mulOverflow_product, ← low32_product signed]
  exact completes_of hexec (bind_run h) rfl

/-- The 64-bit product goes to Dh:Dl, or leaves one register for both undefined (R452, R453, D22). -/
theorem completes_mulLong_wide (dh : RegNo) (hexec : exec i s = runSeq i (mulLong signed dl (.wide dh) src) s) :
    ∃ hi lo : Long, wideDividend signed hi lo = exactOf signed .l (s1.getD dl) * exactOf signed .l x ∧
      let c := mulDivCcr s1.ccr hi.msb (hi == 0 && lo == 0) false
      (dh ≠ dl → Completes i s (((s1.setD dh hi).setD dl lo).setCcr c)) ∧
      (dh = dl → ∃ (u : Long) (g : Nat), Completes i s { (s1.setD dl u).setCcr c with draws := g }) := by
  have hfits : Fits signed 64 (exactOf signed .l (s1.getD dl) * exactOf signed .l x) := fits_product signed .l _ _
  refine ⟨_, _, wideDividend_halves hfits, ?_⟩
  rw [halves_eq_zero hfits]
  exact ⟨fun hne => completes_of hexec ((bind_run h).trans (bind_run (putProduct_run_of_ne hne ..))) rfl,
    fun heq => ⟨_, s1.draws + 1, completes_of hexec ((bind_run h).trans (bind_run (putProduct_run_of_eq heq ..))) rfl⟩⟩

end

/-- Settles O47: a product is one exact integer, signed or unsigned, that is written at its width or cut to it. -/
theorem products : Obligations.Products := by
  unfold Obligations.Products
  intro flags
  refine ⟨fun src dn x s s1 h => ⟨?muluW, completes_mulWord (signed := true) h dn rfl⟩, fun src dl x s s1 h =>
    ⟨?muluL, completes_mulLong_narrow (signed := true) h dl rfl, fun dh =>
      ⟨?muluWide, completes_mulLong_wide (signed := true) h dl dh rfl⟩⟩⟩
  case muluW =>
    obtain ⟨p, hp, hrun⟩ := completes_mulWord (signed := false) (i := .muluW src dn) h dn rfl
    exact ⟨p, Int.ofNat_inj.1 hp, hrun⟩
  case muluL =>
    have hover : decide ((s1.getD dl).toNat * x.toNat ≠ (s1.getD dl * x).toNat) =
        decide (((s1.getD dl).toNat : Int) * x.toNat ≠ (s1.getD dl * x).toNat) := decide_eq_decide.2 (by norm_cast)
    rw [hover]
    exact completes_mulLong_narrow (signed := false) h dl rfl
  case muluWide =>
    obtain ⟨hi, lo, hp, hrun⟩ := completes_mulLong_wide (signed := false) (i := .muluL dl (.wide dh) src) h dl dh rfl
    exact ⟨hi, lo, Int.ofNat_inj.1 hp, hrun⟩

/-! ### Quotients and remainders -/

/-- The quotient and remainder that truncate toward zero are the model's (R454 to R457). -/
theorem tdiv_tmod_of_truncates {dvd dvs q r : Int} (h0 : dvs ≠ 0) (heq : dvd = q * dvs + r)
    (hlt : r.natAbs < dvs.natAbs) (hsign : r = 0 ∨ r.sign = dvd.sign) : dvd.tdiv dvs = q ∧ dvd.tmod dvs = r := by
  have hsum : r + dvs * q = dvd := by rw [heq, Int.mul_comm, Int.add_comm]
  obtain hpos | hneg := Int.le_total 0 dvd
  · have hr : 0 ≤ r := hsign.elim (fun h => Int.le_of_eq h.symm) fun h =>
      Int.sign_nonneg_iff.1 (h ▸ Int.sign_nonneg_iff.2 hpos)
    exact (Int.tdiv_tmod_unique hpos h0).2 ⟨hsum, hr, by omega⟩
  · have hr : r ≤ 0 := hsign.elim Int.le_of_eq fun h => Int.sign_nonpos_iff.1 (h ▸ Int.sign_nonpos_iff.2 hneg)
    exact (Int.tdiv_tmod_unique' hneg h0).2 ⟨hsum, by omega, hr⟩

/-- N of a quotient is the sign bit at its width (R458). -/
theorem getLsbD_low32_eq_msb (q : Int) {n : Nat} (hpos : 0 < n) (hn : n ≤ 32) :
    (low32 q).getLsbD (n - 1) = (BitVec.ofInt n q).msb := by
  have hdvd : ((2 ^ n : Nat) : Int) ∣ ((2 ^ 32 : Nat) : Int) := by exact_mod_cast Nat.pow_dvd_pow 2 hn
  have hlow : (low32 q).setWidth n = BitVec.ofInt n q := by
    refine BitVec.eq_of_toNat_eq (Int.ofNat_inj.1 ?_)
    have hpow : ((2 ^ n : Nat) : Int) ≠ 0 := Int.ne_of_gt (by exact_mod_cast Nat.two_pow_pos n)
    have hnonneg := Int.emod_nonneg q hpow
    rw [BitVec.toNat_setWidth, BitVec.toNat_ofInt, Int.natCast_emod, toNat_low32, Int.toNat_of_nonneg hnonneg]
    exact Int.emod_emod_of_dvd q hdvd
  rw [← hlow, BitVec.msb_eq_getLsbD_last, BitVec.getLsbD_setWidth, decide_eq_true (by omega), Bool.true_and]

section

variable {signed : Bool} {dvd dvs : Int} {qw : Nat}

/-- Division by 0 raises, N, Z and V drawn (R459). -/
theorem divide_zero (signed : Bool) (dvd : Int) (qw : Nat) (s : State) : divide signed dvd 0 qw s =
    .error .divideByZero { s.setCcr (mulDivCcr s.ccr (Config.drawBit s.draws) (Config.drawBit (s.draws + 1))
      (Config.drawBit (s.draws + 2))) with draws := s.draws + 3 } := rfl

/-- A quotient that does not fit sets V, N and Z drawn, and answers nothing to write (R458). -/
theorem divide_overflow (h0 : dvs ≠ 0) (hq : signed = false → 0 ≤ dvd.tdiv dvs) (hnot : ¬Fits signed qw (dvd.tdiv dvs))
    (s : State) : divide signed dvd dvs qw s =
    .ok none { s.setCcr (mulDivCcr s.ccr (Config.drawBit s.draws) (Config.drawBit (s.draws + 1)) true) with
      draws := s.draws + 2 } := by
  rw [divide, if_neg h0, if_pos ((divOverflow_iff hq).2 hnot)]
  rfl

/-- A quotient that fits sets N and Z and is answered with its remainder (R458). -/
theorem divide_fits (h0 : dvs ≠ 0) (hq : signed = false → 0 ≤ dvd.tdiv dvs) (hfits : Fits signed qw (dvd.tdiv dvs))
    (hpos : 0 < qw) (hqw : qw ≤ 32) (s : State) : divide signed dvd dvs qw s = .ok (some (dvd.tdiv dvs, dvd.tmod dvs))
      (s.setCcr (mulDivCcr s.ccr (BitVec.ofInt qw (dvd.tdiv dvs)).msb (decide (dvd.tdiv dvs = 0)) false)) := by
  rw [divide, if_neg h0, if_neg fun hover => (divOverflow_iff hq).1 hover hfits, getLsbD_low32_eq_msb _ hpos hqw]
  rfl

/-! An instruction whose body, having read its operands, divides at `s1` and goes on with `k`. -/

variable {i : Instr} {body : Exec Unit} {k : Option (Int × Int) → Exec Unit} {s s1 t : State}

theorem raises_of_divide_zero (hexec : exec i s = runSeq i body s)
    (hbody : body s = (divide signed dvd dvs qw >>= k) s1) (h0 : dvs = 0) : ∃ (n z v : Bool) (g : Nat),
      Raises i s .divideByZero { s1.setCcr (mulDivCcr s1.ccr n z v) with draws := g } := by
  subst h0
  exact ⟨_, _, _, _, raises_of hexec (hbody.trans (bind_raise (divide_zero ..))) rfl⟩

variable (hexec : exec i s = runSeq i body s) (hbody : body s = (divide signed dvd dvs qw >>= k) s1)
  (h0 : dvs ≠ 0) (hq : signed = false → 0 ≤ dvd.tdiv dvs)

include hexec hbody h0 hq

theorem completes_of_divide_overflow (hk : k none = pure ()) (hnot : ¬Fits signed qw (dvd.tdiv dvs)) :
    ∃ (n z : Bool) (g : Nat), Completes i s { s1.setCcr (mulDivCcr s1.ccr n z true) with draws := g } :=
  ⟨_, _, _, completes_of hexec (hbody.trans ((bind_run (divide_overflow h0 hq hnot s1)).trans (congrFun hk _))) rfl⟩

theorem completes_of_divide_fits (hpos : 0 < qw) (hqw : qw ≤ 32) (hfits : Fits signed qw (dvd.tdiv dvs))
    (hk : k (some (dvd.tdiv dvs, dvd.tmod dvs)) (s1.setCcr (mulDivCcr s1.ccr (BitVec.ofInt qw (dvd.tdiv dvs)).msb
      (decide (dvd.tdiv dvs = 0)) false)) = .ok () t) : Completes i s t :=
  completes_of hexec (hbody.trans ((bind_run (divide_fits h0 hq hfits hpos hqw s1)).trans hk)) rfl

end

/-! ### The word divides -/

/-- The word divides read their operands, divide, and write remainder and quotient as one long (R454, R455). -/
theorem divWord16_run {signed : Bool} {src : EA} {x : Long} {s s1 : State} (h : readEa .w src 1 s = .ok x s1)
    (dn : RegNo) : ∃ k, divWord16 signed src dn s =
      (divide signed (exactOf signed .l (s1.getD dn)) (exactOf signed .w x) 16 >>= k) s1 ∧ k none = pure () ∧
      ∀ q r t, k (some (q, r)) t = .ok () (t.setD dn (packQuotient q r)) :=
  ⟨_, (bind_run h).trans (bind_run (readD_run dn s1)), rfl, fun _ _ _ => rfl⟩

/-- Settles O48: signed or unsigned, the exact operands are divided, and a quotient overflows where it does not fit. -/
theorem wordDivides : Obligations.WordDivides := by
  intro src dn x s s1 q r h divides
  have hdivides (signed : Bool) {i : Instr} (hexec : exec i s = runSeq i (divWord16 signed src dn) s) {lo hi : Int}
      (hfits : ∀ p, lo ≤ p ∧ p ≤ hi ↔ Fits signed 16 p) :
      divides i (exactOf signed .l (s1.getD dn)) (exactOf signed .w x) lo hi := by
    obtain ⟨k, hbody, hnone, hsome⟩ := divWord16_run (signed := signed) h dn
    refine ⟨raises_of_divide_zero hexec hbody, fun h0 heq hlt hsign => ?_⟩
    have hq (hs : signed = false) := Int.tdiv_nonneg (exactOf_nonneg hs .l (s1.getD dn)) (exactOf_nonneg hs .w x)
    obtain ⟨rfl, rfl⟩ := tdiv_tmod_of_truncates h0 heq hlt hsign
    rw [hfits]
    exact ⟨fun hf => completes_of_divide_fits hexec hbody h0 hq (by decide) (by decide) hf (hsome ..),
      completes_of_divide_overflow hexec hbody h0 hq hnone⟩
  exact ⟨hdivides false rfl fun _ => Iff.rfl, hdivides true rfl fun _ => Iff.rfl⟩

/-! ### The long divides -/

/-- The long divides read their operands, divide, and write the quotient last, alone where there is one register for
both, or a draw in the wide form (R456, R457, D22). -/
theorem divLong_run {signed : Bool} {src : EA} {x : Long} {s s1 : State} (h : readEa .l src 2 s = .ok x s1)
    (dq : RegNo) (wide : Bool) (dr : RegNo) : ∃ k, divLong signed dq wide dr src s =
      (divide signed (if wide then wideDividend signed (s1.getD dr) (s1.getD dq) else exactOf signed .l (s1.getD dq))
        (exactOf signed .l x) 32 >>= k) s1 ∧ k none = pure () ∧
      ∀ q r t, (dr ≠ dq → k (some (q, r)) t = .ok () ((t.setD dr (low32 r)).setD dq (low32 q))) ∧
        (dr = dq → wide = false → k (some (q, r)) t = .ok () (t.setD dq (low32 q))) ∧
        (dr = dq → wide = true → k (some (q, r)) t =
          .ok () { t.setD dq (Config.drawLong t.draws) with draws := t.draws + 1 }) := by
  refine ⟨_, (bind_run h).trans ((bind_run (readD_run dq s1)).trans (bind_run (readD_run dr s1))), rfl,
    fun q r t => ⟨fun hne => ?_, fun heq hwide => ?_, fun heq hwide => ?_⟩⟩
  · simp only [if_neg hne]; rfl
  · simp only [if_pos heq, hwide]; rfl
  · simp only [if_pos heq, hwide]; rfl

/-- Settles O49: as for the word divides; where quotient and remainder go depends on the registers and the form. -/
theorem longDivides : Obligations.LongDivides := by
  intro src dq dr wide x s s1 q r h lo hi divides
  have hdivides (signed : Bool) {i : Instr} (hexec : exec i s = runSeq i (divLong signed dq wide dr src) s)
      {min max : Int} (hfits : ∀ p, min ≤ p ∧ p ≤ max ↔ Fits signed 32 p) :
      divides i (if wide then wideDividend signed hi lo else exactOf signed .l lo) (exactOf signed .l x) min max := by
    obtain ⟨k, hbody, hnone, hsome⟩ := divLong_run (signed := signed) h dq wide dr
    refine ⟨raises_of_divide_zero hexec hbody, fun h0 heq hlt hsign => ?_⟩
    have hq (hs : signed = false) := Int.tdiv_nonneg (dividend_nonneg hs wide hi lo) (exactOf_nonneg hs .l x)
    obtain ⟨rfl, rfl⟩ := tdiv_tmod_of_truncates h0 heq hlt hsign
    rw [hfits]
    refine ⟨fun hf => ?fits, completes_of_divide_overflow hexec hbody h0 hq hnone⟩
    case fits =>
      obtain ⟨htwo, hone, hdraw⟩ := hsome _ _ _
      have hrun {t : State} := completes_of_divide_fits (t := t) hexec hbody h0 hq (by decide) (by decide) hf
      exact ⟨fun hne => hrun (htwo hne), fun heq hw => hrun (hone heq hw), fun heq hw => ⟨_, _, hrun (hdraw heq hw)⟩⟩
  exact ⟨hdivides false rfl fun _ => Iff.rfl, hdivides true rfl fun _ => Iff.rfl⟩

end Sys2Proof.Machine
end

section
/-! PROOFS. The statements of the program-control family: the returns (O51), stack frames (O52). -/

namespace Sys2Proof.Machine

open Sys2Proof

/-! ### Returns -/

/-- The flags a word restores are its bits 4:0 (R46). -/
theorem ofBits_setWidth (w : Long) : Ccr.ofBits (w.setWidth 5) =
    { x := w.getLsbD 4, n := w.getLsbD 3, z := w.getLsbD 2, v := w.getLsbD 1, c := w.getLsbD 0 } := by
  simp [Ccr.ofBits]

/-- A displacement added to A7 after a pop is added to what the pop leaves there (R490). -/
theorem popped_setA_add (s : State) (d : Long) : (s.popped .l).setA spReg ((s.popped .l).getA spReg + d) =
    s.setA spReg (s.getA spReg + 4 + d) := by
  have hsp : (s.popped .l).getA spReg = s.getA spReg + 4 := by simp [State.popped, Size.bytes]
  rw [hsp, State.popped, State.setA_setA]

/-- Settles O51: each body pops where the stack allows it; the long popped is where it goes. -/
theorem returns : Obligations.Returns := by
  intro s
  refine ⟨fun hl => ⟨?rts, fun d => ?rtd⟩, fun hw hl => ?rtr⟩
  case rts => exact goesTo_of rfl (pop_run hl)
  case rtd =>
    rw [← popped_setA_add]
    exact goesTo_of rfl (bind_run (pop_run hl))
  case rtr =>
    intro w c
    have hc : Ccr.ofBits (w.setWidth 5) = c := ofBits_setWidth w
    rw [← hc]
    exact goesTo_of rfl ((bind_run (pop_run hw)).trans ((bind_run (putCcr_run _ _)).trans (pop_run hl)))

/-! ### Stack frames -/

/-- A value drawn only where the register is A7 itself: any other register decides it (D21). -/
theorem drawIf_sp_run (an : RegNo) (x y z : Long) (s : State) : ∃ (w : Long) (g : Nat), (an ≠ 7 → w = z) ∧
    (an = 7 → w = x ∨ w = y) ∧ drawIf (an == spReg) x y z s = .ok w { s with draws := g } := by
  obtain ⟨w, g, hother, hself, hrun⟩ := drawIf_run (c := an == spReg) (x := x) (y := y) (z := z) (s := s)
  exact ⟨w, g, fun h => hother (beq_eq_false_iff_ne.2 h), fun h => hself (beq_iff_eq.2 h), hrun⟩

/-- LINK where a long can be pushed: An takes the A7 the push leaves, and A7, whichever register An is, moves on from
there (R491, D21). -/
theorem link_run {s : State} (hpush : CanPush s) (an : RegNo) (disp : Long) : ∃ (w : Long) (g : Nat),
    (an ≠ 7 → w = s.getA an) ∧ (an = 7 → w = s.getA 7 ∨ w = s.getA 7 - 4) ∧
    link an disp s = .ok () { (((s.pushed w).setA an (s.getA spReg - 4)).setA spReg
      (s.getA spReg - 4 + disp)) with draws := g } := by
  obtain ⟨w, g, hother, hself, hdraw⟩ := drawIf_sp_run an (s.getA spReg) (s.getA spReg - 4) (s.getA an) s
  have hmoved : ((s.pushed w).setA an (s.getA spReg - 4)).getA spReg + disp = s.getA spReg - 4 + disp := by
    rw [State.getA_setA, getA_pushed, ite_self]
  have hstore := memWriteSized_run (s := { s with draws := g }) (sz := .l) (v := w) hpush
  refine ⟨w, g, hother, hself, ?_⟩
  rw [← hmoved]
  exact (bind_run (readA_run _ _)).trans ((bind_run (readA_run _ _)).trans ((bind_run hdraw).trans (bind_run hstore)))

/-- UNLK where the long at An can be read: A7, which takes An before the read, ends above the long unless An is A7
(R492, D21). -/
theorem completes_unlk {s : State} {an : RegNo} (hread : allowed s.regions .read (s.getA an) 4 = true) :
    ∃ (u : Long) (g : Nat), (an ≠ 7 → u = BitVec.ofNat 32 (s.load (s.getA an) 4)) ∧
    (an = 7 → u = BitVec.ofNat 32 (s.load (s.getA an) 4) ∨ u = s.getA an + 4) ∧
    Completes (.unlk an) s { (s.setA 7 (s.getA an + 4)).setA an u with draws := g } := by
  obtain ⟨u, g, hother, hself, hdraw⟩ := drawIf_sp_run an (BitVec.ofNat 32 (s.load (s.getA an) 4)) (s.getA an + 4)
    (BitVec.ofNat 32 (s.load (s.getA an) 4)) (s.setA spReg (s.getA an + 4))
  refine ⟨u, g, hother, hself, ?_⟩
  have hload : memReadSized .l (s.getA an) (s.setA spReg (s.getA an)) = _ := memReadSized_run hread
  rw [← State.setA_setA s spReg (s.getA an)] at hdraw ⊢
  exact completes_of rfl ((bind_run (readA_run an s)).trans ((bind_run (putA_run _ _ _)).trans
    ((bind_run hload).trans ((bind_run (putA_run _ _ _)).trans (bind_run hdraw))))) rfl

/-- Settles O52: both forms of LINK run one body, and UNLK its own; D21's draw is for An = A7 alone. -/
theorem frames : Obligations.Frames := by
  refine ⟨?link, fun s an hread => completes_unlk hread⟩
  case link =>
    intro s an hpush sp linked
    have hlinked {i : Instr} {disp : Long} (hexec : exec i s = runSeq i (link an disp) s) : linked i disp := by
      obtain ⟨w, g, hother, hself, hrun⟩ := link_run hpush an disp
      exact ⟨w, g, hother, hself, completes_of hexec hrun rfl⟩
    exact ⟨fun d => hlinked rfl, fun d => hlinked rfl⟩

end Sys2Proof.Machine
end

section
/-! PROOFS. The statements of the exceptions family: an odd PC (O6), what an instruction halts with (O14), system calls
(O57), traps (O58), the instructions that only advance the PC (O60), CHK (O33), and the decimal family: ABCD, SBCD and
NBCD (O53, O54), PACK and UNPK (O55). -/

namespace Sys2Proof.Machine

open Sys2Proof

/-! ### What an instruction halts with -/

/-- `TRAP #0` does not halt the core; what halts it has the record of the exception (R603, R604, R612). -/
theorem takeException_halted {pcOp pcNext : Addr} {op : Option Word16} {e : Raise} {s : State} {r : HaltRecord}
    (h : (takeException pcOp pcNext op e s).status = .halted r) : e ≠ .syscall ∧ r = haltRecord pcOp pcNext op e s := by
  by_cases he : e = .syscall
  · subst he; cases h
  · rw [takeException_halts pcOp pcNext op he] at h
    cases h
    exact ⟨he, rfl⟩

/-- An instruction that halts the running core raised an exception it may raise (R602, R604). -/
theorem exec_halted {i : Instr} {s t : State} {r : HaltRecord} (hs : s.status = .running) (h : exec i s = .next t)
    (hr : t.status = .halted r) : ∃ e u, e ≠ .syscall ∧ MayRaise i e ∧
      r = haltRecord s.pc (pcNext i s.pc) (some (opcodeWord i)) e u := by
  rcases answers_exec i s with ⟨u, target, hu, ho⟩ | ⟨e, u, he, -, ho⟩
  · cases ho.symm.trans h
    cases (hu.status.trans hs).symm.trans hr
  · cases ho.symm.trans h
    obtain ⟨hne, hrec⟩ := takeException_halted hr
    exact ⟨e, u, hne, he, hrec⟩

/-- Settles O14: the record is that of an exception the instruction may raise, and a well-formed one raises no
IllegalInstruction for want of an operand. -/
theorem raisesOnly : Obligations.RaisesOnly := by
  intro i s t r hwf hs h hr
  obtain ⟨e, u, hne, he, rfl⟩ := exec_halted hs h hr
  have hown : AccessRaise e ∨ ownRaise i e := he.imp_right fun h => h.resolve_right fun hill => by simp [hwf] at hill
  exact ⟨e, hne, hown, rfl, rfl, rfl, rfl, rfl⟩

/-! ### An odd PC -/

theorem Raise.cause_eq_addressError {e : Raise} : e.cause = .addressError ↔ ∃ a, e = .addressError a := by
  cases e <;> simp [Raise.cause]

/-- No instruction's own exception is AddressError (R606). -/
theorem ownRaise_cause {i : Instr} {e : Raise} (h : ownRaise i e) : e.cause ≠ .addressError := by
  cases i with
  | trap v =>
    have he : e = if v = 0 then .syscall else .trap v := h
    rw [he]
    split <;> simp [Raise.cause]
  | divuW | divsW | divuL | divsL | chkW | chkL | chk2 | trapv | trapcc | illegal | bkpt | callm | rtm | lineA | lineF
  | moveFromSr | moveToSr | andiToSr | oriToSr | eoriToSr | moveToUsp | moveFromUsp | movec | moves | rte | stop =>
    have he : e = _ := h
    simp [he, Raise.cause]
  | _ => exact h.elim

theorem mayRaise_cause {i : Instr} {e : Raise} (h : MayRaise i e) : e.cause ≠ .addressError := by
  rcases h with ⟨f, rfl, -⟩ | hown | ⟨-, rfl⟩
  · simp [Raise.cause]
  · exact ownRaise_cause hown
  · simp [Raise.cause]

/-- An instruction that halts the core does not name AddressError (R606). -/
theorem exec_halted_cause {i : Instr} {s t : State} {r : HaltRecord} (hs : s.status = .running)
    (h : exec i s = .next t) (hr : t.status = .halted r) : r.cause ≠ .addressError := by
  obtain ⟨e, u, -, he, rfl⟩ := exec_halted hs h hr
  exact mayRaise_cause he

/-- At an even PC fetch and decode raise no AddressError (R84, R606). -/
theorem fetchInstr_raised_cause {s t : State} {r : HaltRecord} (heven : s.pc.getLsbD 0 = false)
    (h : fetchInstr s = .raised t) (hr : t.status = .halted r) : r.cause ≠ .addressError := by
  have hraised {ws : List Word16} {n : Nat} {e : Raise} (hf : raiseAtFetch s ws n e = .raised t)
      (he : e.cause ≠ .addressError) : r.cause ≠ .addressError := by
    cases hf
    rw [(takeException_halted hr).2]
    exact he
  unfold fetchInstr at h
  simp only at h
  split at h
  · cases h
  · exact hraised h (by simp [Raise.cause])
  · refine hraised h ?_
    cases hw : (fetchWindow s maxWords s.pc).2 with
    | none => simp [Raise.cause]
    | some e =>
      intro hcause
      obtain ⟨a, rfl⟩ := Raise.cause_eq_addressError.1 hcause
      exact fetchWindow_not_addressError heven hw

/-- Settles O6: the check of the opcode word finds an odd PC first; at an even PC neither fetch nor an instruction
raises AddressError. -/
theorem oddPc : Obligations.OddPc := by
  refine ⟨fun s hs hodd => step_opcode_fault hs (fetchCheck_odd hodd), fun s t r hs h hr hcause => ?_,
    fun i s t r => exec_halted_cause⟩
  cases heven : s.pc.getLsbD 0 with
  | true => rfl
  | false =>
    refine absurd hcause ?_
    obtain ⟨i, n, hf⟩ | ⟨e, ws, n, -, hf⟩ := fetchInstr_cases s
    · have hexec : exec i (s.markFetched n) = .next t := by simpa only [step, hs, hf] using h
      exact exec_halted_cause (s := s.markFetched n) hs hexec hr
    · cases (step_raised hs hf).symm.trans h
      exact fetchInstr_raised_cause heven hf hr

/-! ### Traps and no-operations -/

/-- A length of one word moves the PC by 2 (R48). -/
theorem pcNext_of_extWords_nil {i : Instr} (h : extWords i = []) (pc : Addr) : pcNext i pc = pc + 2 := by
  simp only [pcNext, byteLength, encode, h]
  rfl

/-- An instruction whose body raises at once halts the core with the record, nothing else changed (R603, R604). -/
theorem exec_eq_halt {i : Instr} {body : Exec Unit} {e : Raise} {s : State} (hexec : exec i s = runSeq i body s)
    (hbody : body s = .error e s) (he : e ≠ .syscall) : exec i s =
      .next (s.halt (haltRecord s.pc (pcNext i s.pc) (some (opcodeWord i)) e s)) := by
  rw [hexec, runSeq_raise hbody, takeException_halts _ _ _ he]
  rfl

/-- The vector of `TRAP #n` (R540, R600). -/
theorem vector_trap (n : BitVec 4) : (32 : BitVec 8) + n.setWidth 8 = BitVec.ofNat 8 (32 + n.toNat) := by
  refine BitVec.eq_of_toNat_eq ?_
  simp only [BitVec.toNat_add, BitVec.toNat_setWidth, BitVec.toNat_ofNat, show (32 : BitVec 8).toNat = 32 from rfl]
  omega

/-- Settles O60: one word each, and an empty body. -/
theorem noOperations : Obligations.NoOperations := by
  refine ⟨rfl, rfl, fun s => ⟨?reset, ?nop⟩⟩
  case reset => rw [← pcNext_of_extWords_nil (i := .reset) rfl]; rfl
  case nop => rw [← pcNext_of_extWords_nil (i := .nop) rfl]; rfl

/-- Settles O57: the body raises SyscallTrap at once, and taking it moves the PC and the status. -/
theorem systemCall : Obligations.SystemCall := by
  intro s
  rw [← pcNext_of_extWords_nil (i := .trap 0) rfl]
  rfl

section

/-! A body that raises where a condition on the flags holds, and does nothing else (R541, R542). -/

variable {i : Instr} {cond : Ccr → Bool} {s : State}
  (hexec : exec i s = runSeq i (readCcr >>= fun f => if cond f then raise .trapcc else pure ()) s)

include hexec

theorem exec_eq_halt_trapcc (h : cond s.ccr = true) : exec i s =
    .next (s.halt (haltRecord s.pc (pcNext i s.pc) (some (opcodeWord i)) .trapcc s)) :=
  exec_eq_halt hexec (by rw [bind_run (readCcr_run s), if_pos h]; rfl) (by simp)

theorem completes_of_not_trapcc (h : cond s.ccr = false) : Completes i s s :=
  completes_of hexec (by rw [bind_run (readCcr_run s), h]; rfl) rfl

end

/-- Settles O58: each body raises at once or not at all; the record is R604's for its exception. -/
theorem traps : Obligations.Traps := by
  unfold Obligations.Traps
  intro s n c w m arg src rn bits trapped faulted
  have hillegal {i : Instr} (hexec : exec i s = runSeq i (raise .illegalInstruction) s) :
      faulted i .illegalInstruction 4 := exec_eq_halt hexec rfl (by simp)
  refine ⟨fun hn => ?trap, exec_eq_halt_trapcc rfl, completes_of_not_trapcc (cond := Ccr.v) rfl,
    exec_eq_halt_trapcc rfl, completes_of_not_trapcc (cond := condHolds c) rfl, hillegal rfl, hillegal rfl,
    hillegal rfl, hillegal rfl, ?lineA, ?lineF⟩
  case trap =>
    have hexec : exec (.trap n) s = runSeq (.trap n) (raise (.trap n)) s := by
      show execTrap n s = _
      rw [execTrap, if_neg hn]
    simp only [trapped, ← vector_trap]
    exact exec_eq_halt hexec rfl (by simp)
  case lineA => exact exec_eq_halt (e := .lineA) rfl rfl (by simp)
  case lineF => exact exec_eq_halt (e := .lineF) rfl rfl (by simp)

/-! ### CHK -/

/-- CHK where its bound can be read: the flags are set, then an out-of-bounds register raises (R543). -/
theorem checkBound_run {sz : Size} {src : EA} {b : Long} {s s1 : State} (h : readEa sz src 1 s = .ok b s1)
    (dn : RegNo) : ∃ (free : Bool) (c : Ccr) (g : Nat),
    let low := decide (sz.toInt (s1.getD dn) < 0)
    let high := decide (sz.toInt b < sz.toInt (s1.getD dn))
    checkBound sz src dn s = (if low || high then raise .chk else pure ()) { s1.setCcr { c with
      x := s1.ccr.x, n := if low then true else if high then false else free } with draws := g } :=
  ⟨Config.drawBit s1.draws, ⟨s1.ccr.x, false, Config.drawBit (s1.draws + 1), Config.drawBit (s1.draws + 1 + 1),
    Config.drawBit (s1.draws + 1 + 1 + 1)⟩, s1.draws + 1 + 1 + 1 + 1, bind_run h⟩

/-- Settles O33: in bounds N is a draw, below 0 it is set, above the bound it is clear; out of bounds the body
raises. -/
theorem Chk.checkBound : Obligations.CheckBound := by
  intro src dn b sz s s1 h low high after holds
  obtain ⟨free, c, g, hrun⟩ := checkBound_run h dn
  have hholds {i : Instr} (hexec : exec i s = runSeq i (Machine.checkBound sz src dn) s) : holds i := by
    refine ⟨free, c, g, fun hl hh => ?inBounds, fun hl => ?negative, fun hl hh => ?above⟩
    case inBounds =>
      simp only [low, high] at hl hh
      simp only [hl, hh, decide_false] at hrun
      exact completes_of hexec hrun rfl
    case negative =>
      simp only [low] at hl
      simp only [hl, decide_true] at hrun
      exact raises_of hexec hrun rfl
    case above =>
      simp only [low, high] at hl hh
      simp only [hl, hh, decide_false, decide_true] at hrun
      exact raises_of hexec hrun rfl
  exact ⟨by rintro rfl; exact hholds rfl, by rintro rfl; exact hholds rfl⟩

/-! ### Decimal digits -/

section

variable {h l : Nat}

theorem bcdByte_div (hl : l ≤ 9) : bcdByte h l / 16 = h := by simp only [bcdByte]; omega

theorem bcdByte_mod (hl : l ≤ 9) : bcdByte h l % 16 = l := by simp only [bcdByte]; omega

theorem bcdValid_bcdByte (hh : h ≤ 9) (hl : l ≤ 9) : bcdValid (bcdByte h l) = true := by
  simp only [bcdValid, bcdByte_div hl, bcdByte_mod hl, decide_eq_true hh, decide_eq_true hl, Bool.and_self]

theorem bcdDec_bcdByte (hl : l ≤ 9) : bcdDec (bcdByte h l) = 10 * h + l := by
  rw [bcdDec, bcdByte_div hl, bcdByte_mod hl]

theorem toNat_bcdByte (hh : h ≤ 9) (hl : l ≤ 9) : (BitVec.ofNat 32 (bcdByte h l)).toNat = bcdByte h l := by
  rw [BitVec.toNat_ofNat]
  simp only [bcdByte]
  omega

end

/-- The byte of a number below 100 is 0 where the number is (R520). -/
theorem bcdByte_beq_zero {v : Nat} (hv : v < 100) :
    (BitVec.ofNat 32 (bcdByte (v / 10) (v % 10)) == 0) = decide (v = 0) := by
  have hbyte := toNat_bcdByte (h := v / 10) (l := v % 10) (by omega) (by omega)
  rw [Bool.eq_iff_iff, beq_iff_eq, decide_eq_true_iff, ← BitVec.toNat_inj, hbyte]
  simp only [bcdByte, show (0 : Long).toNat = 0 from rfl]
  omega

/-! Two bytes of decimal digits, the destination's `dh` and `dl`, the source's `sh` and `sl`. -/

section

variable {dh dl sh sl : Nat}

/-- The decimal sum modulo 100, with the carry (R520). -/
theorem bcdAdd_bcdByte (hdl : dl ≤ 9) (hsl : sl ≤ 9) (x : Bool) :
    let q := (10 * dh + dl + (10 * sh + sl) + x.toNat) % 100
    bcdAdd (bcdByte dh dl) (bcdByte sh sl) x =
      (bcdByte (q / 10) (q % 10), decide (100 ≤ 10 * dh + dl + (10 * sh + sl) + x.toNat)) := by
  simp only [bcdAdd, bcdDec_bcdByte hdl, bcdDec_bcdByte hsl]
  rfl

variable (hdh : dh ≤ 9) (hdl : dl ≤ 9) (hsh : sh ≤ 9) (hsl : sl ≤ 9)

include hdh hdl hsh hsl

omit hdh in
/-- The decimal difference modulo 100, with the borrow (R520). -/
theorem bcdSub_bcdByte (x : Bool) :
    let q := (100 + (10 * dh + dl) - (10 * sh + sl) - x.toNat) % 100
    bcdSub (bcdByte dh dl) (bcdByte sh sl) x =
      (bcdByte (q / 10) (q % 10), decide (10 * dh + dl < 10 * sh + sl + x.toNat)) := by
  intro q
  have hx := x.toNat_le
  have hq : (((10 * dh + dl : Nat) : Int) - (10 * sh + sl : Nat) - x.toNat) % 100 = (q : Nat) := by omega
  simp only [bcdSub, bcdDec_bcdByte hdl, bcdDec_bcdByte hsl, hq]
  refine Prod.ext rfl (decide_eq_decide.2 ?_)
  omega

/-- On decimal digits: the result of `f`, nothing drawn (R520). -/
theorem bcdCompute_valid (f : Nat → Nat → Bool → Nat × Bool) (s : State) :
    bcdCompute f (BitVec.ofNat 32 (bcdByte dh dl)) (BitVec.ofNat 32 (bcdByte sh sl)) s =
      .ok (BitVec.ofNat 32 (f (bcdByte dh dl) (bcdByte sh sl) s.ccr.x).1,
        (f (bcdByte dh dl) (bcdByte sh sl) s.ccr.x).2) s := by
  unfold bcdCompute
  rw [bind_run (readCcr_run s), toNat_bcdByte hdh hdl, toNat_bcdByte hsh hsl, bcdValid_bcdByte hdh hdl,
    bcdValid_bcdByte hsh hsl]
  rfl

variable {e : Nat} {s : State} (he : s.ccr.x.toNat = e)

include he

theorem bcdCompute_add :
    let q := (10 * dh + dl + (10 * sh + sl) + e) % 100
    bcdCompute bcdAdd (BitVec.ofNat 32 (bcdByte dh dl)) (BitVec.ofNat 32 (bcdByte sh sl)) s =
      .ok (BitVec.ofNat 32 (bcdByte (q / 10) (q % 10)), decide (100 ≤ 10 * dh + dl + (10 * sh + sl) + e)) s := by
  subst he
  rw [bcdCompute_valid hdh hdl hsh hsl, bcdAdd_bcdByte hdl hsl]

theorem bcdCompute_sub :
    let q := (100 + (10 * dh + dl) - (10 * sh + sl) - e) % 100
    bcdCompute bcdSub (BitVec.ofNat 32 (bcdByte dh dl)) (BitVec.ofNat 32 (bcdByte sh sl)) s =
      .ok (BitVec.ofNat 32 (bcdByte (q / 10) (q % 10)), decide (10 * dh + dl < 10 * sh + sl + e)) s := by
  subst he
  rw [bcdCompute_valid hdh hdl hsh hsl, bcdSub_bcdByte hdl hsh hsl]

end

/-- One digit above 9 makes the byte invalid (R520). -/
theorem bcdValid_eq_false {v : Long} (h : 9 < v.toNat / 16 ∨ 9 < v.toNat % 16) : bcdValid v.toNat = false := by
  simpa only [bcdValid, Bool.and_eq_false_iff, decide_eq_false_iff_not, Nat.not_le] using h

/-- Beside a byte that is not decimal: a drawn byte and a drawn carry (D25). -/
theorem bcdCompute_invalid (f : Nat → Nat → Bool → Nat × Bool) {d x : Long}
    (h : bcdValid d.toNat = false ∨ bcdValid x.toNat = false) (s : State) : ∃ (r : Byte) (c : Bool) (g : Nat),
    bcdCompute f d x s = .ok (r.setWidth 32, c) { s with draws := g } := by
  have hand : ¬(bcdValid d.toNat && bcdValid x.toNat) = true := by
    rcases h with h | h <;> simp [h]
  refine ⟨Config.drawByte s.draws, Config.drawBit (s.draws + 1), s.draws + 1 + 1, ?_⟩
  unfold bcdCompute
  rw [bind_run (readCcr_run s), if_neg hand]
  rfl

/-! ### A read-modify-write operand -/

theorem putOp_draws (s : State) (sz : Size) (op : Operand) (v : Long) (g : Nat) :
    { s with draws := g }.putOp sz op v = { s.putOp sz op v with draws := g } := by cases op <;> rfl

section

variable {sz : Size} {ea : EA} {k : Nat} {op : Operand} {d : Long} {s s1 : State} (h : CanChange sz ea k s op d s1)

include h

/-- An operand that can be changed is resolved and read, and the body goes on with it (R215). -/
theorem canChange_run {α : Type} (m : Operand → Long → Exec α) :
    (do
      let op ← resolve sz ea k
      let d ← readOp sz op
      m op d) s = m op d s1 := by
  obtain ⟨s0, hresolve, hread, -⟩ := h
  exact (bind_run hresolve).trans (bind_run hread)

/-- It can be written back whatever has been drawn since (R214). -/
theorem writeBack_after_canChange (v : Long) (g : Nat) :
    writeBack sz op v { s1 with draws := g } = .ok () { s1.putOp sz op v with draws := g } := by
  have hregions := (canChange_keeps h).regions
  obtain ⟨s0, -, -, haccepts⟩ := h
  rw [← putOp_draws]
  exact writeBack_run (by rwa [← hregions] at haccepts)

end

/-! ### The decimal instructions -/

/-- What a decimal instruction leaves: C and X the carry, Z cleared unless `z` (R520). -/
def bcdAfter (t : State) (z c n v : Bool) (g : Nat) : State :=
  { t.setCcr { x := c, n := n, z := z && t.ccr.z, v := v, c := c } with draws := g }

section

variable {f : Nat → Nat → Bool → Nat × Bool} {i : Instr} {r d x : Long} {z c : Bool} {g : Nat} {op : Operand}
  {rx ry : RegNo} {dst : EA} {s s1 s2 : State}

/-- An instruction that, at `s1`, computes a decimal result, writes it and sets the flags. -/
theorem completes_decimal {body : Exec Unit} {write : Long → Exec Unit} {t : State} (hexec : exec i s = runSeq i body s)
    (hbody : body s = (do
      let p ← bcdCompute f d x
      write p.1
      bcdFlags p.1 p.2) s1)
    (hcompute : bcdCompute f d x s1 = .ok (r, c) { s1 with draws := g })
    (hwrite : write r { s1 with draws := g } = .ok () { t with draws := g }) (hz : (r == 0) = z) :
    ∃ (n v : Bool) (g' : Nat), Completes i s (bcdAfter t z c n v g') := by
  subst hz
  exact ⟨_, _, _, completes_of hexec (hbody.trans ((bind_run hcompute).trans (bind_run hwrite))) rfl⟩

theorem completes_bcdOp_registers (hexec : exec i s = runSeq i (bcdOp f false rx ry) s)
    (hcompute : bcdCompute f (Size.b.trunc (s.getD rx)) (Size.b.trunc (s.getD ry)) s = .ok (r, c) { s with draws := g })
    (hz : (r == 0) = z) : ∃ (n v : Bool) (g' : Nat), Completes i s (bcdAfter (s.writeD rx .b r) z c n v g') :=
  completes_decimal (write := putDLow rx .b) hexec rfl hcompute rfl hz

theorem completes_bcdOp_memory (hexec : exec i s = runSeq i (bcdOp f true rx ry) s)
    (hy : readEa .b (.predec ry) 1 s = .ok x s1) (hx : CanChange .b (.predec rx) 1 s1 op d s2)
    (hcompute : bcdCompute f d x s2 = .ok (r, c) { s2 with draws := g }) (hz : (r == 0) = z) :
    ∃ (n v : Bool) (g' : Nat), Completes i s (bcdAfter (s2.putOp .b op r) z c n v g') :=
  completes_decimal (write := writeBack .b op) hexec ((bind_run hy).trans (canChange_run hx _)) hcompute
    (writeBack_after_canChange hx r g) hz

theorem completes_nbcd (h : CanChange .b dst 1 s op d s1)
    (hcompute : bcdCompute bcdSub 0 d s1 = .ok (r, c) { s1 with draws := g }) (hz : (r == 0) = z) :
    ∃ (n v : Bool) (g' : Nat), Completes (.nbcd dst) s (bcdAfter (s1.putOp .b op r) z c n v g') :=
  completes_decimal (write := writeBack .b op) rfl (canChange_run h _) hcompute
    (writeBack_after_canChange h r g) hz

end

/-- Settles O53: on decimal digits the result is computed, nothing drawn but N and V; NBCD subtracts from 0. -/
theorem decimalValid : Obligations.DecimalValid := by
  intro dh dl sh sl hdh hdl hsh hsl after d x
  have hzero (v : Nat) : (BitVec.ofNat 32 (bcdByte (v % 100 / 10) (v % 100 % 10)) == 0) = decide (v % 100 = 0) :=
    bcdByte_beq_zero (Nat.mod_lt v (by decide))
  refine ⟨fun rx ry s hx hy => ?registers, fun rx ry op s s1 s2 hy hx => ?memory, fun dst op s s1 h => ?nbcd⟩
  case registers =>
    intro e sum dif
    exact ⟨completes_bcdOp_registers rfl (by rw [hx, hy]; exact bcdCompute_add hdh hdl hsh hsl rfl) (hzero _),
      completes_bcdOp_registers rfl (by rw [hx, hy]; exact bcdCompute_sub hdh hdl hsh hsl rfl) (hzero _)⟩
  case memory =>
    intro e sum dif
    have he : s2.ccr.x.toNat = e := by rw [((readEa_keeps hy).trans (canChange_keeps hx)).ccr]
    exact ⟨completes_bcdOp_memory rfl hy hx (bcdCompute_add hdh hdl hsh hsl he) (hzero _),
      completes_bcdOp_memory rfl hy hx (bcdCompute_sub hdh hdl hsh hsl he) (hzero _)⟩
  case nbcd =>
    intro e dif
    have he : s1.ccr.x.toNat = e := by rw [(canChange_keeps h).ccr]
    have hsub := bcdCompute_sub (dh := 0) (dl := 0) (by decide) (by decide) hdh hdl he
    simp only [Nat.mul_zero, Nat.add_zero] at hsub
    exact completes_nbcd h hsub (hzero _)

/-- Settles O54: beside a byte that is not decimal the result and its carry are drawn before N and V; Z sees the byte
drawn. -/
theorem decimalInvalid : Obligations.DecimalInvalid := by
  unfold Obligations.DecimalInvalid
  intro after bad
  have hzero (r : Byte) : ((r.setWidth 32 : Long) == 0) = (r == 0) := by
    rw [Bool.eq_iff_iff, beq_iff_eq, beq_iff_eq, ← BitVec.toNat_inj, ← BitVec.toNat_inj,
      BitVec.toNat_setWidth_of_le (by decide)]
    rfl
  refine ⟨fun rx ry s h => ?registers, fun rx ry x d op s s1 s2 hy hx h => ?memory, fun dst op d s s1 hd h => ?nbcd⟩
  case registers =>
    have hinvalid := h.imp bcdValid_eq_false bcdValid_eq_false
    obtain ⟨r, c, g, hadd⟩ := bcdCompute_invalid bcdAdd hinvalid s
    obtain ⟨r', c', g', hsub⟩ := bcdCompute_invalid bcdSub hinvalid s
    exact ⟨⟨r, c, completes_bcdOp_registers rfl hadd (hzero r)⟩, r', c', completes_bcdOp_registers rfl hsub (hzero r')⟩
  case memory =>
    have hinvalid := h.symm.imp bcdValid_eq_false bcdValid_eq_false
    obtain ⟨r, c, g, hadd⟩ := bcdCompute_invalid bcdAdd hinvalid s2
    obtain ⟨r', c', g', hsub⟩ := bcdCompute_invalid bcdSub hinvalid s2
    exact ⟨⟨r, c, completes_bcdOp_memory rfl hy hx hadd (hzero r)⟩, r', c',
      completes_bcdOp_memory rfl hy hx hsub (hzero r')⟩
  case nbcd =>
    obtain ⟨r, c, g, hsub⟩ := bcdCompute_invalid bcdSub (d := 0) (.inr (bcdValid_eq_false h)) s1
    exact ⟨r, c, completes_nbcd hd hsub (hzero r)⟩

/-! ### PACK and UNPK -/

/-- A number of two parts, the lower of `m` bits, as bits put together. -/
theorem toNat_append_add {n m : Nat} (x : BitVec n) (y : BitVec m) : (x ++ y).toNat = x.toNat * 2 ^ m + y.toNat := by
  rw [BitVec.toNat_append, ← Nat.shiftLeft_add_eq_or_of_lt y.isLt, Nat.shiftLeft_eq]

/-- PACK's byte by arithmetic: the digits of the two bytes (R524). -/
theorem packByte_eq (v : BitVec 16) : packByte v = BitVec.ofNat 32 (v.toNat / 256 % 16 * 16 + v.toNat % 16) := by
  refine BitVec.eq_of_toNat_eq ?_
  simp only [packByte, BitVec.toNat_setWidth, toNat_append_add, BitVec.extractLsb'_toNat, Nat.shiftRight_eq_div_pow,
    BitVec.toNat_ofNat, Nat.reducePow, Nat.div_one]

/-- UNPK's word by arithmetic: the two digits a byte apart, adjusted (R525). -/
theorem toNat_unpackWord (b : Long) (adj : BitVec 16) :
    (unpackWord b adj).toNat = (b.toNat / 16 % 16 * 256 + b.toNat % 16 + adj.toNat) % 2 ^ 16 := by
  simp only [unpackWord, BitVec.toNat_add, toNat_append_add, BitVec.extractLsb'_toNat, Nat.shiftRight_eq_div_pow,
    Nat.reducePow, show (0 : BitVec 4).toNat = 0 from rfl]
  omega

/-- The low byte of a word as a register value. -/
theorem lowByte_eq (w : BitVec 16) : (w.extractLsb' 0 8).setWidth 32 = BitVec.ofNat 32 (w.toNat % 256) := by
  refine BitVec.eq_of_toNat_eq ?_
  simp only [BitVec.toNat_setWidth, BitVec.extractLsb'_toNat, Nat.shiftRight_zero, BitVec.toNat_ofNat]

theorem highByte_eq (w : BitVec 16) : (w.extractLsb' 8 8).setWidth 32 = BitVec.ofNat 32 (w.toNat / 256) := by
  refine BitVec.eq_of_toNat_eq ?_
  have := w.isLt
  simp only [BitVec.toNat_setWidth, BitVec.extractLsb'_toNat, Nat.shiftRight_eq_div_pow, BitVec.toNat_ofNat]
  omega

/-- A byte written to `-(An)`: no step follows the write (R204, R205). -/
theorem writeEa_predec_run {n : RegNo} {k : Nat} {v : Long} {op : Operand} {s s1 : State}
    (h : CanWrite .b (.predec n) k s op s1) : writeEa .b (.predec n) k v s = .ok () (s1.putOp .b op v) := by
  rw [writeEa_run h]
  have hop := resolve_operandOf h.1
  cases op with
  | mem a post =>
    cases post with
    | none => rfl
    | some m => cases hop m rfl
  | dreg m | areg m | imm w => rfl

/-- A byte read is below 256 (R213). -/
theorem readEa_byte_lt {ea : EA} {k : Nat} {v : Long} {s t : State} (h : readEa .b ea k s = .ok v t) :
    v.toNat < 256 := by
  obtain ⟨op, u, -, hread⟩ := bind_ok h
  rw [← trunc_readOp hread]
  exact toNat_trunc_lt .b v

/-- Settles O55: the operands are read and written in the order of the statement; the values by arithmetic. -/
theorem packing : Obligations.Packing := by
  unfold Obligations.Packing
  intro packed spread
  refine ⟨fun x y adj s => ⟨?pack, ?unpk⟩, ?packMemory, ?unpkMemory⟩
  case pack =>
    have hsum : ((s.getD x).extractLsb' 0 16 + adj).toNat = ((s.getD x).toNat + adj.toNat) % 2 ^ 16 := by
      simp only [BitVec.toNat_add, BitVec.extractLsb'_toNat, Nat.shiftRight_zero, Nat.mod_add_mod]
    rw [← hsum]
    simp only [packed, ← packByte_eq]
    exact completes_of (body := do let d ← readD x; putDLow y .b (packByte (d.extractLsb' 0 16 + adj))) rfl
      (bind_run (readD_run x s)) rfl
  case unpk =>
    simp only [spread, ← toNat_unpackWord, BitVec.ofNat_toNat]
    exact completes_of (body := do let d ← readD x; putDLow y .w ((unpackWord d adj).setWidth 32)) rfl
      (bind_run (readD_run x s)) rfl
  case packMemory =>
    intro x y adj lo hi op s s1 s2 s3 hlo hhi hw
    have hsum : (hi.extractLsb' 0 8 ++ lo.extractLsb' 0 8 + adj).toNat =
        (hi.toNat * 256 + lo.toNat + adj.toNat) % 2 ^ 16 := by
      have := readEa_byte_lt hlo
      simp only [BitVec.toNat_add, toNat_append_add, BitVec.extractLsb'_toNat, Nat.shiftRight_zero]
      omega
    rw [← hsum]
    simp only [packed, ← packByte_eq]
    exact completes_of rfl ((bind_run hlo).trans ((bind_run hhi).trans (writeEa_predec_run hw))) rfl
  case unpkMemory =>
    intro x y adj b op op' s s1 s2 s3 hb hlow w hhigh
    have hw : (unpackWord b adj).toNat = w := toNat_unpackWord b adj
    rw [← hw] at hhigh ⊢
    rw [← lowByte_eq] at hhigh
    rw [← highByte_eq]
    exact completes_of rfl ((bind_run hb).trans ((bind_run (writeEa_predec_run hlow)).trans
      (writeEa_predec_run hhigh))) rfl

end Sys2Proof.Machine
end

section
/-! PROOFS. The statements over steps: which instruction a step runs (O4), the end of a run (O8), the launch (O10, O11), what
every instruction and every step does and keeps (O12, O13, O16, O17, O18), the writes of the CCR (O35), branches (O50). -/

namespace Sys2Proof.Machine

open Sys2Proof

/-! ### The launch -/

/-- Settles O10: each field is the launch's own, A7 the one pushed behind A0 to A6; RESET is one word with an empty body. -/
theorem launchState : Obligations.LaunchState := by
  refine ⟨fun l => ⟨fun n => rfl, fun n => ?initA, ?initSp, rfl, rfl, rfl, rfl, rfl, rfl, rfl⟩, fun s => (noOperations.2.2 s).1⟩
  case initA =>
    have hn : n.val < 7 := n.isLt
    simp only [State.getA, State.launch, BitVec.toNat_ofNat, Nat.mod_eq_of_lt (show n.val < 2 ^ 3 by omega)]
    exact Vector.getElem_push_lt hn
  case initSp => exact Vector.getElem_push_eq

/-- Settles O11: the launch's map and memory are in canonical form by its premise, and nothing has been fetched. -/
theorem launchInv : Obligations.LaunchInv := by
  refine ⟨fun m l hl => ?_, ?reset⟩
  · obtain ⟨hregions, hmem, hmapped, -⟩ := hl
    exact ⟨hmem, hregions, rfl, rfl, fun _ hk => absurd hk List.not_mem_nil, hmapped⟩
  case reset => exact ⟨rfl, rfl, rfl, rfl, fun _ hk => absurd hk List.not_mem_nil, fun _ hc => absurd hc List.not_mem_nil⟩

/-! ### One step -/

theorem step_run {s t : State} {i : Instr} (hs : s.status = .running) (h : fetchInstr s = .run i t) :
    step s = exec i t := by simp only [step, hs, h]

/-- Settles O4: fetch answers the instruction the window decodes to, and marks the words it took. -/
theorem stepRunsDecoded : Obligations.StepRunsDecoded := fun s i rest hs hd =>
  step_run hs (by simp only [fetchInstr, hd])

/-- An instruction changes the state by its effects, and at most the PC and the status after them (R54, R603). -/
theorem exec_inv {i : Instr} {s t : State} (h : exec i s = .next t) (hs : Inv s) : Inv t := by
  obtain ⟨u, hu, -, -, -, hif, hst, hmem, hreg, -⟩ := exec_effects h
  have hinv := hu.inv hs
  unfold Inv at hinv ⊢
  rwa [hif, hst, hmem, hreg]

/-- Settles O12: an instruction, an exception of fetch and the host's answer each keep the invariant. -/
theorem invStep : Obligations.InvStep := by
  intro s t hs h
  obtain ⟨-, i, n, -, hexec⟩ | ⟨-, e, ws, n, -, rfl⟩ | ⟨-, rfl⟩ := step_cases h
  · exact exec_inv hexec (inv_markFetched hs n)
  · exact takeException_inv _ _ _ _ _ (inv_markFetched hs n)
  · exact hostReturn_inv hs

/-- Only `TRAP #0` raises SyscallTrap (R602, R612). -/
theorem eq_trap_of_mayRaise_syscall {i : Instr} (h : MayRaise i .syscall) : i = .trap 0 := by
  obtain ⟨f, he, -⟩ | hown | ⟨-, he⟩ := h
  · cases he
  · cases i with
    | trap v =>
      by_cases hv : v = 0
      · rw [hv]
      · have he : Raise.syscall = if v = 0 then .syscall else .trap v := hown
        rw [if_neg hv] at he
        cases he
    | _ => cases hown
  · cases he

/-- Settles O13: an instruction completes and keeps the status, or takes an exception, `TRAP #0`'s or one that halts. -/
theorem execAnswers : Obligations.ExecAnswers := by
  intro i s
  obtain ⟨u, target, hu, ho⟩ | ⟨e, u, he, hu, ho⟩ := answers_exec i s
  · exact ⟨_, ho, .inl hu.status⟩
  · refine ⟨_, ho, .inr ?_⟩
    by_cases hsys : e = .syscall
    · subst hsys
      exact .inl ⟨rfl, eq_trap_of_mayRaise_syscall he⟩
    · rw [takeException_halts _ _ _ hsys]
      exact .inr ⟨_, rfl, rfl, rfl, rfl, hu.pc⟩

/-- Settles O16: the effects of an instruction store inside `storeSpan` alone, and make stale only what they store to. -/
theorem frameMemory : Obligations.FrameMemory := by
  intro i s t h
  obtain ⟨u, hu, -, -, -, hif, hst, hmem, hreg, -⟩ := exec_effects h
  rw [hif, hst, hmem, hreg]
  refine ⟨fun j hj => ⟨hu.get hj, fun hstale => ?_, hu.stale.1⟩, hu.regions, hu.ifetched⟩
  exact (hu.stale.2 hstale).resolve_right fun hstored => hj hstored.2

/-- Settles O17: the instruction's effects store only where W allows; an exception of fetch sets the status alone. -/
theorem coreSteps : Obligations.CoreSteps := by
  intro s t hs h
  obtain ⟨-, i, n, -, hexec⟩ | ⟨-, e, ws, n, he, rfl⟩ | ⟨hpending, -⟩ := step_cases h
  · obtain ⟨u, hu, -, -, -, -, -, hmem, hreg, -⟩ := exec_effects hexec
    refine ⟨hreg.trans hu.regions, fun j hj => ?_, ?_⟩
    · rw [hmem]
      exact hu.get_of_not_writable (s := s.markFetched n) hj
    · obtain ⟨t', ht', hstatus⟩ := execAnswers i (s.markFetched n)
      cases ht'.symm.trans hexec
      obtain hkept | ⟨hpend, -⟩ | ⟨r, hr, haddr, -, -, hpc⟩ := hstatus
      · exact .inl (hkept.trans hs)
      · exact .inr (.inl hpend)
      · exact .inr (.inr ⟨r, hr, haddr, hpc⟩)
  · rw [takeException_halts _ _ _ he]
    exact ⟨rfl, fun _ _ => rfl, .inr (.inr ⟨_, rfl, rfl, rfl⟩)⟩
  · cases hs.symm.trans hpending

/-- The inversion of a step with the bound on what it fetched: an instruction has at most `maxWords` words (R121). -/
theorem step_cases_window {s t : State} (h : step s = .next t) :
    (s.status = .running ∧ ∃ n ≤ maxWords, (∃ i, exec i (s.markFetched n) = .next t) ∨
      ∃ e ws, t = takeException s.pc s.pc ws e (s.markFetched n)) ∨
    (s.status = .syscallPending ∧ t = hostReturn s) := by
  cases hs : s.status with
  | running =>
    obtain ⟨i, n, hn, hf⟩ | ⟨e, ws, n, hn, -, hf⟩ := fetchInstr_marks s
    · exact .inl ⟨rfl, n, hn, .inl ⟨i, (step_run hs hf).symm.trans h⟩⟩
    · cases (step_raised hs hf).symm.trans h
      exact .inl ⟨rfl, n, hn, .inr ⟨e, ws, rfl⟩⟩
  | syscallPending =>
    simp only [step, hs] at h
    cases h
    exact .inr ⟨rfl, rfl⟩
  | halted r | exited c => simp only [step, hs] at h; cases h

/-- What joins `ifetched` when `n` words are marked: their bytes, inside the window (R52, R84). -/
theorem mem_markFetched_window {s : State} {n j : Nat} (hn : n ≤ maxWords) (hj : j ∈ (s.markFetched n).ifetched) :
    j ∈ s.ifetched ∨ j ∈ byteAddrs s.pc (2 * maxWords) := by
  rw [State.markFetched_ifetched] at hj
  exact (AddrSet.mem_insertAll.1 hj).symm.imp_right (byteAddrs_mono (by omega))

theorem mem_markFetched {s : State} {n j : Nat} (hj : j ∈ s.ifetched) : j ∈ (s.markFetched n).ifetched := by
  rw [State.markFetched_ifetched]
  exact AddrSet.mem_insertAll.2 (.inr hj)

/-- The host's answer keeps `ifetched` and what was stale (R101, R613). -/
theorem hostReturn_fetchSets (s : State) :
    (hostReturn s).ifetched = s.ifetched ∧ ∀ j ∈ s.stale, j ∈ (hostReturn s).stale := by
  obtain ⟨-, ht⟩ | ⟨-, g, ⟨d0, writes, rs, -, ht⟩ | ⟨c, ht⟩⟩ := hostReturn_cases s <;> rw [ht]
  · exact ⟨rfl, fun _ h => h⟩
  · obtain ⟨-, -, -, hif, -, hst⟩ := resume_keeps s d0 writes rs
    exact ⟨hif, hst⟩
  · exact ⟨rfl, fun _ h => h⟩

/-- Settles O18: the words taken are marked first; the instruction's effects then make stale only fetched bytes with W. -/
theorem fetchSetsGrow : Obligations.FetchSetsGrow := by
  intro s t h
  obtain ⟨hs, n, hn, ⟨i, hexec⟩ | ⟨e, ws, rfl⟩⟩ | ⟨hpending, rfl⟩ := step_cases_window h
  · obtain ⟨u, hu, -, -, -, hif, hst, -⟩ := exec_effects hexec
    rw [hif, hst, hu.ifetched]
    refine ⟨fun j => mem_markFetched, fun j => hu.stale.1, fun _ j hj => ?_, fun j => mem_markFetched_window hn⟩
    obtain hold | hw := hu.stale_writable hj
    · exact .inl hold
    · exact (hu.stale.2 hj).imp_right fun hjoin => ⟨hjoin.1, hw⟩
  · rw [takeException_ifetched, takeException_stale]
    exact ⟨fun j => mem_markFetched, fun _ hj => hj, fun _ _ hj => .inl hj, fun j => mem_markFetched_window hn⟩
  · obtain ⟨hif, hst⟩ := hostReturn_fetchSets s
    rw [hif]
    exact ⟨fun _ hj => hj, hst, fun hs => (by cases hs.symm.trans hpending), fun _ hj => .inl hj⟩

/-! ### The end of a run -/

theorem ended_iff_no_step (s : State) : Ended s ↔ ∀ t, step s ≠ .next t := by
  unfold Ended
  cases hs : s.status with
  | running =>
    refine ⟨False.elim, fun h => ?_⟩
    obtain ⟨i, n, hf⟩ | ⟨e, ws, n, -, hf⟩ := fetchInstr_cases s
    · obtain ⟨t, ht, -⟩ := execAnswers i (s.markFetched n)
      exact h t ((step_run hs hf).trans ht)
    · exact h _ (step_raised hs hf)
  | syscallPending => exact ⟨False.elim, fun h => h (hostReturn s) (by simp only [step, hs])⟩
  | halted r | exited c => simp [step, hs]

/-- Settles O8: every other state has a step, for every instruction answers; the signal is read off the record's cause. -/
theorem endIsFinal : Obligations.EndIsFinal := by
  refine ⟨fun s => ⟨ended_iff_no_step s, ?halted, ?exited⟩, fun r => ⟨?sigill, ?_, ?_, ?sigfpe, ?trap, ?_⟩⟩
  case halted => rintro ⟨r, hr⟩; simp only [step, hr]
  case exited => rintro ⟨c, hc⟩; simp only [step, hc]
  case sigill =>
    simp only [List.mem_cons, List.not_mem_nil, or_false, HaltRecord.signal]
    rintro (h | h | h | h) <;> rw [h]
  case sigfpe =>
    simp only [List.mem_cons, List.not_mem_nil, or_false, HaltRecord.signal]
    rintro (h | h | h) <;> rw [h]
  case trap =>
    intro v hc hv
    simp only [HaltRecord.signal, hc, hv, Option.map_some]
  all_goals intro h; simp only [HaltRecord.signal, h]

/-! ### The CCR and the branches -/

/-- The five bits of a CCR, C lowest (R45). -/
theorem Ccr.getElem_toBits (c : Ccr) : (Ccr.toBits c)[4] = c.x ∧ (Ccr.toBits c)[3] = c.n ∧ (Ccr.toBits c)[2] = c.z ∧
    (Ccr.toBits c)[1] = c.v ∧ (Ccr.toBits c)[0] = c.c := by
  obtain ⟨x, n, z, v, c⟩ := c
  revert x n z v c
  decide

/-- Settles O35: the CCR is the result's bits 4:0, and those of a CCR are its flags. -/
theorem ccrWrites : Obligations.CcrWrites := by
  unfold Obligations.CcrWrites
  refine ⟨fun imm s => ?immediate, fun src v s s1 hread => ?move⟩
  case immediate =>
    obtain ⟨hx, hn, hz, hv, hc⟩ := Ccr.getElem_toBits s.ccr
    refine ⟨Ccr.ofBits (Ccr.toBits s.ccr &&& imm.setWidth 5), Ccr.ofBits (Ccr.toBits s.ccr ||| imm.setWidth 5),
      Ccr.ofBits (Ccr.toBits s.ccr ^^^ imm.setWidth 5), ?and, ?or, ?eor, rfl, rfl, rfl⟩
    case and | or | eor => simp [Ccr.ofBits, hx, hn, hz, hv, hc]
  case move =>
    refine ⟨Ccr.ofBits (v.setWidth 5), by simp [Ccr.ofBits], ?_⟩
    exact completes_of rfl (bind_run hread) rfl

/-- DBcc's counter, decremented at a word (R484). -/
theorem trunc_w_eq_zero (v : Long) : Size.w.trunc v = 0 ↔ v.setWidth 16 = (0 : BitVec 16) := by
  simp only [Size.trunc, ← BitVec.toNat_inj, BitVec.toNat_setWidth, BitVec.ofNat_eq_ofNat, BitVec.toNat_ofNat]
  omega

theorem writeD_w_pred (s : State) (n : RegNo) (v : Long) :
    s.writeD n .w (Size.w.trunc v - 1) = s.writeD n .w (v - 1) := by
  refine writeD_congr .w s n _ _ ?_
  simp only [Size.trunc, Size.bits, Size.bytes, BitVec.toNat_sub, BitVec.toNat_setWidth]
  omega

/-- Where Bcc goes on (R481). -/
theorem bcc_goesTo (c : Cond) (disp : BranchDisp) (s : State) : GoesTo (.bcc c disp) s s
    (if condHolds c s.ccr then s.pc + 2 + BranchDisp.value disp else pcNext (.bcc c disp) s.pc) := rfl

/-- DBcc with its condition true does nothing (R484). -/
theorem dbcc_completes {c : Cond} {s : State} (h : condHolds c s.ccr = true) (dn : RegNo) (d16 : BitVec 16) :
    Completes (.dbcc c dn d16) s s :=
  goesTo_of rfl ((bind_run (readPcOp_run s)).trans ((bind_run (readCcr_run s)).trans (by rw [if_pos h]; rfl)))

/-- DBcc with its condition false decrements its counter, and branches unless it was 0 (R484). -/
theorem dbcc_goesTo {c : Cond} {s : State} (h : condHolds c s.ccr = false) (dn : RegNo) (d16 : BitVec 16) :
    GoesTo (.dbcc c dn d16) s (s.writeD dn .w (Size.w.trunc (s.getD dn) - 1))
      (if Size.w.trunc (s.getD dn) = 0 then pcNext (.dbcc c dn d16) s.pc else s.pc + 2 + d16.signExtend 32) :=
  goesTo_of rfl ((bind_run (readPcOp_run s)).trans ((bind_run (readCcr_run s)).trans (by rw [h]; rfl)))

/-- Settles O50: a branch is taken where its condition holds, DBcc's where it does not and the counter was not 0. -/
theorem branches : Obligations.Branches := by
  refine ⟨fun _ => rfl, fun _ => rfl, fun _ => rfl, fun s disp c dn d16 => ⟨rfl, fun hpush => ?bsr, ?holds, ?fails⟩⟩
  case bsr => exact goesTo_of rfl ((bind_run (readPcOp_run s)).trans (bind_run (push_run hpush)))
  case holds =>
    intro h
    have hbcc := bcc_goesTo c disp s
    rw [if_pos h] at hbcc
    exact ⟨hbcc, dbcc_completes h dn d16⟩
  case fails =>
    intro h
    have hbcc := bcc_goesTo c disp s
    rw [if_neg (Bool.eq_false_iff.1 h)] at hbcc
    have hdbcc := dbcc_goesTo h dn d16
    refine ⟨hbcc, fun hd => ?_, fun hd => ?_⟩
    · rwa [if_neg (mt (trunc_w_eq_zero _).1 hd), writeD_w_pred] at hdbcc
    · rwa [if_pos ((trunc_w_eq_zero _).2 hd), (trunc_w_eq_zero _).2 hd,
        writeD_congr .w s dn (0 - 1) 0xFFFF rfl] at hdbcc

end Sys2Proof.Machine
end

section
/-! PROOFS. Which row of the opcode table a word selects (R133, R136): the rows of a line exclude each other, by their bits,
their effective-address classes or their second word, so that a row that admits the opcode word is the row decoded. -/

namespace Sys2Proof

/-! ### The fields of a word -/

/-- The bits of a word under a mask that covers them are the pattern's. -/
theorem field_of_and_eq {w m p : Word16} {lo len : Nat} (h : w &&& m = p) (hm : field m lo len = BitVec.allOnes len) :
    field w lo len = field p lo len := by
  simp only [field] at hm ⊢
  rw [← h, BitVec.extractLsb'_and, hm, BitVec.and_allOnes]

/-! ### The rows -/

/-- The table line by line, bits 15:12 (R123). -/
def opcodeLines : List (List OpRow) :=
  [opcodeLine0, opcodeLine1, opcodeLine2, opcodeLine3, opcodeLine4, opcodeLine5, opcodeLine6, opcodeLine7, opcodeLine8,
    opcodeLine9, opcodeLineA, opcodeLineB, opcodeLineC, opcodeLineD, opcodeLineE, opcodeLineF]

/-- The row of an operation; the last row stands for none, which `rowOf_op` excludes. -/
def rowOf (op : Op) : OpRow :=
  (opcodeLines.findSome? (·.find? fun r => r.op.ctorIdx.beq op.ctorIdx)).getD
    { op := .lineF, mnemonic := .lineF, pat := 0, mask := 0 }

theorem opcodeLine_mem_opcodeLines (w : Word16) : opcodeLine w ∈ opcodeLines := by
  unfold opcodeLine
  split <;> simp [opcodeLines]

theorem opcodeLine_eq_of_field {w p : Word16} (h : field w 12 4 = field p 12 4) : opcodeLine w = opcodeLine p := by
  have htop : (w >>> 12).toNat = (p >>> 12).toNat := by
    have := congrArg BitVec.toNat h
    simp only [BitVec.extractLsb'_toNat, BitVec.toNat_ushiftRight, Nat.shiftRight_eq_div_pow] at this ⊢
    omega
  unfold opcodeLine
  rw [htop]

theorem rowOf_op (op : Op) : (rowOf op).op = op := by cases op <;> decide +kernel

theorem rowOf_line (op : Op) :
    field (rowOf op).mask 12 4 = BitVec.allOnes 4 ∧ rowOf op ∈ opcodeLine (rowOf op).pat := by
  cases op <;> decide +kernel

theorem rowOf_eq_of_mem : ∀ l ∈ opcodeLines, ∀ r ∈ l, rowOf r.op = r := by decide +kernel

/-- The conditions of a row on the opcode word, one by one (R133, R136). -/
theorem admits_iff {r : OpRow} {w : Word16} : r.admits w = true ↔
    w &&& r.mask = r.pat ∧ ((r.size = .at76 → field w 6 2 ≠ 0b11) ∧ (r.size = .at109 → field w 9 2 ≠ 0b11)) ∧
    (∀ cls, r.ea = some cls → EaField.wf cls ⟨field w 3 3, field w 0 3⟩ = true) ∧
    (∀ cls, r.dst = some cls → EaField.wf cls ⟨field w 6 3, field w 9 3⟩ = true) ∧
    (r.anNotByte = true → field w 3 3 = 0b001 → field w 6 2 ≠ 0b00) ∧
    ((r.cond = .branch → field w 9 3 ≠ 0) ∧
      (r.cond = .trapcc → field w 0 3 = 0b010 ∨ field w 0 3 = 0b011 ∨ field w 0 3 = 0b100)) := by
  obtain ⟨op, mn, pat, mask, size, ea, dst, an, cond, priv, ext⟩ := r
  simp only [OpRow.admits, Bool.and_eq_true, beq_iff_eq, and_assoc]
  refine and_congr Iff.rfl ((and_congr ?size (and_congr ?ea (and_congr ?dst (and_congr ?an ?cond)))).trans and_assoc)
  case size => cases size <;> simp
  case ea => cases ea <;> simp [eaAdmits, EaField.wf]
  case dst => cases dst <;> simp [dstAdmits, EaField.wf]
  case an => cases an <;> simp [imp_iff_not_or]
  case cond => cases cond <;> simp [or_assoc]

/-! ### Rows exclude each other -/

/-- What a row asks of bits 11:6: its pattern, its size field, the class of a MOVE destination, Bcc's condition. -/
def OpRow.midAdmits (r : OpRow) (y : BitVec 6) : Bool :=
  y &&& r.mask.extractLsb' 6 6 == r.pat.extractLsb' 6 6 &&
  (r.size != .at76 || y.extractLsb' 0 2 != 0b11) && (r.size != .at109 || y.extractLsb' 3 2 != 0b11) &&
  r.dst.all (fun cls => EaField.wf cls ⟨y.extractLsb' 0 3, y.extractLsb' 3 3⟩) &&
  (r.cond != .branch || y.extractLsb' 3 3 != 0)

/-- What a row asks of bits 5:0: its pattern, the class of its effective address, TRAPcc's operand count. -/
def OpRow.lowAdmits (r : OpRow) (x : BitVec 6) : Bool :=
  x &&& r.mask.extractLsb' 0 6 == r.pat.extractLsb' 0 6 &&
  r.ea.all (fun cls => EaField.wf cls ⟨x.extractLsb' 3 3, x.extractLsb' 0 3⟩) &&
  (r.cond != .trapcc || x.extractLsb' 0 3 == 0b010 || x.extractLsb' 0 3 == 0b011 || x.extractLsb' 0 3 == 0b100)

/-- A field of a field. -/
theorem field_extractLsb' {w : Word16} {lo len lo' len' : Nat} (h : lo' + len' ≤ len) :
    (field w lo len).extractLsb' lo' len' = field w (lo + lo') len' := by
  ext i hi
  simp only [BitVec.getElem_extractLsb', BitVec.getLsbD_extractLsb', Nat.add_assoc,
    show lo' + i < len by omega, decide_true, Bool.true_and]

theorem midAdmits_of_admits {r : OpRow} {w : Word16} (h : r.admits w = true) : r.midAdmits (field w 6 6) = true := by
  obtain ⟨hpat, ⟨h76, h109⟩, -, hdst, -, hbranch, -⟩ := admits_iff.1 h
  have hbits : field w 6 6 &&& r.mask.extractLsb' 6 6 = r.pat.extractLsb' 6 6 := by rw [← hpat, BitVec.extractLsb'_and]
  simp only [OpRow.midAdmits, hbits, field_extractLsb', Nat.reduceLeDiff, Nat.reduceAdd, BEq.rfl, Bool.true_and,
    Bool.and_eq_true, Bool.or_eq_true, bne_iff_ne, Option.all_eq_true, ← imp_iff_not_or]
  exact ⟨⟨⟨h76, h109⟩, hdst⟩, hbranch⟩

theorem lowAdmits_of_admits {r : OpRow} {w : Word16} (h : r.admits w = true) : r.lowAdmits (field w 0 6) = true := by
  obtain ⟨hpat, -, hea, -, -, -, htrapcc⟩ := admits_iff.1 h
  have hbits : field w 0 6 &&& r.mask.extractLsb' 0 6 = r.pat.extractLsb' 0 6 := by rw [← hpat, BitVec.extractLsb'_and]
  simp only [OpRow.lowAdmits, hbits, field_extractLsb', Nat.reduceLeDiff, Nat.reduceAdd, BEq.rfl, Bool.true_and,
    Bool.and_eq_true, Bool.or_eq_true, bne_iff_ne, beq_iff_eq, Option.all_eq_true, or_assoc]
  exact ⟨hea, imp_iff_not_or.1 htrapcc⟩

/-- Two patterns that no word has both of. -/
def patsClash (m p m' p' : Word16) : Bool := (p ^^^ p') &&& (m &&& m') != 0

theorem not_patsClash {w m p m' p' : Word16} (h : w &&& m = p) (h' : w &&& m' = p') : patsClash m p m' p' = false := by
  subst h h'
  simp only [patsClash, bne_eq_false_iff_eq]
  ext i hi
  simp only [BitVec.getElem_and, BitVec.getElem_xor, BitVec.ofNat_eq_ofNat, BitVec.getElem_zero]
  cases w[i] <;> cases m[i] <;> cases m'[i] <;> rfl

/-- Two rows that no opcode word selects both of. -/
def OpRow.clash (r r' : OpRow) : Bool :=
  patsClash r.mask r.pat r'.mask r'.pat || decide (∀ y, (r.midAdmits y && r'.midAdmits y) = false) ||
  decide (∀ x, (r.lowAdmits x && r'.lowAdmits x) = false)

/-- Two rows of a group that no second word selects both of. -/
def OpRow.extClash (r r' : OpRow) : Bool :=
  match r.ext, r'.ext with
  | some (m, p), some (m', p') => patsClash m p m' p'
  | some _, none | none, _ => false

/-- No word selects two rows of a line, but for the groups the second word tells apart (R133, R136). -/
theorem opcodeLines_clash : ∀ l ∈ opcodeLines, l.Pairwise fun r r' => (r.clash r' || r.extClash r') = true := by
  decide +kernel

theorem not_clash {r r' : OpRow} {w : Word16} (h : r.admits w = true) (h' : r'.admits w = true) :
    r.clash r' = false := by
  have hpats := not_patsClash (admits_iff.1 h).1 (admits_iff.1 h').1
  simp only [OpRow.clash, hpats, Bool.false_or, Bool.or_eq_false_iff, decide_eq_false_iff_not]
  exact ⟨fun hy => by simpa [midAdmits_of_admits h, midAdmits_of_admits h'] using hy (field w 6 6),
    fun hx => by simpa [lowAdmits_of_admits h, lowAdmits_of_admits h'] using hx (field w 0 6)⟩

theorem patsClash_comm (m p m' p' : Word16) : patsClash m p m' p' = patsClash m' p' m p := by
  simp only [patsClash, BitVec.xor_comm p, BitVec.and_comm m]

theorem OpRow.extClash_comm (r r' : OpRow) : r.extClash r' = r'.extClash r := by
  unfold OpRow.extClash
  cases r.ext <;> cases r'.ext <;> simp only [patsClash_comm]

theorem OpRow.extClash_isSome {r r' : OpRow} (h : r.extClash r' = true) : r.ext.isSome ∧ r'.ext.isSome := by
  unfold OpRow.extClash at h
  cases hr : r.ext <;> cases hr' : r'.ext <;> simp_all

/-- Two rows of a line that select one opcode word are one row, or of one group (R133). -/
theorem eq_or_extClash {w : Word16} {r r' : OpRow} (hr : r ∈ opcodeLine w) (hr' : r' ∈ opcodeLine w)
    (h : r.admits w = true) (h' : r'.admits w = true) : r = r' ∨ r.extClash r' = true := by
  have hpair : (opcodeLine w).Pairwise fun r r' => r.admits w = true → r'.admits w = true → r.extClash r' = true :=
    (opcodeLines_clash _ (opcodeLine_mem_opcodeLines w)).imp fun hab ha hb => by
      simpa only [not_clash ha hb, Bool.false_or] using hab
  have hsymm : Std.Symm fun r r' : OpRow => r.admits w = true → r'.admits w = true → r.extClash r' = true :=
    ⟨fun a b hab hb ha => (OpRow.extClash_comm b a).trans (hab ha hb)⟩
  exact or_iff_not_imp_left.2 fun hne => hpair.forall hr hr' hne h h'

/-- A row that admits a word is in the word's line. -/
theorem rowOf_mem_opcodeLine {op : Op} {w : Word16} (h : (rowOf op).admits w = true) : rowOf op ∈ opcodeLine w := by
  obtain ⟨htop, hmem⟩ := rowOf_line op
  rwa [opcodeLine_eq_of_field (field_of_and_eq (admits_iff.1 h).1 htop)]

/-! ### Decoding with the row selected -/

/-- The rows that select a word, first to last (R133). -/
def rowsFor (w : Word16) : List OpRow := (opcodeLine w).filter (·.admits w)

theorem mem_rowsFor {w : Word16} {r : OpRow} : r ∈ rowsFor w ↔ r ∈ opcodeLine w ∧ r.admits w = true := List.mem_filter

theorem rowOf_of_mem_rowsFor {w : Word16} {r : OpRow} (h : r ∈ rowsFor w) : rowOf r.op = r :=
  rowOf_eq_of_mem _ (opcodeLine_mem_opcodeLines w) r (mem_rowsFor.1 h).1

theorem rowOf_mem_rowsFor {op : Op} {w : Word16} (h : (rowOf op).admits w = true) : rowOf op ∈ rowsFor w :=
  mem_rowsFor.2 ⟨rowOf_mem_opcodeLine h, h⟩

theorem filter_supported (rs : List OpRow) : rs.filter (fun r => Config.supported r.mnemonic) = rs :=
  List.filter_eq_self.2 fun _ _ => rfl

/-- A row without a second word is decoded at once. -/
theorem decodeRows_single {r : OpRow} (h : r.ext = none) (rs : List OpRow) (w : Word16) :
    decodeRows Config.supported (r :: rs) w = decodeOperands r.op w 0 := by
  unfold decodeRows
  rw [filter_supported]
  simp only [h]

/-- The second word chooses among the rows of a group. -/
theorem decodeRows_group {r : OpRow} (h : r.ext.isSome = true) (rs : List OpRow) (w : Word16) :
    decodeRows Config.supported (r :: rs) w = nextWord >>= fun w2 => match (r :: rs).find? (·.acceptsExt w2) with
      | none => decodeIllegal
      | some r' => decodeOperands r'.op w w2 := by
  obtain ⟨e, he⟩ := Option.isSome_iff_exists.1 h
  unfold decodeRows
  rw [filter_supported]
  simp only [he] <;> rfl

/-- The decoder refuses no row (log entry 2) and treats line A and line F as it does the rows of one word (R134). -/
theorem decode_cons {w : Word16} {r : OpRow} {rs : List OpRow} (h : rowsFor w = r :: rs) (ws : List Word16) :
    decode (w :: ws) = decodeRows Config.supported (r :: rs) w ws := by
  have hpure (op : Op) (hop : r.op = op) (hext : (rowOf op).ext = none) :
      decodeOperands op w 0 = decodeRows Config.supported (r :: rs) w := by
    have hrow := rowOf_of_mem_rowsFor (h ▸ List.mem_cons_self)
    rw [decodeRows_single (hrow ▸ hop ▸ hext), hop]
  show (match rowsFor w with
    | [] => decodeIllegal
    | r :: rs => match r.op with
      | .lineA => decodeOperands .lineA w 0
      | .lineF => decodeOperands .lineF w 0
      | _ => decodeRows Config.supported (r :: rs) w : Dec Instr) ws = _
  rw [h]
  refine congrFun (f := (match r.op with
      | .lineA => decodeOperands .lineA w 0
      | .lineF => decodeOperands .lineF w 0
      | _ => decodeRows Config.supported (r :: rs) w : Dec Instr)) ?_ ws
  split
  · next hop => exact hpure _ hop rfl
  · next hop => exact hpure _ hop rfl
  · rfl

theorem decode_nil_rows {w : Word16} (h : rowsFor w = []) (ws : List Word16) :
    decode (w :: ws) = .error .illegal ws := by
  show (match rowsFor w with
    | [] => decodeIllegal
    | r :: rs => match r.op with
      | .lineA => decodeOperands .lineA w 0
      | .lineF => decodeOperands .lineF w 0
      | _ => decodeRows Config.supported (r :: rs) w : Dec Instr) ws = _
  rw [h]
  rfl

/-- A word that a row of one word admits is decoded by that row. -/
theorem decode_of_admits {op : Op} {w : Word16} (h : (rowOf op).admits w = true) (hext : (rowOf op).ext = none)
    (ws : List Word16) : decode (w :: ws) = decodeOperands op w 0 ws := by
  have hmem := rowOf_mem_rowsFor h
  cases hrows : rowsFor w with
  | nil => simp [hrows] at hmem
  | cons r rs =>
    obtain ⟨hline, hadm⟩ := mem_rowsFor.1 (hrows ▸ List.mem_cons_self : r ∈ rowsFor w)
    obtain rfl | hclash := eq_or_extClash (mem_rowsFor.1 hmem).1 hline h hadm
    · rw [decode_cons hrows, decodeRows_single hext, rowOf_op]
    · simpa [hext] using (OpRow.extClash_isSome hclash).1

theorem acceptsExt_iff {r : OpRow} {m p w2 : Word16} (h : r.ext = some (m, p)) :
    r.acceptsExt w2 = true ↔ w2 &&& m = p := by
  unfold OpRow.acceptsExt
  rw [h]
  exact beq_iff_eq

/-- No second word is accepted by two rows that clash in it. -/
theorem not_extClash {r r' : OpRow} {w2 : Word16} (h : r.acceptsExt w2 = true) (h' : r'.acceptsExt w2 = true) :
    r.extClash r' = false := by
  unfold OpRow.extClash
  cases hr : r.ext with
  | none => rfl
  | some e => cases hr' : r'.ext with
    | none => rfl
    | some e' => exact not_patsClash ((acceptsExt_iff hr).1 h) ((acceptsExt_iff hr').1 h')

/-- Two words that a row of a group admits and accepts are decoded by that row. -/
theorem decode_of_acceptsExt {op : Op} {w w2 : Word16} (h : (rowOf op).admits w = true)
    (hext : (rowOf op).ext.isSome = true) (h2 : (rowOf op).acceptsExt w2 = true) (ws : List Word16) :
    decode (w :: w2 :: ws) = decodeOperands op w w2 ws := by
  have hmem := rowOf_mem_rowsFor h
  have huniq {r : OpRow} (hr : r ∈ rowsFor w) : rowOf op = r ∨ (rowOf op).extClash r = true :=
    eq_or_extClash (mem_rowsFor.1 hmem).1 (mem_rowsFor.1 hr).1 h (mem_rowsFor.1 hr).2
  cases hrows : rowsFor w with
  | nil => simp [hrows] at hmem
  | cons r rs =>
    have hrext : r.ext.isSome = true := by
      obtain rfl | hclash := huniq (hrows ▸ List.mem_cons_self)
      · exact hext
      · exact (OpRow.extClash_isSome hclash).2
    cases hfind : (r :: rs).find? (·.acceptsExt w2) with
    | none => exact absurd h2 (List.find?_eq_none.1 hfind _ (hrows ▸ hmem))
    | some r' =>
      obtain rfl | hclash := huniq (hrows ▸ List.mem_of_find?_eq_some hfind)
      · rw [decode_cons hrows, decodeRows_group hrext]
        show (match (r :: rs).find? (·.acceptsExt w2) with
          | none => decodeIllegal
          | some r' => decodeOperands r'.op w w2 : Dec Instr) ws = _
        rw [hfind]
        show decodeOperands (rowOf op).op w w2 ws = _
        rw [rowOf_op]
      · rw [not_extClash h2 (List.find?_some (p := fun r : OpRow => r.acceptsExt w2) hfind)] at hclash
        cases hclash

/-- What the decoder answers, a row decoded: one that admits the opcode word, and accepts the second word of its group. -/
theorem decode_inv {ws : List Word16} {i : Instr} {rest : List Word16} (h : decode ws = .ok i rest) :
    ∃ op w ws', ws = w :: ws' ∧ (rowOf op).admits w = true ∧
      ((rowOf op).ext = none ∧ decodeOperands op w 0 ws' = .ok i rest ∨
        ∃ w2 ws'', ws' = w2 :: ws'' ∧ (rowOf op).ext.isSome = true ∧ (rowOf op).acceptsExt w2 = true ∧
          decodeOperands op w w2 ws'' = .ok i rest) := by
  cases ws with
  | nil => cases h
  | cons w ws =>
    cases hrows : rowsFor w with
    | nil =>
      rw [decode_nil_rows hrows] at h
      cases h
    | cons r rs =>
      have hr : r ∈ rowsFor w := hrows ▸ List.mem_cons_self
      rw [decode_cons hrows] at h
      cases hext : r.ext with
      | none =>
        rw [decodeRows_single hext] at h
        exact ⟨r.op, w, ws, rfl, by rw [rowOf_of_mem_rowsFor hr]; exact ⟨(mem_rowsFor.1 hr).2, .inl ⟨hext, h⟩⟩⟩
      | some e =>
        have hsome : r.ext.isSome = true := Option.isSome_iff_exists.2 ⟨e, hext⟩
        rw [decodeRows_group hsome] at h
        cases ws with
        | nil => cases h
        | cons w2 ws =>
          change (match (r :: rs).find? (·.acceptsExt w2) with
            | none => decodeIllegal
            | some r' => decodeOperands r'.op w w2 : Dec Instr) ws = _ at h
          cases hfind : (r :: rs).find? (·.acceptsExt w2) with
          | none =>
            rw [hfind] at h
            cases h
          | some r' =>
            rw [hfind] at h
            have hr' : r' ∈ rowsFor w := hrows ▸ List.mem_of_find?_eq_some hfind
            have hsome' : r'.ext.isSome = true := by
              obtain rfl | hclash := eq_or_extClash (mem_rowsFor.1 hr).1 (mem_rowsFor.1 hr').1 (mem_rowsFor.1 hr).2
                (mem_rowsFor.1 hr').2
              · exact hsome
              · exact (OpRow.extClash_isSome hclash).2
            exact ⟨r'.op, w, w2 :: ws, rfl, by
              rw [rowOf_of_mem_rowsFor hr']
              exact ⟨(mem_rowsFor.1 hr').2,
                .inr ⟨w2, ws, rfl, hsome', List.find?_some (p := fun r : OpRow => r.acceptsExt w2) hfind, h⟩⟩⟩

end Sys2Proof
end

section
/-! PROOFS. Words and their fields: a word as a row of fields, the bits a mask keeps, and the small fields of an encoding read
both ways (R126 to R132, R207, R330, R480). -/

namespace Sys2Proof

/-! ### A word as its fields

A pattern of the encoder is a row of fields, highest first. Each lemma `word_…` below, named by the fields' lengths, says that
a word is such a row exactly when its fields are the row's: read one way it takes an encoded word apart, the other way it puts
a decoded word together again. -/

theorem append_eq_field {w : Word16} {lo m n : Nat} {a : BitVec m} {b : BitVec n} :
    a ++ b = field w lo (m + n) ↔ a = field w (lo + n) m ∧ b = field w lo n := by
  have hw : field w (lo + n) m ++ field w lo n = field w lo (m + n) :=
    BitVec.extractLsb'_append_extractLsb'_eq_extractLsb' rfl
  rw [← hw]
  refine ⟨fun h => ⟨?_, ?_⟩, fun ⟨ha, hb⟩ => by rw [ha, hb]⟩
  · simpa only [BitVec.extractLsb'_append_eq_left] using congrArg (·.extractLsb' n m) h
  · simpa only [BitVec.extractLsb'_append_eq_right] using congrArg (·.extractLsb' 0 n) h

theorem eq_word_iff {w v : Word16} : v = w ↔ v = field w 0 16 := by
  simp only [field, BitVec.extractLsb'_eq_self]

section Words

variable {w : Word16} {a₁ b₁ c₁ d₁ : BitVec 1} {a₂ b₂ : BitVec 2} {a₃ b₃ c₃ d₃ : BitVec 3} {a₄ b₄ : BitVec 4}
  {a₅ : BitVec 5} {a₆ b₆ : BitVec 6} {a₇ : BitVec 7} {a₈ b₈ : BitVec 8} {a₉ : BitVec 9} {a₁₀ : BitVec 10} {a₁₁ : BitVec 11}
  {a₁₂ : BitVec 12} {a₁₃ : BitVec 13} {a₁₅ : BitVec 15}

theorem word_15_1 : a₁₅ ++ a₁ = w ↔ a₁₅ = field w 1 15 ∧ a₁ = field w 0 1 :=
  eq_word_iff.trans append_eq_field

theorem word_13_3 : a₁₃ ++ a₃ = w ↔ a₁₃ = field w 3 13 ∧ a₃ = field w 0 3 :=
  eq_word_iff.trans append_eq_field

theorem word_12_4 : a₁₂ ++ a₄ = w ↔ a₁₂ = field w 4 12 ∧ a₄ = field w 0 4 :=
  eq_word_iff.trans append_eq_field

theorem word_10_6 : a₁₀ ++ a₆ = w ↔ a₁₀ = field w 6 10 ∧ a₆ = field w 0 6 :=
  eq_word_iff.trans append_eq_field

theorem word_8_8 : a₈ ++ b₈ = w ↔ a₈ = field w 8 8 ∧ b₈ = field w 0 8 :=
  eq_word_iff.trans append_eq_field

theorem word_4_12 : a₄ ++ a₁₂ = w ↔ a₄ = field w 12 4 ∧ a₁₂ = field w 0 12 :=
  eq_word_iff.trans append_eq_field

theorem word_9_1_6 : a₉ ++ a₁ ++ a₆ = w ↔ a₉ = field w 7 9 ∧ a₁ = field w 6 1 ∧ a₆ = field w 0 6 := by
  refine eq_word_iff.trans (append_eq_field.trans ?_)
  rw [append_eq_field, and_assoc]

theorem word_8_2_6 : a₈ ++ a₂ ++ a₆ = w ↔ a₈ = field w 8 8 ∧ a₂ = field w 6 2 ∧ a₆ = field w 0 6 := by
  refine eq_word_iff.trans (append_eq_field.trans ?_)
  rw [append_eq_field, and_assoc]

theorem word_4_6_6 : a₄ ++ a₆ ++ b₆ = w ↔ a₄ = field w 12 4 ∧ a₆ = field w 6 6 ∧ b₆ = field w 0 6 := by
  refine eq_word_iff.trans (append_eq_field.trans ?_)
  rw [append_eq_field, and_assoc]

theorem word_4_4_8 : a₄ ++ b₄ ++ a₈ = w ↔ a₄ = field w 12 4 ∧ b₄ = field w 8 4 ∧ a₈ = field w 0 8 := by
  refine eq_word_iff.trans (append_eq_field.trans ?_)
  rw [append_eq_field, and_assoc]

theorem word_5_2_3_6 : a₅ ++ a₂ ++ a₃ ++ a₆ = w ↔
    a₅ = field w 11 5 ∧ a₂ = field w 9 2 ∧ a₃ = field w 6 3 ∧ a₆ = field w 0 6 := by
  refine eq_word_iff.trans (append_eq_field.trans ?_)
  rw [append_eq_field, append_eq_field, and_assoc, and_assoc]

theorem word_4_3_3_6 : a₄ ++ a₃ ++ b₃ ++ a₆ = w ↔
    a₄ = field w 12 4 ∧ a₃ = field w 9 3 ∧ b₃ = field w 6 3 ∧ a₆ = field w 0 6 := by
  refine eq_word_iff.trans (append_eq_field.trans ?_)
  rw [append_eq_field, append_eq_field, and_assoc, and_assoc]

theorem word_4_4_2_6 : a₄ ++ b₄ ++ a₂ ++ a₆ = w ↔
    a₄ = field w 12 4 ∧ b₄ = field w 8 4 ∧ a₂ = field w 6 2 ∧ a₆ = field w 0 6 := by
  refine eq_word_iff.trans (append_eq_field.trans ?_)
  rw [append_eq_field, append_eq_field, and_assoc, and_assoc]

theorem word_4_4_5_3 : a₄ ++ b₄ ++ a₅ ++ a₃ = w ↔
    a₄ = field w 12 4 ∧ b₄ = field w 8 4 ∧ a₅ = field w 3 5 ∧ a₃ = field w 0 3 := by
  refine eq_word_iff.trans (append_eq_field.trans ?_)
  rw [append_eq_field, append_eq_field, and_assoc, and_assoc]

theorem word_4_3_1_8 : a₄ ++ a₃ ++ a₁ ++ a₈ = w ↔
    a₄ = field w 12 4 ∧ a₃ = field w 9 3 ∧ a₁ = field w 8 1 ∧ a₈ = field w 0 8 := by
  refine eq_word_iff.trans (append_eq_field.trans ?_)
  rw [append_eq_field, append_eq_field, and_assoc, and_assoc]

theorem word_4_3_6_3 : a₄ ++ a₃ ++ a₆ ++ b₃ = w ↔
    a₄ = field w 12 4 ∧ a₃ = field w 9 3 ∧ a₆ = field w 3 6 ∧ b₃ = field w 0 3 := by
  refine eq_word_iff.trans (append_eq_field.trans ?_)
  rw [append_eq_field, append_eq_field, and_assoc, and_assoc]

theorem word_7_3_3_3 : a₇ ++ a₃ ++ b₃ ++ c₃ = w ↔
    a₇ = field w 9 7 ∧ a₃ = field w 6 3 ∧ b₃ = field w 3 3 ∧ c₃ = field w 0 3 := by
  refine eq_word_iff.trans (append_eq_field.trans ?_)
  rw [append_eq_field, append_eq_field, and_assoc, and_assoc]

theorem word_1_3_6_6 : a₁ ++ a₃ ++ a₆ ++ b₆ = w ↔
    a₁ = field w 15 1 ∧ a₃ = field w 12 3 ∧ a₆ = field w 6 6 ∧ b₆ = field w 0 6 := by
  refine eq_word_iff.trans (append_eq_field.trans ?_)
  rw [append_eq_field, append_eq_field, and_assoc, and_assoc]

theorem word_4_3_1_2_6 : a₄ ++ a₃ ++ a₁ ++ a₂ ++ a₆ = w ↔
    a₄ = field w 12 4 ∧ a₃ = field w 9 3 ∧ a₁ = field w 8 1 ∧ a₂ = field w 6 2 ∧ a₆ = field w 0 6 := by
  refine eq_word_iff.trans (append_eq_field.trans ?_)
  rw [append_eq_field, append_eq_field, append_eq_field, and_assoc, and_assoc, and_assoc]

theorem word_4_3_5_1_3 : a₄ ++ a₃ ++ a₅ ++ a₁ ++ b₃ = w ↔
    a₄ = field w 12 4 ∧ a₃ = field w 9 3 ∧ a₅ = field w 4 5 ∧ a₁ = field w 3 1 ∧ b₃ = field w 0 3 := by
  refine eq_word_iff.trans (append_eq_field.trans ?_)
  rw [append_eq_field, append_eq_field, append_eq_field, and_assoc, and_assoc, and_assoc]

theorem word_4_3_3_3_3 : a₄ ++ a₃ ++ b₃ ++ c₃ ++ d₃ = w ↔
    a₄ = field w 12 4 ∧ a₃ = field w 9 3 ∧ b₃ = field w 6 3 ∧ c₃ = field w 3 3 ∧ d₃ = field w 0 3 := by
  refine eq_word_iff.trans (append_eq_field.trans ?_)
  rw [append_eq_field, append_eq_field, append_eq_field, and_assoc, and_assoc, and_assoc]

theorem word_4_3_1_2_3_3 : a₄ ++ a₃ ++ a₁ ++ a₂ ++ b₃ ++ c₃ = w ↔
    a₄ = field w 12 4 ∧ a₃ = field w 9 3 ∧ a₁ = field w 8 1 ∧ a₂ = field w 6 2 ∧ b₃ = field w 3 3 ∧ c₃ = field w 0 3 := by
  refine eq_word_iff.trans (append_eq_field.trans ?_)
  rw [append_eq_field, append_eq_field, append_eq_field, append_eq_field, and_assoc, and_assoc, and_assoc, and_assoc]

theorem word_1_3_1_1_7_3 : a₁ ++ a₃ ++ b₁ ++ c₁ ++ a₇ ++ b₃ = w ↔
    a₁ = field w 15 1 ∧ a₃ = field w 12 3 ∧ b₁ = field w 11 1 ∧ c₁ = field w 10 1 ∧ a₇ = field w 3 7 ∧ b₃ = field w 0 3 := by
  refine eq_word_iff.trans (append_eq_field.trans ?_)
  rw [append_eq_field, append_eq_field, append_eq_field, append_eq_field, and_assoc, and_assoc, and_assoc, and_assoc]

theorem word_1_3_1_1_10 : a₁ ++ a₃ ++ b₁ ++ c₁ ++ a₁₀ = w ↔
    a₁ = field w 15 1 ∧ a₃ = field w 12 3 ∧ b₁ = field w 11 1 ∧ c₁ = field w 10 1 ∧ a₁₀ = field w 0 10 := by
  refine eq_word_iff.trans (append_eq_field.trans ?_)
  rw [append_eq_field, append_eq_field, append_eq_field, and_assoc, and_assoc, and_assoc]

theorem word_4_1_11 : a₄ ++ a₁ ++ a₁₁ = w ↔ a₄ = field w 12 4 ∧ a₁ = field w 11 1 ∧ a₁₁ = field w 0 11 := by
  refine eq_word_iff.trans (append_eq_field.trans ?_)
  rw [append_eq_field, and_assoc]

theorem word_7_1_8 : a₇ ++ a₁ ++ a₈ = w ↔ a₇ = field w 9 7 ∧ a₁ = field w 8 1 ∧ a₈ = field w 0 8 := by
  refine eq_word_iff.trans (append_eq_field.trans ?_)
  rw [append_eq_field, and_assoc]

theorem word_4_3_1_1_1_3_3 : a₄ ++ a₃ ++ a₁ ++ b₁ ++ c₁ ++ b₃ ++ c₃ = w ↔
    a₄ = field w 12 4 ∧ a₃ = field w 9 3 ∧ a₁ = field w 8 1 ∧ b₁ = field w 7 1 ∧ c₁ = field w 6 1 ∧
      b₃ = field w 3 3 ∧ c₃ = field w 0 3 := by
  refine eq_word_iff.trans (append_eq_field.trans ?_)
  rw [append_eq_field, append_eq_field, append_eq_field, append_eq_field, append_eq_field, and_assoc, and_assoc, and_assoc,
    and_assoc, and_assoc]

theorem word_4_3_1_2_2_1_3 : a₄ ++ a₃ ++ a₁ ++ a₂ ++ b₂ ++ b₁ ++ b₃ = w ↔
    a₄ = field w 12 4 ∧ a₃ = field w 9 3 ∧ a₁ = field w 8 1 ∧ a₂ = field w 6 2 ∧ b₂ = field w 4 2 ∧
      b₁ = field w 3 1 ∧ b₃ = field w 0 3 := by
  refine eq_word_iff.trans (append_eq_field.trans ?_)
  rw [append_eq_field, append_eq_field, append_eq_field, append_eq_field, append_eq_field, and_assoc, and_assoc, and_assoc,
    and_assoc, and_assoc]

theorem word_4_3_1_2_1_2_3 : a₄ ++ a₃ ++ a₁ ++ a₂ ++ b₁ ++ b₂ ++ b₃ = w ↔
    a₄ = field w 12 4 ∧ a₃ = field w 9 3 ∧ a₁ = field w 8 1 ∧ a₂ = field w 6 2 ∧ b₁ = field w 5 1 ∧
      b₂ = field w 3 2 ∧ b₃ = field w 0 3 := by
  refine eq_word_iff.trans (append_eq_field.trans ?_)
  rw [append_eq_field, append_eq_field, append_eq_field, append_eq_field, append_eq_field, and_assoc, and_assoc, and_assoc,
    and_assoc, and_assoc]

theorem word_7_1_1_1_2_1_3 : a₇ ++ a₁ ++ b₁ ++ c₁ ++ a₂ ++ d₁ ++ a₃ = w ↔
    a₇ = field w 9 7 ∧ a₁ = field w 8 1 ∧ b₁ = field w 7 1 ∧ c₁ = field w 6 1 ∧ a₂ = field w 4 2 ∧
      d₁ = field w 3 1 ∧ a₃ = field w 0 3 := by
  refine eq_word_iff.trans (append_eq_field.trans ?_)
  rw [append_eq_field, append_eq_field, append_eq_field, append_eq_field, append_eq_field, and_assoc, and_assoc, and_assoc,
    and_assoc, and_assoc]

end Words

/-! ### The bits a mask keeps -/

/-- The mask of `len` bits from bit `lo` up. -/
def runMask (lo len : Nat) : Word16 := (BitVec.allOnes len).setWidth 16 <<< lo

theorem and_runMask (w : Word16) (lo len : Nat) : w &&& runMask lo len = (field w lo len).setWidth 16 <<< lo := by
  ext k hk
  simp only [runMask, BitVec.getElem_and, BitVec.getElem_shiftLeft, BitVec.getElem_setWidth, BitVec.getLsbD_allOnes,
    BitVec.getLsbD_extractLsb']
  by_cases h : k < lo
  · simp [h]
  · simp only [h, decide_false, Bool.not_false, Bool.true_and, show lo + (k - lo) = k by omega]
    rw [Bool.and_comm, BitVec.getLsbD_eq_getElem]

section Masks

variable {w m p : Word16} {lo₁ len₁ lo₂ len₂ lo₃ len₃ : Nat} {a₁ : BitVec len₁} {a₂ : BitVec len₂} {a₃ : BitVec len₃}

/-- A mask of one run of bits keeps one field. -/
theorem and_eq_of_run₁ (h₁ : a₁ = field w lo₁ len₁) (hm : m = runMask lo₁ len₁) (hp : p = a₁.setWidth 16 <<< lo₁) :
    w &&& m = p := by
  rw [hm, hp, h₁, and_runMask]

/-- A mask of two runs of bits keeps two fields. -/
theorem and_eq_of_run₂ (h₁ : a₁ = field w lo₁ len₁) (h₂ : a₂ = field w lo₂ len₂)
    (hm : m = runMask lo₁ len₁ ||| runMask lo₂ len₂) (hp : p = a₁.setWidth 16 <<< lo₁ ||| a₂.setWidth 16 <<< lo₂) :
    w &&& m = p := by
  rw [hm, hp, h₁, h₂, BitVec.and_or_distrib_left, and_runMask, and_runMask]

/-- A mask of three runs of bits keeps three fields. -/
theorem and_eq_of_run₃ (h₁ : a₁ = field w lo₁ len₁) (h₂ : a₂ = field w lo₂ len₂) (h₃ : a₃ = field w lo₃ len₃)
    (hm : m = runMask lo₁ len₁ ||| runMask lo₂ len₂ ||| runMask lo₃ len₃)
    (hp : p = a₁.setWidth 16 <<< lo₁ ||| a₂.setWidth 16 <<< lo₂ ||| a₃.setWidth 16 <<< lo₃) : w &&& m = p := by
  rw [hm, hp, h₁, h₂, h₃, BitVec.and_or_distrib_left, BitVec.and_or_distrib_left, and_runMask, and_runMask, and_runMask]

/-- A field that a row's mask covers holds what the row's pattern holds there. -/
theorem eq_field_of_and (h : w &&& m = p) (hm : field m lo₁ len₁ = BitVec.allOnes len₁) (hp : a₁ = field p lo₁ len₁) :
    a₁ = field w lo₁ len₁ :=
  hp.trans (field_of_and_eq h hm).symm

end Masks

/-! ### The small fields -/

theorem eq_size76 {w : Word16} {sz : Size} (h : sz.bits2 = field w 6 2) : sz = size76 w := by
  unfold size76
  rw [← h]
  cases sz <;> rfl

theorem eq_size109 {w : Word16} {sz : Size} (h : sz.bits2 = field w 9 2) : sz = size109 w := by
  unfold size109
  rw [← h]
  cases sz <;> rfl

theorem Size.bits2_ne (sz : Size) : sz.bits2 ≠ 0b11 := by cases sz <;> decide

theorem bits2_size76 {w : Word16} (h : field w 6 2 ≠ 0b11) : (size76 w).bits2 = field w 6 2 := by
  have hall : ∀ x : BitVec 2, x ≠ 0b11 → (if x = 0b00 then Size.b else if x = 0b01 then .w else .l).bits2 = x := by decide
  exact hall _ h

theorem bits2_size109 {w : Word16} (h : field w 9 2 ≠ 0b11) : (size109 w).bits2 = field w 9 2 := by
  have hall : ∀ x : BitVec 2, x ≠ 0b11 → (if x = 0b00 then Size.b else if x = 0b01 then .w else .l).bits2 = x := by decide
  exact hall _ h

theorem eq_size6 {w : Word16} {sz : Size} (hb : (sz != .b) = true) (h : sz.bit1 = field w 6 1) : sz = size6 w := by
  unfold size6
  rw [← h]
  cases sz
  case b => simp at hb
  case w => rfl
  case l => rfl

theorem bit1_size6 (w : Word16) : (size6 w).bit1 = field w 6 1 := by
  have hall : ∀ x : BitVec 1, (if x = 0 then Size.w else .l).bit1 = x := by decide
  exact hall _

theorem size6_ne_byte (w : Word16) : (size6 w != .b) = true := by
  unfold size6
  split <;> rfl

theorem eq_of_bit1 {b : Bool} {x : BitVec 1} (h : bit1 b = x) : b = decide (x = 1) := by
  subst h
  cases b <;> rfl

theorem bit1_decide (x : BitVec 1) : bit1 (decide (x = 1)) = x := by
  revert x
  decide

theorem eq_condOf {c : Cond} {x : BitVec 4} (h : c.bits = x) : c = condOf x := by
  subst h
  cases c <;> rfl

theorem bits_condOf (x : BitVec 4) : (condOf x).bits = x := by
  revert x
  decide

theorem eq_quickOf {q : BitVec 4} {x : BitVec 3} (hq : quickWf q = true) (h : q.setWidth 3 = x) : q = quickOf x := by
  subst h
  revert q
  decide

theorem quickOf_spec (x : BitVec 3) : quickWf (quickOf x) = true ∧ (quickOf x).setWidth 3 = x := by
  revert x
  decide

theorem eq_shiftCountOf {w : Word16} {c : ShiftCount} (hc : c.wf = true) (hbits : c.bits = field w 9 3)
    (hir : c.ir = field w 5 1) : c = shiftCountOf w := by
  unfold shiftCountOf
  cases c with
  | imm n => rw [← hir, ← eq_quickOf hc hbits]; rfl
  | reg n => rw [← hir, ← hbits]; rfl

theorem shiftCountOf_spec (w : Word16) : (shiftCountOf w).wf = true ∧ (shiftCountOf w).bits = field w 9 3 ∧
    (shiftCountOf w).ir = field w 5 1 := by
  unfold shiftCountOf
  split
  · next hir => exact ⟨(quickOf_spec _).1, (quickOf_spec _).2, hir.symm⟩
  · next hir => exact ⟨rfl, rfl, (BitVec.eq_zero_or_eq_one _).resolve_left hir |>.symm⟩

/-- The register of a D/A bit and a number is the one whose four bits they are (R16). -/
theorem bits_regSel (da : BitVec 1) (n : RegNo) : (regSel da n).bits = da ++ n := by
  unfold regSel
  split
  · next h => rw [h]; rfl
  · next h => rw [(BitVec.eq_zero_or_eq_one da).resolve_left h]; rfl

theorem eq_regSel {w : Word16} {lo : Nat} {r : RegSel} (h : r.bits = field w lo 4) :
    r = regSel (field w (lo + 3) 1) (field w lo 3) := by
  cases r with
  | d n =>
    obtain ⟨hda, hn⟩ := append_eq_field.1 h
    rw [← hda, ← hn]
    rfl
  | a n =>
    obtain ⟨hda, hn⟩ := append_eq_field.1 h
    rw [← hda, ← hn]
    rfl

theorem bits_regSel_field (w : Word16) (lo : Nat) : (regSel (field w (lo + 3) 1) (field w lo 3)).bits = field w lo 4 :=
  (bits_regSel _ _).trans (append_eq_field.2 ⟨rfl, rfl⟩)

theorem eq_decodeIndex {w : Word16} {x : Index} (h : x.bits = field w 9 7) : x = decodeIndex w := by
  obtain ⟨reg, long, scale⟩ := x
  obtain ⟨hhigh, rfl⟩ := append_eq_field.1 h
  obtain ⟨hreg, hlong⟩ := append_eq_field.1 hhigh
  obtain rfl : reg = _ := eq_regSel hreg
  obtain rfl : long = _ := eq_of_bit1 hlong
  rfl

end Sys2Proof
end

section
/-! PROOFS. The decoders of immediates, displacements and index words both ways (R122, R128, R207, R208): `Reads`, what they
read of the words the encoder writes; `Yields`, what they can answer and from how many words. -/

namespace Sys2Proof

/-- The decoder reads `a` from the words `ws`, whatever follows them. -/
def Reads {α : Type} (m : Dec α) (ws : List Word16) (a : α) : Prop := ∀ rest, m (ws ++ rest) = .ok a rest

/-- Every answer of the decoder, with the number of words it took, meets `post`. -/
def Yields {α : Type} (m : Dec α) (post : α → Nat → Prop) : Prop :=
  ∀ ws a rest, m ws = .ok a rest → ∃ pre, ws = pre ++ rest ∧ post a pre.length

section Rules

variable {α β : Type} {m : Dec α} {f : α → Dec β} {g : α → β} {ws ws' : List Word16} {a : α} {b : β} {w : Word16}
  {p : α → Nat → Prop} {q : β → Nat → Prop}

theorem Reads.pure : Reads (pure a) [] a := fun _ => rfl

theorem Reads.bind (hm : Reads m ws a) (hf : Reads (f a) ws' b) : Reads (m >>= f) (ws ++ ws') b := fun rest => by
  have hm' := hm (ws' ++ rest)
  rw [List.append_assoc]
  show EStateM.bind m f _ = _
  simp only [EStateM.bind, hm']
  exact hf rest

theorem Reads.map (hm : Reads m ws a) : Reads (m >>= fun x => Pure.pure (g x)) ws (g a) := by
  simpa only [List.append_nil] using hm.bind (f := fun x => Pure.pure (g x)) Reads.pure

theorem Reads.next {f : Word16 → Dec β} (hf : Reads (f w) ws b) : Reads (nextWord >>= f) (w :: ws) b := fun rest => hf rest

theorem Yields.pure (h : p a 0) : Yields (pure a) p := fun ws _ _ hok => by
  cases hok
  exact ⟨[], rfl, h⟩

theorem Yields.bind (hm : Yields m p) (hf : ∀ a n, p a n → Yields (f a) fun b k => q b (n + k)) : Yields (m >>= f) q := by
  intro ws b rest hok
  change EStateM.bind m f ws = _ at hok
  unfold EStateM.bind at hok
  split at hok
  · next a rest' hm' =>
    obtain ⟨pre, rfl, hp⟩ := hm _ _ _ hm'
    obtain ⟨pre', rfl, hq⟩ := hf _ _ hp _ _ _ hok
    exact ⟨pre ++ pre', (List.append_assoc _ _ _).symm, by rwa [List.length_append]⟩
  · cases hok

theorem Yields.map (hm : Yields m p) (h : ∀ a n, p a n → q (g a) n) : Yields (m >>= fun x => Pure.pure (g x)) q :=
  hm.bind fun a n ha => .pure (h a n ha)

theorem Yields.next {f : Word16 → Dec β} (hf : ∀ w, Yields (f w) fun b k => q b (k + 1)) : Yields (nextWord >>= f) q := by
  intro ws b rest hok
  cases ws with
  | nil => cases hok
  | cons w ws =>
    obtain ⟨pre, rfl, hq⟩ := hf w ws b rest hok
    exact ⟨w :: pre, rfl, hq⟩

theorem Yields.illegal : Yields decodeIllegal q := fun _ _ _ hok => by cases hok

theorem Yields.mono {p' : α → Nat → Prop} (hm : Yields m p) (h : ∀ a n, p a n → p' a n) : Yields m p' := fun ws a rest hok =>
  let ⟨pre, hws, hp⟩ := hm ws a rest hok
  ⟨pre, hws, h _ _ hp⟩

end Rules

/-! ### Immediates and displacements -/

theorem longWords_join (v : Long) : v.extractLsb' 16 16 ++ v.extractLsb' 0 16 = v :=
  (BitVec.extractLsb'_append_extractLsb'_eq_extractLsb' rfl).trans BitVec.extractLsb'_eq_self

theorem reads_nextLong (v : Long) : Reads nextLong (longWords v) v := fun rest =>
  congrArg (EStateM.Result.ok · rest) (longWords_join v)

theorem yields_nextLong : Yields nextLong fun v n => n = (longWords v).length :=
  .next fun _ => .next fun _ => .pure rfl

theorem reads_decodeImm {sz : Size} {v : Long} (h : immWf sz v = true) : Reads (decodeImm sz) (immWords sz v) v := by
  have hv : sz.trunc v = v := by simpa [immWf] using h
  cases sz with
  | b =>
    intro rest
    have hbyte : ((v.setWidth 8).setWidth 16).setWidth 8 = v.setWidth 8 := BitVec.setWidth_setWidth_of_le _ (by decide)
    exact congrArg (EStateM.Result.ok · rest) ((congrArg (BitVec.setWidth 32) hbyte).trans hv)
  | w => exact fun rest => congrArg (EStateM.Result.ok · rest) hv
  | l => exact reads_nextLong v

theorem yields_decodeImm (sz : Size) : Yields (decodeImm sz) fun v n => immWf sz v = true ∧ n = (immWords sz v).length := by
  cases sz with
  | b => exact .next fun w => .pure ⟨by simp [immWf, Size.trunc], rfl⟩
  | w => exact .next fun w => .pure ⟨by simp [immWf, Size.trunc], rfl⟩
  | l => exact yields_nextLong.mono fun v n hn => ⟨by simp [immWf, Size.trunc], hn⟩

theorem reads_decodeBd (d : Disp) : Reads (decodeBd d.bits) d.words d := by
  cases d with
  | null => exact .pure
  | word d => exact .next .pure
  | long d => exact (reads_nextLong d).map

theorem yields_decodeBd (sz : BitVec 2) : Yields (decodeBd sz) fun d n => n = d.words.length := by
  unfold decodeBd
  split
  · exact .pure rfl
  · split
    · exact .next fun _ => .pure rfl
    · exact yields_nextLong.map fun _ _ h => h

theorem Disp.bits_ne (d : Disp) : d.bits ≠ 0b00 := by cases d <;> simp [Disp.bits]

/-- A selection bit before the size of an outer displacement is no I/IS of 000 and no reserved one of 100. -/
theorem append_dispBits (b : BitVec 1) (d : Disp) : b ++ d.bits ≠ (0b000 : BitVec 3) ∧ b ++ d.bits ≠ (0b100 : BitVec 3) ∧
    (b ++ d.bits).extractLsb' 2 1 = b ∧ (b ++ d.bits).extractLsb' 0 2 = d.bits := by
  have hall : ∀ (b : BitVec 1) (x : BitVec 2), x ≠ 0b00 → b ++ x ≠ (0b000 : BitVec 3) ∧ b ++ x ≠ (0b100 : BitVec 3) ∧
      (b ++ x).extractLsb' 2 1 = b ∧ (b ++ x).extractLsb' 0 2 = x := by decide
  exact hall b _ d.bits_ne

theorem reads_decodeInd (x : Indirection) : Reads (decodeInd x.bits) x.words x := by
  cases x with
  | none => exact .pure
  | pre od =>
    obtain ⟨hne, -, hhigh, hlow⟩ := append_dispBits 0 od
    unfold decodeInd Indirection.bits
    rw [if_neg hne, if_pos hhigh, hlow]
    exact (reads_decodeBd od).map
  | post od =>
    obtain ⟨hne, -, hhigh, hlow⟩ := append_dispBits 1 od
    unfold decodeInd Indirection.bits
    rw [if_neg hne, if_neg (by rw [hhigh]; decide), hlow]
    exact (reads_decodeBd od).map

/-- A post-indexed indirection comes from an I/IS of 101 or above (R208). -/
theorem yields_decodeInd (iis : BitVec 3) : Yields (decodeInd iis) fun x n => n = x.words.length ∧
    ∀ od, x = .post od → iis.extractLsb' 2 1 = 1 := by
  unfold decodeInd
  split
  · exact .pure ⟨rfl, nofun⟩
  · split
    · exact (yields_decodeBd _).map fun _ _ h => ⟨h, nofun⟩
    · next hpost => exact (yields_decodeBd _).map fun _ _ h =>
        ⟨h, fun _ _ => (BitVec.eq_zero_or_eq_one _).resolve_left hpost⟩

/-! ### Indexed modes -/

theorem reads_decodeIndexExt_brief (x : Index) (d8 : BitVec 8) :
    Reads decodeIndexExt (IndexExt.brief x d8).words (.brief x d8) := by
  refine .next ?_
  generalize hw : x.bits ++ (0 : BitVec 1) ++ d8 = w
  obtain ⟨hx, hbrief, rfl⟩ := word_7_1_8.1 hw
  rw [if_pos hbrief.symm, ← eq_decodeIndex hx]
  exact .pure

/-- The full format the encoder writes has no reserved value (R208). -/
theorem fullReserved_eq_false {w : Word16} {is : Bool} {bd : Disp} {ind : Indirection}
    (hind : ∀ od, ind = .post od → is = false)
    (his : bit1 is = field w 6 1) (hbd : bd.bits = field w 4 2) (h3 : 0 = field w 3 1) (hiis : ind.bits = field w 0 3) :
    fullReserved w = false := by
  have hhigh : field w 2 1 = ind.bits.extractLsb' 2 1 := by rw [hiis, field_extractLsb' (by decide)]
  have hselect : ind.bits ≠ 0b100 ∧ (bit1 is = 1 → ind.bits.extractLsb' 2 1 ≠ 1) := by
    cases ind with
    | none => exact ⟨by decide, fun _ => by decide⟩
    | pre od =>
      obtain ⟨-, hne, hpre, -⟩ := append_dispBits 0 od
      exact ⟨hne, fun _ => by rw [Indirection.bits, hpre]; decide⟩
    | post od =>
      rw [hind od rfl]
      exact ⟨(append_dispBits 1 od).2.1, nofun⟩
  rw [← Bool.not_eq_true]
  simp only [fullReserved, ← his, ← hbd, ← h3, ← hiis, hhigh, Bool.or_eq_true, Bool.and_eq_true, beq_iff_eq, not_or, not_and]
  exact ⟨⟨⟨by decide, bd.bits_ne⟩, hselect.1⟩, hselect.2⟩

theorem reads_decodeIndexExt_full {x : Index} {bs is : Bool} {bd : Disp} {ind : Indirection}
    (hind : ∀ od, ind = .post od → is = false) :
    Reads decodeIndexExt (IndexExt.full x bs is bd ind).words (.full x bs is bd ind) := by
  refine .next ?_
  generalize hw : x.bits ++ (1 : BitVec 1) ++ bit1 bs ++ bit1 is ++ bd.bits ++ (0 : BitVec 1) ++ ind.bits = w
  obtain ⟨hx, hfull, hbs, his, hbd, h3, hiis⟩ := word_7_1_1_1_2_1_3.1 hw
  rw [← hfull, if_neg (by decide), fullReserved_eq_false hind his hbd h3 hiis, ← eq_decodeIndex hx, ← eq_of_bit1 hbs,
    ← eq_of_bit1 his, ← hbd, ← hiis]
  exact (reads_decodeBd bd).bind (reads_decodeInd ind).map

theorem reads_decodeIndexExt {x : IndexExt} (h : x.wf = true) : Reads decodeIndexExt x.words x := by
  cases x with
  | brief x d8 => exact reads_decodeIndexExt_brief x d8
  | full x bs is bd ind =>
    refine reads_decodeIndexExt_full fun od hod => ?_
    subst hod
    simpa [IndexExt.wf] using h

theorem yields_decodeIndexExt : Yields decodeIndexExt fun x n => x.wf = true ∧ n = x.words.length := by
  refine .next fun w => ?_
  split
  · exact .pure ⟨rfl, rfl⟩
  · split
    · exact .illegal
    · next hreserved =>
      refine (yields_decodeBd _).bind fun bd n hn => (yields_decodeInd _).map fun ind k hk => ⟨?wf, ?len⟩
      case wf =>
        cases ind with
        | none => rfl
        | pre od => rfl
        | post od =>
          have hhigh : field w 2 1 = 1 := (field_extractLsb' (by decide)).symm.trans (hk.2 od rfl)
          simp only [fullReserved, hhigh, Bool.or_eq_true, Bool.and_eq_true, beq_iff_eq, not_or] at hreserved
          simp only [IndexExt.wf, Bool.not_eq_true', decide_eq_false_iff_not]
          exact fun his => hreserved.2 ⟨his, trivial⟩
      case len =>
        rw [hn, hk.1]
        simp [IndexExt.words]

end Sys2Proof
end

section
/-! PROOFS. The remaining operands both ways: effective addresses (R124, R125), branch displacements, the operands of TRAPcc,
CAS2 and the bit fields (R130 to R132, R370). -/

namespace Sys2Proof

/-! ### Effective addresses -/

/-- The fields a mode is spelled with; a register mode leaves the register bits open (R124). -/
def EaMode.spelled (md : EaMode) (mode reg : BitVec 3) : Bool :=
  match md with
  | .dn => mode == 0b000
  | .an => mode == 0b001
  | .ind => mode == 0b010
  | .postinc => mode == 0b011
  | .predec => mode == 0b100
  | .disp => mode == 0b101
  | .index => mode == 0b110
  | .absW => mode == 0b111 && reg == 0b000
  | .absL => mode == 0b111 && reg == 0b001
  | .pcDisp => mode == 0b111 && reg == 0b010
  | .pcIndex => mode == 0b111 && reg == 0b011
  | .imm => mode == 0b111 && reg == 0b100

theorem spelled_of_ofBits {mode reg : BitVec 3} {md : EaMode} (h : EaMode.ofBits mode reg = some md) :
    md.spelled mode reg = true := by
  have hall : ∀ mode reg : BitVec 3, (EaMode.ofBits mode reg).all (·.spelled mode reg) = true := by decide
  simpa [h] using hall mode reg

theorem EA.ofBits_bits (ea : EA) : EaMode.ofBits ea.modeBits ea.regBits = some ea.mode := by cases ea <;> rfl

theorem EA.admits_of_wf {sz : Size} {cls : EaClass} {ea : EA} (h : ea.wf sz cls = true) : cls.admits ea.mode = true :=
  (Bool.and_eq_true_iff.1 h).1

/-- The fields of a well-formed operand spell a mode of its class. -/
theorem EaField.wf_of_ea {sz : Size} {cls : EaClass} {ea : EA} (h : ea.wf sz cls = true) :
    EaField.wf cls ⟨ea.modeBits, ea.regBits⟩ = true := by
  simp only [EaField.wf, ea.ofBits_bits, EA.admits_of_wf h]

/-- An address register is no byte operand (R43). -/
theorem EA.size_ne_byte {sz : Size} {cls : EaClass} {ea : EA} (h : ea.wf sz cls = true) (hmode : ea.modeBits = 0b001) :
    sz ≠ .b := by
  cases ea with
  | areg n => simpa using (Bool.and_eq_true_iff.1 h).2
  | _ => cases hmode

theorem reads_decodeEa {sz : Size} {cls : EaClass} {ea : EA} (h : ea.wf sz cls = true) :
    Reads (decodeEa sz ea.modeBits ea.regBits) (ea.words sz) ea := by
  have hform := (Bool.and_eq_true_iff.1 h).2
  unfold decodeEa
  rw [ea.ofBits_bits]
  cases ea with
  | dreg n | areg n | ind n | postinc n | predec n => exact .pure
  | disp n d | absW d | pcDisp d => exact .next .pure
  | index n x | pcIndex x => exact (reads_decodeIndexExt hform).map
  | absL a => exact (reads_nextLong a).map
  | imm v => exact (reads_decodeImm hform).map

theorem yields_decodeEa {sz : Size} {cls : EaClass} {mode reg : BitVec 3} (hf : EaField.wf cls ⟨mode, reg⟩ = true)
    (hbyte : cls.admits .an = true → mode = 0b001 → sz ≠ .b) :
    Yields (decodeEa sz mode reg) fun ea n => ea.wf sz cls = true ∧ ea.modeBits = mode ∧ ea.regBits = reg ∧
      n = (ea.words sz).length := by
  unfold decodeEa
  cases hmode : EaMode.ofBits mode reg with
  | none => exact .illegal
  | some md =>
    have hcls : cls.admits md = true := by simpa only [EaField.wf, hmode] using hf
    have hbits := spelled_of_ofBits hmode
    have hwf {ea : EA} (hea : ea.mode = md) {b : Bool} (hb : b = true) : (cls.admits ea.mode && b) = true := by
      rw [hea, hcls, hb]; rfl
    cases md
    case dn | ind | postinc | predec =>
      exact .pure ⟨hwf rfl rfl, (beq_iff_eq.1 hbits).symm, rfl, rfl⟩
    case an =>
      have hm := beq_iff_eq.1 hbits
      exact .pure ⟨hwf rfl (bne_iff_ne.2 (hbyte hcls hm)), hm.symm, rfl, rfl⟩
    case disp =>
      exact .next fun _ => .pure ⟨hwf rfl rfl, (beq_iff_eq.1 hbits).symm, rfl, rfl⟩
    case index =>
      exact yields_decodeIndexExt.map fun _ _ hx => ⟨hwf rfl hx.1, (beq_iff_eq.1 hbits).symm, rfl, hx.2⟩
    case absW | pcDisp =>
      obtain ⟨hm, hr⟩ := Bool.and_eq_true_iff.1 hbits
      exact .next fun _ => .pure ⟨hwf rfl rfl, (beq_iff_eq.1 hm).symm, (beq_iff_eq.1 hr).symm, rfl⟩
    case absL =>
      obtain ⟨hm, hr⟩ := Bool.and_eq_true_iff.1 hbits
      exact yields_nextLong.map fun _ _ hn => ⟨hwf rfl rfl, (beq_iff_eq.1 hm).symm, (beq_iff_eq.1 hr).symm, hn⟩
    case pcIndex =>
      obtain ⟨hm, hr⟩ := Bool.and_eq_true_iff.1 hbits
      exact yields_decodeIndexExt.map fun _ _ hx => ⟨hwf rfl hx.1, (beq_iff_eq.1 hm).symm, (beq_iff_eq.1 hr).symm, hx.2⟩
    case imm =>
      obtain ⟨hm, hr⟩ := Bool.and_eq_true_iff.1 hbits
      exact (yields_decodeImm sz).map fun _ _ hv => ⟨hwf rfl hv.1, (beq_iff_eq.1 hm).symm, (beq_iff_eq.1 hr).symm, hv.2⟩

section Operand

variable {w : Word16} {sz : Size} {cls : EaClass} {ea : EA}

/-- The operand of bits 5:0, its field there. -/
theorem reads_decodeSrc (h : ea.wf sz cls = true) (hea : ea.field6 = field w 0 6) :
    Reads (decodeSrc sz w) (ea.words sz) ea := by
  obtain ⟨hmode, hreg⟩ := append_eq_field.1 hea
  rw [decodeSrc, ← hmode, ← hreg]
  exact reads_decodeEa h

theorem yields_decodeSrc (hf : EaField.wf cls ⟨field w 3 3, field w 0 3⟩ = true)
    (hbyte : cls.admits .an = true → field w 3 3 = 0b001 → sz ≠ .b) :
    Yields (decodeSrc sz w) fun ea n => ea.wf sz cls = true ∧ ea.field6 = field w 0 6 ∧ n = (ea.words sz).length :=
  (yields_decodeEa hf hbyte).mono fun _ _ ⟨hwf, hmode, hreg, hn⟩ => ⟨hwf, append_eq_field.2 ⟨hmode, hreg⟩, hn⟩

/-- The MOVE destination of bits 11:6, its field there with the register first. -/
theorem reads_decodeDst (h : ea.wf sz cls = true) (hea : ea.dstField6 = field w 6 6) :
    Reads (decodeDst sz w) (ea.words sz) ea := by
  obtain ⟨hreg, hmode⟩ := append_eq_field.1 hea
  rw [decodeDst, ← hmode, ← hreg]
  exact reads_decodeEa h

theorem yields_decodeDst (hf : EaField.wf cls ⟨field w 6 3, field w 9 3⟩ = true) (hbyte : cls.admits .an = false) :
    Yields (decodeDst sz w) fun ea n => ea.wf sz cls = true ∧ ea.dstField6 = field w 6 6 ∧ n = (ea.words sz).length :=
  (yields_decodeEa hf (by simp [hbyte])).mono fun _ _ ⟨hwf, hmode, hreg, hn⟩ =>
    ⟨hwf, append_eq_field.2 ⟨hreg, hmode⟩, hn⟩

end Operand

/-! ### Displacements of branches and the operands of TRAPcc -/

theorem reads_decodeBranch {w : Word16} {d : BranchDisp} (h : d.wf = true) (hd : d.bits = field w 0 8) :
    Reads (decodeBranch w) d.words d := by
  unfold decodeBranch
  rw [← hd]
  cases d with
  | byte d =>
    have hne : d ≠ 0 ∧ d ≠ 0xFF := by simpa [BranchDisp.wf] using h
    rw [if_neg (show ¬ BranchDisp.bits (.byte d) = 0x00 from hne.1),
      if_neg (show ¬ BranchDisp.bits (.byte d) = 0xFF from hne.2)]
    exact .pure
  | word d => exact .next .pure
  | long d => exact (reads_nextLong d).map

theorem yields_decodeBranch (w : Word16) : Yields (decodeBranch w) fun d n =>
    d.wf = true ∧ d.bits = field w 0 8 ∧ n = d.words.length := by
  unfold decodeBranch
  split
  · next h => exact .next fun _ => .pure ⟨rfl, h.symm, rfl⟩
  · next hzero =>
    split
    · next h => exact yields_nextLong.map fun _ _ hn => ⟨rfl, h.symm, hn⟩
    · next hones => exact .pure ⟨by simpa [BranchDisp.wf] using ⟨hzero, hones⟩, rfl, rfl⟩

theorem reads_decodeTrapcc {w : Word16} {o : TrapccOperand} (ho : o.bits = field w 0 3) :
    Reads (decodeTrapcc w) o.words o := by
  unfold decodeTrapcc
  rw [← ho]
  cases o with
  | none => exact .pure
  | word d => exact .next .pure
  | long d => exact (reads_nextLong d).map

theorem yields_decodeTrapcc {w : Word16} (h : field w 0 3 = 0b010 ∨ field w 0 3 = 0b011 ∨ field w 0 3 = 0b100) :
    Yields (decodeTrapcc w) fun o n => o.bits = field w 0 3 ∧ n = o.words.length := by
  unfold decodeTrapcc
  split
  · next hword => exact .next fun _ => .pure ⟨hword.symm, rfl⟩
  · next hword =>
    split
    · next hlong => exact yields_nextLong.map fun _ _ hn => ⟨hlong.symm, hn⟩
    · next hlong => exact .pure ⟨((h.resolve_left hword).resolve_left hlong).symm, rfl⟩

/-! ### Operand words of CAS2 and of the bit fields -/

theorem reads_decodeCas2Operand (o : Cas2Operand) : Reads decodeCas2Operand [o.word] o := by
  obtain ⟨rn, du, dc⟩ := o
  refine .next ?_
  generalize hw : Cas2Operand.word ⟨rn, du, dc⟩ = w
  obtain ⟨hrn, h9, hdu, h3, hdc⟩ := word_4_3_3_3_3.1 hw
  rw [if_neg (by simp [← h9, ← h3]), ← hdu, ← hdc, ← eq_regSel hrn]
  exact .pure

theorem yields_decodeCas2Operand : Yields decodeCas2Operand fun _ n => n = 1 := by
  refine .next fun w => ?_
  split
  · exact .illegal
  · exact .pure rfl

/-- Six bits that hold a bit under a number: Do or Dw clear. -/
theorem bf_imm {w : Word16} {lo : Nat} {o : BitVec 5} (h : (0 : BitVec 1) ++ o = field w lo 6) :
    field w (lo + 5) 1 = 0 ∧ o = field w lo 5 :=
  (append_eq_field.1 h).imp_left Eq.symm

/-- Six bits that hold a register: Do or Dw set, the two bits under it clear. -/
theorem bf_reg {w : Word16} {lo : Nat} {n : RegNo} (h : (0b100 : BitVec 3) ++ n = field w lo 6) :
    field w (lo + 5) 1 = 1 ∧ field w (lo + 3) 2 = 0 ∧ n = field w lo 3 := by
  obtain ⟨hhigh, hn⟩ := append_eq_field.1 h
  obtain ⟨hflag, hlow⟩ := (append_eq_field (a := (1 : BitVec 1)) (b := (0 : BitVec 2))).1 hhigh
  exact ⟨hflag.symm, hlow.symm, hn⟩

theorem eq_bfSpecOf {w : Word16} {bf : BfSpec} (ho : bf.offset.bits = field w 6 6) (hwd : bf.width.bits = field w 0 6) :
    bf = bfSpecOf w := by
  obtain ⟨offset, width⟩ := bf
  refine congr (congrArg BfSpec.mk ?offset) ?width
  case offset => cases offset with
    | imm o =>
      obtain ⟨hflag, ho⟩ := bf_imm ho
      rw [if_pos hflag, ho]
    | reg n =>
      obtain ⟨hflag, -, hn⟩ := bf_reg ho
      rw [if_neg (by rw [hflag]; decide), hn]
  case width => cases width with
    | imm o =>
      obtain ⟨hflag, ho⟩ := bf_imm hwd
      rw [if_pos hflag, ho]
    | reg n =>
      obtain ⟨hflag, -, hn⟩ := bf_reg hwd
      rw [if_neg (by rw [hflag]; decide), hn]

theorem bfReserved_eq_false {w : Word16} {bf : BfSpec} (h15 : 0 = field w 15 1) (ho : bf.offset.bits = field w 6 6)
    (hwd : bf.width.bits = field w 0 6) : bfReserved w = false := by
  have hoffset : field w 11 1 = 1 → field w 9 2 = 0 := fun hflag => by
    cases hbf : bf.offset with
    | imm o => exact absurd ((bf_imm (hbf ▸ ho)).1.symm.trans hflag) (by decide)
    | reg n => exact (bf_reg (hbf ▸ ho)).2.1
  have hwidth : field w 5 1 = 1 → field w 3 2 = 0 := fun hflag => by
    cases hbf : bf.width with
    | imm o => exact absurd ((bf_imm (hbf ▸ hwd)).1.symm.trans hflag) (by decide)
    | reg n => exact (bf_reg (hbf ▸ hwd)).2.1
  rw [← Bool.not_eq_true]
  simp only [bfReserved, ← h15, Bool.or_eq_true, Bool.and_eq_true, beq_iff_eq, bne_iff_ne, not_or, not_and, not_not]
  exact ⟨⟨by decide, hoffset⟩, hwidth⟩

theorem reads_decodeBf (bf : BfSpec) : Reads decodeBf [bf.word 0] bf := by
  refine .next ?_
  generalize hw : bf.word 0 = w
  obtain ⟨h15, hreg, ho, hwd⟩ := word_1_3_6_6.1 hw
  rw [bfReserved_eq_false h15 ho hwd, ← hreg, ← eq_bfSpecOf ho hwd]
  exact .pure

theorem reads_decodeBfReg (bf : BfSpec) (n : RegNo) : Reads decodeBfReg [bf.word n] (bf, n) := by
  refine .next ?_
  generalize hw : bf.word n = w
  obtain ⟨h15, rfl, ho, hwd⟩ := word_1_3_6_6.1 hw
  rw [bfReserved_eq_false h15 ho hwd, ← eq_bfSpecOf ho hwd]
  exact .pure

theorem yields_decodeBf : Yields decodeBf fun _ n => n = 1 := by
  refine .next fun w => ?_
  split
  · exact .illegal
  · exact .pure rfl

theorem yields_decodeBfReg : Yields decodeBfReg fun _ n => n = 1 := by
  refine .next fun w => ?_
  split
  · exact .illegal
  · exact .pure rfl

end Sys2Proof
end

section
/-! PROOFS. The decoder reads what the encoder writes (O2): row by row, the opcode word is one the row admits, and the row's
operands are read from the words that follow. The rows are taken by the form of their opcode word. -/

namespace Sys2Proof

/-! ### Forms of rows

A row is written here with its own bits and constraints, all others at their defaults; `rowOf op = …` then holds by `rfl`. -/

/-- A word selects the row, and the row's operands are read from the words after it; in a group the first of these selects the
row among the group's. -/
def Codes (op : Op) (w : Word16) (ws : List Word16) (i : Instr) : Prop :=
  (rowOf op).admits w = true ∧
    match (rowOf op).ext with
    | none => Reads (decodeOperands op w 0) ws i
    | some (m, p) => ∃ w2 tail, ws = w2 :: tail ∧ w2 &&& m = p ∧ Reads (decodeOperands op w w2) tail i

/-- The field of a well-formed operand is one of its class. -/
theorem EaField.wf_of_field6 {w : Word16} {sz : Size} {cls : EaClass} {ea : EA} (h : ea.wf sz cls = true)
    (hea : ea.field6 = field w 0 6) : EaField.wf cls ⟨field w 3 3, field w 0 3⟩ = true := by
  obtain ⟨hmode, hreg⟩ := append_eq_field.1 hea
  rw [← hmode, ← hreg]
  exact EaField.wf_of_ea h

/-- An address register is named by an operand of a word or more. -/
theorem size_ne_of_field6 {w : Word16} {sz : Size} {cls : EaClass} {ea : EA} (h : ea.wf sz cls = true)
    (hea : ea.field6 = field w 0 6) (hsz : sz.bits2 = field w 6 2) (hmode : field w 3 3 = 0b001) : field w 6 2 ≠ 0b00 := by
  rw [← hsz]
  have hne := EA.size_ne_byte h ((append_eq_field.1 hea).1.trans hmode)
  cases sz
  case b => exact absurd rfl hne
  case w | l => decide

section Codes

variable {op : Op} {mn : Mnemonic} {pat mask w m p w2 : Word16} {cls cls' : EaClass} {an priv : Bool} {sz sz' : Size}
  {ea dst : EA} {f : EaField} {ws : List Word16} {i : Instr}

/-- A row without a second word. -/
theorem codes_of_row {r : OpRow} (hrow : rowOf op = r) (hext : r.ext = none) (hadm : r.admits w = true)
    (hreads : Reads (decodeOperands op w 0) ws i) : Codes op w ws i := by
  unfold Codes
  rw [hrow, hext]
  exact ⟨hadm, hreads⟩

/-- A row of a group. -/
theorem codes_of_group {r : OpRow} (hrow : rowOf op = r) (hext : r.ext = some (m, p)) (hadm : r.admits w = true)
    (hw2 : w2 &&& m = p) (hreads : Reads (decodeOperands op w w2) ws i) : Codes op w (w2 :: ws) i := by
  unfold Codes
  rw [hrow, hext]
  exact ⟨hadm, w2, ws, rfl, hw2, hreads⟩

theorem codes_plain (hrow : rowOf op = { op := op, mnemonic := mn, pat := pat, mask := mask, privileged := priv })
    (hbits : w &&& mask = pat) (hreads : Reads (decodeOperands op w 0) ws i) : Codes op w ws i :=
  codes_of_row hrow rfl (admits_iff.2 ⟨hbits, ⟨nofun, nofun⟩, nofun, nofun, nofun, nofun, nofun⟩) hreads

/-- The pattern is the whole word. -/
theorem codes_word (hrow : rowOf op = { op := op, mnemonic := mn, pat := pat, mask := 0xFFFF, privileged := priv })
    (hw : pat = w) (hreads : Reads (decodeOperands op w 0) ws i) : Codes op w ws i :=
  codes_plain hrow (hw ▸ BitVec.and_allOnes) hreads

theorem codes_field
    (hrow : rowOf op = { op := op, mnemonic := mn, pat := pat, mask := mask, ea := some cls, privileged := priv })
    (hbits : w &&& mask = pat) (hf : EaField.wf cls ⟨field w 3 3, field w 0 3⟩ = true)
    (hreads : Reads (decodeOperands op w 0) ws i) : Codes op w ws i :=
  codes_of_row hrow rfl
    (admits_iff.2 ⟨hbits, ⟨nofun, nofun⟩, fun _ hcls => by cases hcls; exact hf, nofun, nofun, nofun, nofun⟩) hreads

theorem codes_ea (hrow : rowOf op = { op := op, mnemonic := mn, pat := pat, mask := mask, ea := some cls })
    (hbits : w &&& mask = pat) (h : ea.wf sz cls = true) (hea : ea.field6 = field w 0 6)
    (hreads : Reads (decodeOperands op w 0) ws i) : Codes op w ws i :=
  codes_field hrow hbits (EaField.wf_of_field6 h hea) hreads

theorem codes_eaGroup
    (hrow : rowOf op = { op := op, mnemonic := mn, pat := pat, mask := mask, ea := some cls, ext := some (m, p) })
    (hbits : w &&& mask = pat) (h : ea.wf sz cls = true) (hea : ea.field6 = field w 0 6)
    (hw2 : w2 &&& m = p) (hreads : Reads (decodeOperands op w w2) ws i) : Codes op w (w2 :: ws) i :=
  codes_of_group hrow rfl
    (admits_iff.2 ⟨hbits, ⟨nofun, nofun⟩, fun _ hcls => by cases hcls; exact EaField.wf_of_field6 h hea, nofun, nofun, nofun,
      nofun⟩) hw2 hreads

theorem codes_size (hrow : rowOf op = { op := op, mnemonic := mn, pat := pat, mask := mask, size := .at76 })
    (hbits : w &&& mask = pat) (hsz : sz.bits2 = field w 6 2) (hreads : Reads (decodeOperands op w 0) ws i) :
    Codes op w ws i :=
  codes_of_row hrow rfl
    (admits_iff.2 ⟨hbits, ⟨fun _ => hsz ▸ sz.bits2_ne, nofun⟩, nofun, nofun, nofun, nofun, nofun⟩) hreads

theorem codes_sizeField
    (hrow : rowOf op =
      { op := op, mnemonic := mn, pat := pat, mask := mask, size := .at76, ea := some cls, privileged := priv })
    (hbits : w &&& mask = pat) (hsz : sz.bits2 = field w 6 2) (hf : EaField.wf cls ⟨field w 3 3, field w 0 3⟩ = true)
    (hreads : Reads (decodeOperands op w 0) ws i) : Codes op w ws i :=
  codes_of_row hrow rfl
    (admits_iff.2 ⟨hbits, ⟨fun _ => hsz ▸ sz.bits2_ne, nofun⟩, fun _ hcls => by cases hcls; exact hf, nofun, nofun, nofun,
      nofun⟩) hreads

theorem codes_sizeEa
    (hrow : rowOf op =
      { op := op, mnemonic := mn, pat := pat, mask := mask, size := .at76, ea := some cls, anNotByte := an })
    (hbits : w &&& mask = pat) (hsz : sz.bits2 = field w 6 2) (h : ea.wf sz cls = true) (hea : ea.field6 = field w 0 6)
    (hreads : Reads (decodeOperands op w 0) ws i) : Codes op w ws i :=
  codes_of_row hrow rfl
    (admits_iff.2 ⟨hbits, ⟨fun _ => hsz ▸ sz.bits2_ne, nofun⟩, fun _ hcls => by cases hcls; exact EaField.wf_of_field6 h hea,
      nofun, fun _ => size_ne_of_field6 h hea hsz, nofun, nofun⟩) hreads

theorem codes_size109Group
    (hrow : rowOf op =
      { op := op, mnemonic := mn, pat := pat, mask := mask, size := .at109, ea := some cls, ext := some (m, p) })
    (hbits : w &&& mask = pat) (hsz : sz.bits2 = field w 9 2) (h : ea.wf sz cls = true) (hea : ea.field6 = field w 0 6)
    (hw2 : w2 &&& m = p) (hreads : Reads (decodeOperands op w w2) ws i) : Codes op w (w2 :: ws) i :=
  codes_of_group hrow rfl
    (admits_iff.2 ⟨hbits, ⟨nofun, fun _ => hsz ▸ sz.bits2_ne⟩, fun _ hcls => by cases hcls; exact EaField.wf_of_field6 h hea,
      nofun, nofun, nofun, nofun⟩) hw2 hreads

theorem codes_move
    (hrow : rowOf op = { op := op, mnemonic := mn, pat := pat, mask := mask, ea := some cls, dst := some cls' })
    (hbits : w &&& mask = pat) (h : ea.wf sz cls = true) (hea : ea.field6 = field w 0 6)
    (h' : dst.wf sz' cls' = true) (hdst : dst.dstField6 = field w 6 6)
    (hreads : Reads (decodeOperands op w 0) ws i) : Codes op w ws i := by
  have hf : EaField.wf cls' ⟨field w 6 3, field w 9 3⟩ = true := by
    obtain ⟨hreg, hmode⟩ := append_eq_field.1 hdst
    rw [← hmode, ← hreg]
    exact EaField.wf_of_ea h'
  exact codes_of_row hrow rfl
    (admits_iff.2 ⟨hbits, ⟨nofun, nofun⟩, fun _ hcls => by cases hcls; exact EaField.wf_of_field6 h hea,
      fun _ hcls => by cases hcls; exact hf, nofun, nofun, nofun⟩) hreads

theorem codes_trapcc {o : TrapccOperand}
    (hrow : rowOf op = { op := op, mnemonic := mn, pat := pat, mask := mask, cond := .trapcc })
    (hbits : w &&& mask = pat) (ho : o.bits = field w 0 3) (hreads : Reads (decodeOperands op w 0) ws i) :
    Codes op w ws i := by
  have hcount : field w 0 3 = 0b010 ∨ field w 0 3 = 0b011 ∨ field w 0 3 = 0b100 := by
    rw [← ho]
    cases o <;> simp [TrapccOperand.bits]
  exact codes_of_row hrow rfl
    (admits_iff.2 ⟨hbits, ⟨nofun, nofun⟩, nofun, nofun, nofun, nofun, fun _ => hcount⟩) hreads

theorem codes_bcc {c : Cond}
    (hrow : rowOf op = { op := op, mnemonic := mn, pat := pat, mask := mask, cond := .branch })
    (hbits : w &&& mask = pat) (hcond : (c != .t && c != .f) = true) (hc : c.bits = field w 8 4)
    (hreads : Reads (decodeOperands op w 0) ws i) : Codes op w ws i := by
  have hne : field w 9 3 ≠ 0 := by
    rw [show field w 9 3 = c.bits.extractLsb' 1 3 by rw [hc, field_extractLsb' (by decide)]]
    revert hcond
    cases c <;> decide
  exact codes_of_row hrow rfl (admits_iff.2 ⟨hbits, ⟨nofun, nofun⟩, nofun, nofun, nofun, fun _ => hne, nofun⟩) hreads

end Codes

theorem eq_eaFieldOf {w : Word16} {f : EaField} (h : f.bits = field w 0 6) : f = eaFieldOf w := by
  obtain ⟨mode, reg⟩ := f
  obtain ⟨rfl, rfl⟩ := append_eq_field.1 h
  rfl

/-- The row an instruction is encoded by. -/
def Instr.op : Instr → Op
  | .ori _ _ _ => .ori | .oriToCcr _ => .oriToCcr | .oriToSr => .oriToSr | .andi _ _ _ => .andi
  | .andiToCcr _ => .andiToCcr | .andiToSr => .andiToSr | .eori _ _ _ => .eori | .eoriToCcr _ => .eoriToCcr
  | .eoriToSr => .eoriToSr | .subi _ _ _ => .subi | .addi _ _ _ => .addi | .cmpi _ _ _ => .cmpi | .cmp2 _ _ _ => .cmp2
  | .chk2 _ _ _ => .chk2 | .rtm _ => .rtm | .callm _ _ => .callm | .btstImm _ _ => .btstImm | .btstReg _ _ => .btstReg
  | .bchgImm _ _ => .bchgImm | .bchgReg _ _ => .bchgReg | .bclrImm _ _ => .bclrImm | .bclrReg _ _ => .bclrReg
  | .bsetImm _ _ => .bsetImm | .bsetReg _ _ => .bsetReg | .movep _ _ _ _ _ => .movep | .moves _ _ => .moves
  | .casB _ _ _ => .casB | .casW _ _ _ => .casW | .casL _ _ _ => .casL | .cas2W _ _ => .cas2W | .cas2L _ _ => .cas2L
  | .moveB _ _ => .moveB | .moveW _ _ => .moveW | .moveL _ _ => .moveL | .moveaW _ _ => .moveaW
  | .moveaL _ _ => .moveaL | .negx _ _ => .negx | .clr _ _ => .clr | .neg _ _ => .neg | .notEa _ _ => .notEa
  | .moveFromSr _ => .moveFromSr | .moveFromCcr _ => .moveFromCcr | .moveToCcr _ => .moveToCcr
  | .moveToSr _ => .moveToSr | .chkW _ _ => .chkW | .chkL _ _ => .chkL | .lea _ _ => .lea | .nbcd _ => .nbcd
  | .linkL _ _ => .linkL | .swap _ => .swap | .bkpt _ => .bkpt | .pea _ => .pea | .extW _ => .extW | .extL _ => .extL
  | .extbL _ => .extbL | .movemToMem _ _ _ => .movemToMem | .movemToReg _ _ _ => .movemToReg | .tst _ _ => .tst
  | .tas _ => .tas | .illegal => .illegal | .muluL _ _ _ => .muluL | .mulsL _ _ _ => .mulsL | .divuL _ _ _ _ => .divuL
  | .divsL _ _ _ _ => .divsL | .trap _ => .trap | .linkW _ _ => .linkW | .unlk _ => .unlk | .moveToUsp _ => .moveToUsp
  | .moveFromUsp _ => .moveFromUsp | .reset => .reset | .nop => .nop | .stop => .stop | .rte => .rte | .rtd _ => .rtd
  | .rts => .rts | .trapv => .trapv | .rtr => .rtr | .movec _ => .movec | .jsr _ => .jsr | .jmp _ => .jmp
  | .addq _ _ _ => .addq | .subq _ _ _ => .subq | .scc _ _ => .scc | .dbcc _ _ _ => .dbcc | .trapcc _ _ => .trapcc
  | .bra _ => .bra | .bsr _ => .bsr | .bcc _ _ => .bcc | .moveq _ _ => .moveq | .orToReg _ _ _ => .orToReg
  | .orToEa _ _ _ => .orToEa | .sbcd _ _ _ => .sbcd | .andToReg _ _ _ => .andToReg | .andToEa _ _ _ => .andToEa
  | .abcd _ _ _ => .abcd | .divuW _ _ => .divuW | .divsW _ _ => .divsW | .pack _ _ _ _ => .pack
  | .unpk _ _ _ _ => .unpk | .muluW _ _ => .muluW | .mulsW _ _ => .mulsW | .exgDD _ _ => .exgDD | .exgAA _ _ => .exgAA
  | .exgDA _ _ => .exgDA | .subToReg _ _ _ => .subToReg | .subToEa _ _ _ => .subToEa | .subaW _ _ => .subaW
  | .subaL _ _ => .subaL | .subx _ _ _ _ => .subx | .addToReg _ _ _ => .addToReg | .addToEa _ _ _ => .addToEa
  | .addaW _ _ => .addaW | .addaL _ _ => .addaL | .addx _ _ _ _ => .addx | .cmp _ _ _ => .cmp | .cmpaW _ _ => .cmpaW
  | .cmpaL _ _ => .cmpaL | .eor _ _ _ => .eor | .cmpm _ _ _ => .cmpm | .asrReg _ _ _ => .asrReg | .asrMem _ => .asrMem
  | .aslReg _ _ _ => .aslReg | .aslMem _ => .aslMem | .lsrReg _ _ _ => .lsrReg | .lsrMem _ => .lsrMem
  | .lslReg _ _ _ => .lslReg | .lslMem _ => .lslMem | .roxrReg _ _ _ => .roxrReg | .roxrMem _ => .roxrMem
  | .roxlReg _ _ _ => .roxlReg | .roxlMem _ => .roxlMem | .rorReg _ _ _ => .rorReg | .rorMem _ => .rorMem
  | .rolReg _ _ _ => .rolReg | .rolMem _ => .rolMem | .bftst _ _ => .bftst | .bfextu _ _ _ => .bfextu
  | .bfchg _ _ => .bfchg | .bfexts _ _ _ => .bfexts | .bfclr _ _ => .bfclr | .bfffo _ _ _ => .bfffo
  | .bfset _ _ => .bfset | .bfins _ _ _ => .bfins | .lineA _ => .lineA | .lineF _ => .lineF

/-- The second word of a long multiply: its fixed fields, and the form its bit 10 selects (R132). -/
theorem product_word {dl : RegNo} {form : Product} {signed : BitVec 1} {w2 : Word16} (h : form.word dl signed = w2) :
    0 = field w2 15 1 ∧ dl = field w2 12 3 ∧ signed = field w2 11 1 ∧ 0 = field w2 3 7 ∧ form = productOf w2 := by
  unfold productOf
  cases form with
  | narrow =>
    obtain ⟨hhigh, hdl, hsigned, hform, hrest⟩ := word_1_3_1_1_10.1 h
    obtain ⟨hlow, -⟩ := (append_eq_field (a := (0 : BitVec 7)) (b := (0 : BitVec 3))).1 hrest
    rw [if_pos hform.symm]
    exact ⟨hhigh, hdl, hsigned, hlow, rfl⟩
  | wide dh =>
    obtain ⟨hhigh, hdl, hsigned, hform, hlow, rfl⟩ := word_1_3_1_1_7_3.1 h
    rw [if_neg (by rw [← hform]; decide)]
    exact ⟨hhigh, hdl, hsigned, hlow, rfl⟩

theorem setWidth_byte (b : BitVec 8) : (b.setWidth 16).setWidth 8 = b :=
  (BitVec.setWidth_setWidth_of_le b (by decide)).trans (BitVec.setWidth_eq b)

theorem codes_extWords {i : Instr} {w : Word16} (hwf : i.wf = true) (hw : opcodeWord i = w) : Codes i.op w (extWords i) i := by
  cases i
  case oriToSr | andiToSr | eoriToSr | illegal | reset | nop | stop | rte | rts | trapv | rtr =>
    exact codes_word rfl hw .pure
  case rtd d =>
    exact codes_word rfl hw (.next .pure)
  case oriToCcr imm | andiToCcr imm | eoriToCcr imm =>
    refine codes_word rfl hw (.next ?_)
    rw [setWidth_byte]
    exact .pure
  case ori sz imm dst | andi sz imm dst | eori sz imm dst | subi sz imm dst | addi sz imm dst | cmpi sz imm dst =>
    obtain ⟨himm, hdst⟩ := Bool.and_eq_true_iff.1 hwf
    obtain ⟨hc, hsz, hea⟩ := word_8_2_6.1 hw
    obtain rfl := eq_size76 hsz
    exact codes_sizeEa rfl (and_eq_of_run₁ hc rfl rfl) hsz hdst hea ((reads_decodeImm himm).bind (reads_decodeSrc hdst hea).map)
  case negx sz ea | clr sz ea | neg sz ea | notEa sz ea | tst sz ea =>
    obtain ⟨hc, hsz, hea⟩ := word_8_2_6.1 hw
    obtain rfl := eq_size76 hsz
    exact codes_sizeEa rfl (and_eq_of_run₁ hc rfl rfl) hsz hwf hea ((reads_decodeSrc hwf hea).map)
  case cas2W o₁ o₂ | cas2L o₁ o₂ =>
    exact codes_word rfl hw ((reads_decodeCas2Operand o₁).bind (reads_decodeCas2Operand o₂).map)
  case rtm rn =>
    obtain ⟨hc, hrn⟩ := word_12_4.1 hw
    obtain rfl := eq_regSel hrn
    exact codes_plain rfl (and_eq_of_run₁ hc rfl rfl) .pure
  case trap v =>
    obtain ⟨hc, rfl⟩ := word_12_4.1 hw
    exact codes_plain rfl (and_eq_of_run₁ hc rfl rfl) .pure
  case lineA bits | lineF bits =>
    obtain ⟨hc, rfl⟩ := word_4_12.1 hw
    exact codes_plain rfl (and_eq_of_run₁ hc rfl rfl) .pure
  case swap n | bkpt n | extW n | extL n | extbL n | unlk n | moveToUsp n | moveFromUsp n =>
    obtain ⟨hc, rfl⟩ := word_13_3.1 hw
    exact codes_plain rfl (and_eq_of_run₁ hc rfl rfl) .pure
  case linkW n d =>
    obtain ⟨hc, rfl⟩ := word_13_3.1 hw
    exact codes_plain rfl (and_eq_of_run₁ hc rfl rfl) (.next .pure)
  case linkL n d =>
    obtain ⟨hc, rfl⟩ := word_13_3.1 hw
    exact codes_plain rfl (and_eq_of_run₁ hc rfl rfl) ((reads_nextLong d).map)
  case movec toControl =>
    obtain ⟨hc, hto⟩ := word_15_1.1 hw
    obtain rfl := eq_of_bit1 hto
    exact codes_plain rfl (and_eq_of_run₁ hc rfl rfl) .pure
  case moves sz f =>
    obtain ⟨hc, hsz, hf⟩ := word_8_2_6.1 hw
    obtain rfl := eq_size76 hsz
    obtain rfl := eq_eaFieldOf hf
    exact codes_sizeField rfl (and_eq_of_run₁ hc rfl rfl) hsz hwf .pure
  case moveFromSr f | moveToSr f =>
    obtain ⟨hc, hf⟩ := word_10_6.1 hw
    obtain rfl := eq_eaFieldOf hf
    exact codes_field rfl (and_eq_of_run₁ hc rfl rfl) hwf .pure
  case moveFromCcr ea | moveToCcr ea | nbcd ea | tas ea | pea ea | jsr ea | jmp ea | asrMem ea | aslMem ea | lsrMem ea
      | lslMem ea | roxrMem ea | roxlMem ea | rorMem ea | rolMem ea =>
    obtain ⟨hc, hea⟩ := word_10_6.1 hw
    exact codes_ea rfl (and_eq_of_run₁ hc rfl rfl) hwf hea ((reads_decodeSrc hwf hea).map)
  case callm arg ea =>
    obtain ⟨hc, hea⟩ := word_10_6.1 hw
    exact codes_ea rfl (and_eq_of_run₁ hc rfl rfl) hwf hea (.next (reads_decodeSrc hwf hea).map)
  case btstImm n ea | bchgImm n ea | bclrImm n ea | bsetImm n ea =>
    obtain ⟨hc, hea⟩ := word_10_6.1 hw
    refine codes_ea rfl (and_eq_of_run₁ hc rfl rfl) hwf hea (.next ?_)
    rw [setWidth_byte]
    exact (reads_decodeSrc hwf hea).map
  case bftst bf ea | bfchg bf ea | bfclr bf ea | bfset bf ea =>
    obtain ⟨hc, hea⟩ := word_10_6.1 hw
    exact codes_ea rfl (and_eq_of_run₁ hc rfl rfl) hwf hea ((reads_decodeBf bf).bind (reads_decodeSrc hwf hea).map)
  case bfextu bf ea n | bfexts bf ea n | bfffo bf ea n | bfins bf n ea =>
    obtain ⟨hc, hea⟩ := word_10_6.1 hw
    exact codes_ea rfl (and_eq_of_run₁ hc rfl rfl) hwf hea ((reads_decodeBfReg bf n).bind (reads_decodeSrc hwf hea).map)
  case movemToMem sz mask ea | movemToReg sz mask ea =>
    obtain ⟨hbyte, hea⟩ := Bool.and_eq_true_iff.1 hwf
    obtain ⟨hc, hsz, h6⟩ := word_9_1_6.1 hw
    obtain rfl := eq_size6 hbyte hsz
    exact codes_ea rfl (and_eq_of_run₁ hc rfl rfl) hea h6 (.next (reads_decodeSrc hea h6).map)
  case btstReg n ea | bchgReg n ea | bclrReg n ea | bsetReg n ea | moveaW ea n | moveaL ea n | chkW ea n | chkL ea n | lea ea n
      | divuW ea n | divsW ea n | muluW ea n | mulsW ea n | subaW ea n | subaL ea n | addaW ea n | addaL ea n | cmpaW ea n
      | cmpaL ea n =>
    obtain ⟨hc, rfl, ho, hea⟩ := word_4_3_3_6.1 hw
    exact codes_ea rfl (and_eq_of_run₂ hc ho rfl rfl) hwf hea ((reads_decodeSrc hwf hea).map)
  case orToReg sz ea n | andToReg sz ea n | subToReg sz ea n | addToReg sz ea n | cmp sz ea n | orToEa sz n ea | andToEa sz n ea
      | subToEa sz n ea | addToEa sz n ea | eor sz n ea =>
    obtain ⟨hc, rfl, ho, hsz, hea⟩ := word_4_3_1_2_6.1 hw
    obtain rfl := eq_size76 hsz
    exact codes_sizeEa rfl (and_eq_of_run₂ hc ho rfl rfl) hsz hwf hea ((reads_decodeSrc hwf hea).map)
  case addq sz q ea | subq sz q ea =>
    obtain ⟨hq, hea⟩ := Bool.and_eq_true_iff.1 hwf
    obtain ⟨hc, hdata, ho, hsz, h6⟩ := word_4_3_1_2_6.1 hw
    obtain rfl := eq_size76 hsz
    obtain rfl := eq_quickOf hq hdata
    exact codes_sizeEa rfl (and_eq_of_run₂ hc ho rfl rfl) hsz hea h6 ((reads_decodeSrc hea h6).map)
  case scc c ea =>
    obtain ⟨hc, hcond, ho, hea⟩ := word_4_4_2_6.1 hw
    obtain rfl := eq_condOf hcond
    exact codes_ea rfl (and_eq_of_run₂ hc ho rfl rfl) hwf hea ((reads_decodeSrc hwf hea).map)
  case dbcc c n d =>
    obtain ⟨hc, hcond, ho, rfl⟩ := word_4_4_5_3.1 hw
    obtain rfl := eq_condOf hcond
    exact codes_plain rfl (and_eq_of_run₂ hc ho rfl rfl) (.next .pure)
  case trapcc c o =>
    obtain ⟨hc, hcond, hlow, ho⟩ := word_4_4_5_3.1 hw
    obtain rfl := eq_condOf hcond
    exact codes_trapcc rfl (and_eq_of_run₂ hc hlow rfl rfl) ho ((reads_decodeTrapcc ho).map)
  case bra d | bsr d =>
    obtain ⟨hc, hd⟩ := word_8_8.1 hw
    exact codes_plain rfl (and_eq_of_run₁ hc rfl rfl) ((reads_decodeBranch hwf hd).map)
  case bcc c d =>
    obtain ⟨hcond, hdisp⟩ := Bool.and_eq_true_iff.1 hwf
    obtain ⟨hc, hbits, hd⟩ := word_4_4_8.1 hw
    refine codes_bcc rfl (and_eq_of_run₁ hc rfl rfl) hcond hbits ?_
    obtain rfl := eq_condOf hbits
    exact (reads_decodeBranch hdisp hd).map
  case moveq imm n =>
    obtain ⟨hc, rfl, ho, himm⟩ := word_4_3_1_8.1 hw
    obtain rfl : (field w 0 8).signExtend 32 = imm := by rw [← himm]; exact beq_iff_eq.1 hwf
    exact codes_plain rfl (and_eq_of_run₂ hc ho rfl rfl) .pure
  case sbcd mem x y | abcd mem x y =>
    obtain ⟨hc, rfl, ho, hmem, rfl⟩ := word_4_3_5_1_3.1 hw
    obtain rfl := eq_of_bit1 hmem
    exact codes_plain rfl (and_eq_of_run₂ hc ho rfl rfl) .pure
  case pack mem x y adj | unpk mem x y adj =>
    obtain ⟨hc, rfl, ho, hmem, rfl⟩ := word_4_3_5_1_3.1 hw
    obtain rfl := eq_of_bit1 hmem
    exact codes_plain rfl (and_eq_of_run₂ hc ho rfl rfl) (.next .pure)
  case exgDD x y | exgAA x y | exgDA x y =>
    obtain ⟨hc, rfl, ho, rfl⟩ := word_4_3_6_3.1 hw
    exact codes_plain rfl (and_eq_of_run₂ hc ho rfl rfl) .pure
  case subx sz mem x y | addx sz mem x y =>
    obtain ⟨hc, rfl, ho, hsz, hlow, hmem, rfl⟩ := word_4_3_1_2_2_1_3.1 hw
    obtain rfl := eq_size76 hsz
    obtain rfl := eq_of_bit1 hmem
    exact codes_size rfl (and_eq_of_run₃ hc ho hlow rfl rfl) hsz .pure
  case cmpm sz x y =>
    obtain ⟨hc, rfl, ho, hsz, hlow, rfl⟩ := word_4_3_1_2_3_3.1 hw
    obtain rfl := eq_size76 hsz
    exact codes_size rfl (and_eq_of_run₃ hc ho hlow rfl rfl) hsz .pure
  case movep toMem sz dx ay d =>
    obtain ⟨hc, rfl, ho, hto, hsz, hlow, rfl⟩ := word_4_3_1_1_1_3_3.1 hw
    obtain rfl := eq_of_bit1 hto
    obtain rfl := eq_size6 hwf hsz
    exact codes_plain rfl (and_eq_of_run₃ hc ho hlow rfl rfl) (.next .pure)
  case asrReg sz c n | aslReg sz c n | lsrReg sz c n | lslReg sz c n | roxrReg sz c n | roxlReg sz c n | rorReg sz c n
      | rolReg sz c n =>
    obtain ⟨hc, hcount, ho, hsz, hir, htt, rfl⟩ := word_4_3_1_2_1_2_3.1 hw
    obtain rfl := eq_size76 hsz
    obtain rfl := eq_shiftCountOf hwf hcount hir
    exact codes_size rfl (and_eq_of_run₃ hc ho htt rfl rfl) hsz .pure
  case moveB src dst | moveW src dst | moveL src dst =>
    obtain ⟨hsrc, hdst⟩ := Bool.and_eq_true_iff.1 hwf
    obtain ⟨hc, hhigh, hlow⟩ := word_4_6_6.1 hw
    exact codes_move rfl (and_eq_of_run₁ hc rfl rfl) hsrc hlow hdst hhigh
      ((reads_decodeSrc hsrc hlow).bind (reads_decodeDst hdst hhigh).map)
  case cmp2 sz rn ea =>
    obtain ⟨hc, hsz, ho, hea⟩ := word_5_2_3_6.1 hw
    obtain rfl := eq_size109 hsz
    show Codes .cmp2 w ((rn.bits ++ (0 : BitVec 12)) :: _) _
    generalize hw2 : rn.bits ++ (0 : BitVec 12) = w2
    obtain ⟨hrn, hlow⟩ := word_4_12.1 hw2
    obtain rfl := eq_regSel hrn
    exact codes_size109Group rfl (and_eq_of_run₂ hc ho rfl rfl) hsz hwf hea (and_eq_of_run₁ hlow rfl rfl)
      (reads_decodeSrc hwf hea).map
  case chk2 sz rn ea =>
    obtain ⟨hc, hsz, ho, hea⟩ := word_5_2_3_6.1 hw
    obtain rfl := eq_size109 hsz
    show Codes .chk2 w ((rn.bits ++ (1 : BitVec 1) ++ (0 : BitVec 11)) :: _) _
    generalize hw2 : rn.bits ++ (1 : BitVec 1) ++ (0 : BitVec 11) = w2
    obtain ⟨hrn, hchk, hlow⟩ := word_4_1_11.1 hw2
    obtain rfl := eq_regSel hrn
    exact codes_size109Group rfl (and_eq_of_run₂ hc ho rfl rfl) hsz hwf hea (and_eq_of_run₂ hchk hlow rfl rfl)
      (reads_decodeSrc hwf hea).map
  case casB dc du ea | casW dc du ea | casL dc du ea =>
    obtain ⟨hc, hea⟩ := word_10_6.1 hw
    show Codes _ w (((0 : BitVec 7) ++ du ++ (0 : BitVec 3) ++ dc) :: _) _
    generalize hw2 : (0 : BitVec 7) ++ du ++ (0 : BitVec 3) ++ dc = w2
    obtain ⟨hhigh, rfl, hlow, rfl⟩ := word_7_3_3_3.1 hw2
    exact codes_eaGroup rfl (and_eq_of_run₁ hc rfl rfl) hwf hea (and_eq_of_run₂ hhigh hlow rfl rfl)
      (reads_decodeSrc hwf hea).map
  case muluL dl form ea =>
    obtain ⟨hc, hea⟩ := word_10_6.1 hw
    show Codes _ w (form.word dl 0 :: _) _
    generalize hw2 : form.word dl 0 = w2
    obtain ⟨hhigh, rfl, hsigned, hlow, rfl⟩ := product_word hw2
    exact codes_eaGroup rfl (and_eq_of_run₁ hc rfl rfl) hwf hea (and_eq_of_run₃ hhigh hsigned hlow rfl rfl)
      (reads_decodeSrc hwf hea).map
  case mulsL dl form ea =>
    obtain ⟨hc, hea⟩ := word_10_6.1 hw
    show Codes _ w (form.word dl 1 :: _) _
    generalize hw2 : form.word dl 1 = w2
    obtain ⟨hhigh, rfl, hsigned, hlow, rfl⟩ := product_word hw2
    exact codes_eaGroup rfl (and_eq_of_run₁ hc rfl rfl) hwf hea (and_eq_of_run₃ hhigh hsigned hlow rfl rfl)
      (reads_decodeSrc hwf hea).map
  case divuL dq wide dr ea =>
    obtain ⟨hc, hea⟩ := word_10_6.1 hw
    show Codes _ w (divWord dq 0 wide dr :: _) _
    generalize hw2 : divWord dq 0 wide dr = w2
    obtain ⟨hhigh, rfl, hsigned, hwide, hlow, rfl⟩ := word_1_3_1_1_7_3.1 hw2
    obtain rfl := eq_of_bit1 hwide
    exact codes_eaGroup rfl (and_eq_of_run₁ hc rfl rfl) hwf hea (and_eq_of_run₃ hhigh hsigned hlow rfl rfl)
      (reads_decodeSrc hwf hea).map
  case divsL dq wide dr ea =>
    obtain ⟨hc, hea⟩ := word_10_6.1 hw
    show Codes _ w (divWord dq 1 wide dr :: _) _
    generalize hw2 : divWord dq 1 wide dr = w2
    obtain ⟨hhigh, rfl, hsigned, hwide, hlow, rfl⟩ := word_1_3_1_1_7_3.1 hw2
    obtain rfl := eq_of_bit1 hwide
    exact codes_eaGroup rfl (and_eq_of_run₁ hc rfl rfl) hwf hea (and_eq_of_run₃ hhigh hsigned hlow rfl rfl)
      (reads_decodeSrc hwf hea).map

/-! ### Decoding an encoded instruction -/

/-- Settles O2: the row of the instruction admits its opcode word, so it is the row decoded, and it reads the words after. -/
theorem decodeEncode : Obligations.DecodeEncode := by
  intro i rest hwf
  obtain ⟨hadm, hreads⟩ := codes_extWords hwf rfl
  show decode (opcodeWord i :: (extWords i ++ rest)) = _
  cases hext : (rowOf i.op).ext with
  | none =>
    rw [hext] at hreads
    rw [decode_of_admits hadm hext]
    exact hreads rest
  | some e =>
    obtain ⟨m, p⟩ := e
    rw [hext] at hreads
    obtain ⟨w2, tail, hws, hw2, htail⟩ := hreads
    rw [hws, List.cons_append, decode_of_acceptsExt hadm (by rw [hext]; rfl) ((acceptsExt_iff hext).2 hw2)]
    exact htail rest

end Sys2Proof
end

section
/-! PROOFS. The encoding's statements over words and steps: words of the table (O1), an encoded instruction at PC (O5), the
privileged instructions (O59). -/

namespace Sys2Proof.Machine

open Sys2Proof

/-- Settles O1: the decoder evaluates on each list of words. -/
theorem decodeSpecWords : Obligations.DecodeSpecWords := by
  refine ⟨rfl, rfl, rfl, rfl, rfl, rfl, rfl, rfl, rfl, rfl, rfl, rfl, rfl, rfl, rfl, rfl, rfl, rfl, rfl, rfl, rfl, rfl, rfl,
    rfl, rfl, rfl, rfl, rfl, rfl, rfl⟩

/-! ### Encoded instructions at PC -/

open Laws.Length in
/-- An instruction has at most ten extension words (R121). -/
theorem extWords_length_le : ∀ i : Instr, (extWords i).length ≤ 10
  | .ori sz v ea | .andi sz v ea | .eori sz v ea | .subi sz v ea | .addi sz v ea | .cmpi sz v ea =>
    List.length_append ▸ (Nat.add_le_add (immWords_length sz v) (ea_length sz ea)).trans (by decide)
  | .moveB src dst | .moveW src dst | .moveL src dst =>
    List.length_append ▸ Nat.add_le_add (ea_length _ src) (ea_length _ dst)
  | .cmp2 _ _ ea | .chk2 _ _ ea | .callm _ ea | .btstImm _ ea | .bchgImm _ ea | .bclrImm _ ea | .bsetImm _ ea
  | .casB _ _ ea | .casW _ _ ea | .casL _ _ ea | .movemToMem _ _ ea | .movemToReg _ _ ea | .muluL _ _ ea | .mulsL _ _ ea
  | .divuL _ _ _ ea | .divsL _ _ _ ea | .bftst _ ea | .bfchg _ ea | .bfclr _ ea | .bfset _ ea | .bfextu _ ea _
  | .bfexts _ ea _ | .bfffo _ ea _ | .bfins _ _ ea => (Nat.succ_le_succ (ea_length _ ea)).trans (by decide)
  | .btstReg _ ea | .bchgReg _ ea | .bclrReg _ ea | .bsetReg _ ea | .moveaW ea _ | .moveaL ea _ | .negx _ ea | .clr _ ea
  | .neg _ ea | .notEa _ ea | .moveFromCcr ea | .moveToCcr ea | .chkW ea _ | .chkL ea _ | .lea ea _ | .pea ea | .jsr ea
  | .jmp ea | .nbcd ea | .tas ea | .tst _ ea | .addq _ _ ea | .subq _ _ ea | .scc _ ea | .orToReg _ ea _ | .andToReg _ ea _
  | .subToReg _ ea _ | .addToReg _ ea _ | .cmp _ ea _ | .orToEa _ _ ea | .andToEa _ _ ea | .subToEa _ _ ea | .addToEa _ _ ea
  | .eor _ _ ea | .divuW ea _ | .divsW ea _ | .muluW ea _ | .mulsW ea _ | .subaW ea _ | .addaW ea _ | .cmpaW ea _
  | .subaL ea _ | .addaL ea _ | .cmpaL ea _ | .asrMem ea | .aslMem ea | .lsrMem ea | .lslMem ea | .roxrMem ea | .roxlMem ea
  | .rorMem ea | .rolMem ea => (ea_length _ ea).trans (by decide)
  | .trapcc _ o => (trapcc_length o).trans (by decide)
  | .bra d | .bsr d | .bcc _ d => (branch_length d).trans (by decide)
  | .linkL _ _ | .cas2W _ _ | .cas2L _ _ => show 2 ≤ 10 by decide
  | .oriToCcr _ | .andiToCcr _ | .eoriToCcr _ | .movep _ _ _ _ _ | .linkW _ _ | .rtd _ | .dbcc _ _ _ | .pack _ _ _ _
  | .unpk _ _ _ _ => show 1 ≤ 10 by decide
  | .oriToSr | .andiToSr | .eoriToSr | .rtm _ | .moves _ _ | .moveFromSr _ | .moveToSr _ | .swap _ | .bkpt _ | .extW _
  | .extL _ | .extbL _ | .illegal | .trap _ | .unlk _ | .moveToUsp _ | .moveFromUsp _ | .reset | .nop | .stop | .rte | .rts
  | .trapv | .rtr | .movec _ | .moveq _ _ | .sbcd _ _ _ | .abcd _ _ _ | .exgDD _ _ | .exgAA _ _ | .exgDA _ _
  | .subx _ _ _ _ | .addx _ _ _ _ | .cmpm _ _ _ | .asrReg _ _ _ | .aslReg _ _ _ | .lsrReg _ _ _ | .lslReg _ _ _
  | .roxrReg _ _ _ | .roxlReg _ _ _ | .rorReg _ _ _ | .rolReg _ _ _ | .lineA _ | .lineF _ => Nat.zero_le _

/-- The window begins with any words that stand at its address and can be fetched. -/
theorem fetchWindow_append {s : State} {ws : List Word16} : ∀ {m : Nat} {a : Addr}, ws.length ≤ m →
    (∀ j < ws.length, fetchCheck s (a + BitVec.ofNat 32 (2 * j)) = none ∧
      ws[j]? = some (s.wordAt (a + BitVec.ofNat 32 (2 * j)))) →
    ∃ rest, (fetchWindow s m a).1 = ws ++ rest := by
  induction ws with
  | nil => exact fun _ _ => ⟨_, rfl⟩
  | cons w ws ih =>
    intro m a hm hws
    obtain ⟨m, rfl⟩ : ∃ k, m = k + 1 := ⟨m - 1, by simp at hm; omega⟩
    have hnext (j : Nat) : a + 2 + BitVec.ofNat 32 (2 * j) = a + BitVec.ofNat 32 (2 * (j + 1)) := by
      rw [BitVec.add_assoc, Nat.mul_add, Nat.add_comm, ← BitVec.ofNat_add_ofNat]
      rfl
    obtain ⟨hcheck, hw⟩ := hws 0 (Nat.succ_pos _)
    obtain ⟨rest, hrest⟩ := ih (m := m) (a := a + 2) (Nat.le_of_succ_le_succ hm) fun j hj => by
      rw [hnext]
      exact hws (j + 1) (Nat.succ_lt_succ hj)
    have hzero : a + BitVec.ofNat 32 (2 * 0) = a := BitVec.add_zero a
    rw [hzero] at hcheck hw
    simp only [fetchWindow, hcheck, hrest, Option.some.inj hw]
    exact ⟨rest, rfl⟩

/-- Settles O5: the window begins with the instruction's words, which decode to it, and the words left over are the rest. -/
theorem stepRunsEncoded : Obligations.StepRunsEncoded := by
  intro s i hs hwf hws
  obtain ⟨rest, hwindow⟩ := fetchWindow_append (ws := encode i) (m := maxWords) (Nat.succ_le_succ (extWords_length_le i)) hws
  have hdec : decode (fetchWindow s maxWords s.pc).1 = .ok i rest := by rw [hwindow, decodeEncode i rest hwf]
  rw [stepRunsDecoded s i rest hs hdec, hwindow, List.length_append, Nat.add_sub_cancel]

/-! ### Privileged instructions -/

/-- Settles O59: a privileged instruction has no extension word, and its body raises the violation at once. -/
theorem privileged : Obligations.Privileged := by
  have hdec {i : Instr} (hext : extWords i = []) (hwf : i.wf = true) : decode [opcodeWord i] = .ok i [] := by
    simpa only [encode, hext, List.append_nil] using decodeEncode i [] hwf
  have hhalt {i : Instr} (hexec : ∀ s, exec i s = runSeq i (raise .privilegeViolation) s) (s : State) :=
    exec_eq_halt (e := .privilegeViolation) (hexec s) rfl (by simp)
  rintro i (rfl | rfl | rfl | ⟨sz, ea, rfl⟩ | ⟨ea, rfl⟩ | ⟨ea, rfl⟩ | ⟨n, rfl⟩ | ⟨n, rfl⟩ | rfl | rfl | ⟨b, rfl⟩)
  all_goals exact ⟨hdec rfl, hhalt fun _ => rfl⟩

end Sys2Proof.Machine
end

section
/-! PROOFS. What the decoder answers is well formed and spelled by the words it took (O3): the rows again by their form, the
fields the row fixes and the fields the operands were read from put together to the opcode word. -/

namespace Sys2Proof

/-- A well-formed instruction with this opcode word and this many extension words. -/
def Fits (w : Word16) (i : Instr) (n : Nat) : Prop :=
  i.wf = true ∧ opcodeWord i = w ∧ n = (extWords i).length

/-- What the row answers for an opcode word fits it; in a group the second word is counted too. -/
def Answers (op : Op) (w : Word16) : Prop :=
  match (rowOf op).ext with
  | none => Yields (decodeOperands op w 0) (Fits w)
  | some _ => ∀ w2, Yields (decodeOperands op w w2) fun i n => Fits w i (n + 1)

/-! ### What a row asks of a word, by the row's form -/

section Answers

variable {op op' : Op} {mn : Mnemonic} {pat mask w : Word16} {cls cls' : EaClass} {an priv : Bool}
  {e : Word16 × Word16}

theorem answers_of_row {r : OpRow} (hrow : rowOf op = r) (hext : r.ext = none)
    (h : Yields (decodeOperands op w 0) (Fits w)) : Answers op w := by
  unfold Answers
  rw [hrow, hext]
  exact h

theorem answers_of_group {r : OpRow} (hrow : rowOf op = r) (hext : r.ext = some e)
    (h : ∀ w2, Yields (decodeOperands op w w2) fun i n => Fits w i (n + 1)) : Answers op w := by
  unfold Answers
  rw [hrow, hext]
  exact h

theorem answers_plain (hadm : (rowOf op).admits w = true)
    (hrow : rowOf op = { op := op', mnemonic := mn, pat := pat, mask := mask, privileged := priv })
    (h : w &&& mask = pat → Yields (decodeOperands op w 0) (Fits w)) : Answers op w := by
  obtain ⟨hbits, -⟩ := admits_iff.1 (hrow ▸ hadm)
  exact answers_of_row hrow rfl (h hbits)

theorem answers_field (hadm : (rowOf op).admits w = true)
    (hrow : rowOf op = { op := op', mnemonic := mn, pat := pat, mask := mask, ea := some cls, privileged := priv })
    (h : w &&& mask = pat → EaField.wf cls ⟨field w 3 3, field w 0 3⟩ = true →
      Yields (decodeOperands op w 0) (Fits w)) : Answers op w := by
  obtain ⟨hbits, -, hea, -⟩ := admits_iff.1 (hrow ▸ hadm)
  exact answers_of_row hrow rfl (h hbits (hea _ rfl))

theorem answers_fieldGroup (hadm : (rowOf op).admits w = true)
    (hrow : rowOf op = { op := op', mnemonic := mn, pat := pat, mask := mask, ea := some cls, ext := some e })
    (h : w &&& mask = pat → EaField.wf cls ⟨field w 3 3, field w 0 3⟩ = true →
      ∀ w2, Yields (decodeOperands op w w2) fun i n => Fits w i (n + 1)) : Answers op w := by
  obtain ⟨hbits, -, hea, -⟩ := admits_iff.1 (hrow ▸ hadm)
  exact answers_of_group hrow rfl (h hbits (hea _ rfl))

theorem answers_size (hadm : (rowOf op).admits w = true)
    (hrow : rowOf op = { op := op', mnemonic := mn, pat := pat, mask := mask, size := .at76 })
    (h : w &&& mask = pat → (size76 w).bits2 = field w 6 2 → Yields (decodeOperands op w 0) (Fits w)) : Answers op w := by
  obtain ⟨hbits, ⟨hsz, -⟩, -⟩ := admits_iff.1 (hrow ▸ hadm)
  exact answers_of_row hrow rfl (h hbits (bits2_size76 (hsz rfl)))

theorem answers_sizeField (hadm : (rowOf op).admits w = true)
    (hrow : rowOf op =
      { op := op', mnemonic := mn, pat := pat, mask := mask, size := .at76, ea := some cls, privileged := priv })
    (h : w &&& mask = pat → (size76 w).bits2 = field w 6 2 → EaField.wf cls ⟨field w 3 3, field w 0 3⟩ = true →
      Yields (decodeOperands op w 0) (Fits w)) : Answers op w := by
  obtain ⟨hbits, ⟨hsz, -⟩, hea, -⟩ := admits_iff.1 (hrow ▸ hadm)
  exact answers_of_row hrow rfl (h hbits (bits2_size76 (hsz rfl)) (hea _ rfl))

theorem size76_ne_byte (h : field w 6 2 ≠ 0b00) : size76 w ≠ .b := by
  unfold size76
  rw [if_neg h]
  split <;> decide

/-- A row whose class has An, at W and L only. -/
theorem answers_sizeAn (hadm : (rowOf op).admits w = true)
    (hrow : rowOf op =
      { op := op', mnemonic := mn, pat := pat, mask := mask, size := .at76, ea := some cls, anNotByte := true })
    (h : w &&& mask = pat → (size76 w).bits2 = field w 6 2 → EaField.wf cls ⟨field w 3 3, field w 0 3⟩ = true →
      (field w 3 3 = 0b001 → size76 w ≠ .b) → Yields (decodeOperands op w 0) (Fits w)) : Answers op w := by
  obtain ⟨hbits, ⟨hsz, -⟩, hea, -, hbyte, -⟩ := admits_iff.1 (hrow ▸ hadm)
  exact answers_of_row hrow rfl
    (h hbits (bits2_size76 (hsz rfl)) (hea _ rfl) fun hmode => size76_ne_byte (hbyte rfl hmode))

theorem answers_size109Group (hadm : (rowOf op).admits w = true)
    (hrow : rowOf op =
      { op := op', mnemonic := mn, pat := pat, mask := mask, size := .at109, ea := some cls, ext := some e })
    (h : w &&& mask = pat → (size109 w).bits2 = field w 9 2 → EaField.wf cls ⟨field w 3 3, field w 0 3⟩ = true →
      ∀ w2, Yields (decodeOperands op w w2) fun i n => Fits w i (n + 1)) : Answers op w := by
  obtain ⟨hbits, ⟨-, hsz⟩, hea, -⟩ := admits_iff.1 (hrow ▸ hadm)
  exact answers_of_group hrow rfl (h hbits (bits2_size109 (hsz rfl)) (hea _ rfl))

theorem answers_move (hadm : (rowOf op).admits w = true)
    (hrow : rowOf op = { op := op', mnemonic := mn, pat := pat, mask := mask, ea := some cls, dst := some cls' })
    (h : w &&& mask = pat → EaField.wf cls ⟨field w 3 3, field w 0 3⟩ = true →
      EaField.wf cls' ⟨field w 6 3, field w 9 3⟩ = true → Yields (decodeOperands op w 0) (Fits w)) : Answers op w := by
  obtain ⟨hbits, -, hea, hdst, -⟩ := admits_iff.1 (hrow ▸ hadm)
  exact answers_of_row hrow rfl (h hbits (hea _ rfl) (hdst _ rfl))

theorem answers_trapcc (hadm : (rowOf op).admits w = true)
    (hrow : rowOf op = { op := op', mnemonic := mn, pat := pat, mask := mask, cond := .trapcc })
    (h : w &&& mask = pat → (field w 0 3 = 0b010 ∨ field w 0 3 = 0b011 ∨ field w 0 3 = 0b100) →
      Yields (decodeOperands op w 0) (Fits w)) : Answers op w := by
  obtain ⟨hbits, -, -, -, -, -, hcount⟩ := admits_iff.1 (hrow ▸ hadm)
  exact answers_of_row hrow rfl (h hbits (hcount rfl))

theorem answers_bcc (hadm : (rowOf op).admits w = true)
    (hrow : rowOf op = { op := op', mnemonic := mn, pat := pat, mask := mask, cond := .branch })
    (h : w &&& mask = pat → field w 9 3 ≠ 0 → Yields (decodeOperands op w 0) (Fits w)) : Answers op w := by
  obtain ⟨hbits, -, -, -, -, hcond, -⟩ := admits_iff.1 (hrow ▸ hadm)
  exact answers_of_row hrow rfl (h hbits (hcond rfl))

end Answers

/-- A condition of at least 2 is neither T nor F (R480). -/
theorem condOf_ne {w : Word16} (h : field w 9 3 ≠ 0) : (condOf (field w 8 4) != .t && condOf (field w 8 4) != .f) = true := by
  have hall : ∀ x : BitVec 4, x.extractLsb' 1 3 ≠ 0 → (condOf x != .t && condOf x != .f) = true := by decide
  exact hall _ (by rwa [field_extractLsb' (by decide)])

theorem setWidth_signExtend_byte (b : BitVec 8) : (b.signExtend 32).setWidth 8 = b :=
  BitVec.eq_of_getLsbD_eq fun k hk => by
    simp only [BitVec.getLsbD_setWidth, BitVec.getLsbD_signExtend, hk, show k < 32 by omega, decide_true, Bool.true_and,
      if_true]

/-- An operand of a class without An, or of a word or more. -/
theorem yields_decodeSrc_of {w : Word16} {sz : Size} {cls : EaClass}
    (hf : EaField.wf cls ⟨field w 3 3, field w 0 3⟩ = true) (hcls : cls.admits .an = false ∨ sz ≠ .b) :
    Yields (decodeSrc sz w) fun ea n => ea.wf sz cls = true ∧ ea.field6 = field w 0 6 ∧ n = (ea.words sz).length :=
  yields_decodeSrc hf fun han _ => hcls.resolve_left (by simp [han])

/-- An operand, then the instruction made of it. -/
theorem yields_ea {w : Word16} {sz : Size} {cls : EaClass} {g : EA → Instr} {q : Instr → Nat → Prop}
    (hf : EaField.wf cls ⟨field w 3 3, field w 0 3⟩ = true) (hcls : cls.admits .an = false ∨ sz ≠ .b)
    (h : ∀ ea, ea.wf sz cls = true → ea.field6 = field w 0 6 → q (g ea) (ea.words sz).length) :
    Yields (decodeSrc sz w >>= fun ea => pure (g ea)) q :=
  (yields_decodeSrc_of hf hcls).map fun ea _ ⟨hwf, h6, hn⟩ => hn ▸ h ea hwf h6

theorem answers_of_admits {op : Op} {w : Word16} (hadm : (rowOf op).admits w = true) : Answers op w := by
  cases op
  case oriToSr | andiToSr | eoriToSr | illegal | reset | nop | stop | rte | rts | trapv | rtr =>
    exact answers_plain hadm rfl fun hbits => .pure ⟨rfl, (hbits.symm.trans BitVec.and_allOnes), rfl⟩
  case rtd | oriToCcr | andiToCcr | eoriToCcr =>
    exact answers_plain hadm rfl fun hbits => .next fun _ => .pure ⟨rfl, (hbits.symm.trans BitVec.and_allOnes), rfl⟩
  case cas2W | cas2L =>
    exact answers_plain hadm rfl fun hbits => yields_decodeCas2Operand.bind fun o₁ n hn =>
      yields_decodeCas2Operand.map fun o₂ k hk => ⟨rfl, (hbits.symm.trans BitVec.and_allOnes), by rw [hn, hk]; rfl⟩
  case rtm =>
    exact answers_plain hadm rfl fun hbits =>
      .pure ⟨rfl, word_12_4.2 ⟨eq_field_of_and hbits rfl rfl, bits_regSel_field w 0⟩, rfl⟩
  case trap =>
    exact answers_plain hadm rfl fun hbits => .pure ⟨rfl, word_12_4.2 ⟨eq_field_of_and hbits rfl rfl, rfl⟩, rfl⟩
  case lineA | lineF =>
    exact answers_plain hadm rfl fun hbits => .pure ⟨rfl, word_4_12.2 ⟨eq_field_of_and hbits rfl rfl, rfl⟩, rfl⟩
  case swap | bkpt | extW | extL | extbL | unlk | moveToUsp | moveFromUsp =>
    exact answers_plain hadm rfl fun hbits => .pure ⟨rfl, word_13_3.2 ⟨eq_field_of_and hbits rfl rfl, rfl⟩, rfl⟩
  case linkW =>
    exact answers_plain hadm rfl fun hbits => .next fun _ =>
      .pure ⟨rfl, word_13_3.2 ⟨eq_field_of_and hbits rfl rfl, rfl⟩, rfl⟩
  case linkL =>
    exact answers_plain hadm rfl fun hbits => yields_nextLong.map fun _ _ hn =>
      ⟨rfl, word_13_3.2 ⟨eq_field_of_and hbits rfl rfl, rfl⟩, hn⟩
  case movec =>
    exact answers_plain hadm rfl fun hbits =>
      .pure ⟨rfl, word_15_1.2 ⟨eq_field_of_and hbits rfl rfl, bit1_decide _⟩, rfl⟩
  case moves =>
    exact answers_sizeField hadm rfl fun hbits hsz hf =>
      .pure ⟨hf, word_8_2_6.2 ⟨eq_field_of_and hbits rfl rfl, hsz, append_eq_field.2 ⟨rfl, rfl⟩⟩, rfl⟩
  case moveFromSr | moveToSr =>
    exact answers_field hadm rfl fun hbits hf =>
      .pure ⟨hf, word_10_6.2 ⟨eq_field_of_and hbits rfl rfl, append_eq_field.2 ⟨rfl, rfl⟩⟩, rfl⟩
  case moveFromCcr | moveToCcr | nbcd | tas | pea | jsr | jmp | asrMem | aslMem | lsrMem | lslMem | roxrMem | roxlMem | rorMem
      | rolMem =>
    exact answers_field hadm rfl fun hbits hf => yields_ea hf (by decide) fun ea hwf h6 =>
      ⟨hwf, word_10_6.2 ⟨eq_field_of_and hbits rfl rfl, h6⟩, rfl⟩
  case callm | btstImm | bchgImm | bclrImm | bsetImm =>
    exact answers_field hadm rfl fun hbits hf => .next fun _ => yields_ea hf (by decide) fun ea hwf h6 =>
      ⟨hwf, word_10_6.2 ⟨eq_field_of_and hbits rfl rfl, h6⟩, rfl⟩
  case bftst | bfchg | bfclr | bfset =>
    exact answers_field hadm rfl fun hbits hf => yields_decodeBf.bind fun bf n hn =>
      yields_ea hf (by decide) fun ea hwf h6 =>
        ⟨hwf, word_10_6.2 ⟨eq_field_of_and hbits rfl rfl, h6⟩, by rw [hn]; exact Nat.add_comm _ _⟩
  case bfextu | bfexts | bfffo | bfins =>
    exact answers_field hadm rfl fun hbits hf => yields_decodeBfReg.bind fun bf n hn =>
      yields_ea hf (by decide) fun ea hwf h6 =>
        ⟨hwf, word_10_6.2 ⟨eq_field_of_and hbits rfl rfl, h6⟩, by rw [hn]; exact Nat.add_comm _ _⟩
  case movemToMem | movemToReg =>
    exact answers_field hadm rfl fun hbits hf => .next fun _ => yields_ea hf (.inl rfl) fun ea hwf h6 =>
      ⟨Bool.and_eq_true_iff.2 ⟨size6_ne_byte w, hwf⟩,
        word_9_1_6.2 ⟨eq_field_of_and hbits rfl rfl, bit1_size6 w, h6⟩, rfl⟩
  case btstReg | bchgReg | bclrReg | bsetReg | moveaW | moveaL | chkW | chkL | lea | divuW | divsW | muluW | mulsW | subaW
      | subaL | addaW | addaL | cmpaW | cmpaL =>
    exact answers_field hadm rfl fun hbits hf => yields_ea hf (by decide) fun ea hwf h6 =>
      ⟨hwf, word_4_3_3_6.2 ⟨eq_field_of_and hbits rfl rfl, rfl, eq_field_of_and hbits rfl rfl, h6⟩, rfl⟩
  case ori | andi | eori | subi | addi | cmpi =>
    exact answers_sizeField hadm rfl fun hbits hsz hf => (yields_decodeImm _).bind fun v n ⟨hv, hn⟩ =>
      yields_ea hf (.inl rfl) fun ea hwf h6 =>
        ⟨Bool.and_eq_true_iff.2 ⟨hv, hwf⟩, word_8_2_6.2 ⟨eq_field_of_and hbits rfl rfl, hsz, h6⟩,
          by rw [hn]; exact List.length_append.symm⟩
  case negx | clr | neg | notEa =>
    exact answers_sizeField hadm rfl fun hbits hsz hf => yields_ea hf (.inl rfl) fun ea hwf h6 =>
      ⟨hwf, word_8_2_6.2 ⟨eq_field_of_and hbits rfl rfl, hsz, h6⟩, rfl⟩
  case tst =>
    exact answers_sizeAn hadm rfl fun hbits hsz hf hbyte => (yields_decodeSrc hf fun _ => hbyte).map fun ea n ⟨hwf, h6, hn⟩ =>
      ⟨hwf, word_8_2_6.2 ⟨eq_field_of_and hbits rfl rfl, hsz, h6⟩, hn⟩
  case orToReg | andToReg | orToEa | andToEa | subToEa | addToEa | eor =>
    exact answers_sizeField hadm rfl fun hbits hsz hf => yields_ea hf (.inl rfl) fun ea hwf h6 =>
      ⟨hwf, word_4_3_1_2_6.2 ⟨eq_field_of_and hbits rfl rfl, rfl, eq_field_of_and hbits rfl rfl, hsz, h6⟩, rfl⟩
  case subToReg | addToReg | cmp =>
    exact answers_sizeAn hadm rfl fun hbits hsz hf hbyte => (yields_decodeSrc hf fun _ => hbyte).map fun ea n ⟨hwf, h6, hn⟩ =>
      ⟨hwf, word_4_3_1_2_6.2 ⟨eq_field_of_and hbits rfl rfl, rfl, eq_field_of_and hbits rfl rfl, hsz, h6⟩, hn⟩
  case addq | subq =>
    obtain ⟨hquick, hdata⟩ := quickOf_spec (field w 9 3)
    exact answers_sizeAn hadm rfl fun hbits hsz hf hbyte => (yields_decodeSrc hf fun _ => hbyte).map fun ea n ⟨hwf, h6, hn⟩ =>
      ⟨Bool.and_eq_true_iff.2 ⟨hquick, hwf⟩,
        word_4_3_1_2_6.2 ⟨eq_field_of_and hbits rfl rfl, hdata, eq_field_of_and hbits rfl rfl, hsz, h6⟩, hn⟩
  case scc =>
    exact answers_field hadm rfl fun hbits hf => yields_ea hf (by decide) fun ea hwf h6 =>
      ⟨hwf, word_4_4_2_6.2 ⟨eq_field_of_and hbits rfl rfl, bits_condOf _, eq_field_of_and hbits rfl rfl, h6⟩, rfl⟩
  case dbcc =>
    exact answers_plain hadm rfl fun hbits => .next fun _ =>
      .pure ⟨rfl, word_4_4_5_3.2 ⟨eq_field_of_and hbits rfl rfl, bits_condOf _, eq_field_of_and hbits rfl rfl, rfl⟩, rfl⟩
  case trapcc =>
    exact answers_trapcc hadm rfl fun hbits hcount => (yields_decodeTrapcc hcount).map fun o n ⟨ho, hn⟩ =>
      ⟨rfl, word_4_4_5_3.2 ⟨eq_field_of_and hbits rfl rfl, bits_condOf _, eq_field_of_and hbits rfl rfl, ho⟩, hn⟩
  case bra | bsr =>
    exact answers_plain hadm rfl fun hbits => (yields_decodeBranch w).map fun d n ⟨hwf, hd, hn⟩ =>
      ⟨hwf, word_8_8.2 ⟨eq_field_of_and hbits rfl rfl, hd⟩, hn⟩
  case bcc =>
    exact answers_bcc hadm rfl fun hbits hcond => (yields_decodeBranch w).map fun d n ⟨hwf, hd, hn⟩ =>
      ⟨Bool.and_eq_true_iff.2 ⟨condOf_ne hcond, hwf⟩,
        word_4_4_8.2 ⟨eq_field_of_and hbits rfl rfl, bits_condOf _, hd⟩, hn⟩
  case moveq =>
    have himm := setWidth_signExtend_byte (field w 0 8)
    exact answers_plain hadm rfl fun hbits =>
      .pure ⟨beq_iff_eq.2 (congrArg (BitVec.signExtend 32) himm),
        word_4_3_1_8.2 ⟨eq_field_of_and hbits rfl rfl, rfl, eq_field_of_and hbits rfl rfl, himm⟩, rfl⟩
  case sbcd | abcd =>
    exact answers_plain hadm rfl fun hbits =>
      .pure ⟨rfl, word_4_3_5_1_3.2 ⟨eq_field_of_and hbits rfl rfl, rfl, eq_field_of_and hbits rfl rfl, bit1_decide _, rfl⟩, rfl⟩
  case pack | unpk =>
    exact answers_plain hadm rfl fun hbits => .next fun _ =>
      .pure ⟨rfl, word_4_3_5_1_3.2 ⟨eq_field_of_and hbits rfl rfl, rfl, eq_field_of_and hbits rfl rfl, bit1_decide _, rfl⟩, rfl⟩
  case exgDD | exgAA | exgDA =>
    exact answers_plain hadm rfl fun hbits =>
      .pure ⟨rfl, word_4_3_6_3.2 ⟨eq_field_of_and hbits rfl rfl, rfl, eq_field_of_and hbits rfl rfl, rfl⟩, rfl⟩
  case subx | addx =>
    exact answers_size hadm rfl fun hbits hsz =>
      .pure ⟨rfl, word_4_3_1_2_2_1_3.2 ⟨eq_field_of_and hbits rfl rfl, rfl, eq_field_of_and hbits rfl rfl, hsz,
        eq_field_of_and hbits rfl rfl, bit1_decide _, rfl⟩, rfl⟩
  case cmpm =>
    exact answers_size hadm rfl fun hbits hsz =>
      .pure ⟨rfl, word_4_3_1_2_3_3.2 ⟨eq_field_of_and hbits rfl rfl, rfl, eq_field_of_and hbits rfl rfl, hsz,
        eq_field_of_and hbits rfl rfl, rfl⟩, rfl⟩
  case movep =>
    exact answers_plain hadm rfl fun hbits => .next fun _ =>
      .pure ⟨size6_ne_byte w, word_4_3_1_1_1_3_3.2 ⟨eq_field_of_and hbits rfl rfl, rfl, eq_field_of_and hbits rfl rfl,
        bit1_decide _, bit1_size6 w, eq_field_of_and hbits rfl rfl, rfl⟩, rfl⟩
  case asrReg | aslReg | lsrReg | lslReg | roxrReg | roxlReg | rorReg | rolReg =>
    obtain ⟨hcount, hbits9, hir⟩ := shiftCountOf_spec w
    exact answers_size hadm rfl fun hbits hsz =>
      .pure ⟨hcount, word_4_3_1_2_1_2_3.2 ⟨eq_field_of_and hbits rfl rfl, hbits9, eq_field_of_and hbits rfl rfl, hsz, hir,
        eq_field_of_and hbits rfl rfl, rfl⟩, rfl⟩
  case moveB | moveW | moveL =>
    exact answers_move hadm rfl fun hbits hf hf' => (yields_decodeSrc_of hf (by decide)).bind fun src n ⟨hsrc, h6, hn⟩ =>
      (yields_decodeDst hf' rfl).map fun dst k ⟨hdst, h66, hk⟩ =>
        ⟨Bool.and_eq_true_iff.2 ⟨hsrc, hdst⟩, word_4_6_6.2 ⟨eq_field_of_and hbits rfl rfl, h66, h6⟩,
          by rw [hn, hk]; exact List.length_append.symm⟩
  case cmp2 | chk2 =>
    exact answers_size109Group hadm rfl fun hbits hsz hf _ => yields_ea hf (.inl rfl) fun ea hwf h6 =>
      ⟨hwf, word_5_2_3_6.2 ⟨eq_field_of_and hbits rfl rfl, hsz, eq_field_of_and hbits rfl rfl, h6⟩, rfl⟩
  case casB | casW | casL | muluL | mulsL | divuL | divsL =>
    exact answers_fieldGroup hadm rfl fun hbits hf _ => yields_ea hf (by decide) fun ea hwf h6 =>
      ⟨hwf, word_10_6.2 ⟨eq_field_of_and hbits rfl rfl, h6⟩, rfl⟩

/-! ### What the decoder answers -/

/-- The words the decoder took are an opcode word and as many extension words as the instruction has. -/
theorem decode_fits {ws : List Word16} {i : Instr} {rest : List Word16} (h : decode ws = .ok i rest) :
    ∃ w pre, ws = w :: (pre ++ rest) ∧ Fits w i pre.length := by
  obtain ⟨op, w, ws', rfl, hadm, hdec⟩ := decode_inv h
  have hans := answers_of_admits hadm
  unfold Answers at hans
  obtain ⟨hext, hdec⟩ | ⟨w2, ws'', rfl, hext, -, hdec⟩ := hdec
  · rw [hext] at hans
    obtain ⟨pre, rfl, hfits⟩ := hans _ _ _ hdec
    exact ⟨w, pre, rfl, hfits⟩
  · obtain ⟨e, he⟩ := Option.isSome_iff_exists.1 hext
    rw [he] at hans
    obtain ⟨pre, rfl, hfits⟩ := hans w2 _ _ _ hdec
    exact ⟨w, w2 :: pre, rfl, hfits⟩

/-- Settles O3: the words taken are the opcode word of a well-formed instruction and as many as its encoding has after it. -/
theorem decodeSound : Obligations.DecodeSound := by
  intro ws i rest h
  obtain ⟨w, pre, rfl, hwf, rfl, hlen⟩ := decode_fits h
  have htaken : (encode i).length = pre.length + 1 := congrArg (· + 1) hlen.symm
  refine ⟨hwf, rfl, ?length, ?drop, fun pc => ?next⟩
  case length =>
    rw [htaken, List.length_cons, List.length_append]
    omega
  case drop => rw [htaken, List.drop_succ_cons, List.drop_left]
  case next =>
    have hsub : (opcodeWord i :: (pre ++ rest)).length - rest.length = (encode i).length := by
      rw [htaken, List.length_cons, List.length_append]
      omega
    rw [hsub]
    rfl

end Sys2Proof
end
